-- ==== Sys2Proof/Word.lean ====
section
/-! DEFINITION. The word types of the ZC-8 model and the plain table operations every other file uses.

Bit vectors stand only where the manual treats a value as bits: bytes of frames, 16-bit samples, wrapping
counts of time, sets carried as bit maps (00_scope.md, Conventions). Numbers that name one of a fixed
collection (a voice, a group, a station) are `Fin`. -/

namespace Sys2Proof

/-- One byte of a line frame or of the configuration image. -/
abbrev Byte := BitVec 8
/-- A sample, a signed 16-bit value (00_scope.md, Samples). -/
abbrev Sample := BitVec 16
/-- Station time: a 32-bit count of sample frames that wraps (R186). -/
abbrev Time := BitVec 32
/-- The Fetch Engine's 32-bit count of the microsecond clock (R23, R186). -/
abbrev Micros := BitVec 32
/-- A line cue, 0..4095. -/
abbrev LineCue := BitVec 12
/-- A set of duck keys 0..7: bit j stands for key j (R132). -/
abbrev KeySet := BitVec 8
/-- A set of stations: bit s stands for station s (R132). -/
abbrev StationSet := BitVec 32

/-- V0..V7. -/
abbrev VoiceId := Fin 8
/-- A class 0..7. -/
abbrev ClassId := Fin 8
/-- A duck key 0..7. -/
abbrev KeyId := Fin 8
/-- G0..G15. -/
abbrev GroupId := Fin 16
/-- A trigger input 0..15. -/
abbrev InputId := Fin 16
/-- A lamp output 0..15. -/
abbrev LampId := Fin 16
/-- A station number 1..31; 0 is the strap number of a line-silent station. -/
abbrev Station := Fin 32
/-- A local cue 0..255. -/
abbrev LocalCue := Fin 256
/-- A segment descriptor index 0..511. -/
abbrev SegIdx := Fin 512
/-- A store or listen window 0..3. -/
abbrev WindowId := Fin 4

/-- The table whose entry i is `f i`. -/
def tabulate {α : Type} (n : Nat) (f : Fin n → α) : Vector α n :=
  ⟨(List.ofFn f).toArray, by simp⟩

/-- The table with entry i replaced. -/
def upd {α : Type} {n : Nat} (t : Vector α n) (i : Fin n) (a : α) : Vector α n :=
  t.set i.val a i.isLt

end Sys2Proof
end

