-- ==== Sys2Proof/Syntax.lean ====
section
/-! DEFINITION. The commands of the part, one constructor of `Instr` for each row of spec/opcode_table.json,
with the operands its rule speaks of, and the plain data those operands are made of. -/

namespace Sys2Proof

/-- The kinds of line frame in the order of their codes 1..10 (R126). -/
inductive FrameKind where
  | fire | stop | claim | hold | release | presence | segment | query | status | restart
deriving DecidableEq, Repr

/-- A line frame by its named fields, without sync, length and CRC, which the layout adds (R130). -/
structure Frame where
  kind : Byte
  src : Byte
  dst : Byte
  payload : List Byte
deriving DecidableEq, Repr

/-- The fields of a PRESENCE payload (R132). The held list holds pairs of group byte and age in ms. -/
structure Presence where
  flags : Byte
  showNo : Byte
  segment : Byte
  keys : Byte
  spare : Byte
  epochs : Vector Byte 16
  excl : Vector StationSet 16
  held : List (Byte × BitVec 16)
deriving DecidableEq, Repr

/-- How the bytes of a reception end (R125). -/
inductive RxEnd where
  /-- REST after the last byte taken: the frame is whole, or it is truncated. -/
  | rest
  /-- ACTIVE at a stop bit, with the bit times of ACTIVE in that byte. -/
  | active (bitTimes : Nat)
  /-- The bytes are what follows the last CRC byte of a frame before any gap. -/
  | trailing
deriving DecidableEq, Repr

/-- One reception as heard: the well-formed bytes taken, sync first, and how it ended (R125). -/
structure Reception where
  bytes : List Byte
  ending : RxEnd
deriving DecidableEq, Repr

/-- The commands. Each stands for one event of the part (spec/opcode_table.json), taken at the present moment. -/
inductive Instr where
  /-- HARD_RESET (R181). -/
  | hardReset
  /-- HARD_RESET_RELEASE, with the number on the five strap pins (R181). -/
  | hardResetRelease (straps : Station)
  /-- LOAD_END, with the bytes of the EEPROM from offset 0; bytes beyond read 0xFF (R182). -/
  | loadEnd (image : List Byte)
  /-- LISTEN_TIMER_EXPIRY (R179). -/
  | listenTimerExpiry
  /-- WORD_CLOCK_EDGE, with the length in ns of the period that ends (R186). -/
  | wordClockEdge (periodNs : Nat)
  /-- WORD_CLOCK_TIMEOUT (R186). -/
  | wordClockTimeout
  /-- VOICE_SAMPLE_NEED of one voice (R67). -/
  | voiceSampleNeed (v : VoiceId)
  /-- BUS_SAMPLE_OUTPUT (R97). -/
  | busSampleOutput
  /-- CONTROL_FRAME_BOUNDARY (R86). -/
  | controlFrameBoundary
  /-- FADE_END of one voice (R77). -/
  | fadeEnd (v : VoiceId)
  /-- PRIME_DEADLINE of one voice (R63). -/
  | primeDeadline (v : VoiceId)
  /-- BEAT_BOUNDARY (R80). -/
  | beatBoundary
  /-- PENDING_EXPIRY of the entry of one local cue (R53). -/
  | pendingExpiry (cue : LocalCue)
  /-- BURST_COMPLETE, with the samples the store gives from the burst's first index on (R28). -/
  | burstComplete (data : Vector Sample 64)
  /-- PRELOAD_BURST_COMPLETE, with the samples likewise (R33). -/
  | preloadBurstComplete (data : Vector Sample 64)
  /-- TRIGGER_INPUT_CHANGE: the contact of an input closes or opens (R103). -/
  | triggerInputChange (i : InputId) (closed : Bool)
  /-- TRIGGER_FILTER_EXPIRY of one input (R103). -/
  | triggerFilterExpiry (i : InputId)
  /-- INTERFRAME_GAP_COMPLETE (R115). -/
  | interframeGapComplete
  /-- LINE_BUSY: ACTIVE level from another station (R115, R116). -/
  | lineBusy
  /-- SEND_SLOT (R118). -/
  | sendSlot
  /-- TRANSMIT_COMPLETE (R128). -/
  | transmitComplete
  /-- COLLISION (R119). -/
  | collision
  /-- JAM_END (R119). -/
  | jamEnd
  /-- RX_BAD, with the reception as heard (R125). -/
  | rxBad (r : Reception)
  /-- RX_PROTOCOL, with the frame that fails a check (R126). -/
  | rxProtocol (f : Frame)
  /-- FIRE_RECEIVED, with the four payload bytes (R137). -/
  | fireReceived (src : Station) (dst b0 b1 b2 b3 : Byte)
  /-- STOP_RECEIVED, with the four payload bytes (R138). -/
  | stopReceived (src : Station) (dst b0 b1 b2 b3 : Byte)
  /-- SEGMENT_RECEIVED, with the three payload bytes (R139). -/
  | segmentReceived (src : Station) (b0 b1 b2 : Byte)
  /-- CLAIM_RECEIVED (R155). -/
  | claimReceived (src : Station) (showNo group epoch : Byte)
  /-- HOLD_RECEIVED, with the claim age in ms (R156). -/
  | holdReceived (src : Station) (showNo group epoch : Byte) (age : BitVec 16)
  /-- RELEASE_RECEIVED, with the verdict code (R160). -/
  | releaseReceived (src : Station) (showNo group epoch verdict : Byte)
  /-- PRESENCE_RECEIVED (R175). -/
  | presenceReceived (src : Station) (p : Presence)
  /-- QUERY_RECEIVED, with the payload byte (R141). -/
  | queryReceived (src : Station) (dst b0 : Byte)
  /-- STATUS_RECEIVED; a station reads nothing of its payload (R127). -/
  | statusReceived (src : Station) (dst : Byte) (payload : Vector Byte 76)
  /-- RESTART_RECEIVED, with the new show number (R187). -/
  | restartReceived (src : Station) (dst showNo : Byte)
  /-- ANSWER_TIMER_EXPIRY of one group (R163). -/
  | answerTimerExpiry (g : GroupId)
  /-- PRESENCE_TIMER_EXPIRY (R177). -/
  | presenceTimerExpiry
  /-- PEER_STALE of one peer (R173). -/
  | peerStale (x : Station)
  /-- PEER_GONE of one peer (R173). -/
  | peerGone (x : Station)
  /-- REFERENCE_SLOT (R116). -/
  | referenceSlot
deriving DecidableEq, Repr

end Sys2Proof
end

