-- ==== Sys2Proof/Decode.lean ====
section
/-! DEFINITION. The words of the opcode table: none of its rows gives bits, so no word spells a command. What the bytes of
the studio line stand for is read in Machine/Formats.lean (`commandOfReception`). -/

namespace Sys2Proof

/-- The command that a word spells by the table's bits: none, since no row of the table has bits. -/
def decodeTableWord (_nbits _w : Nat) : Option Instr := none

end Sys2Proof
end

