-- ==== Sys2Proof/Config.lean ====
section
/-! DEFINITION. The fixed numbers of the part, each with the rule that states it. No value here is left open
by the manual, so no constant without a body is needed. -/

namespace Sys2Proof.Config

/-- Counters hold at 65,535 (R145). -/
def counterMax : Nat := 65535
/-- Sample frames from a streaming start to its prime deadline, 10 ms (R62). -/
def primeFrames : Nat := 480
/-- A voice requests the port while fill plus in-flight is at most 192 (R24). -/
def fillLimit : Nat := 192
/-- Samples of a full burst (R26). -/
def burstMax : Nat := 64
/-- Microseconds of waiting that raise a port request by one priority (R25). -/
def portAging : Nat := 250
/-- Effective priority of the preload pass at the port (R25). -/
def preloadPriority : Nat := 8
/-- Samples of the Preload Memory (R30). -/
def preloadSize : Nat := 32768
/-- Skip debt holds at 65,535 (R71). -/
def debtMax : Nat := 65535
/-- Entries of the pending-start queue (R51). -/
def startQueueMax : Nat := 16
/-- Sample frames of waiting that raise a pending entry by one priority, 50 ms (R51). -/
def queueAging : Nat := 2400
/-- Sample frames of one millisecond, a control frame (R86). -/
def framesPerMs : Nat := 48
/-- Control frames of a cut (R73). -/
def cutLength : Nat := 2
/-- Frames of the transmit queue (R121). -/
def txQueueMax : Nat := 8
/-- Attempts already made after which a collision drops the frame (R119). -/
def lastAttempt : Nat := 15
/-- Bit times of a byte on the line: a start bit, eight data bits and a stop bit (R114). -/
def byteBits : Nat := 10
/-- Bit times of REST that complete the interframe gap, 8 µs (R115). -/
def gapBits : Nat := 16
/-- Bit times of one slot, 2 µs (R115). -/
def slotBits : Nat := 4
/-- Bit times of a jam, 10 µs (R119). -/
def jamBits : Nat := 20
/-- Bit times of ACTIVE at a broken stop bit that make it a jam (R125). -/
def jamHeardBits : Nat := 12
/-- Slots between the holdoffs of two ranks (R116). -/
def rankSlots : Nat := 16
/-- Longest payload of a frame (R126). -/
def payloadMax : Nat := 144
/-- Good periods that take ACQUIRING to LOCKED (R186). -/
def acquirePeriods : Nat := 4800
/-- Shortest and longest word clock period in tolerance, in ns (R186). -/
def periodMin : Nat := 20729
/-- See `periodMin`. -/
def periodMax : Nat := 20938
/-- A nominal sample frame, 20.8333 µs, in thirds of a nanosecond (R186). -/
def nominalFrame : Nat := 62500
/-- One bit time, 0.5 µs, in thirds of a nanosecond (R114). -/
def bitThirds : Nat := 1500
/-- Bit times without an edge that pass 41.667 µs, two nominal periods (R186). -/
def timeoutBits : Nat := 84
/-- An age in ms holds at 65,535 (R149). -/
def ageMax : Nat := 65535
/-- Sample frames of 0.1 s, the unit of the answer time (R162). -/
def answerUnit : Nat := 4800
/-- Sample frames left at which a HELD_ME lamp turns FAST, 5 s (R111). -/
def fastLamp : Nat := 240000
/-- Longest image (R134). -/
def imageMax : Nat := 32768
end Sys2Proof.Config
end

