-- ==== Sys2Proof/Machine/Types.lean ====
section
/-! DEFINITION. The plain data that State is made of, block by block, with the values of each record after hard
reset (00_scope.md, Block overview; the rule of each record is named at its type). -/

namespace Sys2Proof.Machine

/-! ### Tables of the Config Loader -/

/-- The buses a cue feeds (R2). -/
inductive Bus where
  | prog | fold | both
deriving DecidableEq, Repr

/-- Start mode (R2). -/
inductive StartMode where
  | immediate | nextBeat
deriving DecidableEq, Repr

/-- Retrigger policy (R2). -/
inductive Retrigger where
  | restart | layer | ignore
deriving DecidableEq, Repr

/-- Steal kind of a class (R6). -/
inductive Steal where
  | none | oldest | lowest
deriving DecidableEq, Repr

/-- A valid cue entry (R2). -/
structure Cue where
  cls : ClassId
  first : SegIdx
  level : Nat
  bus : Bus
  fadeIn : Nat
  fadeOut : Nat
  mode : StartMode
  retrigger : Retrigger
  choke : Nat
  headLen : Nat
  followOn : Option LocalCue
  beat : Option Nat
deriving DecidableEq, Repr

/-- A defined segment descriptor (R4). -/
structure Segment where
  start : Nat
  length : Nat
  repeats : Nat
  next : Option SegIdx
deriving DecidableEq, Repr

/-- A class record (R6). -/
structure ClassRec where
  priority : Nat
  polyphony : Nat
  steal : Steal
  maxWait : Nat
  key : Option KeyId
  depth : Vector Nat 8
  attack : Nat
  release : Nat
deriving DecidableEq, Repr

/-- The default class record (R7). -/
def defaultClass : ClassRec := ⟨7, 8, .none, 0, none, Vector.replicate 8 0, 127, 127⟩

/-- A listen window (R8). -/
structure ListenWindow where
  enable : Bool
  base : LineCue
  mask : LineCue
  translate : Bool
  localBase : LocalCue
deriving DecidableEq, Repr

/-- A disabled listen window (R8). What its other fields hold is the model's choice (notes/assumptions/12.md). -/
def noListen : ListenWindow := ⟨false, 0, 0, false, 0⟩

/-- A store window; the access class is its code 0..3 (R18, R19). -/
structure StoreWindow where
  enable : Bool
  base : Nat
  size : Nat
  access : Fin 4
deriving DecidableEq, Repr

/-- A disabled store window (R18). What its other fields hold is the model's choice (notes/assumptions/12.md). -/
def noStore : StoreWindow := ⟨false, 0, 65536, 0⟩

/-- A group configuration record; the answer time is in units of 100 ms (R147). -/
structure GroupCfg where
  enabled : Bool
  excludeOnWrong : Bool
  claimTrigger : Option InputId
  wonCue : Option LocalCue
  timeoutCue : Option LocalCue
  answerTime : Nat
deriving DecidableEq, Repr

/-- The disabled group record (R147). -/
def noGroup : GroupCfg := ⟨false, false, none, none, none, 0⟩

/-- Stop modes (R56, R138). -/
inductive StopMode where
  | cut | fade | tail
deriving DecidableEq, Repr

/-- Stop selectors; the cue is a local cue or a line cue (R56, R105). -/
inductive StopSel (α : Type) where
  | cue (n : α) | cls (c : ClassId) | all
deriving DecidableEq, Repr

/-- Verdicts of a RELEASE (R131). -/
inductive Verdict where
  | none | correct | wrong | timeout | clear
deriving DecidableEq, Repr

/-- Trigger actions with their parameters (R105). -/
inductive Action where
  | play (cue : LocalCue)
  | send (lineCue : LineCue) (offset : Int)
  | stopLocal (sel : StopSel LocalCue) (mode : StopMode)
  | stopLine (sel : StopSel LineCue) (mode : StopMode)
  | claim (g : GroupId)
  | release (g : GroupId) (v : Verdict)
  | segment (number : Byte) (mask : Byte) (stop : Bool)
deriving DecidableEq, Repr

/-- Contact polarity (R102). -/
inductive Polarity where
  | closed | opened
deriving DecidableEq, Repr

/-- A trigger binding (R102). -/
structure Binding where
  polarity : Polarity
  filterMs : Nat
  press : Option Action
  release : Option Action
deriving DecidableEq, Repr

/-- Lamp sources with their parameters (R108). -/
inductive LampSource where
  | none
  | group (g : GroupId) (onFree : Bool)
  | cue (c : LocalCue)
  | cls (c : ClassId)
  | clock
  | station
  | trigger (i : InputId)
deriving DecidableEq, Repr

/-- Every table, binding, trim and the presence period, which take effect together (R183). -/
structure Tables where
  cues : Vector (Option Cue) 256
  segments : Vector (Option Segment) 512
  classes : Vector ClassRec 8
  listen : Vector ListenWindow 4
  store : Vector StoreWindow 4
  groups : Vector GroupCfg 16
  triggers : Vector (Option Binding) 16
  lamps : Vector LampSource 16
  trimProg : Nat
  trimFold : Nat
  periodMs : Nat
deriving DecidableEq, Repr

/-- The hard-reset tables, which UNCONFIGURED keeps (R15, R184). -/
def Tables.reset : Tables where
  cues := Vector.replicate 256 none
  segments := Vector.replicate 512 none
  classes := Vector.replicate 8 defaultClass
  listen := Vector.replicate 4 noListen
  store := Vector.replicate 4 noStore
  groups := Vector.replicate 16 noGroup
  triggers := Vector.replicate 16 none
  lamps := upd (Vector.replicate 16 .none) 0 .station
  trimProg := 0
  trimFold := 0
  periodMs := 250

/-- Station states (R181). -/
inductive StationState where
  | loading | listening | running | unconfigured
deriving DecidableEq, Repr

/-! ### Start Controller -/

/-- Reason of a pending entry (R51). -/
inductive Reason where
  | voice | beat
deriving DecidableEq, Repr

/-- A pending entry (R51). -/
structure Entry where
  cue : LocalCue
  offset : Int
  enq : Time
  reason : Reason
  reserved : Option VoiceId
deriving DecidableEq, Repr

/-- The Start Controller's state; the queue stands in the order of joining, and queue order is computed (R37, R51). -/
structure Starts where
  segment : Byte
  mask : Byte
  queue : List Entry
  stamps : Vector Time 8
deriving DecidableEq, Repr

/-- After hard reset (R37). -/
def Starts.reset : Starts := ⟨0, 0xFF, [], Vector.replicate 8 0⟩

/-- A start request (R38). Its origin decides the offset and flag and is not kept. -/
structure Request where
  cue : LocalCue
  offset : Int
  immediate : Bool
deriving DecidableEq, Repr

/-- The report of a voice's return to IDLE (R77). -/
structure Return where
  voice : VoiceId
  wasRef : Bool
  followOn : Option LocalCue
deriving DecidableEq, Repr

/-! ### Voice Engine -/

/-- Voice states (R61). -/
inductive VState where
  | idle | priming | playing | fading
deriving DecidableEq, Repr

/-- A position in the audio of a cue (R5). -/
structure Pos where
  desc : SegIdx
  off : Nat
  pass : Nat
deriving DecidableEq, Repr

/-- Fade kinds (R73). -/
inductive FadeKind where
  | fadeIn | fadeOut
deriving DecidableEq, Repr

/-- A fade record; the count is absent before the first boundary after the fade begins (R73). -/
structure Fade where
  kind : FadeKind
  a0 : Nat
  length : Nat
  count : Option Nat
deriving DecidableEq, Repr

/-- A sample in a voice's FIFO with its position, which R65 gives the play position by. -/
structure Held where
  sample : Sample
  pos : Pos
deriving DecidableEq, Repr

/-- A voice record (R61). `headPlace`, `headLen` and `headPos` are the head captured at the start: its place in
the Preload Memory, its length (0 for a streaming start) and the samples of it already played (R68). -/
structure Voice where
  state : VState
  cue : LocalCue
  cls : ClassId
  gen : Byte
  deadline : Option Time
  playTime : Time
  headPlace : Nat
  headLen : Nat
  headPos : Nat
  fetchPtr : Pos
  fetchDone : Bool
  window : Option WindowId
  fifo : List Held
  inFlight : Nat
  debt : Nat
  underrun : Bool
  tail : Bool
  fade : Option Fade
  offset : Int
  bus : Bus
deriving DecidableEq, Repr

/-- After hard reset (R61). -/
def Voice.reset : Voice where
  state := .idle
  cue := 0
  cls := 0
  gen := 0
  deadline := none
  playTime := 0
  headPlace := 0
  headLen := 0
  headPos := 0
  fetchPtr := ⟨0, 0, 0⟩
  fetchDone := true
  window := none
  fifo := []
  inFlight := 0
  debt := 0
  underrun := false
  tail := false
  fade := none
  offset := 0
  bus := .prog

/-! ### Fetch Engine and Preload Memory -/

/-- The requester of a burst, a voice with its generation tag or the preload pass (R23). -/
inductive Requester where
  | voice (v : VoiceId) (tag : Byte)
  | preload
deriving DecidableEq, Repr

/-- The outstanding burst; `left` is the bit times of its access-class time still to run (R19, R23). -/
structure Burst where
  req : Requester
  window : WindowId
  first : Nat
  length : Nat
  left : Nat
deriving DecidableEq, Repr

/-- States of the preload cursor (R23). -/
inductive PassState where
  | idle | running | done
deriving DecidableEq, Repr

/-- The head the preload pass is reading (R32, R33). -/
structure HeadWork where
  cue : LocalCue
  place : Nat
  length : Nat
  read : Nat
  first : Nat
  window : WindowId
deriving DecidableEq, Repr

/-- The Fetch Engine's state; the microsecond count stands with the microsecond clock, in the Timebase (R23). -/
structure Fetch where
  requests : Vector (Option Micros) 8
  burst : Option Burst
  nextCue : Nat
  alloc : Nat
  pass : PassState
  work : Option HeadWork
deriving DecidableEq, Repr

/-- After hard reset (R23). -/
def Fetch.reset : Fetch := ⟨Vector.replicate 8 none, none, 0, 0, .idle, none⟩

/-- A head's place in the Preload Memory and its length (R30). -/
structure HeadLoc where
  place : Nat
  length : Nat
deriving DecidableEq, Repr

/-- The Preload Memory: its samples as a canonical list of address and sample, and for each head-loaded cue the
location of its head; a cue's head-loaded flag is set exactly when its location is present (R30). -/
structure Preload where
  mem : List (Nat × Sample)
  heads : Vector (Option HeadLoc) 256
deriving DecidableEq, Repr

/-- After hard reset (R30). -/
def Preload.reset : Preload := ⟨[], Vector.replicate 256 none⟩

/-! ### Mixer -/

/-- Attenuation and gain in force of one voice on one bus (R85). -/
structure Level where
  att : Nat
  gain : Nat
deriving DecidableEq, Repr

/-- What the Mixer holds for a voice: the fade attenuation in force, and the level in force on each bus it
feeds (R73, R85). -/
structure VoiceMix where
  fade : Nat
  prog : Option Level
  fold : Option Level
deriving DecidableEq, Repr

/-- No gain in force (R85). -/
def VoiceMix.silent : VoiceMix := ⟨0, none, none⟩

/-- The Mixer's state: `given` holds the sample each voice has given in the present sample frame, and `progOut`
and `foldOut` the samples last delivered (R85, R95, R97). -/
structure Mixer where
  localKeys : KeySet
  peerKeys : KeySet
  duck : Vector Nat 8
  target : Vector Nat 8
  phase : Nat
  mix : Vector VoiceMix 8
  given : Vector (Option Sample) 8
  progOut : Sample
  foldOut : Sample
deriving DecidableEq, Repr

/-- After hard reset (R85). -/
def Mixer.reset : Mixer where
  localKeys := 0
  peerKeys := 0
  duck := Vector.replicate 8 0
  target := Vector.replicate 8 0
  phase := 0
  mix := Vector.replicate 8 .silent
  given := Vector.replicate 8 none
  progOut := 0
  foldOut := 0

/-! ### Trigger Unit -/

/-- The Trigger Unit's state with the contact at each pin: `contacts` true is a closed contact, `raw` true is
ACTIVE, `recognized` true is PRESSED, and a timer holds its expiry (R101). -/
structure Triggers where
  contacts : Vector Bool 16
  raw : Vector Bool 16
  recognized : Vector Bool 16
  timers : Vector (Option Time) 16
deriving DecidableEq, Repr

/-- After hard reset, with every contact open (R101; the contacts are the model's choice, notes/assumptions/4.md). -/
def Triggers.reset : Triggers :=
  ⟨Vector.replicate 16 false, Vector.replicate 16 false, Vector.replicate 16 false, Vector.replicate 16 none⟩

/-! ### Line Controller -/

/-- What a queued frame carries, or the order to build it (R121). -/
inductive TxBody where
  | fire (lineCue : LineCue) (offset : Int)
  | stop (sel : StopSel LineCue) (mode : StopMode)
  | segment (number : Byte) (mask : Byte) (stop : Bool)
  | claim (g : GroupId) (showNo epoch : Byte)
  | hold (g : GroupId) (showNo epoch : Byte)
  | release (g : GroupId) (showNo epoch : Byte) (v : Verdict)
  | presence
  | status
deriving DecidableEq, Repr

/-- A queued frame. The identity tells it from every other frame ever queued; the removal mark is a removal
held while the frame is in flight (R120, R121). -/
structure TxEntry where
  ident : Nat
  body : TxBody
  enq : Time
  attempts : Nat
  removal : Bool
deriving DecidableEq, Repr

/-- Line phase (R115). -/
inductive LinePhase where
  | busy | idle
deriving DecidableEq, Repr

/-- Own activity (R113). HOLDOFF carries the candidate and its send slot; SENDING the queued frame and the frame
fixed for the attempt. -/
inductive Activity where
  | none
  | holdoff (ident : Nat) (slot : Nat)
  | sending (ident : Nat) (frame : Frame)
  | jamming
deriving DecidableEq, Repr

/-- The two levels of the line (R114). -/
inductive LineLevel where
  | rest | active
deriving DecidableEq, Repr

/-- Receive state (R113, R125). A reception holds the bytes taken so far and the levels heard of the byte in progress, its
start bit first. -/
inductive RxState where
  /-- Waiting for the first start bit after a complete gap, with the bit times heard of the byte on the line: 0 between
  bytes. -/
  | hunting (heard : Nat)
  /-- Hunting, with the line ACTIVE beyond a byte, until REST: after an ACTIVE stop bit or a jam. -/
  | activeHeld
  /-- Receiving a frame. -/
  | receiving (bytes : List Byte) (bits : List LineLevel)
  /-- Receiving, with ACTIVE at a stop bit: the bit times of ACTIVE in that byte, which hold at 12. -/
  | broken (bytes : List Byte) (active : Nat)
  /-- Hunting, in the bit time after the last byte of a frame received, where a start bit makes a fragment. -/
  | frameEnded
deriving DecidableEq, Repr

/-- The Line Controller's state. The queue stands in queue order. `slot` and `slotAge` count slots and bit times
within a slot while the phase is IDLE, `rest` the bit times of unbroken REST outside a byte, holding at those of a gap
(absent while the line is ACTIVE, in the present bit time or for an own drive), and `driveLeft` the bit times of the own
transmission or jam still to run (R113 to R121). -/
structure Line where
  queue : List TxEntry
  nextIdent : Nat
  phase : LinePhase
  activity : Activity
  shift : BitVec 16
  rx : RxState
  slot : Nat
  slotAge : Nat
  rest : Option Nat
  driveLeft : Nat
deriving DecidableEq, Repr

/-- After hard reset of the station with the given number (R113, R116). -/
def Line.reset (number : Station) : Line where
  queue := []
  nextIdent := 0
  phase := .busy
  activity := .none
  shift := BitVec.ofNat 16 (256 * number.val + 1)
  rx := .hunting 0
  slot := 0
  slotAge := 0
  rest := some 0
  driveLeft := 0

/-- The answer list of the status answer when it is not empty (R140). -/
structure Answers where
  queriers : StationSet
  clear : Bool
deriving DecidableEq, Repr

/-! ### Peer Monitor -/

/-- Peer states (R171). -/
inductive PeerState where
  | absent | present | stale | gone
deriving DecidableEq, Repr

/-- A peer table entry (R171). -/
structure Peer where
  state : PeerState
  lastHeard : Time
  configured : Bool
  listening : Bool
  duplicate : Bool
  keys : KeySet
deriving DecidableEq, Repr

/-- After hard reset (R171). -/
def Peer.reset : Peer := ⟨.absent, 0, false, false, false, 0⟩

/-- The Peer Monitor's state; a timer that is RUNNING holds its expiry. Slot 0 of the table stands for no station
(R169). -/
structure Peers where
  table : Vector Peer 32
  presenceTimer : Option Time
  listenTimer : Option Time
  duplicate : Bool
deriving DecidableEq, Repr

/-- After hard reset (R169). -/
def Peers.reset : Peers := ⟨Vector.replicate 32 .reset, none, none, false⟩

/-! ### Group Controller -/

/-- View states (R148). -/
inductive ViewState where
  | free | claiming | heldMe | heldOther
deriving DecidableEq, Repr

/-- Answer timer (R161). -/
inductive AnswerTimer where
  | stopped
  | running (expiry : Time)
  | expired
deriving DecidableEq, Repr

/-- A group view (R148). -/
structure View where
  state : ViewState
  holder : Option Station
  epoch : Byte
  claimTime : Time
  excl : StationSet
  stale : Bool
  timer : AnswerTimer
  timeoutQueued : Bool
deriving DecidableEq, Repr

/-- After hard reset and after show restart (R148). -/
def View.reset : View := ⟨.free, none, 0, 0, 0, false, .stopped, false⟩

/-- The Group Controller's state (R148). -/
structure Groups where
  showNo : Byte
  views : Vector View 16
deriving DecidableEq, Repr

/-- After hard reset (R148). -/
def Groups.reset : Groups := ⟨0, Vector.replicate 16 .reset⟩

/-! ### Timebase -/

/-- Clock states (R186). -/
inductive ClockState where
  | free | acquiring | locked | holdover
deriving DecidableEq, Repr

/-- Where the present sample frame stands: its opening events are to be scheduled, it runs, its closing events are
to be scheduled, or it is over. The model's own (notes/assumptions/2.md). -/
inductive FrameStage where
  | opening | running | closing | over
deriving DecidableEq, Repr

/-- The Timebase's state. `micros` is the microsecond count and `half` tells its second half; `frameAge` is the time
elapsed in the present sample frame in thirds of a ns, `heldNs` the last good period of LOCKED, `fromHoldover` whether
ACQUIRING was entered from HOLDOVER, `edges` the good edges of LOCKED that have still to end a sample frame, `quiet` the
bit times since the last edge; `hadBoundary` and `hadOutput` tell that the present sample frame has had its control frame
boundary and its output, and `hadBeat` which voices have had a beat boundary reported in it (R186, R23, R80, R86, R97). -/
structure Timebase where
  clock : ClockState
  acq : Nat
  time : Time
  micros : Micros
  half : Bool
  stage : FrameStage
  frameAge : Nat
  heldNs : Nat
  fromHoldover : Bool
  edges : Nat
  quiet : Nat
  hadBoundary : Bool
  hadBeat : Vector Bool 8
  hadOutput : Bool
deriving DecidableEq, Repr

/-- After hard reset (R186). -/
def Timebase.reset : Timebase where
  clock := .free
  acq := 0
  time := 0
  micros := 0
  half := false
  stage := .opening
  frameAge := 0
  heldNs := 0
  fromHoldover := false
  edges := 0
  quiet := 0
  hadBoundary := false
  hadBeat := Vector.replicate 8 false
  hadOutput := false

/-! ### Counters -/

/-- The sixteen counters in the order of R145. -/
inductive Counter where
  | rxBad | rxProtocol | txCollision | txDropped | startMasked | startInvalid | startLost | underrun
  | storeFault | clipProg | clipFold | pressLate | claimLost | conflict | staleFrame | early
deriving DecidableEq, Repr

/-- A counter's place in the order of R145, from 0. -/
def Counter.idx : Counter → Fin 16
  | .rxBad => 0 | .rxProtocol => 1 | .txCollision => 2 | .txDropped => 3
  | .startMasked => 4 | .startInvalid => 5 | .startLost => 6 | .underrun => 7
  | .storeFault => 8 | .clipProg => 9 | .clipFold => 10 | .pressLate => 11
  | .claimLost => 12 | .conflict => 13 | .staleFrame => 14 | .early => 15

end Sys2Proof.Machine
end

