-- ==== Sys2Proof/Machine/State.lean ====
section
/-! DEFINITION. The state of the ZC-8 as plain data, what can stop a step, and the state after hard reset. -/

namespace Sys2Proof.Machine

/-- The reasons a step can stop with a fault: none. Every command of the part has the effect the manual gives it,
and the manual names no event that stops the part, so no meaning raises a fault (safe and unsafe alike: there is
none). -/
inductive Fault where
deriving DecidableEq, Repr

/-- The reasons a step can be refused. -/
inductive Refusal where
  /-- Raised by `exec` for a command that has no meaning yet. Safe. No arm raises it in this model. -/
  | notModelled (mnemonic : String)
deriving DecidableEq, Repr

/-- The whole state of the part, one field for each block's state (00_scope.md, Block overview).
`pending` is the queue of commands that wait, first in, first out: the model's own. `inReset` tells that the reset pin
is held active (R181). `returns` holds the voices returned to IDLE whose return the Start Controller has still to take
within the present handling (R54): the model's own, empty between commands. -/
structure State where
  pending : List Instr
  inReset : Bool
  station : StationState
  number : Station
  tables : Tables
  starts : Starts
  voices : Vector Voice 8
  beatRef : Option VoiceId
  returns : List Return
  fetch : Fetch
  preload : Preload
  mixer : Mixer
  triggers : Triggers
  line : Line
  answers : Option Answers
  peers : Peers
  groups : Groups
  clock : Timebase
  counters : Vector Nat 16
deriving DecidableEq, Repr

/-- The machine right after a hard reset is taken, the reset pin still active (R181). -/
def State.reset : State where
  pending := []
  inReset := true
  station := .loading
  number := 0
  tables := .reset
  starts := .reset
  voices := Vector.replicate 8 .reset
  beatRef := none
  returns := []
  fetch := .reset
  preload := .reset
  mixer := .reset
  triggers := .reset
  line := .reset 0
  answers := none
  peers := .reset
  groups := .reset
  clock := .reset
  counters := Vector.replicate 16 0

end Sys2Proof.Machine
end

