-- ==== Sys2Proof/Machine/Ops.lean ====
section
/-! DEFINITION. Named operations over the state: reading and replacing one record, the counters, durations of
station time, choosing from a list, the Preload Memory, and the common form of a meaning. -/

namespace Sys2Proof.Machine

/-! ### Records -/

/-- The record of voice v (R61). -/
def State.voice (s : State) (v : VoiceId) : Voice := s.voices.get v
/-- The record of voice v replaced. -/
def State.setVoice (s : State) (v : VoiceId) (x : Voice) : State := { s with voices := upd s.voices v x }
/-- The Mixer's record of voice v (R85). -/
def State.mix (s : State) (v : VoiceId) : VoiceMix := s.mixer.mix.get v
/-- The Mixer's record of voice v replaced. -/
def State.setMix (s : State) (v : VoiceId) (x : VoiceMix) : State :=
  { s with mixer := { s.mixer with mix := upd s.mixer.mix v x } }
/-- The sample voice v has given in the present sample frame, replaced (R95). -/
def State.setGiven (s : State) (v : VoiceId) (x : Option Sample) : State :=
  { s with mixer := { s.mixer with given := upd s.mixer.given v x } }
/-- The request time of voice v in the request set, replaced; absent when it does not request (R23). -/
def State.setRequest (s : State) (v : VoiceId) (t : Option Micros) : State :=
  { s with fetch := { s.fetch with requests := upd s.fetch.requests v t } }
/-- The view of group g (R148). -/
def State.view (s : State) (g : GroupId) : View := s.groups.views.get g
/-- The view of group g replaced. -/
def State.setView (s : State) (g : GroupId) (w : View) : State :=
  { s with groups := { s.groups with views := upd s.groups.views g w } }
/-- The peer table entry of station x (R171). -/
def State.peer (s : State) (x : Station) : Peer := s.peers.table.get x
/-- The peer table entry of station x replaced. -/
def State.setPeer (s : State) (x : Station) (p : Peer) : State :=
  { s with peers := { s.peers with table := upd s.peers.table x p } }
/-- The Line Controller's state replaced. -/
def State.setLine (s : State) (l : Line) : State := { s with line := l }
/-- The pending-start queue replaced (R51). -/
def State.setQueue (s : State) (q : List Entry) : State := { s with starts := { s.starts with queue := q } }
/-- The present station time (R186). -/
def State.now (s : State) : Time := s.clock.time
/-- The cue entry of a local cue, present when it is valid (R1). -/
def State.cue (s : State) (c : LocalCue) : Option Cue := s.tables.cues.get c
/-- The record of a class (R6). -/
def State.cls (s : State) (c : ClassId) : ClassRec := s.tables.classes.get c
/-- A segment descriptor, present when it is defined (R4). -/
def State.segment (s : State) (d : SegIdx) : Option Segment := s.tables.segments.get d

/-! ### Counters (R145) -/

/-- The value of a counter. -/
def State.counter (s : State) (c : Counter) : Nat := s.counters.get c.idx
/-- The counter counts one event, holding at 65,535 (R145). -/
def State.bump (s : State) (c : Counter) : State :=
  { s with counters := upd s.counters c.idx (min Config.counterMax (s.counter c + 1)) }
/-- The counter counts when the condition holds. -/
def State.bumpIf (s : State) (b : Bool) (c : Counter) : State := if b then s.bump c else s

/-! ### Station time -/

/-- The sample frames from t to now, modulo 2^32 (00_scope.md, Time). -/
def since (now t : Time) : Nat := (now - t).toNat
/-- The expiry t has been reached at now: durations are valid below 2^31 (00_scope.md, Time). -/
def reached (now t : Time) : Bool := decide (since now t < 2 ^ 31)
/-- The station time n sample frames after t. -/
def later (t : Time) (n : Nat) : Time := t + BitVec.ofNat 32 n
/-- A running timer whose expiry has been reached. -/
def expired (now : Time) (t : Option Time) : Bool := t.any (reached now)

/-! ### Choosing -/

/-- The first element of a list that no later one is better than and that is better than every one before. -/
def pick {α : Type} (better : α → α → Bool) : List α → Option α
  | [] => none
  | a :: l =>
    match pick better l with
    | none => some a
    | some b => if better b a then some b else some a

/-- The list sorted by an order, each element placed before the first that it does not come after. -/
def insertBy {α : Type} (before : α → α → Bool) (a : α) : List α → List α
  | [] => [a]
  | b :: l => if before b a then b :: insertBy before a l else a :: b :: l

/-- The list in the order given. -/
def sortBy {α : Type} (before : α → α → Bool) : List α → List α
  | [] => []
  | a :: l => insertBy before a (sortBy before l)

/-- All voices, V0 first. -/
def voiceIds : List VoiceId := List.finRange 8
/-- All groups, G0 first. -/
def groupIds : List GroupId := List.finRange 16
/-- The stations 1..31. -/
def stationIds : List Station := (List.finRange 32).drop 1

/-! ### Preload Memory (R30) -/

/-- What a place of the Preload Memory that nothing has written holds. No head-loaded cue's head has such a place
(R33). DESIGN CHOICE, notes/assumptions/5.md. -/
def memBlank : Sample := 0

/-- The sample at an address. -/
def memRead : List (Nat × Sample) → Nat → Sample
  | [], _ => memBlank
  | (b, y) :: m, a => if a = b then y else memRead m a

/-- The memory with one sample written, kept canonical. -/
def memWrite : List (Nat × Sample) → Nat → Sample → List (Nat × Sample)
  | [], a, x => if x = memBlank then [] else [(a, x)]
  | (b, y) :: m, a, x =>
    if a < b then (if x = memBlank then (b, y) :: m else (a, x) :: (b, y) :: m)
    else if a = b then (if x = memBlank then m else (a, x) :: m)
    else (b, y) :: memWrite m a x

/-- The memory with a run of samples written from an address on, in order (R33). -/
def memWriteRun (m : List (Nat × Sample)) (a : Nat) : List Sample → List (Nat × Sample)
  | [] => m
  | x :: l => memWriteRun (memWrite m a x) (a + 1) l

/-- The canonical form: addresses strictly rising, and no entry that a place not listed already holds. -/
def memWf : List (Nat × Sample) → Bool
  | [] => true
  | (a, x) :: m => (x != memBlank) && (m.all fun e => decide (a < e.1)) && memWf m

/-! ### Meanings -/

/-- The outcome of a step of this part (Host/Core.lean). -/
abbrev Result := Host.Outcome State Fault Refusal

/-- The common form of a meaning: while the reset pin is held the part stays in its hard-reset state (R181); an event
whose own condition does not hold at this moment does not happen, and leaves the state as it is
(notes/assumptions/1.md); otherwise it has its effect. -/
def event (s : State) (happens : Bool) (effect : State → State) : Result :=
  if s.inReset then .next s else if happens then .next (effect s) else .next s

end Sys2Proof.Machine
end

