-- ==== Sys2Proof/Machine/ClockEvents.lean ====
section
/-! DEFINITION. The Timebase and the meanings of WORD_CLOCK_EDGE and WORD_CLOCK_TIMEOUT (R186). -/

namespace Sys2Proof.Machine

/-- A period lies in tolerance (R186). -/
def inTolerance (ns : Nat) : Bool := decide (Config.periodMin ≤ ns ∧ ns ≤ Config.periodMax)

/-- The Timebase at the end of a good period (R186). -/
def goodPeriod (ns : Nat) (t : Timebase) : Timebase :=
  match t.clock with
  | .free => { t with clock := .acquiring, acq := 1, fromHoldover := false }
  | .holdover => { t with clock := .acquiring, acq := 1, fromHoldover := true }
  | .acquiring =>
    if t.acq + 1 < Config.acquirePeriods then { t with acq := t.acq + 1 }
    else { t with clock := .locked, acq := Config.acquirePeriods, heldNs := ns, edges := 0 }
  | .locked => { t with heldNs := ns, edges := t.edges + 1 }

/-- The Timebase at a failure: a period out of tolerance, or no edge (R186). -/
def clockFailure (t : Timebase) : Timebase :=
  match t.clock with
  | .free | .holdover => t
  | .acquiring => { t with clock := .free, acq := 0 }
  | .locked => { t with clock := .holdover, acq := 0 }

/-- The Timebase at an edge that ends a period of a length in ns (R186). -/
def clockEdge (ns : Nat) (t : Timebase) : Timebase :=
  { (if inTolerance ns then goodPeriod ns t else clockFailure t) with quiet := 0 }

/-- WORD_CLOCK_EDGE (R186). -/
def execWordClockEdge (ns : Nat) (s : State) : Result :=
  event s (ns != 0) fun s => { s with clock := clockEdge ns s.clock }

/-- No edge has come within two nominal periods of the last (R186). -/
def quietDue (s : State) : Bool := decide (Config.timeoutBits ≤ s.clock.quiet)

/-- WORD_CLOCK_TIMEOUT (R186). -/
def execWordClockTimeout (s : State) : Result :=
  event s (quietDue s) fun s => { s with clock := clockFailure s.clock }

/-- The length of a sample frame that the part paces itself, in thirds of a ns (R186). -/
def frameLength (t : Timebase) : Nat :=
  match t.clock with
  | .free | .locked => Config.nominalFrame
  | .holdover => 3 * t.heldNs
  | .acquiring => if t.fromHoldover then 3 * t.heldNs else Config.nominalFrame

/-- The sample frame in progress is over: at an edge in LOCKED, else at its length (R186). -/
def frameOver (t : Timebase) : Bool :=
  match t.clock with
  | .locked => decide (0 < t.edges)
  | .free | .acquiring | .holdover => decide (frameLength t ≤ t.frameAge)

/-- The sample frame in progress ends; what the part's own pacing overran is carried on (R186). -/
def closeFrame (t : Timebase) : Timebase :=
  match t.clock with
  | .locked => { t with stage := .closing, frameAge := 0, edges := t.edges - 1 }
  | .free | .acquiring | .holdover => { t with stage := .closing, frameAge := t.frameAge - frameLength t }

end Sys2Proof.Machine
end

