-- ==== Sys2Proof/Machine/Formats.lean ====
section
/-! DEFINITION. The byte layouts of line frames: byte order, CRC, envelope, payload layouts, the outcome of a
reception and the protocol checks (R114, R125, R126, R130 to R133). -/

namespace Sys2Proof.Machine

/-! ### Bytes and bits -/

/-- Byte i of a payload; a payload is read only within its checked length. -/
def byteAt (l : List Byte) (i : Nat) : Byte := l.getD i 0

/-- Two bytes, most significant first (Formats, in 07_the_studio_line.md). -/
def word16 (hi lo : Byte) : BitVec 16 := hi ++ lo
/-- Four bytes, most significant first. -/
def word32 (a b c d : Byte) : BitVec 32 := a ++ b ++ c ++ d
/-- The high byte of a 16-bit value. -/
def hiByte (w : BitVec 16) : Byte := w.extractLsb' 8 8
/-- The low byte of a 16-bit value. -/
def loByte (w : BitVec 16) : Byte := w.extractLsb' 0 8
/-- A 16-bit value as two bytes, most significant first. -/
def bytes16 (w : BitVec 16) : List Byte := [hiByte w, loByte w]
/-- A 32-bit value as four bytes, most significant first. -/
def bytes32 (w : BitVec 32) : List Byte :=
  [w.extractLsb' 24 8, w.extractLsb' 16 8, w.extractLsb' 8 8, w.extractLsb' 0 8]
/-- A byte with bit i set exactly when `b`. -/
def bitByte (i : Nat) (b : Bool) : Byte := if b then (1 : Byte) <<< i else 0

/-! ### CRC (R130) -/

/-- One bit step of the CRC with generator x^16 + x^12 + x^5 + 1. -/
def crcShift (c : BitVec 16) : BitVec 16 :=
  if c.msb then (c <<< 1) ^^^ 0x1021 else c <<< 1

/-- One byte, most significant bit first. -/
def crcByte (c : BitVec 16) (b : Byte) : BitVec 16 :=
  let c := c ^^^ ((b.zeroExtend 16) <<< 8)
  crcShift (crcShift (crcShift (crcShift (crcShift (crcShift (crcShift (crcShift c)))))))

/-- The CRC of a run of bytes, initial value 0xFFFF, no final inversion (R130). -/
def crc (l : List Byte) : BitVec 16 := l.foldl crcByte 0xFFFF

/-! ### Kinds -/

/-- The code of a kind (R126). -/
def kindCode : FrameKind → Byte
  | .fire => 1 | .stop => 2 | .claim => 3 | .hold => 4 | .release => 5
  | .presence => 6 | .segment => 7 | .query => 8 | .status => 9 | .restart => 10

/-- The kind of a code, for the codes 1..10 (R126). -/
def kindOfCode (b : Byte) : Option FrameKind :=
  match b.toNat with
  | 1 => some .fire | 2 => some .stop | 3 => some .claim | 4 => some .hold | 5 => some .release
  | 6 => some .presence | 7 => some .segment | 8 => some .query | 9 => some .status | 10 => some .restart
  | _ => none

/-- The payload length fixed for a kind; for PRESENCE it follows from the held count byte at offset 85, read
when the payload has at least 86 bytes (R126). -/
def lengthOk (k : FrameKind) (p : List Byte) : Bool :=
  match k with
  | .fire | .stop | .release => p.length == 4
  | .claim | .segment => p.length == 3
  | .hold => p.length == 5
  | .query | .restart => p.length == 1
  | .status => p.length == 76
  | .presence => 86 ≤ p.length && p.length == 86 + 3 * (byteAt p 85).toNat

/-- The destinations allowed for a kind (R126): 0 or a station, 0 only, or a station only. -/
def destOk (k : FrameKind) (dst : Byte) : Bool :=
  match k with
  | .fire | .stop | .status | .restart => true
  | .claim | .hold | .release | .presence | .segment => dst == 0
  | .query => dst != 0

/-- The number of the first protocol check that fails, if one does (R126). -/
def protocolFault (f : Frame) : Option Nat :=
  match kindOfCode f.kind with
  | none => some 1
  | some k =>
    if f.payload.length > Config.payloadMax then some 2
    else if !lengthOk k f.payload then some 3
    else if f.src.toNat = 0 ∨ f.src.toNat > 31 then some 4
    else if !destOk k f.dst then some 5
    else none

/-! ### Envelope (R130) -/

/-- The bytes the CRC covers: kind through the last payload byte. -/
def frameBody (f : Frame) : List Byte :=
  f.kind :: f.src :: f.dst :: BitVec.ofNat 8 f.payload.length :: f.payload

/-- A frame's bytes on the line (R130). -/
def frameBytes (f : Frame) : List Byte :=
  (0xD3 : Byte) :: (frameBody f ++ bytes16 (crc (frameBody f)))

/-- Bit times of a frame of n payload bytes: n + 7 bytes of ten bit times (R114). -/
def frameBits (f : Frame) : Nat := (f.payload.length + 7) * Config.byteBits

/-- The outcomes of a reception (R125). -/
inductive RxOutcome where
  /-- A frame received; R126 follows. -/
  | good (f : Frame)
  /-- RX_BAD counts. -/
  | bad
  /-- A jammed fragment, discarded without a count. -/
  | jammed
deriving DecidableEq, Repr

/-- The outcome of the bytes of one whole frame, or of bytes that end before the frame's last: the sync byte, the length and
the CRC decide (R125). -/
def wholeOutcome (l : List Byte) : RxOutcome :=
  match l with
  | sync :: kind :: src :: dst :: len :: rest =>
    if sync ≠ 0xD3 then .bad
    else if rest.length ≠ len.toNat + 2 then .bad
    else
      let f : Frame := ⟨kind, src, dst, rest.take len.toNat⟩
      if rest.drop len.toNat = bytes16 (crc (frameBody f)) then .good f else .bad
  | _ => .bad

/-- The bytes of the frame whose header has been taken: its payload length and seven (R125). -/
def frameExtent (l : List Byte) : Option Nat :=
  match l with
  | _ :: _ :: _ :: _ :: len :: _ => some (len.toNat + 7)
  | _ => none

/-- The bytes of the frame, where all of them have been taken (R125). -/
def wholeExtent (l : List Byte) : Option Nat := (frameExtent l).filter (· ≤ l.length)

/-- The outcome of a reception (R125). A first byte other than 0xD3 ends it as bad, and the last byte of the frame ends it as
heard, whatever follows. -/
def rxOutcome (r : Reception) : RxOutcome :=
  match r.ending, wholeExtent r.bytes with
  | .trailing, _ => .bad
  | .rest, some n | .active _, some n => wholeOutcome (r.bytes.take n)
  | .rest, none => .bad
  | .active k, none =>
    if r.bytes.head?.any (· != 0xD3) then .bad
    else if Config.jamHeardBits ≤ k then .jammed else .bad

/-- The fragment that follows the last byte of a frame received, before any gap, where one does (R125). -/
def fragmentAfter (r : Reception) : Option Reception :=
  match rxOutcome r, wholeExtent r.bytes with
  | .good _, some n =>
    if n = r.bytes.length ∧ r.ending = .rest then none else some ⟨r.bytes.drop n, .trailing⟩
  | _, _ => none

/-! ### Payload layouts -/

/-- The PRESENCE payload (R132). -/
def presenceBytes (p : Presence) : List Byte :=
  [p.flags, p.showNo, p.segment, p.keys, p.spare] ++ p.epochs.toList
    ++ p.excl.toList.flatMap bytes32
    ++ [BitVec.ofNat 8 p.held.length]
    ++ p.held.flatMap fun e => e.1 :: bytes16 e.2

/-- The fields of a PRESENCE payload (R132). -/
def parsePresence (l : List Byte) : Presence where
  flags := byteAt l 0
  showNo := byteAt l 1
  segment := byteAt l 2
  keys := byteAt l 3
  spare := byteAt l 4
  epochs := tabulate 16 fun i => byteAt l (5 + i.val)
  excl := tabulate 16 fun i =>
    word32 (byteAt l (21 + 4 * i.val)) (byteAt l (22 + 4 * i.val)) (byteAt l (23 + 4 * i.val))
      (byteAt l (24 + 4 * i.val))
  held := (List.range (byteAt l 85).toNat).map fun i =>
    (byteAt l (86 + 3 * i), word16 (byteAt l (87 + 3 * i)) (byteAt l (88 + 3 * i)))

/-- The command a frame that passes the protocol checks stands for (R127, R131 to R133). -/
def commandOfFrame (k : FrameKind) (f : Frame) : Instr :=
  let p := f.payload
  let src : Station := Fin.ofNat 32 f.src.toNat
  match k with
  | .fire => .fireReceived src f.dst (byteAt p 0) (byteAt p 1) (byteAt p 2) (byteAt p 3)
  | .stop => .stopReceived src f.dst (byteAt p 0) (byteAt p 1) (byteAt p 2) (byteAt p 3)
  | .claim => .claimReceived src (byteAt p 0) (byteAt p 1) (byteAt p 2)
  | .hold => .holdReceived src (byteAt p 0) (byteAt p 1) (byteAt p 2) (word16 (byteAt p 3) (byteAt p 4))
  | .release => .releaseReceived src (byteAt p 0) (byteAt p 1) (byteAt p 2) (byteAt p 3)
  | .presence => .presenceReceived src (parsePresence p)
  | .segment => .segmentReceived src (byteAt p 0) (byteAt p 1) (byteAt p 2)
  | .query => .queryReceived src f.dst (byteAt p 0)
  | .status => .statusReceived src f.dst (tabulate 76 fun i => byteAt p i.val)
  | .restart => .restartReceived src f.dst (byteAt p 0)

/-- The command that a reception as heard stands for first: total on any bytes (R125 to R127). -/
def commandOfReception (r : Reception) : Instr :=
  match rxOutcome r with
  | .good f =>
    match kindOfCode f.kind, protocolFault f with
    | some k, none => commandOfFrame k f
    | _, _ => .rxProtocol f
  | _ => .rxBad r

/-- The commands that a reception as heard stands for: its own, and RX_BAD for the bytes that follow a frame received
(R125). -/
def commandsOfReception (r : Reception) : List Instr :=
  commandOfReception r :: (fragmentAfter r).toList.map .rxBad

/-- The frame whose reception a command stands for, if it stands for one. -/
def frameOfCommand (i : Instr) : Option Frame :=
  let mk (k : FrameKind) (src : Station) (dst : Byte) (p : List Byte) : Option Frame :=
    some ⟨kindCode k, BitVec.ofNat 8 src.val, dst, p⟩
  match i with
  | .fireReceived src dst b0 b1 b2 b3 => mk .fire src dst [b0, b1, b2, b3]
  | .stopReceived src dst b0 b1 b2 b3 => mk .stop src dst [b0, b1, b2, b3]
  | .segmentReceived src b0 b1 b2 => mk .segment src 0 [b0, b1, b2]
  | .claimReceived src n g e => mk .claim src 0 [n, g, e]
  | .holdReceived src n g e a => mk .hold src 0 ([n, g, e] ++ bytes16 a)
  | .releaseReceived src n g e v => mk .release src 0 [n, g, e, v]
  | .presenceReceived src p => mk .presence src 0 (presenceBytes p)
  | .queryReceived src dst b0 => mk .query src dst [b0]
  | .statusReceived src dst p => mk .status src dst p.toList
  | .restartReceived src dst n => mk .restart src dst [n]
  | .rxProtocol f => some f
  | .hardReset | .hardResetRelease _ | .loadEnd _ | .listenTimerExpiry | .wordClockEdge _
  | .wordClockTimeout | .voiceSampleNeed _ | .busSampleOutput | .controlFrameBoundary | .fadeEnd _
  | .primeDeadline _ | .beatBoundary | .pendingExpiry _ | .burstComplete _ | .preloadBurstComplete _
  | .triggerInputChange _ _ | .triggerFilterExpiry _ | .interframeGapComplete | .lineBusy | .sendSlot
  | .transmitComplete | .collision | .jamEnd | .rxBad _ | .answerTimerExpiry _
  | .presenceTimerExpiry | .peerStale _ | .peerGone _ | .referenceSlot => none

end Sys2Proof.Machine
end

