-- ==== Sys2Proof/Machine/LineLevels.lean ====
section
/-! DEFINITION. The levels of the studio line bit by bit: the levels in which bytes and frames are sent, and the receive state
as each bit time is heard (R114, R125). -/

namespace Sys2Proof.Machine

/-! ### Sending (R114) -/

/-- The level of a data bit: a 0 at ACTIVE and a 1 at REST (R114). -/
def bitLevel (b : Bool) : LineLevel := if b then .rest else .active

/-- The ten levels of a byte: a start bit, eight data bits with the most significant first, and a stop bit (R114). -/
def byteLevels (b : Byte) : List LineLevel :=
  .active :: (List.finRange 8).map (fun i => bitLevel (b.getLsbD (7 - i.val))) ++ [.rest]

/-- The levels of a frame, its bytes back to back (R114). -/
def frameLevels (f : Frame) : List LineLevel := (frameBytes f).flatMap byteLevels

/-! ### Hearing (R125) -/

/-- The byte of nine levels, the start bit first (R114). -/
def byteOfLevels (l : List LineLevel) : Byte :=
  (l.drop 1).foldl (fun b x => (b <<< 1) ||| (if x = .rest then 1 else 0)) 0

/-- The bytes taken end the reception at their last stop bit: the first is no sync byte, or the frame is whole (R125). -/
def endsReception (bytes : List Byte) : Bool :=
  bytes.head?.any (· != 0xD3) || (wholeExtent bytes).isSome

/-- The receive state is within a byte: its start bit has been heard and its stop bit has not. -/
def RxState.inByte : RxState → Bool
  | .receiving _ (_ :: _) | .hunting (_ + 1) => true
  | .receiving _ [] | .hunting 0 | .activeHeld | .broken _ _ | .frameEnded => false

/-- A hunting station follows the bytes on the line, so that it counts the gap from the end of the last one as every other
station does (R114, R115). Which ACTIVE begins a byte at a station that came up amid one, and that a stop bit at ACTIVE lasts
until REST, is the model's choice (notes/assumptions/13.md). -/
def huntBit (n : Nat) (heard : LineLevel) : RxState :=
  match n, heard with
  | 0, .rest => .hunting 0
  | 0, .active => .hunting 1
  | n + 1, .rest => .hunting (if n + 2 < Config.byteBits then n + 2 else 0)
  | n + 1, .active => if n + 2 < Config.byteBits then .hunting (n + 2) else .activeHeld

/-- The receive state at the end of a bit time in which a level was heard, with the reception that ends in it (R125). A
reception that ends stays in the receive state until its command is taken. -/
def rxBit (x : RxState) (heard : LineLevel) : RxState × Option Reception :=
  match x, heard with
  | .hunting n, _ => (huntBit n heard, none)
  | .activeHeld, .rest | .frameEnded, .rest => (.hunting 0, none)
  | .activeHeld, .active => (.activeHeld, none)
  | .frameEnded, .active => (.frameEnded, some ⟨[], .trailing⟩)
  | .receiving bytes [], .rest => (.receiving bytes [], some ⟨bytes, .rest⟩)
  | .receiving bytes [], .active => (.receiving bytes [.active], none)
  | .receiving bytes (b :: bits), .rest =>
    if bits.length < 8 then (.receiving bytes (b :: bits ++ [.rest]), none)
    else
      let taken := bytes ++ [byteOfLevels (b :: bits)]
      (.receiving taken [], if endsReception taken then some ⟨taken, .rest⟩ else none)
  | .receiving bytes (b :: bits), .active =>
    if bits.length < 8 then (.receiving bytes (b :: bits ++ [.active]), none)
    else (.broken bytes (min Config.jamHeardBits ((b :: bits).count .active + 1)), none)
  | .broken bytes n, .active => (.broken bytes (min Config.jamHeardBits (n + 1)), none)
  | .broken bytes n, .rest => (.broken bytes n, some ⟨bytes, .active n⟩)

end Sys2Proof.Machine
end

