-- ==== Sys2Proof/Machine/Flags.lean ====
section
/-! DEFINITION. The conditions the rules test, computed from the state: modular comparison, free and sounding
voices, class occupancy, queue order, port requests, frames eligible on the line. -/

namespace Sys2Proof.Machine

/-! ### Modular comparison of shows and epochs (R150) -/

/-- a is ahead of b when their difference modulo 256 is 1..127 (R150). -/
def ahead (a b : Byte) : Bool := let d := (a - b).toNat; decide (1 ≤ d ∧ d ≤ 127)
/-- a is behind b when their difference modulo 256 is 128..255 (R150). -/
def behind (a b : Byte) : Bool := decide (128 ≤ (a - b).toNat)

/-! ### Stations -/

/-- The station takes events of the line and of starts: it is not LOADING (R39, R127). -/
def State.up (s : State) : Bool := s.station != .loading
/-- The outputs carry the bus sums (R99). -/
def State.sounding (s : State) : Bool := s.station == .listening || s.station == .running
/-- The straps read 0 (R181). -/
def State.silent (s : State) : Bool := s.number == 0
/-- The station drives the line, in an own transmission or jam (R118, R119). -/
def State.driving (s : State) : Bool :=
  match s.line.activity with
  | .sending _ _ | .jamming => true
  | .none | .holdoff _ _ => false
/-- The station is receiving a frame, whose start bit it heard after a complete gap (R125). -/
def State.receiving (s : State) : Bool :=
  match s.line.rx with
  | .receiving _ _ => true
  | .hunting _ | .activeHeld | .broken _ _ | .frameEnded => false
/-- Station x is in a set. -/
def inSet (x : Station) (e : StationSet) : Bool := e.getLsbD x.val
/-- The set with station x added. -/
def addTo (x : Station) (e : StationSet) : StationSet := e ||| ((1 : StationSet) <<< x.val)

/-! ### Voices -/

/-- The voice is out of IDLE. -/
def Voice.active (x : Voice) : Bool := x.state != .idle
/-- The voice is in PRIMING or PLAYING, as a cue that is sounding has it (R42). -/
def Voice.live (x : Voice) : Bool := x.state == .priming || x.state == .playing
/-- The voice is in PLAYING or FADING. -/
def Voice.audible (x : Voice) : Bool := x.state == .playing || x.state == .fading
/-- The play position is within the head (R68). -/
def Voice.inHead (x : Voice) : Bool := decide (x.headPos < x.headLen)
/-- The play position of voice v where it is fixed: in the head, at the oldest sample of the FIFO, or at the fetch
pointer. With skip debt it is fixed only by the debt (R65). -/
def State.playPos (s : State) (v : VoiceId) : Option Pos :=
  let x := s.voice v
  if x.inHead then (s.cue x.cue).map fun q => ⟨q.first, x.headPos, 0⟩
  else
    match x.fifo with
    | h :: _ => some h.pos
    | [] => if x.debt = 0 then some x.fetchPtr else none

/-- The pending entry a voice is reserved for, the voice record's reserved-for field (R61). -/
def State.reservedFor (s : State) (v : VoiceId) : Option Entry :=
  s.starts.queue.find? fun e => e.reserved == some v
/-- The voice is IDLE and reserved for no entry (R46). -/
def State.freeVoice (s : State) (v : VoiceId) : Bool :=
  (s.voice v).state == .idle && (s.reservedFor v).isNone
/-- The lowest-numbered free voice (R47). -/
def State.lowestFree (s : State) : Option VoiceId := voiceIds.find? s.freeVoice
/-- The cue is sounding: some voice is in PRIMING or PLAYING with it (R42). -/
def State.cueLive (s : State) (c : LocalCue) : Bool :=
  voiceIds.any fun v => (s.voice v).live && (s.voice v).cue == c
/-- The class of a cue; the class of an invalid cue is not read. -/
def State.classOf (s : State) (c : LocalCue) : ClassId := ((s.cue c).map (·.cls)).getD 0
/-- Voice v counts in the occupancy of class c (R46). -/
def State.occupies (s : State) (c : ClassId) (v : VoiceId) : Bool :=
  ((s.voice v).active && (s.voice v).cls == c)
    || (s.reservedFor v).any fun e => s.classOf e.cue == c
/-- The occupancy of a class (R46). -/
def State.occupancy (s : State) (c : ClassId) : Nat := voiceIds.countP (s.occupies c)
/-- The class's occupancy is below its polyphony (R46). -/
def State.room (s : State) (c : ClassId) : Bool := decide (s.occupancy c < (s.cls c).polyphony)
/-- Of two voices, the first has the earlier start stamp, or the lower number at equal stamps (R48). -/
def State.older (s : State) (a b : VoiceId) : Bool :=
  let wa := since s.now (s.starts.stamps.get a)
  let wb := since s.now (s.starts.stamps.get b)
  decide (wb < wa ∨ (wb = wa ∧ a < b))
/-- The keys that the station's own voices assert (R81). -/
def State.assertedKeys (s : State) : KeySet :=
  voiceIds.foldl (fun k v =>
    if (s.voice v).audible then
      match (s.cls (s.voice v).cls).key with
      | some j => k ||| ((1 : KeySet) <<< j.val)
      | none => k
    else k) 0
/-- The active key set (R83). -/
def State.activeKeys (s : State) : KeySet := s.mixer.localKeys ||| s.mixer.peerKeys
/-- The union of the key sets of the peers in PRESENT or STALE; the own entry is never read (R171, R174). -/
def State.peerUnion (s : State) : KeySet :=
  stationIds.foldl (fun k x =>
    if x ≠ s.number ∧ ((s.peer x).state = .present ∨ (s.peer x).state = .stale) then k ||| (s.peer x).keys else k) 0

/-! ### The pending-start queue (R51) -/

/-- The sample frames an entry has waited. -/
def State.waited (s : State) (e : Entry) : Nat := since s.now e.enq
/-- The effective priority of an entry (R51). -/
def State.entryPriority (s : State) (e : Entry) : Nat :=
  (s.cls (s.classOf e.cue)).priority - s.waited e / Config.queueAging
/-- Entry a comes before entry b in queue order (R51). -/
def State.entryBefore (s : State) (a b : Entry) : Bool :=
  let pa := s.entryPriority a
  let pb := s.entryPriority b
  decide (pa < pb ∨ (pa = pb ∧ (s.waited b < s.waited a ∨ (s.waited a = s.waited b ∧ a.cue < b.cue))))
/-- The last entry in queue order (R51). -/
def State.worstEntry (s : State) : Option Entry := pick (fun a b => s.entryBefore b a) s.starts.queue
/-- The cue has an entry in the queue (R41). -/
def State.isPending (s : State) (c : LocalCue) : Bool := s.starts.queue.any (·.cue == c)

/-! ### The store port (R24, R25) -/

/-- A burst of the voice's present start is outstanding (R24, R28). -/
def State.ownBurst (s : State) (v : VoiceId) : Bool :=
  match s.fetch.burst with
  | some b =>
    match b.req with
    | .voice w tag => w == v && (s.voice v).active && (s.voice v).gen == tag
    | .preload => false
  | none => false
/-- The conditions for a voice to be in the request set (R24). -/
def State.requests (s : State) (v : VoiceId) : Bool :=
  (s.voice v).active && !(s.voice v).fetchDone && !s.ownBurst v
    && decide ((s.voice v).fifo.length + (s.voice v).inFlight ≤ Config.fillLimit)
/-- The microseconds a voice in the request set has waited (R25). -/
def State.portWait (s : State) (t : Micros) : Nat := (s.clock.micros - t).toNat
/-- The effective priority of a requesting voice at the port (R25). -/
def State.portPriority (s : State) (v : VoiceId) (t : Micros) : Nat :=
  (s.cls (s.voice v).cls).priority - s.portWait t / Config.portAging
/-- Requesting voice a is granted before requesting voice b (R25). -/
def State.portBefore (s : State) (a b : VoiceId × Micros) : Bool :=
  let pa := s.portPriority a.1 a.2
  let pb := s.portPriority b.1 b.2
  decide (pa < pb ∨ (pa = pb ∧ (s.portWait b.2 < s.portWait a.2 ∨ (s.portWait a.2 = s.portWait b.2 ∧ a.1 < b.1))))
/-- The voices in the request set with their request times (R23). -/
def State.requesters (s : State) : List (VoiceId × Micros) :=
  voiceIds.filterMap fun v => (s.fetch.requests.get v).map fun t => (v, t)

/-! ### The transmit queue (R116, R117, R121) -/

/-- The rank of a frame (R116). -/
def TxBody.rank : TxBody → Nat
  | .claim _ _ _ | .hold _ _ _ => 0
  | .release _ _ _ _ => 1
  | .fire _ _ | .stop _ _ | .segment _ _ _ => 2
  | .presence => 3
  | .status => 4
/-- The group of a CLAIM. -/
def TxBody.claims (g : GroupId) : TxBody → Bool
  | .claim h _ _ => h == g
  | _ => false
/-- The frame is a HOLD of group g. -/
def TxBody.holds (g : GroupId) : TxBody → Bool
  | .hold h _ _ => h == g
  | _ => false
/-- The frame is a RELEASE of group g. -/
def TxBody.releases (g : GroupId) : TxBody → Bool
  | .release h _ _ _ => h == g
  | _ => false
/-- The frame is a CLAIM, HOLD or RELEASE of some group. -/
def TxBody.ofGroups : TxBody → Bool
  | .claim _ _ _ | .hold _ _ _ | .release _ _ _ _ => true
  | _ => false
/-- The frames the station may transmit: none in LOADING or when line-silent, a STATUS alone in LISTENING (R117). -/
def State.eligible (s : State) (b : TxBody) : Bool :=
  match s.station with
  | .loading => false
  | .listening => !s.silent && b == .status
  | .running | .unconfigured => !s.silent
/-- The candidate: the first frame of the queue among the eligible ones (R116). -/
def State.candidate (s : State) : Option TxEntry := s.line.queue.find? fun e => s.eligible e.body
/-- The identity of the frame in flight (R118). -/
def State.inFlight (s : State) : Option Nat :=
  match s.line.activity with
  | .sending n _ => some n
  | _ => none
/-- A RELEASE of the group is queued (R122, R163). -/
def State.releaseQueued (s : State) (g : GroupId) : Bool := s.line.queue.any (·.body.releases g)

end Sys2Proof.Machine
end

