-- ==== Sys2Proof/Machine/Operands.lean ====
section
/-! DEFINITION. The operand forms of the line's frames: line cues and the listen windows, level offsets, stop
selectors and modes, verdicts (R9, R10, R38, R131, R137 to R139). -/

namespace Sys2Proof.Machine

/-- A line cue hits a window (R9). -/
def windowHits (w : ListenWindow) (c : LineCue) : Bool :=
  w.enable && (c &&& w.mask == w.base &&& w.mask)

/-- The local cue a window maps a line cue to (R10). -/
def windowMaps (w : ListenWindow) (c : LineCue) : LocalCue :=
  if w.translate then Fin.ofNat 256 (w.localBase.val + (c &&& ~~~w.mask).toNat)
  else Fin.ofNat 256 c.toNat

/-- The local cue the listen windows give a line cue: the lowest-indexed window that hits is used (R9, R10). -/
def mapLineCue (t : Tables) (c : LineCue) : Option LocalCue :=
  (t.listen.toList.find? (windowHits · c)).map (windowMaps · c)

/-- A level offset clamped to -24..+24 (R38, R102). -/
def clampOffset (o : Int) : Int := max (-24) (min 24 o)

/-- The line cue of a FIRE payload: the low four bits of byte 0, then byte 1 (R137). -/
def fireLineCue (b0 b1 : Byte) : LineCue := (word16 b0 b1).extractLsb' 0 12

/-- The start request a FIRE frame makes, when a window hits (R137, R38). -/
def fireRequest (t : Tables) (b0 b1 b2 b3 : Byte) : Option Request :=
  (mapLineCue t (fireLineCue b0 b1)).map fun c => ⟨c, clampOffset b2.toInt, b3.getLsbD 0⟩

/-- The mode of a stop by its code (R138). -/
def stopMode (b : Byte) : Option StopMode :=
  match b.toNat with
  | 0 => some .cut | 1 => some .fade | 2 => some .tail | _ => none

/-- The stop request a STOP frame forms, if it forms one (R138). -/
def stopRequest (t : Tables) (b0 b1 b2 b3 : Byte) : Option (StopSel LocalCue × StopMode) :=
  match stopMode b3 with
  | none => none
  | some mode =>
    match b0.toNat with
    | 0 => (mapLineCue t ((word16 b1 b2).extractLsb' 0 12)).map fun c => (.cue c, mode)
    | 1 => if h : (word16 b1 b2).toNat < 8 then some (.cls ⟨(word16 b1 b2).toNat, h⟩, mode) else none
    | 2 => some (.all, mode)
    | _ => none

/-- The verdict of a code; a code of 5 or above is taken as NONE (R160). -/
def verdictOfCode (b : Byte) : Verdict :=
  match b.toNat with
  | 1 => .correct | 2 => .wrong | 3 => .timeout | 4 => .clear | _ => .none

/-- The code of a verdict (R131). -/
def verdictCode : Verdict → Byte
  | .none => 0 | .correct => 1 | .wrong => 2 | .timeout => 3 | .clear => 4

/-- The code of a stop mode (R131). -/
def modeCode : StopMode → Byte
  | .cut => 0 | .fade => 1 | .tail => 2

/-- The selector and value bytes of a STOP frame (R131). -/
def selectorBytes : StopSel LineCue → List Byte
  | .cue n => 0 :: bytes16 (n.zeroExtend 16)
  | .cls c => 1 :: bytes16 (BitVec.ofNat 16 c.val)
  | .all => [2, 0, 0]

end Sys2Proof.Machine
end

