-- ==== Sys2Proof/Machine/Reports.lean ====
section
/-! DEFINITION. What the station reports: claim ages, the PRESENCE and STATUS contents built at the start of an attempt,
and the payload of each own frame (R121, R131 to R133, R142, R149, R167, R178). -/

namespace Sys2Proof.Machine

/-- The age in ms of the holding in a view, holding at 65,535 (R149). -/
def holdingAge (now : Time) (w : View) : Nat := min Config.ageMax (since now w.claimTime / Config.framesPerMs)

/-- The code of a clock state (R132). -/
def clockCode : ClockState → Byte
  | .free => 0 | .acquiring => 1 | .locked => 2 | .holdover => 3
/-- The code of a station state (R133). -/
def stationCode : StationState → Byte
  | .loading => 0 | .listening => 1 | .running => 2 | .unconfigured => 3
/-- The code of a voice state (R133). -/
def voiceCode : VState → Byte
  | .idle => 0 | .priming => 1 | .playing => 2 | .fading => 3
/-- The code of a view state (R133). -/
def viewCode : ViewState → Byte
  | .free => 0 | .claiming => 1 | .heldMe => 2 | .heldOther => 3

/-- The flags byte of the own PRESENCE (R132, R178). -/
def presenceFlags (s : State) : Byte :=
  bitByte 0 (s.station == .listening || s.station == .running) ||| bitByte 1 (s.station == .listening)
    ||| bitByte 2 s.peers.duplicate ||| (clockCode s.clock.clock <<< 3)

/-- The own holdings with their ages, in ascending group order (R167). -/
def ownHoldings (s : State) : List (Byte × BitVec 16) :=
  groupIds.filterMap fun g =>
    if (s.view g).state = .heldMe then
      some (BitVec.ofNat 8 g.val, BitVec.ofNat 16 (holdingAge s.now (s.view g)))
    else none

/-- The content of the own PRESENCE as it stands (R178). -/
def buildPresence (s : State) : Presence where
  flags := presenceFlags s
  showNo := s.groups.showNo
  segment := s.starts.segment
  keys := s.assertedKeys
  spare := 0
  epochs := tabulate 16 fun g => (s.view g).epoch
  excl := tabulate 16 fun g => (s.view g).excl &&& ~~~1
  held := ownHoldings s

/-- The group code of a view (R133). -/
def groupCode (s : State) (g : GroupId) : Byte :=
  viewCode (s.view g).state ||| bitByte 2 (inSet s.number (s.view g).excl) ||| bitByte 3 (s.view g).stale

/-- The peers in PRESENT, without the own station (R142). -/
def presentSet (s : State) : StationSet :=
  stationIds.foldl (fun e x => if x ≠ s.number ∧ (s.peer x).state = .present then addTo x e else e) 0

/-- The STATUS payload as it stands (R133, R142). -/
def buildStatus (s : State) : List Byte :=
  [stationCode s.station, clockCode s.clock.clock, bitByte 0 s.peers.duplicate, s.groups.showNo, s.starts.segment,
    s.starts.mask]
    ++ bytes32 (presentSet s)
    ++ voiceIds.flatMap (fun v => [voiceCode (s.voice v).state, BitVec.ofNat 8 (s.voice v).cue.val])
    ++ groupIds.map (groupCode s)
    ++ [BitVec.ofNat 8 s.starts.queue.length]
    ++ s.counters.toList.flatMap (fun n => bytes16 (BitVec.ofNat 16 n))
    ++ [0]

/-- The value a STATUS payload reports for a counter (R145). -/
def reportedCounter (p : List Byte) (c : Counter) : Nat :=
  (word16 (byteAt p (43 + 2 * c.idx.val)) (byteAt p (44 + 2 * c.idx.val))).toNat

/-- The destination of a STATUS: the one querier, or 0 for two or more (R142). -/
def statusDest (s : State) : Byte :=
  match s.answers with
  | none => 0
  | some a =>
    match stationIds.filter (inSet · a.queriers) with
    | [x] => BitVec.ofNat 8 x.val
    | _ => 0

/-- The kind of a queued frame (R121). -/
def TxBody.kind : TxBody → FrameKind
  | .fire _ _ => .fire | .stop _ _ => .stop | .segment _ _ _ => .segment | .claim _ _ _ => .claim
  | .hold _ _ _ => .hold | .release _ _ _ _ => .release | .presence => .presence | .status => .status

/-- The payload of an own frame for an attempt that begins now (R121, R131). -/
def bodyPayload (s : State) (b : TxBody) : List Byte :=
  match b with
  | .fire c o => [hiByte (c.zeroExtend 16), loByte (c.zeroExtend 16), BitVec.ofInt 8 o, 0]
  | .stop sel m => selectorBytes sel ++ [modeCode m]
  | .segment n m stop => [n, m, bitByte 0 stop]
  | .claim g n e => [n, BitVec.ofNat 8 g.val, e]
  | .hold g n e => [n, BitVec.ofNat 8 g.val, e] ++ bytes16 (BitVec.ofNat 16 (holdingAge s.now (s.view g)))
  | .release g n e v => [n, BitVec.ofNat 8 g.val, e, verdictCode v]
  | .presence => presenceBytes (buildPresence s)
  | .status => buildStatus s

/-- The frame of an attempt that begins now (R118, R121). -/
def buildFrame (s : State) (b : TxBody) : Frame where
  kind := kindCode b.kind
  src := BitVec.ofNat 8 s.number.val
  dst := if b = .status then statusDest s else 0
  payload := bodyPayload s b

end Sys2Proof.Machine
end

