-- ==== Sys2Proof/Machine/LineQueue.lean ====
section
/-! DEFINITION. The transmit queue and access to the line: offers with their limits, evictions and drops, removals,
holdoffs, and the offer of the own PRESENCE (R115 to R124, R128, R177). -/

namespace Sys2Proof.Machine

/-- What becomes of an offer (R117, R122, R123). -/
inductive OfferResult where
  | joined | merged | refused | dropped | discarded
deriving DecidableEq, Repr

/-- The queue with a frame placed behind every frame of its rank or a better one (R121). -/
def insertTx (e : TxEntry) : List TxEntry → List TxEntry
  | [] => [e]
  | b :: l => if b.body.rank ≤ e.body.rank then b :: insertTx e l else e :: b :: l

/-- A holdoff is abandoned when the candidate is no longer the frame it was begun for (R116). -/
def recheckHoldoff (s : State) : State :=
  match s.line.activity with
  | .holdoff n _ =>
    if s.candidate.map (·.ident) = some n then s else { s with line := { s.line with activity := .none } }
  | .none | .sending _ _ | .jamming => s

/-- A frame joins the queue (R121). -/
def joinTx (b : TxBody) (s : State) : State :=
  let e : TxEntry := ⟨s.line.nextIdent, b, s.now, 0, false⟩
  { s with line := { s.line with queue := insertTx e s.line.queue, nextIdent := s.line.nextIdent + 1 } }

/-- The frame of an identity leaves the queue. -/
def leaveTx (n : Nat) (s : State) : State :=
  { s with line := { s.line with queue := s.line.queue.filter (·.ident != n) } }

/-- The presence timer is started to expire one period from now (R177). -/
def startPresenceTimer (s : State) : State :=
  { s with peers := { s.peers with presenceTimer := some (later s.now (Config.framesPerMs * s.tables.periodMs)) } }

/-- The owner's handling of a frame reported as dropped (R128, R144, R154, R163, R177). -/
def frameDropped (b : TxBody) (s : State) : State :=
  match b with
  | .claim g _ _ =>
    let w := s.view g
    if w.state = .claiming then (s.setView g { w with state := .free }).bump .claimLost else s
  | .release g _ _ _ =>
    let w := s.view g
    if w.state = .heldMe ∧ w.timer = .expired then s.setView g { w with timeoutQueued := false } else s
  | .presence => startPresenceTimer s
  | .status => { s with answers := none }
  | .hold _ _ _ | .fire _ _ | .stop _ _ | .segment _ _ _ => s

/-- The outcome of an offer that would break a per-kind limit (R122). -/
def offerLimit (q : List TxEntry) (b : TxBody) : Option OfferResult :=
  match b with
  | .presence => if q.any (·.body == .presence) then some .merged else none
  | .status => if q.any (·.body == .status) then some .merged else none
  | .hold g _ _ => if q.any (·.body.holds g) then some .merged else none
  | .release g _ _ _ => if q.any (·.body.releases g) then some .refused else none
  | .claim _ _ _ | .fire _ _ | .stop _ _ | .segment _ _ _ => none

/-- An offer is dropped: TX_DROPPED counts and the offering block is told (R123). -/
def dropOffer (b : TxBody) (s : State) : State := frameDropped b (s.bump .txDropped)

/-- A frame offered to the transmit queue, with what becomes of it (R117, R122, R123). -/
def offerWith (b : TxBody) (s : State) : State × OfferResult :=
  if s.station = .loading ∨ s.silent then (s, .discarded)
  else
    match offerLimit s.line.queue b with
    | some r => (s, r)
    | none =>
      if s.line.queue.length < Config.txQueueMax then (recheckHoldoff (joinTx b s), .joined)
      else
        match (s.line.queue.filter fun e => s.inFlight != some e.ident).getLast? with
        | none => (dropOffer b s, .dropped)
        | some w =>
          if b.rank < w.body.rank then
            (recheckHoldoff (joinTx b (frameDropped w.body ((leaveTx w.ident s).bump .txDropped))), .joined)
          else (dropOffer b s, .dropped)

/-- A frame offered to the transmit queue. -/
def offer (b : TxBody) (s : State) : State := (offerWith b s).1

/-- The owner's removal of the queued frames that satisfy p: at once, or held for a frame in flight (R120, R124). -/
def removeTx (p : TxBody → Bool) (s : State) : State :=
  let q := s.line.queue.filterMap fun e =>
    if p e.body then (if s.inFlight = some e.ident then some { e with removal := true } else none) else some e
  recheckHoldoff { s with line := { s.line with queue := q } }

/-- The Peer Monitor's offer of a PRESENCE, in RUNNING and UNCONFIGURED and not on a line-silent station (R177). -/
def offerPresence (s : State) : State :=
  if (s.station = .running ∨ s.station = .unconfigured) ∧ ¬ s.silent then offer .presence s else s

/-! ### Access -/

/-- One step of the random slot source (R116). -/
def shiftStep (w : BitVec 16) : BitVec 16 :=
  (w <<< 1) ||| (BitVec.ofBool (w.getLsbD 15 ^^ w.getLsbD 13 ^^ w.getLsbD 12 ^^ w.getLsbD 10)).zeroExtend 16

/-- A draw: the four lowest bits of the random slot source (R116). -/
def draw (w : BitVec 16) : Nat := (w.extractLsb' 0 4).toNat

/-- A holdoff begins at a reference slot for the candidate, when there is one (R116). -/
def beginHoldoff (ref : Nat) (s : State) : State :=
  match s.candidate with
  | some e =>
    let slot := ref + e.body.rank * Config.rankSlots + draw s.line.shift
    { s with line := { s.line with activity := .holdoff e.ident slot } }
  | none => s

/-- The activity once the line is BUSY before the send slot: a holdoff ends without an attempt (R116). -/
def deferred : Activity → Activity
  | .holdoff _ _ => .none
  | a => a

/-- ACTIVE level from another station in the present bit time: the phase is BUSY, a holdoff ends, and the first one after a
complete gap is the start of a frame (R115, R116, R125). -/
def hearActive (s : State) : State :=
  let l := s.line
  { s with
    line := { l with
      phase := .busy, activity := deferred l.activity, rest := none,
      rx := if l.phase = .idle then .receiving [] [] else l.rx } }

/-- A reception has ended, with the receive state as it goes on: the line is at REST and the interframe gap is counted
(R125, R115). -/
def endReception (x : RxState) (s : State) : State :=
  let l := s.line
  { s with
    line := { l with phase := .busy, activity := deferred l.activity, rest := some (l.rest.getD 0), rx := x } }

/-- The interframe gap is complete: the phase becomes IDLE, slot 0 begins, and a holdoff begins for the candidate (R115,
R116). -/
def gapComplete (s : State) : State :=
  beginHoldoff 0 { s with line := { s.line with phase := .idle, slot := 0, slotAge := 0 } }

/-- An attempt at a queued frame begins (R118). -/
def beginAttempt (e : TxEntry) (s : State) : State :=
  let f := buildFrame s e.body
  { s with
    line := { s.line with
      activity := .sending e.ident f, phase := .busy, rest := none, rx := .hunting 0, driveLeft := frameBits f } }

/-- The level the station drives in the present bit time: the next bit of its frame, ACTIVE in a jam; none when it does not
drive the line, which is then at REST (R114, R119). -/
def drivenLevel (s : State) : Option LineLevel :=
  match s.line.activity with
  | .sending _ f => (frameLevels f)[frameBits f - s.line.driveLeft]?
  | .jamming => if s.line.driveLeft = 0 then none else some .active
  | .none | .holdoff _ _ => none

/-- The queued frame of an identity. -/
def findTx (n : Nat) (s : State) : Option TxEntry := s.line.queue.find? (·.ident == n)

/-- The queued frame whose send slot has come (R118). -/
def slotFrame (s : State) : Option TxEntry :=
  match s.line.activity with
  | .holdoff n slot => if s.line.phase = .idle ∧ s.line.slot = slot then findTx n s else none
  | .none | .sending _ _ | .jamming => none

/-- The attempt count of a frame rises by one (R119). -/
def countAttempt (n : Nat) (s : State) : State :=
  let q := s.line.queue.map fun e => if e.ident = n then { e with attempts := e.attempts + 1 } else e
  { s with line := { s.line with queue := q } }

/-- The frame of a collided attempt is removed, retried or dropped (R119, R120). -/
def afterCollision (n : Nat) (s : State) : State :=
  match findTx n s with
  | none => s
  | some e =>
    if e.removal then leaveTx n s
    else if e.attempts < Config.lastAttempt then countAttempt n s
    else frameDropped e.body ((leaveTx n s).bump .txDropped)

/-- A collision on the own transmission of a frame: jam, count, then retry, drop or removal (R119). -/
def collide (n : Nat) (s : State) : State :=
  let s := { s with line := { s.line with activity := .jamming, phase := .busy, driveLeft := Config.jamBits } }
  afterCollision n (s.bump .txCollision)

/-- The own drive of the line ends and the line is at REST (R118, R119). -/
def releaseLine (s : State) : State :=
  { s with line := { s.line with activity := .none, phase := .busy, rest := some 0, driveLeft := 0 } }

end Sys2Proof.Machine
end

