-- ==== Sys2Proof/Machine/Mixer.lean ====
section
/-! DEFINITION. Level, mixing and ducking: fades, attenuation, gain, contributions, duck steps, the control frame
boundary, the bus outputs, and the hand-over of key sets (R83 to R99). -/

namespace Sys2Proof.Machine

/-! ### Fades (R90, R91) -/

/-- The fade attenuation of a fade record whose count is k (R90, R91). -/
def fadeAtt (f : Fade) (k : Nat) : Nat :=
  match f.kind with
  | .fadeIn => 127 * (f.length - k) / f.length
  | .fadeOut => f.a0 + (127 - f.a0) * k / f.length

/-- The count of a fade record at a boundary: 0 at the first one after the fade begins, then one more at each, holding at
the length (R73). -/
def fadeCount (f : Fade) : Nat :=
  match f.count with
  | none => 0
  | some k => min f.length (k + 1)

/-- A fade-out whose count has reached its length (R77). -/
def fadeOver (f : Fade) : Bool := f.kind == .fadeOut && f.count.any (fun k => decide (f.length ≤ k))

/-! ### Attenuation and gain (R93, R94) -/

/-- Total attenuation (R93): level L, offset O, fade F, duck D, trim B. -/
def totalAtt (L : Nat) (O : Int) (F D B : Nat) : Nat := min 127 ((max 0 ((L : Int) + O)).toNat + F + D + B)

/-- The table M of R94. -/
def gainTable : List Nat :=
  [32768, 30935, 29205, 27571, 26029, 24573, 23198, 21900, 20675, 19519, 18427, 17396]

/-- The gain of a total attenuation (R94). -/
def gainOf (A : Nat) : Nat := if 127 ≤ A then 0 else gainTable.getD (A % 12) 0 >>> (A / 12)

/-- The contribution of a sample at a gain, rounded half up (R95). -/
def contribution (x : Sample) (G : Nat) : Int := (x.toInt * (G : Int) + 16384) / 32768

/-- A bus field names PROG (R96). -/
def feedsProg (b : Bus) : Bool := b != .fold
/-- A bus field names FOLD (R96). -/
def feedsFold (b : Bus) : Bool := b != .prog

/-- The level in force of voice v on a bus of trim B, with fade attenuation F (R93, R94). -/
def levelFor (s : State) (v : VoiceId) (F B : Nat) : Level :=
  let x := s.voice v
  let L := ((s.cue x.cue).map (·.level)).getD 0
  let A := totalAtt L x.offset F (s.mixer.duck.get x.cls) B
  ⟨A, gainOf A⟩

/-- The levels of a voice with fade attenuation F, for each bus it feeds (R86, R87, R96). -/
def mixFor (s : State) (v : VoiceId) (F : Nat) : VoiceMix :=
  let b := (s.voice v).bus
  { fade := F
    prog := if feedsProg b then some (levelFor s v F s.tables.trimProg) else none
    fold := if feedsFold b then some (levelFor s v F s.tables.trimFold) else none }

/-! ### Ducking (R88, R89) -/

/-- The duck target of a class: the greatest depth over the active keys, 0 when none is active (R88). -/
def duckTarget (r : ClassRec) (k : KeySet) : Nat :=
  (List.finRange 8).foldl (fun m j => if k.getLsbD j.val then max m (r.depth.get j) else m) 0

/-- The duck attenuation moved toward a target (R89). -/
def duckStep (r : ClassRec) (t D : Nat) : Nat :=
  if D < t then min t (D + r.attack) else if t < D then max t (D - r.release) else D

/-- Step 1 of a boundary: targets and duck attenuations of every class (R86). -/
def duckAll (s : State) : State :=
  let target := tabulate 8 fun c => duckTarget (s.cls c) s.activeKeys
  let duck := tabulate 8 fun c => duckStep (s.cls c) (target.get c) (s.mixer.duck.get c)
  { s with mixer := { s.mixer with target := target, duck := duck } }

/-- Step 2 of a boundary for one voice: its fade counts, and its gains are computed; a voice whose fade-out ends here is
given no gain (R73, R86, R91). -/
def boundaryVoice (s : State) (v : VoiceId) : State :=
  let x := s.voice v
  if x.audible then
    match x.fade with
    | none => s.setMix v (mixFor s v 0)
    | some f =>
      let k := fadeCount f
      let f' : Fade := { f with count := some k }
      let F := fadeAtt f' k
      let s' := s.setVoice v { x with fade := some f' }
      if fadeOver f' then s'.setMix v ⟨F, none, none⟩ else s'.setMix v (mixFor s' v F)
  else s.setMix v .silent

/-- A control frame boundary (R86). -/
def controlBoundary (s : State) : State :=
  let s := voiceIds.foldl boundaryVoice (duckAll s)
  { s with clock := { s.clock with hadBoundary := true } }

/-! ### Bus outputs (R95 to R99) -/

/-- The contribution of voice v under a level in force (R95). That a voice which has yet to give its sample of the frame when the
output is taken contributes 0 to it is the model's choice (notes/assumptions/27.md). -/
def voiceContribution (s : State) (v : VoiceId) (level : Option Level) : Int :=
  match s.mixer.given.get v, level with
  | some x, some l => contribution x l.gain
  | _, _ => 0

/-- The sum of PROG before the clamp (R97). -/
def progSum (s : State) : Int := (voiceIds.map fun v => voiceContribution s v (s.mix v).prog).sum
/-- The sum of FOLD before the clamp (R97). -/
def foldSum (s : State) : Int := (voiceIds.map fun v => voiceContribution s v (s.mix v).fold).sum

/-- The clamp of R97. -/
def clampSample (x : Int) : Int := max (-32768) (min 32767 x)

/-- The outputs of the present sample frame: the clamped bus sums, each sample that the clamp changes counted, or 0 while
the station is LOADING or UNCONFIGURED (R97 to R99). -/
def deliver (s : State) : State :=
  let s :=
    if s.sounding then
      let p := progSum s
      let f := foldSum s
      let s := (s.bumpIf (clampSample p != p) .clipProg).bumpIf (clampSample f != f) .clipFold
      { s with
        mixer := { s.mixer with
          progOut := BitVec.ofInt 16 (clampSample p), foldOut := BitVec.ofInt 16 (clampSample f) } }
    else { s with mixer := { s.mixer with progOut := 0, foldOut := 0 } }
  { s with clock := { s.clock with hadOutput := true } }

/-! ### Key sets (R81, R83, R174) -/

/-- The Voice Engine hands over the local asserted key set when it has changed: to the Mixer, and to the Peer Monitor,
which offers a PRESENCE (R81, R83, R177). -/
def handLocalKeys (s : State) : State :=
  let k := s.assertedKeys
  if k = s.mixer.localKeys then s
  else offerPresence { s with mixer := { s.mixer with localKeys := k } }

/-- The Peer Monitor hands over the union of the peers' key sets when it has changed (R83, R174). -/
def handPeerKeys (s : State) : State :=
  let k := s.peerUnion
  if k = s.mixer.peerKeys then s else { s with mixer := { s.mixer with peerKeys := k } }

end Sys2Proof.Machine
end

