-- ==== Sys2Proof/Machine/Voices.lean ====
section
/-! DEFINITION. The Voice Engine: entry to PLAYING, return to IDLE, cuts, fades, tail exit, store faults and the chain
walk of a fetch pointer (R20 to R22, R61 to R81). -/

namespace Sys2Proof.Machine

/-! ### Beat reference (R79) -/

/-- The beat length of the cue that voice v plays, for a voice in PLAYING or FADING (R79). -/
def State.bedBeat (s : State) (v : VoiceId) : Option Nat :=
  if (s.voice v).audible then (s.cue (s.voice v).cue).bind (·.beat) else none

/-- The bed in PLAYING or FADING whose play time is latest, the lower-numbered at equal times (R79). -/
def State.latestBed (s : State) : Option VoiceId :=
  pick (fun a b => decide (since s.now (s.voice a).playTime < since s.now (s.voice b).playTime))
    (voiceIds.filter fun v => (s.bedBeat v).isSome)

/-! ### Entry and return -/

/-- The fade record at entry to PLAYING (R64, R73). Its a0 is unused, and that it holds 0 is the model's choice
(notes/assumptions/20.md). -/
def entryFade (q : Cue) : Fade := ⟨.fadeIn, 0, q.fadeIn, none⟩

/-- A voice enters PLAYING: play time, fade-in, gains for the rest of the control frame, beat reference, duck key
(R64, R79, R81, R87). -/
def enterPlaying (v : VoiceId) (s : State) : State :=
  let x := s.voice v
  match s.cue x.cue with
  | none => s
  | some q =>
    let s := s.setVoice v { x with state := .playing, deadline := none, playTime := s.now, fade := some (entryFade q) }
    let s := s.setMix v (mixFor s v (fadeAtt (entryFade q) 0))
    let s := if q.beat.isSome then { s with beatRef := some v } else s
    handLocalKeys s

/-- The record of a voice returned to IDLE (R77). -/
def idleVoice (x : Voice) : Voice :=
  { x with
    state := .idle, deadline := none, fetchDone := true, window := none, fifo := [], inFlight := 0, debt := 0,
    underrun := false, tail := false, fade := none }

/-- A voice returns to IDLE and the return is reported to the Start Controller, with the follow-on of a natural end
(R77, R79, R81). -/
def returnIdle (v : VoiceId) (natural : Bool) (s : State) : State :=
  let x := s.voice v
  let wasRef := s.beatRef == some v
  let follow := if natural then (s.cue x.cue).bind (·.followOn) else none
  let s := (((s.setVoice v (idleVoice x)).setRequest v none).setMix v .silent).setGiven v none
  let s := if wasRef then { s with beatRef := s.latestBed } else s
  let s := handLocalKeys s
  { s with returns := s.returns ++ [⟨v, wasRef, follow⟩] }

/-! ### Cuts, fades and tail exits (R69, R73 to R76) -/

/-- The voice enters FADING with a fade-out of length T from the fade attenuation in force (R73 to R75). -/
def beginFadeOut (v : VoiceId) (T : Nat) (s : State) : State :=
  s.setVoice v { s.voice v with state := .fading, fade := some ⟨.fadeOut, (s.mix v).fade, T, none⟩ }

/-- A cut of a voice (R74). That a cut taken between the boundary at which a fade-out ends and its FADE_END begins anew is the
model's choice (notes/assumptions/26.md). -/
def cutVoice (s : State) (v : VoiceId) : State :=
  match (s.voice v).state with
  | .idle => s
  | .priming => returnIdle v false s
  | .playing | .fading => beginFadeOut v Config.cutLength s

/-- The length of a fade-out of the cue a voice plays; a fade-out of 0 is a cut (R75). -/
def fadeLength (s : State) (v : VoiceId) : Nat :=
  let t := ((s.cue (s.voice v).cue).map (·.fadeOut)).getD 0
  if t = 0 then Config.cutLength else t

/-- A fade of a voice (R75). -/
def fadeVoice (s : State) (v : VoiceId) : State :=
  match (s.voice v).state with
  | .idle | .fading => s
  | .priming => returnIdle v false s
  | .playing => beginFadeOut v (fadeLength s v) s

/-- A TAIL stop on a voice out of IDLE sets its tail-exit flag (R69). -/
def tailVoice (s : State) (v : VoiceId) : State :=
  if (s.voice v).active then s.setVoice v { s.voice v with tail := true } else s

/-- A stop of a mode on a voice (R76). -/
def stopVoice (m : StopMode) (s : State) (v : VoiceId) : State :=
  match m with
  | .cut => cutVoice s v
  | .fade => fadeVoice s v
  | .tail => tailVoice s v

/-! ### Resolution and store faults (R20 to R22) -/

/-- A window contains a whole range of samples (R20). -/
def windowCovers (w : StoreWindow) (first length : Nat) : Bool :=
  w.enable && decide (w.base ≤ first ∧ first + length ≤ w.base + w.size)

/-- The window a segment resolves to: the lowest-indexed enabled one that contains its whole range (R20). -/
def resolve (t : Tables) (g : Segment) : Option WindowId :=
  (List.finRange 4).find? fun w => windowCovers (t.store.get w) g.start g.length

/-- The fetch of a voice ends: fetch done becomes yes and it leaves the request set (R22, R66). -/
def endFetch (v : VoiceId) (s : State) : State :=
  (s.setVoice v { s.voice v with fetchDone := true }).setRequest v none

/-- A store fault on a voice's fetch pointer (R22). -/
def storeFault (v : VoiceId) (s : State) : State :=
  cutVoice (endFetch v (s.bump .storeFault)) v

/-- The fetch pointer of a voice enters the descriptor it stands in: the descriptor is resolved, and the window noted or a
store fault taken (R21). That a fault leaves the window of the former descriptor in the record until the voice is IDLE is the
model's choice (notes/assumptions/21.md). -/
def enterDescriptor (v : VoiceId) (s : State) : State :=
  let x := s.voice v
  match (s.segment x.fetchPtr.desc).bind (resolve s.tables) with
  | some w => s.setVoice v { x with window := some w }
  | none => storeFault v s

/-! ### The chain walk (R66) -/

/-- The fetch pointer goes to the next descriptor, or to chain end when there is none (R66). -/
def nextDescriptor (v : VoiceId) (g : Segment) (s : State) : State :=
  match g.next with
  | some d => enterDescriptor v (s.setVoice v { s.voice v with fetchPtr := ⟨d, 0, 0⟩ })
  | none => endFetch v s

/-- The walk of a fetch pointer that stands at the end of a pass (R66). -/
def walkOn (v : VoiceId) (g : Segment) (s : State) : State :=
  let x := s.voice v
  let p := x.fetchPtr
  if g.repeats = 255 then
    if x.tail then nextDescriptor v g (s.setVoice v { x with tail := false })
    else s.setVoice v { x with fetchPtr := ⟨p.desc, 0, min 255 (p.pass + 1)⟩ }
  else if p.pass < g.repeats then s.setVoice v { x with fetchPtr := ⟨p.desc, 0, p.pass + 1⟩ }
  else nextDescriptor v g s

/-- The fetch pointer advances n samples within its pass, and is walked on when it reaches the pass end (R28). -/
def advancePtr (v : VoiceId) (n : Nat) (s : State) : State :=
  let x := s.voice v
  match s.segment x.fetchPtr.desc with
  | none => endFetch v s
  | some g =>
    let off := x.fetchPtr.off + n
    let s := s.setVoice v { x with fetchPtr := { x.fetchPtr with off := off } }
    if g.length ≤ off then walkOn v g s else s

/-- The fetch pointer advances by d samples, walking the chain as fetching would, until the fetch ends (R27). Each round
advances at least one sample, so d rounds are enough. -/
def debtWalk (v : VoiceId) : Nat → Nat → State → State
  | 0, _, s => s
  | rounds + 1, d, s =>
    let x := s.voice v
    if d = 0 ∨ x.fetchDone then s
    else
      match s.segment x.fetchPtr.desc with
      | none => endFetch v s
      | some g =>
        let left := g.length - x.fetchPtr.off
        if d < left then advancePtr v d s else debtWalk v rounds (d - left) (advancePtr v left s)

end Sys2Proof.Machine
end

