-- ==== Sys2Proof/Machine/Port.lean ====
section
/-! DEFINITION. The Fetch Engine and the Preload Memory: the request set, grants, bursts and the preload pass (R23 to
R34). -/

namespace Sys2Proof.Machine

/-- Bit times of a burst through a window: 20, 40, 80 or 160 µs (R19). -/
def burstBits (w : StoreWindow) : Nat := 40 * 2 ^ w.access.val

/-- The device sample offset at which a window's chip select reads a store index (R19). -/
def deviceOffset (w : StoreWindow) (i : Nat) : Nat := i - w.base

/-- What the store port reads: the chip select of the outstanding burst's window with the device sample offsets of the burst's
samples in order; nothing while no burst is outstanding (R18, R19, R23). -/
def portReads (s : State) : List (WindowId × Nat) :=
  match s.fetch.burst with
  | some b => (List.range b.length).map fun i => (b.window, deviceOffset (s.tables.store.get b.window) (b.first + i))
  | none => []

/-- The burst of a granted voice is recorded (R26). -/
def issueVoice (v : VoiceId) (s : State) : State :=
  let x := s.voice v
  match s.segment x.fetchPtr.desc, x.window with
  | some g, some w =>
    let n := min Config.burstMax (g.length - x.fetchPtr.off)
    let b : Burst :=
      ⟨.voice v x.gen, w, g.start + x.fetchPtr.off, n, burstBits (s.tables.store.get w)⟩
    let s := (s.setVoice v { x with inFlight := n }).setRequest v none
    { s with fetch := { s.fetch with burst := some b } }
  | _, _ => endFetch v s

/-- The debt of a granted voice is applied to its fetch pointer before the burst is formed (R26, R27). -/
def settleDebt (v : VoiceId) (s : State) : State :=
  let d := (s.voice v).debt
  let s := debtWalk v d d s
  s.setVoice v { s.voice v with debt := 0 }

/-- The burst of the preload pass is recorded (R33). -/
def issuePreload (h : HeadWork) (s : State) : State :=
  let n := min Config.burstMax (h.length - h.read)
  let b : Burst := ⟨.preload, h.window, h.first + h.read, n, burstBits (s.tables.store.get h.window)⟩
  { s with fetch := { s.fetch with burst := some b } }

/-- The port is granted: to the requesting voice of best effective priority, else to the preload pass. A voice whose
fetch ends by its debt leaves the set without a burst and the grant is made again among the rest, so at most eight voices
are tried (R25, R26). -/
def grant : Nat → State → State
  | 0, s => s
  | rounds + 1, s =>
    match pick s.portBefore s.requesters with
    | some (v, _) =>
      let s := settleDebt v s
      if (s.voice v).fetchDone then grant rounds (s.setRequest v none) else issueVoice v s
    | none =>
      match s.fetch.pass, s.fetch.work with
      | .running, some h => issuePreload h s
      | _, _ => s

/-- The port is granted when no burst is outstanding (R25). -/
def grantIfIdle (s : State) : State := if s.fetch.burst.isNone then grant 9 s else s

/-- A voice joins or leaves the request set as its conditions direct, keeping the request time it has; a join while the
port is idle grants it (R24, R25). -/
def refreshRequest (v : VoiceId) (s : State) : State :=
  if s.requests v then
    if (s.fetch.requests.get v).isSome then s else grantIfIdle (s.setRequest v (some s.clock.micros))
  else s.setRequest v none

/-! ### Starting a voice (R34, R47, R62) -/

/-- The record of a voice started on a cue, before its positions are placed (R62). -/
def startedVoice (x : Voice) (c : LocalCue) (q : Cue) (offset : Int) : Voice :=
  { x with
    cue := c, cls := q.cls, bus := q.bus, offset := offset, gen := x.gen + 1, tail := false, debt := 0, fifo := [],
    inFlight := 0, underrun := false, fetchDone := false, window := none, fade := none, deadline := none, headPlace := 0,
    headLen := 0, headPos := 0, fetchPtr := ⟨q.first, 0, 0⟩ }

/-- A head-loaded start: PLAYING at once, the fetch pointer past the head, walked on when the head is the whole first
segment (R62, R34). -/
def startHeadLoaded (v : VoiceId) (q : Cue) (h : HeadLoc) (s : State) : State :=
  let s := s.setVoice v
    { s.voice v with headPlace := h.place, headLen := h.length, fetchPtr := ⟨q.first, h.length, 0⟩ }
  let s := enterPlaying v s
  let s := enterDescriptor v s
  match s.segment q.first with
  | some g => if g.length ≤ h.length then walkOn v g s else s
  | none => s

/-- A streaming start: PRIMING with a prime deadline, the fetch pointer at offset 0 (R62). -/
def startStreaming (v : VoiceId) (s : State) : State :=
  let s := s.setVoice v { s.voice v with state := .priming, deadline := some (later s.now Config.primeFrames) }
  enterDescriptor v s

/-- A start taken on a voice: the start stamp, the record, PLAYING or PRIMING, and the join of the request set (R47,
R62, R24). -/
def startVoice (v : VoiceId) (c : LocalCue) (offset : Int) (s : State) : State :=
  match s.cue c with
  | none => s
  | some q =>
    let s := { s with starts := { s.starts with stamps := upd s.starts.stamps v s.now } }
    let s := s.setVoice v (startedVoice (s.voice v) c q offset)
    let s :=
      match s.preload.heads.get c with
      | some h => startHeadLoaded v q h s
      | none => startStreaming v s
    refreshRequest v s

/-! ### Burst completions (R28, R29) -/

/-- The samples of a burst with their positions, which follow one another in one pass (R26). -/
def burstSamples (p : Pos) (data : List Sample) : List Held :=
  data.mapIdx fun i x => ⟨x, { p with off := p.off + i }⟩

/-- A completion applied to its voice: debt settled against the burst, the rest appended, the pointer advanced, and PRIMING
ended (R27, R28). -/
def applyBurst (v : VoiceId) (n : Nat) (data : List Sample) (s : State) : State :=
  let x := s.voice v
  let k := min x.debt n
  let samples := (burstSamples x.fetchPtr (data.take n)).drop k
  let s := s.setVoice v { x with inFlight := 0, debt := x.debt - k, fifo := x.fifo ++ samples }
  let s := advancePtr v n s
  if (s.voice v).state = .priming then enterPlaying v s else s

/-- The tag of a burst matches its voice: the voice is out of IDLE and its generation equals the tag (R28). -/
def tagMatches (s : State) (v : VoiceId) (tag : Byte) : Bool := (s.voice v).active && (s.voice v).gen == tag

/-- The outstanding burst is over and the port is free (R25). -/
def freePort (s : State) : State := { s with fetch := { s.fetch with burst := none } }

/-- A voice burst completes: applied when its tag matches, discarded whole when not; the requester rejoins and the port is
granted again (R28, R29). That the Start Controller takes a return to IDLE caused here only after the grant is the model's
choice (notes/assumptions/22.md). -/
def completeBurst (v : VoiceId) (tag : Byte) (n : Nat) (data : List Sample) (s : State) : State :=
  if tagMatches s v tag then grantIfIdle (refreshRequest v (freePort (applyBurst v n data s)))
  else grantIfIdle (freePort s)

/-! ### The preload pass (R31 to R33) -/

/-- The pass moves on from cue number c: it passes over, faults, does not fit or takes up each cue in turn, until one is
taken up or none is left (R31, R32). -/
def takeUp : Nat → Nat → State → State
  | 0, _, s => { s with fetch := { s.fetch with nextCue := 256, pass := .done, work := none } }
  | rounds + 1, c, s =>
    if h : c < 256 then
      match s.cue ⟨c, h⟩ with
      | none => takeUp rounds (c + 1) s
      | some q =>
        if q.headLen = 0 then takeUp rounds (c + 1) s
        else
          match s.segment q.first with
          | none => takeUp rounds (c + 1) (s.bump .storeFault)
          | some g =>
            match resolve s.tables g with
            | none => takeUp rounds (c + 1) (s.bump .storeFault)
            | some w =>
              if s.fetch.alloc + q.headLen ≤ Config.preloadSize then
                { s with
                  fetch := { s.fetch with
                    nextCue := c + 1, alloc := s.fetch.alloc + q.headLen, pass := .running,
                    work := some ⟨⟨c, h⟩, s.fetch.alloc, q.headLen, 0, g.start, w⟩ } }
              else takeUp rounds (c + 1) s
    else { s with fetch := { s.fetch with nextCue := 256, pass := .done, work := none } }

/-- The preload pass starts at the entry to LISTENING (R31). -/
def startPass (s : State) : State :=
  takeUp 257 0 { s with fetch := { s.fetch with nextCue := 0, alloc := 0, pass := .running, work := none } }

/-- A preload burst completes: its samples are written, and a complete head is marked loaded and the pass moves on (R33). -/
def applyPreload (h : HeadWork) (n : Nat) (data : List Sample) (s : State) : State :=
  let mem := memWriteRun s.preload.mem (h.place + h.read) (data.take n)
  let read := h.read + n
  let s := { s with preload := { s.preload with mem := mem } }
  if h.length ≤ read then
    let s := { s with preload := { s.preload with heads := upd s.preload.heads h.cue (some ⟨h.place, h.length⟩) } }
    takeUp 257 s.fetch.nextCue s
  else { s with fetch := { s.fetch with work := some { h with read := read } } }

/-- A preload burst completes and the port is granted again (R33, R25). -/
def completePreload (n : Nat) (data : List Sample) (s : State) : State :=
  match s.fetch.work with
  | some h => grantIfIdle (freePort (applyPreload h n data s))
  | none => grantIfIdle (freePort s)

/-! ### Samples needed (R67, R71) -/

/-- What a sample need finds (R67). -/
inductive Need where
  /-- The play position is within the head. -/
  | head
  /-- The oldest sample of the FIFO. -/
  | fifo (h : Held) (rest : List Held)
  /-- The sample is missing. -/
  | missing
  /-- The chain is spent. -/
  | spent
deriving DecidableEq, Repr

/-- The case of R67 a voice's need falls under. -/
def needOf (x : Voice) : Need :=
  if x.inHead then .head
  else
    match x.fifo with
    | h :: rest => .fifo h rest
    | [] => if x.fetchDone then .spent else .missing

/-- A sample of a voice is missing: 0 is given for it, the skip debt rises and holds, and a new run counts UNDERRUN (R71). -/
def missSample (v : VoiceId) (s : State) : State :=
  let x := s.voice v
  ((s.setVoice v { x with debt := min Config.debtMax (x.debt + 1), underrun := true }).setGiven v (some 0)).bumpIf
    (!x.underrun) .underrun

/-- One sample need of a voice in PLAYING or FADING (R67, R71, R78). A natural end is left in `returns`. -/
def takeSample (v : VoiceId) (s : State) : State :=
  let x := s.voice v
  match needOf x with
  | .head =>
    (s.setVoice v { x with headPos := x.headPos + 1 }).setGiven v (some (memRead s.preload.mem (x.headPlace + x.headPos)))
  | .fifo h rest =>
    refreshRequest v ((s.setVoice v { x with fifo := rest, underrun := false }).setGiven v (some h.sample))
  | .missing => missSample v s
  | .spent => if x.state = .playing then returnIdle v true s else s.setGiven v (some 0)

end Sys2Proof.Machine
end

