-- ==== Sys2Proof/Machine/Starts.lean ====
section
/-! DEFINITION. The Start Controller: admission of start requests, stealing, the pending-start queue, returns to IDLE,
beat releases, stops and SEGMENT (R37 to R59). -/

namespace Sys2Proof.Machine

/-! ### The queue (R51, R52) -/

/-- The queue without the entry of a cue. -/
def withoutEntry (c : LocalCue) (s : State) : State :=
  s.setQueue (s.starts.queue.filter fun e => e.cue != c)

/-- The queue with the entry of a cue changed, in its place. -/
def changeEntry (c : LocalCue) (f : Entry → Entry) (s : State) : State :=
  s.setQueue (s.starts.queue.map fun e => if e.cue = c then f e else e)

/-- A new entry joins: at once below 16 entries, or for the worst entry, which counts START_LOST, when its effective priority
is numerically lower; none when it is dropped (R52). -/
def joinQueue (e : Entry) (s : State) : Option State :=
  if s.starts.queue.length < Config.startQueueMax then some (s.setQueue (s.starts.queue ++ [e]))
  else
    match s.worstEntry with
    | none => none
    | some w =>
      if s.entryPriority e < s.entryPriority w then
        let s := (withoutEntry w.cue s).bump .startLost
        some (s.setQueue (s.starts.queue ++ [e]))
      else none

/-- A pending entry starts on a voice and leaves the queue (R47, R57). -/
def startEntry (e : Entry) (v : VoiceId) (s : State) : State :=
  startVoice v e.cue e.offset (withoutEntry e.cue s)

/-! ### Voice allocation (R47 to R50) -/

/-- What voice allocation gives a request. -/
inductive Allocation where
  | start (v : VoiceId)
  | steal (v : VoiceId)
  | wait
  | drop
deriving DecidableEq, Repr

/-- The victim at the polyphony limit: the oldest voice of the class in PRIMING or PLAYING (R48). -/
def limitVictim (s : State) (c : ClassId) : Option VoiceId :=
  pick s.older (voiceIds.filter fun v => (s.voice v).live && (s.voice v).cls == c)

/-- The candidates when no voice is free: voices in PRIMING or PLAYING of a class of worse priority (R49). -/
def stealCandidates (s : State) (c : ClassId) : List VoiceId :=
  voiceIds.filter fun v =>
    (s.voice v).live && decide ((s.cls c).priority < (s.cls (s.voice v).cls).priority)

/-- Of two candidates for LOWEST, the first has the numerically greater class priority, or the same and is older (R49). -/
def State.lower (s : State) (a b : VoiceId) : Bool :=
  let pa := (s.cls (s.voice a).cls).priority
  let pb := (s.cls (s.voice b).cls).priority
  decide (pb < pa) || (pa == pb && s.older a b)

/-- The victim of a class when no voice is free (R49). -/
def busyVictim (s : State) (c : ClassId) : Option VoiceId :=
  match (s.cls c).steal with
  | .none => none
  | .oldest => pick s.older (stealCandidates s c)
  | .lowest => pick s.lower (stealCandidates s c)

/-- A request without a victim waits or is dropped by its class's max wait (R50). -/
def waitOrDrop (s : State) (c : ClassId) : Allocation := if (s.cls c).maxWait = 0 then .drop else .wait

/-- Voice allocation for a class (R47 to R50). -/
def allocate (s : State) (c : ClassId) : Allocation :=
  if s.room c then
    match s.lowestFree with
    | some v => .start v
    | none =>
      match busyVictim s c with
      | some v => .steal v
      | none => waitOrDrop s c
  else
    match (s.cls c).steal with
    | .none => waitOrDrop s c
    | .oldest | .lowest =>
      match limitVictim s c with
      | some v => .steal v
      | none => waitOrDrop s c

/-! ### Admission (R39 to R50) -/

/-- Every voice in PRIMING or PLAYING with a different cue of the same nonzero choke set is faded out (R44). -/
def choke (c : LocalCue) (q : Cue) (s : State) : State :=
  if q.choke = 0 then s
  else
    (voiceIds.filter fun v =>
      (s.voice v).live && (s.voice v).cue != c && (s.cue (s.voice v).cue).any (·.choke == q.choke)).foldl fadeVoice s

/-- The request waits for a beat: NEXT_BEAT, no immediate flag, and a beat reference exists (R45). -/
def waitsForBeat (s : State) (r : Request) (q : Cue) : Bool :=
  q.mode == .nextBeat && !r.immediate && s.beatRef.isSome

/-- The voices sounding a cue (R42). -/
def liveVoices (s : State) (c : LocalCue) : List VoiceId :=
  voiceIds.filter fun v => (s.voice v).live && (s.voice v).cue == c

/-- A RESTART request for a sounding cue: room, cut, reservation, choke, beat step (R43). -/
def restartRequest (r : Request) (q : Cue) (s : State) : State :=
  match pick s.older (liveVoices s r.cue) with
  | none => s
  | some v =>
    match joinQueue ⟨r.cue, r.offset, s.now, .voice, some v⟩ s with
    | none => s.bump .startLost
    | some s' =>
      let s' := (liveVoices s r.cue).foldl cutVoice s'
      let s' := choke r.cue q s'
      if waitsForBeat s' r q then changeEntry r.cue (fun e => { e with reason := .beat }) s' else s'

/-- The request joins the queue without a reservation or is dropped with START_LOST (R45, R50, R52). -/
def joinOrLose (e : Entry) (s : State) : State :=
  match joinQueue e s with
  | some s' => s'
  | none => s.bump .startLost

/-- A steal for a request: the entry needs room, and then the victim is cut and reserved (R48, R49). -/
def stealFor (e : Entry) (v : VoiceId) (s : State) : State :=
  match joinQueue { e with reserved := some v } s with
  | some s' => cutVoice s' v
  | none => s.bump .startLost

/-- Step 7 for a request (R47 to R50). -/
def allocateRequest (r : Request) (q : Cue) (s : State) : State :=
  let e : Entry := ⟨r.cue, r.offset, s.now, .voice, none⟩
  match allocate s q.cls with
  | .start v => startVoice v r.cue r.offset s
  | .steal v => stealFor e v s
  | .wait => joinOrLose e s
  | .drop => s.bump .startLost

/-- Steps 5 to 7: choke, beat quantization, voice allocation (R44 to R50). -/
def chokeAndPlace (r : Request) (q : Cue) (s : State) : State :=
  let s := choke r.cue q s
  if waitsForBeat s r q then joinOrLose ⟨r.cue, r.offset, s.now, .beat, none⟩ s
  else allocateRequest r q s

/-- A start request taken through the steps of admission; the queue is not yet served (R39). -/
def admitRequest (r : Request) (s : State) : State :=
  if s.station = .loading then s
  else
    match s.cue r.cue with
    | none => s.bump .startInvalid
    | some q =>
      if !s.starts.mask.getLsbD q.cls.val then s.bump .startMasked
      else if s.isPending r.cue then s.bump .startLost
      else if s.cueLive r.cue then
        match q.retrigger with
        | .layer => chokeAndPlace r q s
        | .ignore => s.bump .startLost
        | .restart => restartRequest r q s
      else chokeAndPlace r q s

/-! ### Serving, beat releases and returns (R54, R55) -/

/-- A VOICE entry without reservation whose class has room (R54). -/
def servable (s : State) (e : Entry) : Bool :=
  e.reason == .voice && e.reserved.isNone && s.room (s.classOf e.cue)

/-- The queue is served: while a voice is free, the first servable entry in queue order starts on the lowest-numbered free
voice. Each round takes an entry, so seventeen rounds are enough (R54). -/
def serve : Nat → State → State
  | 0, s => s
  | rounds + 1, s =>
    match s.lowestFree, pick s.entryBefore (s.starts.queue.filter (servable s)) with
    | some v, some e => serve rounds (startEntry e v s)
    | _, _ => s

/-- The entry of a cue becomes a VOICE entry enqueued now, with a reservation as given (R55). -/
def becomeVoice (c : LocalCue) (v : Option VoiceId) (s : State) : State :=
  changeEntry c (fun e => { e with reason := .voice, enq := s.now, reserved := v }) s

/-- One BEAT entry is released (R55). -/
def releaseEntry (s : State) (c : LocalCue) : State :=
  match s.starts.queue.find? fun e => e.cue == c && e.reason == .beat with
  | none => s
  | some e =>
    match e.reserved with
    | some v => if (s.voice v).state = .idle then startEntry e v s else becomeVoice c (some v) s
    | none =>
      match allocate s (s.classOf c) with
      | .start v => startEntry e v s
      | .steal v => cutVoice (becomeVoice c (some v) s) v
      | .wait => becomeVoice c none s
      | .drop => (withoutEntry c s).bump .startLost

/-- Every BEAT entry is released, one after another in queue order (R55). That a return to IDLE caused by one release is taken
only after the others is the model's choice (notes/assumptions/24.md). -/
def releaseBeats (s : State) : State :=
  ((sortBy s.entryBefore (s.starts.queue.filter (·.reason == .beat))).map (·.cue)).foldl releaseEntry s

/-- The reserved start of a returned voice: a VOICE entry that reserves it starts on it (R54, step 2). -/
def startReserved (v : VoiceId) (s : State) : State :=
  match s.reservedFor v with
  | some e => if e.reason = .voice ∧ (s.voice v).state = .idle then startEntry e v s else s
  | none => s

/-- A voice's return to IDLE is taken: follow-on, reserved voice, beat release when it was the beat reference, serving
(R54, R55). That a return caused by the follow-on's admission or by a release is taken only after all of this one is the
model's choice (notes/assumptions/24.md). -/
def takeReturn (r : Return) (s : State) : State :=
  let s :=
    match r.followOn with
    | some c => admitRequest ⟨c, 0, false⟩ s
    | none => s
  let s := startReserved r.voice s
  let s := if r.wasRef then releaseBeats s else s
  serve 17 s

/-- The end of an event of the Start Controller: every return to IDLE that the handling caused is taken, in the order they came,
and the queue is served (R54). -/
def settle : Nat → State → State
  | 0, s => s
  | rounds + 1, s =>
    match s.returns with
    | r :: rest => settle rounds (takeReturn r { s with returns := rest })
    | [] =>
      let s := serve 17 s
      match s.returns with
      | [] => s
      | _ :: _ => settle rounds s

/-- Rounds of settling that are enough for a state: each return in the list is taken and may admit a follow-on, each voice out
of IDLE can return, and each pending entry can start a voice that returns (R54, notes/assumptions/9.md). -/
def settleRounds (s : State) : Nat := 3 * s.returns.length + 2 * s.starts.queue.length + 9

/-- The end of an event of the Start Controller (R39, R54). -/
def finish (s : State) : State := settle (settleRounds s) s

/-- The returns to IDLE that an event of another block caused are taken; an event that causes none is no event of the Start
Controller (R39, R54). -/
def settleReturns (s : State) : State := if s.returns.isEmpty then s else finish s

/-- A start request, handled whole (R39). -/
def startRequest (r : Request) (s : State) : State := finish (admitRequest r s)

/-- A start request of origin GROUP, when the cue is present (R38). -/
def groupCue (c : Option LocalCue) (s : State) : State :=
  match c with
  | some c => startRequest ⟨c, 0, false⟩ s
  | none => s

/-! ### Stops and SEGMENT (R56 to R59, R76) -/

/-- A selector matches a cue of a class (R56, R76). -/
def selects (sel : StopSel LocalCue) (c : LocalCue) (k : ClassId) : Bool :=
  match sel with
  | .cue n => n == c
  | .cls d => d == k
  | .all => true

/-- A stop request: matching entries are removed, matching voices out of IDLE are acted on, and the queue is served
(R56, R76). -/
def stop (sel : StopSel LocalCue) (m : StopMode) (s : State) : State :=
  let s := s.setQueue (s.starts.queue.filter fun e => !selects sel e.cue (s.classOf e.cue))
  let s :=
    (voiceIds.filter fun v => (s.voice v).active && selects sel (s.voice v).cue (s.voice v).cls).foldl (stopVoice m) s
  finish s

/-- Every entry and every voice in PRIMING or PLAYING of a class outside the mask is removed or faded out (R59). -/
def segmentStop (s : State) : State :=
  let s := s.setQueue (s.starts.queue.filter fun e => s.starts.mask.getLsbD (s.classOf e.cue).val)
  (voiceIds.filter fun v => (s.voice v).live && !s.starts.mask.getLsbD (s.voice v).cls.val).foldl fadeVoice s

/-- A SEGMENT is taken: number and mask are replaced, the stop flag acts, and the queue is served (R58, R59, R139). -/
def takeSegment (b0 b1 b2 : Byte) (s : State) : State :=
  let s := { s with starts := { s.starts with segment := b0, mask := b1 } }
  finish (if b2.getLsbD 0 then segmentStop s else s)

/-- A FIRE is taken: its line cue is mapped and a request of origin LINE is admitted (R137). -/
def takeFire (b0 b1 b2 b3 : Byte) (s : State) : State :=
  match fireRequest s.tables b0 b1 b2 b3 with
  | some r => startRequest r s
  | none => s

/-- A STOP is taken: it forms a stop request or acts on nothing (R138). -/
def takeStop (b0 b1 b2 b3 : Byte) (s : State) : State :=
  match stopRequest s.tables b0 b1 b2 b3 with
  | some (sel, m) => stop sel m s
  | none => s

/-- The entry of a cue has waited its class's max wait, without reservation (R53). -/
def entryExpired (s : State) (c : LocalCue) : Bool :=
  s.starts.queue.any fun e =>
    e.cue == c && e.reason == .voice && e.reserved.isNone
      && decide ((s.cls (s.classOf c)).maxWait * Config.framesPerMs ≤ s.waited e)

/-- A pending entry expires (R53). -/
def expireEntry (c : LocalCue) (s : State) : State := finish ((withoutEntry c s).bump .startLost)

end Sys2Proof.Machine
end

