-- ==== Sys2Proof/Machine/GroupViews.lean ====
section
/-! DEFINITION. The Group Controller: views and their tidying, show and epoch tests, claims, holds, releases, answer
timers, the group fields of PRESENCE, peer reports, and the show restart (R147 to R167, R187, R188). -/

namespace Sys2Proof.Machine

/-- The configuration record of a group (R147). -/
def State.groupCfg (s : State) (g : GroupId) : GroupCfg := s.tables.groups.get g

/-! ### Tidying (R152) -/

/-- The queued frames that a change of view makes stale (R152). -/
def staleFrame (g : GroupId) (old new : View) (b : TxBody) : Bool :=
  if old.epoch ≠ new.epoch then b.claims g || b.holds g || b.releases g
  else
    (old.state == .claiming && new.state != .claiming && b.claims g)
      || (old.state == .heldMe && new.state != .heldMe && (b.holds g || (old.timeoutQueued && b.releases g)))

/-- The fields of a view that leaving a state clears (R152). -/
def tidyView (old new : View) : View :=
  let w := if new.state = .heldMe ∨ new.state = .heldOther then new else { new with stale := false }
  if old.state = .heldMe ∧ w.state ≠ .heldMe then { w with timer := .stopped, timeoutQueued := false } else w

/-- The tidying that ends a handling which took the view of g from `old` to what it is now; `own` tells that the own CLAIM's
completion or drop made the change (R152). -/
def tidy (g : GroupId) (old : View) (own : Bool) (s : State) : State :=
  let new := s.view g
  let s := removeTx (staleFrame g old new) s
  let s := s.bumpIf (old.state == .claiming && new.state != .claiming && !own) .claimLost
  let s := s.setView g (tidyView old new)
  if (old.state == .heldMe) != (new.state == .heldMe) then offerPresence s else s

/-- A view is changed and the handling is tidied (R152). -/
def changeView (g : GroupId) (w : View) (s : State) : State := tidy g (s.view g) false (s.setView g w)

/-! ### Changes of a view -/

/-- The view is free at its epoch. -/
def freeView (w : View) : View := { w with state := .free, holder := none }
/-- The view is free and its epoch has advanced by one. -/
def releasedView (w : View) : View := { w with state := .free, holder := none, epoch := w.epoch + 1 }
/-- The view is held by another station x, its claim time t; the stale flag is clear (R155, R156). -/
def heldBy (x : Station) (t : Time) (w : View) : View :=
  { w with state := .heldOther, holder := some x, claimTime := t, stale := false }
/-- The claim time of a holding of an age in ms (R149). -/
def claimTimeOf (now : Time) (age : Nat) : Time := now - BitVec.ofNat 32 (Config.framesPerMs * age)
/-- A holding of one age and station is older than another (R149). -/
def olderHolding (a : Nat) (x : Station) (b : Nat) (y : Station) : Bool := decide (b < a ∨ (a = b ∧ x < y))

/-- The implicit release of a group at an epoch ahead, with the set a PRESENCE carries (R151). -/
def implicitRelease (g : GroupId) (epoch : Byte) (excl : Option StationSet) (s : State) : State :=
  let w := s.view g
  changeView g
    { freeView w with
      epoch := epoch, excl := excl.getD w.excl, stale := false, timer := .stopped, timeoutQueued := false } s

/-! ### Show restart (R188) -/

/-- A show restart to a show number, whole (R188). That it cuts a sounding timeout cue with every other voice, as R188 says, where
R163 has the timeout cue play on, is the model's choice (notes/assumptions/28.md). -/
def showRestart (n : Byte) (s : State) : State :=
  let held := groupIds.any fun g => (s.view g).state == .heldMe
  let s := { s with groups := ⟨n, Vector.replicate 16 .reset⟩ }
  let s := removeTx TxBody.ofGroups s
  let s := { s with starts := { s.starts with queue := [], segment := 0, mask := 0xFF } }
  let s := finish (voiceIds.foldl cutVoice s)
  if held then offerPresence s else s

/-! ### Show and epoch tests (R150, R151) -/

/-- The show test: what the frame is applied to, or none when its show is behind (R150). -/
def showTest (n : Byte) (s : State) : Option State :=
  if behind n s.groups.showNo then none
  else if ahead n s.groups.showNo then some (showRestart n s)
  else some s

/-- A CLAIM, HOLD or RELEASE: show test, group byte, epoch test, then the rule of its kind (R150, R151). -/
def groupFrame (showNo group epoch : Byte) (rule : GroupId → State → State) (s : State) : State :=
  match showTest showNo s with
  | none => s.bump .staleFrame
  | some s =>
    if h : group.toNat < 16 then
      let g : GroupId := ⟨group.toNat, h⟩
      if behind epoch (s.view g).epoch then s.bump .staleFrame
      else if ahead epoch (s.view g).epoch then rule g (implicitRelease g epoch none s)
      else rule g s
    else s

/-! ### Claims (R153 to R155) -/

/-- The Group Controller's checks of a claim press, and the local claim (R107, R153). -/
def localClaim (g : GroupId) (s : State) : State :=
  let w := s.view g
  if inSet s.number w.excl then s.bump .pressLate
  else
    match w.state with
    | .heldOther => s.bump .pressLate
    | .claiming | .heldMe => s
    | .free => offer (.claim g s.groups.showNo w.epoch) (s.setView g { w with state := .claiming })

/-- The answer timer at the own CLAIM's completion (R162). -/
def wonTimer (now : Time) (n : Nat) : AnswerTimer :=
  if n = 0 then .stopped else .running (later now (Config.answerUnit * n))

/-- The own CLAIM completes: HELD_ME, won cue, answer timer, tidying (R153, R162). -/
def ownClaim (g : GroupId) (s : State) : State :=
  let w := s.view g
  if w.state = .claiming then
    let s := s.setView g
      { w with
        state := .heldMe, holder := some s.number, claimTime := s.now,
        timer := wonTimer s.now (s.groupCfg g).answerTime }
    tidy g w true (groupCue (s.groupCfg g).wonCue s)
  else s

/-- The own HOLD is offered (R158). -/
def offerHold (g : GroupId) (s : State) : State := offer (.hold g s.groups.showNo (s.view g).epoch) s

/-- A CLAIM of equal show and epoch from x (R155). -/
def claimRule (x : Station) (g : GroupId) (s : State) : State :=
  let w := s.view g
  if inSet x w.excl then s
  else
    match w.state with
    | .free | .claiming => changeView g (heldBy x s.now w) s
    | .heldMe => offerHold g s
    | .heldOther => s

/-! ### Holds (R156 to R158) -/

/-- The stop of a group's won cue, mode CUT (R157, R165). -/
def cutWonCue (g : GroupId) (s : State) : State :=
  match (s.groupCfg g).wonCue with
  | some c => stop (.cue c) .cut s
  | none => s

/-- The own holding yields to the older one of x (R157). -/
def yieldTo (x : Station) (age : Nat) (g : GroupId) (s : State) : State :=
  let w := s.view g
  let s := s.setView g (heldBy x (claimTimeOf s.now age) w)
  tidy g w false ((cutWonCue g s).bump .conflict)

/-- A report of equal show and epoch that x holds the group with an age (R156, R157). -/
def holdRule (x : Station) (age : Nat) (g : GroupId) (s : State) : State :=
  let w := s.view g
  if inSet x w.excl then s
  else
    match w.state with
    | .free | .claiming => changeView g (heldBy x (claimTimeOf s.now age) w) s
    | .heldOther =>
      match w.holder with
      | some y =>
        if y = x then s
        else if olderHolding age x (holdingAge s.now w) y then
          (changeView g (heldBy x (claimTimeOf s.now age) w) s).bump .conflict
        else s
      | none => s
    | .heldMe =>
      if olderHolding age x (holdingAge s.now w) s.number then yieldTo x age g s else offerHold g s

/-! ### Releases (R159, R160) -/

/-- The exclusion set after a verdict (R160). -/
def verdictSet (v : Verdict) (exclude : Bool) (former : Option Station) (e : StationSet) : StationSet :=
  match v with
  | .wrong =>
    match former with
    | some x => if exclude then addTo x e else e
    | none => e
  | .clear => 0
  | .none | .correct | .timeout => e

/-- A RELEASE of equal show and epoch (R160). -/
def releaseRule (v : Verdict) (g : GroupId) (s : State) : State :=
  let w := s.view g
  let former := if w.state = .heldMe ∨ w.state = .heldOther then w.holder else none
  changeView g { releasedView w with excl := verdictSet v (s.groupCfg g).excludeOnWrong former w.excl } s

/-- A release request of the station: a RELEASE is offered, and the view does not change (R159). -/
def requestRelease (g : GroupId) (v : Verdict) (s : State) : State :=
  offer (.release g s.groups.showNo (s.view g).epoch v) s

/-! ### Answer timers (R161 to R163) -/

/-- The timeout release is offered and marked queued, unless a RELEASE of the group stands for it already (R163). -/
def offerTimeout (g : GroupId) (s : State) : State :=
  let s := s.setView g { s.view g with timeoutQueued := true }
  let (s', r) := offerWith (.release g s.groups.showNo (s.view g).epoch .timeout) s
  if r = .refused then s'.setView g { s'.view g with timeoutQueued := false } else s'

/-- The answer timer of a group runs in HELD_ME and its expiry has been reached (R163). -/
def answerDue (s : State) (g : GroupId) : Bool :=
  match (s.view g).timer with
  | .running t => (s.view g).state == .heldMe && reached s.now t
  | .stopped | .expired => false

/-- The answer timer expires: the timeout cue, and the timeout release (R163). -/
def answerExpiry (g : GroupId) (s : State) : State :=
  let s := s.setView g { s.view g with timer := .expired }
  offerTimeout g (groupCue (s.groupCfg g).timeoutCue s)

/-- At the completion of an own PRESENCE the timeout release of a group is offered again where it was lost (R163). -/
def reofferTimeout (s : State) (g : GroupId) : State :=
  if (s.view g).state = .heldMe ∧ (s.view g).timer = .expired ∧ ¬ s.releaseQueued g then offerTimeout g s else s

/-! ### The group fields of PRESENCE (R164, R165) -/

/-- What a grown exclusion set forbids is ended: the holder, or the own claim (R165). -/
def enforce (g : GroupId) (s : State) : State :=
  let w := s.view g
  match w.state with
  | .heldOther => if w.holder.any (inSet · w.excl) then changeView g (releasedView w) s else s
  | .heldMe =>
    if w.holder.any (inSet · w.excl) then tidy g w false (cutWonCue g (s.setView g (releasedView w))) else s
  | .claiming => if inSet s.number w.excl then changeView g (freeView w) s else s
  | .free => s

/-- The exclusion set of a frame; bit 0 is not read (R132, R164). -/
def readSet (e : StationSet) : StationSet := e &&& ~~~1

/-- The age of the first entry of the held list for a group (R164). -/
def heldEntry (l : List (Byte × BitVec 16)) (g : GroupId) : Option Nat :=
  (l.find? fun e => e.1.toNat == g.val).map fun e => e.2.toNat

/-- Steps 3 and 4 for a group whose view stands at the frame's epoch (R164). -/
def heldFields (x : Station) (g : GroupId) (entry : Option Nat) (s : State) : State :=
  match entry with
  | some age => holdRule x age g s
  | none =>
    let w := s.view g
    if w.state = .heldOther ∧ w.holder = some x then changeView g (releasedView w) s else s

/-- One group of a PRESENCE of equal show from x (R164). -/
def groupField (x : Station) (p : Presence) (s : State) (g : GroupId) : State :=
  let epoch := p.epochs.get g
  let excl := readSet (p.excl.get g)
  let w := s.view g
  if behind epoch w.epoch then s
  else
    let s :=
      if ahead epoch w.epoch then implicitRelease g epoch (some excl) s
      else s.setView g { w with excl := w.excl ||| excl }
    let s := enforce g s
    if (s.view g).epoch = epoch then heldFields x g (heldEntry p.held g) s else s

/-- Some group's epoch in the frame is behind the view's (R164). -/
def anyBehind (p : Presence) (s : State) : Bool := groupIds.any fun g => behind (p.epochs.get g) (s.view g).epoch

/-- The group fields of a PRESENCE from x (R150, R164). -/
def groupFields (x : Station) (p : Presence) (s : State) : State :=
  match showTest p.showNo s with
  | none => s.bump .staleFrame
  | some s => (groupIds.foldl (groupField x p) s).bumpIf (anyBehind p s) .staleFrame

/-! ### Peer reports (R166) -/

/-- The stale flag of every view held by x (R166). -/
def markStale (x : Station) (b : Bool) (s : State) : State :=
  groupIds.foldl (fun s g =>
    let w := s.view g
    if w.state = .heldOther ∧ w.holder = some x then s.setView g { w with stale := b } else s) s

/-- Every view held by x is freed with its epoch advanced (R166). -/
def freeHeld (x : Station) (s : State) : State :=
  groupIds.foldl (fun s g =>
    let w := s.view g
    if w.state = .heldOther ∧ w.holder = some x then changeView g (releasedView w) s else s) s

end Sys2Proof.Machine
end

