-- ==== Sys2Proof/Machine/PeerTable.lean ====
section
/-! DEFINITION. The Peer Monitor: signs of life, PRESENCE, ageing, duplicate numbers, the status answer's list, and how a
good frame is handed on (R127, R140 to R144, R169 to R179, R187). -/

namespace Sys2Proof.Machine

/-! ### Signs of life and ageing (R172, R173) -/

/-- A sign of life from x (R172, R166, R174). -/
def signOfLife (x : Station) (s : State) : State :=
  let p := s.peer x
  let s := s.setPeer x { p with state := .present, lastHeard := s.now }
  let s := if p.state = .stale then markStale x false s else s
  handPeerKeys s

/-- The sample frames since the last sign of life of x. -/
def silence (s : State) (x : Station) : Nat := since s.now (s.peer x).lastHeard

/-- x is an entry of the table in a state and silent for n periods of 48 × P sample frames (R171, R173). -/
def peerDue (s : State) (x : Station) (st : PeerState) (n : Nat) : Bool :=
  x != 0 && x != s.number && (s.peer x).state == st
    && decide (n * (Config.framesPerMs * s.tables.periodMs) ≤ silence s x)

/-- A peer turns STALE (R173, R166). -/
def turnStale (x : Station) (s : State) : State := markStale x true (s.setPeer x { s.peer x with state := .stale })

/-- A peer turns GONE: its keys are dropped and every view it holds is freed (R173, R166, R174). -/
def turnGone (x : Station) (s : State) : State :=
  freeHeld x (handPeerKeys (s.setPeer x { s.peer x with state := .gone, keys := 0 }))

/-! ### PRESENCE (R175) -/

/-- The gate of the group fields: configured, not listening, no duplicate, at most 16 held entries (R175). -/
def gated (p : Presence) : Bool :=
  p.flags.getLsbD 0 && !p.flags.getLsbD 1 && !p.flags.getLsbD 2 && decide (p.held.length ≤ 16)

/-- A PRESENCE from x after the refresh: flags, keys, and the group fields when gated in (R175). -/
def takePresence (x : Station) (p : Presence) (s : State) : State :=
  let s := s.setPeer x
    { s.peer x with
      configured := p.flags.getLsbD 0, listening := p.flags.getLsbD 1, duplicate := p.flags.getLsbD 2, keys := p.keys }
  let s := handPeerKeys s
  if gated p then groupFields x p s else s

/-! ### QUERY and STATUS (R141, R143) -/

/-- A QUERY from x: the answer list takes it, and a STATUS is offered when the list was empty (R141). -/
def takeQuery (x : Station) (clear : Bool) (s : State) : State :=
  match s.answers with
  | none => offer .status { s with answers := some ⟨addTo x 0, clear⟩ }
  | some a => { s with answers := some ⟨addTo x a.queriers, a.clear || clear⟩ }

/-- Each counter reduced by the value a STATUS payload reported for it (R143). -/
def reduceCounters (p : List Byte) (s : State) : State :=
  { s with
    counters := tabulate 16 fun i =>
      s.counters.get i - (word16 (byteAt p (43 + 2 * i.val)) (byteAt p (44 + 2 * i.val))).toNat }

/-- The own STATUS completes (R143). -/
def statusDone (p : List Byte) (s : State) : State :=
  let s := if s.answers.any (·.clear) then reduceCounters p s else s
  { s with answers := none }

/-! ### RESTART (R187) -/

/-- A RESTART is taken by its show number (R187). -/
def takeRestart (n : Byte) (s : State) : State :=
  if behind n s.groups.showNo then s.bump .staleFrame
  else if ahead n s.groups.showNo then showRestart n s
  else s

/-! ### Good frames (R127) -/

/-- A good frame is taken by its source and destination: evidence of a duplicate, a sign of life alone, or a sign of life
and its owner's handling (R127, R172, R176). During LOADING it is handed to no block. -/
def handOn (src : Station) (dst : Byte) (owner : State → State) (s : State) : State :=
  if s.station = .loading then s
  else if src = s.number then { s with peers := { s.peers with duplicate := true } }
  else
    let s := signOfLife src s
    if dst = 0 ∨ dst = BitVec.ofNat 8 s.number.val then owner s else s

/-- A good frame has been received: the reception ends and the frame is handed on (R125, R127). -/
def receive (src : Station) (dst : Byte) (owner : State → State) (s : State) : State :=
  handOn src dst owner (endReception .frameEnded s)

/-- A frame can be received: the station is receiving, is not driving the line, and the source is a station (R118, R125,
R126). The frame received is the command's own, whatever bytes the receive state holds (notes/assumptions/13.md). -/
def canReceive (s : State) (src : Station) : Bool := !s.driving && s.receiving && src != 0

end Sys2Proof.Machine
end

