-- ==== Sys2Proof/Machine/FrameEvents.lean ====
section
/-! DEFINITION. The meanings of the ten good frames as received (R127, R136 to R141, R155, R156, R160, R175, R187). -/

namespace Sys2Proof.Machine

/-- FIRE_RECEIVED (R137). -/
def execFireReceived (src : Station) (dst b0 b1 b2 b3 : Byte) (s : State) : Result :=
  event s (canReceive s src) (receive src dst (takeFire b0 b1 b2 b3))

/-- STOP_RECEIVED (R138). -/
def execStopReceived (src : Station) (dst b0 b1 b2 b3 : Byte) (s : State) : Result :=
  event s (canReceive s src) (receive src dst (takeStop b0 b1 b2 b3))

/-- SEGMENT_RECEIVED (R139). -/
def execSegmentReceived (src : Station) (b0 b1 b2 : Byte) (s : State) : Result :=
  event s (canReceive s src) (receive src 0 (takeSegment b0 b1 b2))

/-- CLAIM_RECEIVED (R150, R151, R155). -/
def execClaimReceived (src : Station) (showNo group epoch : Byte) (s : State) : Result :=
  event s (canReceive s src) (receive src 0 (groupFrame showNo group epoch (claimRule src)))

/-- HOLD_RECEIVED (R150, R151, R156, R157). -/
def execHoldReceived (src : Station) (showNo group epoch : Byte) (age : BitVec 16) (s : State) : Result :=
  event s (canReceive s src) (receive src 0 (groupFrame showNo group epoch (holdRule src age.toNat)))

/-- RELEASE_RECEIVED (R150, R151, R160). -/
def execReleaseReceived (src : Station) (showNo group epoch verdict : Byte) (s : State) : Result :=
  event s (canReceive s src) (receive src 0 (groupFrame showNo group epoch (releaseRule (verdictOfCode verdict))))

/-- PRESENCE_RECEIVED (R175). -/
def execPresenceReceived (src : Station) (p : Presence) (s : State) : Result :=
  event s (canReceive s src) (receive src 0 (takePresence src p))

/-- QUERY_RECEIVED (R141). -/
def execQueryReceived (src : Station) (dst b0 : Byte) (s : State) : Result :=
  event s (canReceive s src && dst != 0) (receive src dst (takeQuery src (b0.getLsbD 0)))

/-- STATUS_RECEIVED: a sign of life alone; nothing of the payload is read (R127). -/
def execStatusReceived (src : Station) (dst : Byte) (_payload : Vector Byte 76) (s : State) : Result :=
  event s (canReceive s src) (receive src dst id)

/-- RESTART_RECEIVED (R187, R188). -/
def execRestartReceived (src : Station) (dst showNo : Byte) (s : State) : Result :=
  event s (canReceive s src) (receive src dst (takeRestart showNo))

end Sys2Proof.Machine
end

