-- ==== Sys2Proof/Machine/LineEvents.lean ====
section
/-! DEFINITION. The meanings of the commands of the studio line other than good frames: the gap, slots, attempts, their
completion and collision, and receptions that fail (R115, R116, R118, R119, R125, R126, R128). -/

namespace Sys2Proof.Machine

/-- The line has been at REST for the interframe gap (R115). -/
def gapDue (s : State) : Bool :=
  s.line.phase == .busy && !s.driving && s.line.rest.any fun n => decide (Config.gapBits ≤ n)

/-- INTERFRAME_GAP_COMPLETE (R115, R116). -/
def execInterframeGapComplete (s : State) : Result := event s (gapDue s) gapComplete

/-- LINE_BUSY: ACTIVE level from another station, while this one does not drive the line (R115, R116). -/
def execLineBusy (s : State) : Result := event s (!s.driving) hearActive

/-- A reference slot falls here: a slot boundary in IDLE, with an eligible frame and no holdoff (R116). -/
def referenceDue (s : State) : Bool :=
  s.line.phase == .idle && s.line.slotAge == 0 && s.line.activity == .none && s.candidate.isSome

/-- A holdoff begins at the present slot (R116). -/
def takeReference (s : State) : State := beginHoldoff s.line.slot s

/-- REFERENCE_SLOT (R116). -/
def execReferenceSlot (s : State) : Result := event s (referenceDue s) takeReference

/-- The send slot of a queued frame begins (R118). -/
def sendDue (s : State) : Bool := s.line.slotAge == 0 && (slotFrame s).isSome

/-- The attempt whose send slot begins (R118). -/
def takeSendSlot (s : State) : State :=
  match slotFrame s with
  | some e => beginAttempt e s
  | none => s

/-- SEND_SLOT (R118). -/
def execSendSlot (s : State) : Result := event s (sendDue s) takeSendSlot

/-- The frame of the attempt in progress, with the identity it has in the queue (R118). -/
def sentFrame (s : State) : Option (Nat × Frame) :=
  match s.line.activity with
  | .sending n f => some (n, f)
  | .none | .holdoff _ _ | .jamming => none

/-- What the completion of an own frame does at this station, by its payload as sent (R128). That at a PRESENCE's completion the
groups whose timeout release is to be offered again are taken in ascending order is the model's choice
(notes/assumptions/25.md). -/
def ownCompletion (b : TxBody) (p : List Byte) (s : State) : State :=
  match b with
  | .fire _ _ => takeFire (byteAt p 0) (byteAt p 1) (byteAt p 2) (byteAt p 3) s
  | .stop _ _ => takeStop (byteAt p 0) (byteAt p 1) (byteAt p 2) (byteAt p 3) s
  | .segment _ _ _ => takeSegment (byteAt p 0) (byteAt p 1) (byteAt p 2) s
  | .claim g n e => groupFrame n (BitVec.ofNat 8 g.val) e ownClaim s
  | .hold _ _ _ => s
  | .release g n e v => groupFrame n (BitVec.ofNat 8 g.val) e (releaseRule v) s
  | .presence => groupIds.foldl reofferTimeout (startPresenceTimer s)
  | .status => statusDone p s

/-- The transmission of a frame completes: it leaves the queue, the line is released and the completion is reported
(R118, R128). -/
def completeAttempt (n : Nat) (f : Frame) (s : State) : State :=
  let s' := releaseLine (leaveTx n s)
  match findTx n s with
  | some e => ownCompletion e.body f.payload s'
  | none => s'

/-- The own transmission has read back its last bit (R118). -/
def transmitDue (s : State) : Bool := (sentFrame s).isSome && s.line.driveLeft == 0

/-- The completion of the attempt in progress (R118, R128). -/
def takeTransmit (s : State) : State :=
  match sentFrame s with
  | some (n, f) => completeAttempt n f s
  | none => s

/-- TRANSMIT_COMPLETE (R128). -/
def execTransmitComplete (s : State) : Result := event s (transmitDue s) takeTransmit

/-- The collision of the attempt in progress (R119). -/
def takeCollision (s : State) : State :=
  match sentFrame s with
  | some (n, _) => collide n s
  | none => s

/-- COLLISION (R119). -/
def execCollision (s : State) : Result := event s (sentFrame s).isSome takeCollision

/-- The own jam has lasted its time (R119). -/
def jamDue (s : State) : Bool := s.line.activity == .jamming && s.line.driveLeft == 0

/-- The own jam ends: the line is released (R119). That ACTIVE which goes on is another station's jam is the model's choice
(notes/assumptions/13.md). -/
def endJam (s : State) : State :=
  let s := releaseLine s
  { s with line := { s.line with rx := .activeHeld } }

/-- JAM_END (R119). -/
def execJamEnd (s : State) : Result := event s (jamDue s) endJam

/-- The receive state after a reception that is no frame received: between bytes, or after the start bit of a fragment (R125). -/
def afterBad : RxEnd → RxState
  | .rest | .active _ => .hunting 0
  | .trailing => .hunting 1

/-- A reception that is not a frame received: it ends, and counts unless it is a jammed fragment. That bytes which follow one
whose CRC does not agree, before any gap, count nothing more is the model's choice (R125, notes/assumptions/13.md). -/
def badReception (r : Reception) (s : State) : State :=
  (endReception (afterBad r.ending) s).bumpIf (rxOutcome r == .bad) .rxBad

/-- The receive state is one in which a reception can end so: a fragment after a frame in the bit time after it, a stop bit at
ACTIVE and REST for a start bit while receiving (R125). -/
def rxEnds (x : RxState) (e : RxEnd) : Bool :=
  match x, e with
  | .receiving _ _, .rest | .receiving _ _, .active _ | .broken _ _, .active _ | .frameEnded, .trailing => true
  | _, _ => false

/-- A reception in progress ends and is no frame received (R125). -/
def rxBadDue (r : Reception) (s : State) : Bool :=
  !s.driving && rxEnds s.line.rx r.ending && (match rxOutcome r with | .good _ => false | .bad | .jammed => true)

/-- RX_BAD (R125). -/
def execRxBad (r : Reception) (s : State) : Result := event s (rxBadDue r s) (badReception r)

/-- A frame received that fails a protocol check: it counts and is discarded (R126). -/
def faultyFrame (s : State) : State := (endReception .frameEnded s).bump .rxProtocol

/-- RX_PROTOCOL (R126). -/
def execRxProtocol (f : Frame) (s : State) : Result :=
  event s (!s.driving && s.receiving && (protocolFault f).isSome) faultyFrame

end Sys2Proof.Machine
end

