-- ==== Sys2Proof/Machine/SoundEvents.lean ====
section
/-! DEFINITION. The meanings of the commands of the voices, the mixer, the pending-start queue and the store port: samples
needed and output, boundaries, fades, deadlines, beats, expiries and bursts (R28, R33, R53, R63, R67, R77, R80, R86,
R97). -/

namespace Sys2Proof.Machine

/-- Voice v needs its sample of the present sample frame (R67). -/
def needDue (s : State) (v : VoiceId) : Bool := (s.voice v).audible && (s.mixer.given.get v).isNone

/-- VOICE_SAMPLE_NEED (R67, R71, R78). -/
def execVoiceSampleNeed (v : VoiceId) (s : State) : Result :=
  event s (needDue s v) fun s => settleReturns (takeSample v s)

/-- BUS_SAMPLE_OUTPUT, once in a sample frame (R97). -/
def execBusSampleOutput (s : State) : Result := event s (!s.clock.hadOutput) deliver

/-- A control frame boundary falls in the present sample frame and has not been taken (R86). -/
def boundaryDue (s : State) : Bool := s.mixer.phase == 0 && !s.clock.hadBoundary

/-- CONTROL_FRAME_BOUNDARY (R86). -/
def execControlFrameBoundary (s : State) : Result := event s (boundaryDue s) controlBoundary

/-- The fade-out of voice v has reached its end (R77). -/
def fadeDue (s : State) (v : VoiceId) : Bool := (s.voice v).state == .fading && (s.voice v).fade.any fadeOver

/-- FADE_END (R77, R54). -/
def execFadeEnd (v : VoiceId) (s : State) : Result := event s (fadeDue s v) fun s => finish (returnIdle v false s)

/-- The prime deadline of voice v is reached (R63). -/
def primeDue (s : State) (v : VoiceId) : Bool := (s.voice v).state == .priming && expired s.now (s.voice v).deadline

/-- At its prime deadline a voice enters PLAYING with its FIFO empty: its sample of this sample frame is missing, and it begins
in underrun (R63, R64, R71). -/
def primeExpiry (v : VoiceId) (s : State) : State := missSample v (enterPlaying v s)

/-- PRIME_DEADLINE (R63, R64, R71). -/
def execPrimeDeadline (v : VoiceId) (s : State) : Result := event s (primeDue s v) (primeExpiry v)

/-- The need of a PLAYING voice in the present sample frame is still to be taken and finds no sample as the state stands: it
may be the voice's natural end (R78). -/
def endOpen (s : State) (v : VoiceId) : Bool :=
  (s.voice v).state == .playing && needDue s v && !(s.voice v).inHead && (s.voice v).fifo.isEmpty

/-- A beat boundary of the reference voice falls in the present sample frame and has not been taken; a successor in the frame
has a boundary of its own (R79). It is not reported where the voice's natural end falls in the frame, so it waits for a need
that may be that end (R80, notes/assumptions/23.md). -/
def beatDue (s : State) : Bool :=
  match s.beatRef with
  | none => false
  | some v =>
    match s.bedBeat v with
    | none => false
    | some b =>
      let e := since s.now (s.voice v).playTime
      !s.clock.hadBeat.get v && !endOpen s v && decide (0 < e ∧ e % b = 0)

/-- The beat boundary of a voice in the present sample frame has been reported (R80). -/
def markBeat (v : VoiceId) (s : State) : State :=
  { s with clock := { s.clock with hadBeat := upd s.clock.hadBeat v true } }

/-- A beat boundary of the reference voice is reported: every BEAT entry is released (R80, R55). -/
def takeBeat (s : State) : State :=
  match s.beatRef with
  | some v => finish (releaseBeats (markBeat v s))
  | none => s

/-- BEAT_BOUNDARY (R80). -/
def execBeatBoundary (s : State) : Result := event s (beatDue s) takeBeat

/-- PENDING_EXPIRY of the entry of a cue (R53). -/
def execPendingExpiry (c : LocalCue) (s : State) : Result := event s (entryExpired s c) (expireEntry c)

/-- The voice, tag and length of an outstanding voice burst whose time has run (R19, R28). -/
def voiceBurstDue (s : State) : Option (VoiceId × Byte × Nat) :=
  match s.fetch.burst with
  | some ⟨.voice v tag, _, _, n, 0⟩ => some (v, tag, n)
  | _ => none

/-- The length of an outstanding preload burst whose time has run (R19, R33). -/
def preloadBurstDue (s : State) : Option Nat :=
  match s.fetch.burst with
  | some ⟨.preload, _, _, n, 0⟩ => some n
  | _ => none

/-- The completion of the voice burst that is due, with the samples read (R28, R29). -/
def takeVoiceBurst (data : List Sample) (s : State) : State :=
  match voiceBurstDue s with
  | some (v, tag, n) => settleReturns (completeBurst v tag n data s)
  | none => s

/-- BURST_COMPLETE (R28, R29). -/
def execBurstComplete (data : Vector Sample 64) (s : State) : Result :=
  event s (voiceBurstDue s).isSome (takeVoiceBurst data.toList)

/-- The completion of the preload burst that is due, with the samples read (R33). -/
def takePreloadBurst (data : List Sample) (s : State) : State :=
  match preloadBurstDue s with
  | some n => settleReturns (completePreload n data s)
  | none => s

/-- PRELOAD_BURST_COMPLETE (R33). -/
def execPreloadBurstComplete (data : Vector Sample 64) (s : State) : Result :=
  event s (preloadBurstDue s).isSome (takePreloadBurst data.toList)

end Sys2Proof.Machine
end

