-- ==== Sys2Proof/Machine/TriggerUnit.lean ====
section
/-! DEFINITION. The Trigger Unit: filtering, recognition, and the actions of recognized presses and releases (R101 to
R107). -/

namespace Sys2Proof.Machine

/-- The binding of an input (R101). -/
def State.binding (s : State) (i : InputId) : Option Binding := s.tables.triggers.get i

/-- The contact level read through a polarity; true is ACTIVE (R102). -/
def rawLevel (p : Polarity) (closed : Bool) : Bool :=
  match p with
  | .closed => closed
  | .opened => !closed

/-- The contact of an input changes; a bound input's filter timer is started again, outside LOADING (R103, R104). -/
def contactChange (i : InputId) (closed : Bool) (s : State) : State :=
  let t := s.triggers
  let s' := { s with triggers := { t with contacts := upd t.contacts i closed } }
  if s.station = .loading ∨ t.contacts.get i = closed then s'
  else
    match s.binding i with
    | none => s'
    | some b =>
      { s' with
        triggers := { s'.triggers with
          raw := upd t.raw i (rawLevel b.polarity closed)
          timers := upd t.timers i (some (later s.now (Config.framesPerMs * b.filterMs))) } }

/-- The line is not available to a trigger action (R106). -/
def lineUnavailable (s : State) : Bool := s.station == .listening || s.silent

/-- The group is enabled for a CLAIM action from an input (R107, R147). -/
def claimEnabled (s : State) (i : InputId) (g : GroupId) : Bool :=
  (s.groupCfg g).enabled && (s.groupCfg g).claimTrigger.all (· == i)

/-- An action that needs the line: refused with EARLY when the line is not available (R106). -/
def lineAction (s : State) (a : State → State) : State := if lineUnavailable s then s.bump .early else a s

/-- A CLAIM action of an input (R107). -/
def claimAction (i : InputId) (g : GroupId) (s : State) : State :=
  lineAction s fun s =>
    if !claimEnabled s i g then s
    else if s.peers.duplicate then s.bump .early
    else localClaim g s

/-- An action is handed to the owning block (R105). -/
def perform (i : InputId) (a : Action) (s : State) : State :=
  match a with
  | .play c => startRequest ⟨c, 0, false⟩ s
  | .stopLocal sel m => stop sel m s
  | .send c o => lineAction s (offer (.fire c o))
  | .stopLine sel m => lineAction s (offer (.stop sel m))
  | .claim g => claimAction i g s
  | .release g v => lineAction s (requestRelease g v)
  | .segment n m b => lineAction s (offer (.segment n m b))

/-- The action of a recognized press or release (R103). -/
def actionOf (b : Binding) (pressed : Bool) : Option Action := if pressed then b.press else b.release

/-- The filter timer of a bound input expires (R103). -/
def filterExpiry (i : InputId) (b : Binding) (s : State) : State :=
  let t := s.triggers
  let level := t.raw.get i
  let s := { s with triggers := { t with timers := upd t.timers i none } }
  if level = t.recognized.get i then s
  else
    let s := { s with triggers := { s.triggers with recognized := upd t.recognized i level } }
    match actionOf b level with
    | some a => perform i a s
    | none => s

/-- At the entry to LISTENING each bound input takes its present raw level as its recognized level (R104). -/
def adoptLevels (s : State) : State :=
  let level (i : InputId) : Bool :=
    match s.binding i with
    | some b => rawLevel b.polarity (s.triggers.contacts.get i)
    | none => false
  { s with
    triggers := { s.triggers with
      raw := tabulate 16 level, recognized := tabulate 16 level, timers := Vector.replicate 16 none } }

end Sys2Proof.Machine
end

