-- ==== Sys2Proof/Machine/Image.lean ====
section
/-! DEFINITION. The configuration image: its checks, its records with their clamps, and the tables built from it (R3, R4,
R7, R8, R11 to R14, R18, R96, R102, R108, R134, R135, R147, R170, R182, R183). -/

namespace Sys2Proof.Machine

/-! ### Bytes -/

/-- Byte i of the EEPROM; where it does not answer it reads 0xFF (R182). -/
def imageByte (m : List Byte) (i : Nat) : Byte := m.getD i 0xFF
/-- Byte i as a number. -/
def image8 (m : List Byte) (i : Nat) : Nat := (imageByte m i).toNat
/-- The 16-bit field at i, most significant byte first (R134). -/
def image16 (m : List Byte) (i : Nat) : Nat := image8 m i * 256 + image8 m (i + 1)
/-- The 24-bit field at i. -/
def image24 (m : List Byte) (i : Nat) : Nat := image16 m i * 256 + image8 m (i + 2)
/-- The 32-bit field at i. -/
def image32 (m : List Byte) (i : Nat) : Nat := image24 m i * 256 + image8 m (i + 3)
/-- Bit b of byte i. -/
def imageBit (m : List Byte) (i b : Nat) : Bool := (imageByte m i).getLsbD b

/-! ### Sections (R134) -/

/-- The eight sections in their order. -/
inductive Sect where
  | cue | segment | cls | listen | store | group | trigger | lamp
deriving DecidableEq, Repr

/-- The record size of a section (R135). -/
def recordSize : Sect → Nat
  | .cue => 20 | .segment => 14 | .cls => 18 | .listen => 7
  | .store => 8 | .group => 7 | .trigger => 15 | .lamp => 4

/-- The record count of a section from the header (R134). -/
def recordCount (m : List Byte) : Sect → Nat
  | .cue => image16 m 8 | .segment => image16 m 10 | .cls => image8 m 12 | .listen => image8 m 13
  | .store => image8 m 14 | .group => image8 m 15 | .trigger => image8 m 16 | .lamp => image8 m 17

/-- The sections in image order. -/
def sections : List Sect := [.cue, .segment, .cls, .listen, .store, .group, .trigger, .lamp]

/-- The bytes of a section. -/
def sectionBytes (m : List Byte) (k : Sect) : Nat := recordCount m k * recordSize k

/-- The offset of a section: 18, plus the sections before it (R134). -/
def sectionStart (m : List Byte) (k : Sect) : Nat :=
  18 + ((sections.takeWhile (· != k)).map (sectionBytes m)).sum

/-- The index a record begins with; a segment's is its 16-bit field's bits 8..0 (R135). -/
def recordIndex (m : List Byte) (k : Sect) (off : Nat) : Nat :=
  match k with
  | .segment => image16 m off % 512
  | .cue | .cls | .listen | .store | .group | .trigger | .lamp => image8 m off

/-- The offset of the last record of a section that carries an index, if one does (R134). -/
def findRecord (m : List Byte) (k : Sect) (index : Nat) : Option Nat :=
  ((List.range (recordCount m k)).reverse.map fun j => sectionStart m k + j * recordSize k).find?
    fun off => recordIndex m k off == index

/-! ### The checks (R182) -/

/-- The image length L. -/
def imageLength (m : List Byte) : Nat := image16 m 2

/-- The signature check. -/
def signatureOk (m : List Byte) : Bool := image8 m 0 == 0x5A && image8 m 1 == 0xC8

/-- The length check. -/
def lengthCheck (m : List Byte) : Bool :=
  decide (imageLength m ≤ Config.imageMax ∧ imageLength m = 18 + (sections.map (sectionBytes m)).sum + 2)

/-- The sum of the bytes before the stored sum, modulo 65,536. -/
def imageSum (m : List Byte) : Nat := ((List.range (imageLength m - 2)).map (image8 m)).sum % 65536

/-- The sum check. -/
def sumOk (m : List Byte) : Bool := imageSum m == image16 m (imageLength m - 2)

/-- The image passes its three checks, taken in order (R182). -/
def imageOk (m : List Byte) : Bool := signatureOk m && lengthCheck m && sumOk m

/-! ### Records -/

/-- A number as an index of a table of n entries, the last one for a number beyond. -/
def clampFin (n : Nat) [NeZero n] (k : Nat) : Fin n := Fin.ofNat n (min k (n - 1))

/-- A segment record, clamped; its next is not yet compared with the table (R4, R135). -/
def readSegment (m : List Byte) (o : Nat) : Segment where
  start := image32 m (o + 2) % 2 ^ 25
  length := max 1 (min (2 ^ 24) (image32 m (o + 6)))
  repeats := image8 m (o + 10)
  next := if imageBit m (o + 11) 0 then some (Fin.ofNat 512 (image16 m (o + 12))) else none

/-- A beat length clamped to its range (R3). -/
def clampBeat (n : Nat) : Nat := max 480 (min 96000 n)

/-- A cue record, clamped (R3, R135). -/
def readCue (m : List Byte) (o : Nat) : Cue where
  cls := clampFin 8 (image8 m (o + 1))
  first := Fin.ofNat 512 ((image8 m (o + 2) % 2) * 256 + image8 m (o + 3))
  level := min 126 (image8 m (o + 4))
  bus := match image8 m (o + 5) with
    | 1 => .fold | 2 => .both | _ => .prog
  fadeIn := min 8191 (image16 m (o + 6))
  fadeOut := min 8191 (image16 m (o + 8))
  mode := match image8 m (o + 10) with
    | 1 => .nextBeat | _ => .immediate
  retrigger := match image8 m (o + 11) with
    | 1 => .layer | 2 => .ignore | _ => .restart
  choke := min 15 (image8 m (o + 12))
  headLen := min 4096 (image16 m (o + 13))
  followOn := if imageBit m (o + 15) 0 then some (Fin.ofNat 256 (image8 m (o + 16))) else none
  beat := if imageBit m (o + 15) 1 then some (clampBeat (image24 m (o + 17))) else none

/-- A class record, clamped (R7, R135). -/
def readClass (m : List Byte) (o : Nat) : ClassRec where
  priority := min 7 (image8 m (o + 1))
  polyphony := max 1 (min 8 (image8 m (o + 2)))
  steal := match image8 m (o + 3) with
    | 1 => .oldest | 2 => .lowest | _ => .none
  maxWait := min 2000 (image16 m (o + 4))
  key := if imageBit m (o + 6) 0 ∧ image8 m (o + 7) < 8 then some (Fin.ofNat 8 (image8 m (o + 7))) else none
  depth := tabulate 8 fun j => min 126 (image8 m (o + 8 + j.val))
  attack := max 1 (min 127 (image8 m (o + 16)))
  release := max 1 (min 127 (image8 m (o + 17)))

/-- A listen window record (R8, R135). -/
def readListen (m : List Byte) (o : Nat) : ListenWindow where
  enable := imageBit m (o + 1) 0
  base := BitVec.ofNat 12 (image16 m (o + 2))
  mask := BitVec.ofNat 12 (image16 m (o + 4))
  translate := imageBit m (o + 1) 1
  localBase := Fin.ofNat 256 (image8 m (o + 6))

/-- A store window record: the exponent is clamped, then the base rounded down to a multiple of the size (R18, R135). -/
def readStore (m : List Byte) (o : Nat) : StoreWindow :=
  let size := 2 ^ max 16 (min 24 (image8 m (o + 6)))
  let base := image32 m (o + 2) % 2 ^ 25
  ⟨imageBit m (o + 1) 0, base - base % size, size, Fin.ofNat 4 (image8 m (o + 7))⟩

/-- A stop mode of a trigger action; a code naming none is CUT (R102). -/
def readMode (n : Nat) : StopMode :=
  match n with
  | 1 => .fade | 2 => .tail | _ => .cut

/-- A stop selector of a trigger action; a code naming none gives no action (R135). -/
def readSelector {α : Type} (sel : Nat) (cue : α) (cls : Nat) : Option (StopSel α) :=
  match sel with
  | 0 => some (.cue cue) | 1 => some (.cls (clampFin 8 cls)) | 2 => some .all | _ => none

/-- A trigger action from its code at o and its five parameter bytes (R102, R135). -/
def readAction (m : List Byte) (o : Nat) : Option Action :=
  let p (i : Nat) : Nat := image8 m (o + 1 + i)
  let w (i : Nat) : Nat := image16 m (o + 1 + i)
  match image8 m o with
  | 1 => some (.play (Fin.ofNat 256 (p 0)))
  | 2 => some (.send (BitVec.ofNat 12 (w 0)) (clampOffset (imageByte m (o + 3)).toInt))
  | 3 => (readSelector (p 0) (Fin.ofNat 256 (p 1)) (p 1)).map fun sel => .stopLocal sel (readMode (p 2))
  | 4 => (readSelector (p 0) (BitVec.ofNat 12 (w 1)) (w 1)).map fun sel => .stopLine sel (readMode (p 3))
  | 5 => some (.claim (clampFin 16 (p 0)))
  | 6 => some (.release (clampFin 16 (p 0)) (verdictOfCode (imageByte m (o + 2))))
  | 7 => some (.segment (imageByte m (o + 1)) (imageByte m (o + 2)) (imageBit m (o + 3) 0))
  | _ => none

/-- A PLAY of an invalid cue is removed (R102). -/
def keepAction (cues : Vector (Option Cue) 256) (a : Option Action) : Option Action :=
  match a with
  | some (.play c) => if (cues.get c).isSome then a else none
  | _ => a

/-- A trigger record, clamped, its PLAY actions checked (R102, R135). -/
def readBinding (m : List Byte) (cues : Vector (Option Cue) 256) (o : Nat) : Binding where
  polarity := match image8 m (o + 1) with
    | 1 => .opened | _ => .closed
  filterMs := max 1 (min 50 (image8 m (o + 2)))
  press := keepAction cues (readAction m (o + 3))
  release := keepAction cues (readAction m (o + 9))

/-- A cue reference made absent when it names an invalid cue (R14, R147). -/
def keepCue (cues : Vector (Option Cue) 256) (c : Option LocalCue) : Option LocalCue :=
  c.filter fun n => (cues.get n).isSome

/-- A group record, clamped, its references checked (R147, R135). -/
def readGroup (m : List Byte) (cues : Vector (Option Cue) 256) (bound : Vector (Option Binding) 16) (o : Nat) : GroupCfg where
  enabled := imageBit m (o + 1) 0
  excludeOnWrong := imageBit m (o + 1) 1
  claimTrigger :=
    if imageBit m (o + 1) 2 ∧ image8 m (o + 2) < 16 then
      (some (Fin.ofNat 16 (image8 m (o + 2)))).filter fun i => (bound.get i).isSome
    else none
  wonCue := keepCue cues (if imageBit m (o + 1) 3 then some (Fin.ofNat 256 (image8 m (o + 3))) else none)
  timeoutCue := keepCue cues (if imageBit m (o + 1) 4 then some (Fin.ofNat 256 (image8 m (o + 4))) else none)
  answerTime := min 600 (image16 m (o + 5))

/-- A lamp record; a source or parameter beyond its range makes it NONE (R108, R135). -/
def readLamp (m : List Byte) (o : Nat) : LampSource :=
  let n := image8 m (o + 2)
  match image8 m (o + 1) with
  | 1 => if h : n < 16 then .group ⟨n, h⟩ (imageBit m (o + 3) 0) else .none
  | 2 => .cue (Fin.ofNat 256 n)
  | 3 => if h : n < 8 then .cls ⟨n, h⟩ else .none
  | 4 => .clock
  | 5 => .station
  | 6 => if h : n < 16 then .trigger ⟨n, h⟩ else .none
  | _ => .none

/-- A trim: clamped, and 0 when its presence bit is clear (R96). -/
def readTrim (m : List Byte) (bit off : Nat) : Nat := if imageBit m 5 bit then min 126 (image8 m off) else 0

/-- The presence period in ms (R170). -/
def readPeriod (m : List Byte) : Nat := 10 * max 10 (min 100 (image8 m 4))

/-! ### The build (R11, R183) -/

/-- A present next that names an undefined descriptor made absent (R4). -/
def keepNext (t : Vector (Option Segment) 512) (g : Segment) : Segment :=
  { g with next := g.next.filter fun d => (t.get d).isSome }

/-- The segment table (R11, step 1). -/
def buildSegments (m : List Byte) : Vector (Option Segment) 512 :=
  let raw := tabulate 512 fun d => (findRecord m .segment d.val).map (readSegment m)
  raw.map fun g => g.map (keepNext raw)

/-- The walk of a chain from descriptor d, with the descriptors met so far: accepted at a descriptor with no next, refused
at a revisit. A walk meets at most 512 descriptors (R12). -/
def chainOk (t : Vector (Option Segment) 512) : Nat → List SegIdx → SegIdx → Bool
  | 0, _, _ => false
  | rounds + 1, met, d =>
    if met.contains d then false
    else
      match t.get d with
      | none => false
      | some g =>
        match g.next with
        | none => true
        | some e => chainOk t rounds (d :: met) e

/-- The cues valid after steps 3 and 4, with the head lengths of step 5 (R11 to R13). -/
def buildCuesUnlinked (m : List Byte) (t : Vector (Option Segment) 512) : Vector (Option Cue) 256 :=
  tabulate 256 fun c =>
    ((findRecord m .cue c.val).map (readCue m)).bind fun q =>
      match t.get q.first with
      | none => none
      | some g => if chainOk t 513 [] q.first then some { q with headLen := min q.headLen g.length } else none

/-- The cue table (R11, steps 2 to 6). -/
def buildCues (m : List Byte) (t : Vector (Option Segment) 512) : Vector (Option Cue) 256 :=
  let u := buildCuesUnlinked m t
  u.map fun q => q.map fun q => { q with followOn := keepCue u q.followOn }

/-- Every table, binding, trim and the presence period of an image that passes its checks (R183). -/
def buildTables (m : List Byte) : Tables :=
  let segments := buildSegments m
  let cues := buildCues m segments
  let triggers := tabulate 16 fun i => (findRecord m .trigger i.val).map (readBinding m cues)
  { segments := segments
    cues := cues
    classes := tabulate 8 fun c => ((findRecord m .cls c.val).map (readClass m)).getD defaultClass
    listen := tabulate 4 fun w => ((findRecord m .listen w.val).map (readListen m)).getD noListen
    store := tabulate 4 fun w => ((findRecord m .store w.val).map (readStore m)).getD noStore
    groups := tabulate 16 fun g => ((findRecord m .group g.val).map (readGroup m cues triggers)).getD noGroup
    triggers := triggers
    lamps := tabulate 16 fun l => ((findRecord m .lamp l.val).map (readLamp m)).getD .none
    trimProg := readTrim m 0 6
    trimFold := readTrim m 1 7
    periodMs := readPeriod m }

end Sys2Proof.Machine
end

