-- ==== Sys2Proof/Machine/StationEvents.lean ====
section
/-! DEFINITION. The meanings of the commands of start-up: HARD_RESET, HARD_RESET_RELEASE, LOAD_END and
LISTEN_TIMER_EXPIRY (R179, R181 to R185). -/

namespace Sys2Proof.Machine

/-- The hard-reset state, with the reset pin held or just released and the station number as sampled. The contacts at the
trigger inputs are outside the part and stay, as does the queue of commands (R181, notes/assumptions/3.md). -/
def hardResetState (held : Bool) (number : Station) (s : State) : State :=
  { State.reset with
    pending := s.pending
    inReset := held
    number := number
    triggers := { Triggers.reset with contacts := s.triggers.contacts }
    line := Line.reset number }

/-- HARD_RESET: the part is held in its hard-reset state (R181). -/
def execHardReset (s : State) : Result := .next (hardResetState true 0 s)

/-- HARD_RESET_RELEASE: the straps are sampled, and the station begins in LOADING (R181). -/
def execHardResetRelease (straps : Station) (s : State) : Result :=
  if s.inReset then .next (hardResetState false straps s) else .next s

/-- The listen timer is started to expire 2P from now (R179). -/
def startListenTimer (s : State) : State :=
  { s with
    peers := { s.peers with listenTimer := some (later s.now (2 * (Config.framesPerMs * s.tables.periodMs))) } }

/-- The entry to LISTENING with the tables of an image (R183). -/
def enterListening (t : Tables) (s : State) : State :=
  settleReturns (grantIfIdle (startPass (adoptLevels (startListenTimer { s with tables := t, station := .listening }))))

/-- The entry to UNCONFIGURED (R184). -/
def enterUnconfigured (s : State) : State := offerPresence { s with station := .unconfigured }

/-- The end of a load: the checks of R182 decide (R182 to R184). -/
def endLoad (image : List Byte) (s : State) : State :=
  if imageOk image then enterListening (buildTables image) s else enterUnconfigured s

/-- LOAD_END (R182 to R184). -/
def execLoadEnd (image : List Byte) (s : State) : Result := event s (s.station == .loading) (endLoad image)

/-- The entry to RUNNING at the end of LISTEN (R185, R177, R117). -/
def enterRunning (s : State) : State :=
  recheckHoldoff (offerPresence { s with station := .running, peers := { s.peers with listenTimer := none } })

/-- The listen timer's expiry is reached (R179). -/
def listenDue (s : State) : Bool := s.station == .listening && expired s.now s.peers.listenTimer

/-- LISTEN_TIMER_EXPIRY (R179, R185). -/
def execListenTimerExpiry (s : State) : Result := event s (listenDue s) enterRunning

end Sys2Proof.Machine
end

