-- ==== Sys2Proof/Machine/TimerEvents.lean ====
section
/-! DEFINITION. The meanings of the timers of the Group Controller and the Peer Monitor: ANSWER_TIMER_EXPIRY,
PRESENCE_TIMER_EXPIRY, PEER_STALE and PEER_GONE (R163, R173, R177). -/

namespace Sys2Proof.Machine

/-- ANSWER_TIMER_EXPIRY (R163). -/
def execAnswerTimerExpiry (g : GroupId) (s : State) : Result := event s (answerDue s g) (answerExpiry g)

/-- The presence timer's expiry is reached (R177). -/
def presenceDue (s : State) : Bool := expired s.now s.peers.presenceTimer

/-- The presence timer expires: it stops, and a PRESENCE is offered (R177). -/
def presenceExpiry (s : State) : State := offerPresence { s with peers := { s.peers with presenceTimer := none } }

/-- PRESENCE_TIMER_EXPIRY (R177). -/
def execPresenceTimerExpiry (s : State) : Result := event s (presenceDue s) presenceExpiry

/-- PEER_STALE, 2P after the last sign of life (R173). -/
def execPeerStale (x : Station) (s : State) : Result := event s (peerDue s x .present 2) (turnStale x)

/-- PEER_GONE, 4P after the last sign of life (R173). -/
def execPeerGone (x : Station) (s : State) : Result := event s (peerDue s x .stale 4) (turnGone x)

end Sys2Proof.Machine
end

