-- ==== Sys2Proof/Machine/TriggerEvents.lean ====
section
/-! DEFINITION. The meanings of TRIGGER_INPUT_CHANGE and TRIGGER_FILTER_EXPIRY (R103). -/

namespace Sys2Proof.Machine

/-- The contact at a pin, whatever the part is doing. -/
def setContact (i : InputId) (closed : Bool) (s : State) : State :=
  { s with triggers := { s.triggers with contacts := upd s.triggers.contacts i closed } }

/-- TRIGGER_INPUT_CHANGE (R103). The contact changes outside the part even while the reset pin is held. -/
def execTriggerInputChange (i : InputId) (closed : Bool) (s : State) : Result :=
  if s.inReset then .next (setContact i closed s) else .next (contactChange i closed s)

/-- The filter timer of a bound input has expired (R103). -/
def filterDue (s : State) (i : InputId) : Bool := (s.binding i).isSome && expired s.now (s.triggers.timers.get i)

/-- The filter timer of input i expires (R103). -/
def takeFilter (i : InputId) (s : State) : State :=
  match s.binding i with
  | some b => filterExpiry i b s
  | none => s

/-- TRIGGER_FILTER_EXPIRY (R103 to R107). -/
def execTriggerFilterExpiry (i : InputId) (s : State) : Result := event s (filterDue s i) (takeFilter i)

end Sys2Proof.Machine
end

