-- ==== Sys2Proof/Machine/Dispatch.lean ====
section
/-! DEFINITION. The meaning of each command, one arm per row of spec/opcode_table.json in its order. -/

namespace Sys2Proof.Machine

-- The effect of a command on everything but the queue of commands.
def exec (i : Instr) (s : State) : Host.Outcome State Fault Refusal :=
  match i with
  | .hardReset => Sys2Proof.Machine.execHardReset s
  | .hardResetRelease straps => Sys2Proof.Machine.execHardResetRelease straps s
  | .loadEnd image => Sys2Proof.Machine.execLoadEnd image s
  | .listenTimerExpiry => Sys2Proof.Machine.execListenTimerExpiry s
  | .wordClockEdge periodNs => Sys2Proof.Machine.execWordClockEdge periodNs s
  | .wordClockTimeout => Sys2Proof.Machine.execWordClockTimeout s
  | .voiceSampleNeed v => Sys2Proof.Machine.execVoiceSampleNeed v s
  | .busSampleOutput => Sys2Proof.Machine.execBusSampleOutput s
  | .controlFrameBoundary => Sys2Proof.Machine.execControlFrameBoundary s
  | .fadeEnd v => Sys2Proof.Machine.execFadeEnd v s
  | .primeDeadline v => Sys2Proof.Machine.execPrimeDeadline v s
  | .beatBoundary => Sys2Proof.Machine.execBeatBoundary s
  | .pendingExpiry cue => Sys2Proof.Machine.execPendingExpiry cue s
  | .burstComplete data => Sys2Proof.Machine.execBurstComplete data s
  | .preloadBurstComplete data => Sys2Proof.Machine.execPreloadBurstComplete data s
  | .triggerInputChange input closed => Sys2Proof.Machine.execTriggerInputChange input closed s
  | .triggerFilterExpiry input => Sys2Proof.Machine.execTriggerFilterExpiry input s
  | .interframeGapComplete => Sys2Proof.Machine.execInterframeGapComplete s
  | .lineBusy => Sys2Proof.Machine.execLineBusy s
  | .sendSlot => Sys2Proof.Machine.execSendSlot s
  | .transmitComplete => Sys2Proof.Machine.execTransmitComplete s
  | .collision => Sys2Proof.Machine.execCollision s
  | .jamEnd => Sys2Proof.Machine.execJamEnd s
  | .rxBad r => Sys2Proof.Machine.execRxBad r s
  | .rxProtocol f => Sys2Proof.Machine.execRxProtocol f s
  | .fireReceived src dst b0 b1 b2 b3 => Sys2Proof.Machine.execFireReceived src dst b0 b1 b2 b3 s
  | .stopReceived src dst b0 b1 b2 b3 => Sys2Proof.Machine.execStopReceived src dst b0 b1 b2 b3 s
  | .segmentReceived src b0 b1 b2 => Sys2Proof.Machine.execSegmentReceived src b0 b1 b2 s
  | .claimReceived src showNo group epoch => Sys2Proof.Machine.execClaimReceived src showNo group epoch s
  | .holdReceived src showNo group epoch age => Sys2Proof.Machine.execHoldReceived src showNo group epoch age s
  | .releaseReceived src showNo group epoch verdict => Sys2Proof.Machine.execReleaseReceived src showNo group epoch verdict s
  | .presenceReceived src p => Sys2Proof.Machine.execPresenceReceived src p s
  | .queryReceived src dst b0 => Sys2Proof.Machine.execQueryReceived src dst b0 s
  | .statusReceived src dst payload => Sys2Proof.Machine.execStatusReceived src dst payload s
  | .restartReceived src dst showNo => Sys2Proof.Machine.execRestartReceived src dst showNo s
  | .answerTimerExpiry g => Sys2Proof.Machine.execAnswerTimerExpiry g s
  | .presenceTimerExpiry => Sys2Proof.Machine.execPresenceTimerExpiry s
  | .peerStale x => Sys2Proof.Machine.execPeerStale x s
  | .peerGone x => Sys2Proof.Machine.execPeerGone x s
  | .referenceSlot => Sys2Proof.Machine.execReferenceSlot s

end Sys2Proof.Machine
end

