-- ==== Sys2Proof/Machine/Tick.lean ====
section
/-! DEFINITION. The passing of time, which is what a step on an empty queue of commands does: one bit time of the
microsecond clock, or the turn of a sample frame, with the events that time brings about put in the queue
(notes/assumptions/2.md). -/

namespace Sys2Proof.Machine

/-! ### Bit times -/

/-- The level heard from other stations in the present bit time: ACTIVE when a LINE_BUSY has been taken in it, else REST. -/
def heardLevel (l : Line) : LineLevel := if l.rest.isNone then .active else .rest

/-- The bit times of unbroken REST at the end of a bit time: none after ACTIVE and within a byte being received, whose bits are
bytes on the line, else one more (R115). -/
def restCount (l : Line) : Nat :=
  match l.rest with
  | none => 0
  | some n => if l.rx.inByte then 0 else min Config.gapBits (n + 1)

/-- The Line Controller's clocks one bit time later: the random slot source, the drive left, the bit heard and the REST
counted while not driving, and the slot (R114 to R116, R119, R125). -/
def bitTimeLine (driving : Bool) (l : Line) : Line :=
  let idle := l.phase == .idle
  let turn := l.slotAge + 1 == Config.slotBits
  { l with
    shift := shiftStep l.shift
    driveLeft := l.driveLeft - 1
    rest := if driving then l.rest else some (restCount l)
    rx := if driving then l.rx else (rxBit l.rx (heardLevel l)).1
    slot := if idle && turn then l.slot + 1 else l.slot
    slotAge := if idle then (if turn then 0 else l.slotAge + 1) else l.slotAge }

/-- The Timebase one bit time later (R186). -/
def bitTimeClock (t : Timebase) : Timebase :=
  { t with
    half := !t.half
    micros := if t.half then t.micros + 1 else t.micros
    frameAge := t.frameAge + Config.bitThirds
    quiet := min Config.timeoutBits (t.quiet + 1) }

/-- One bit time passes (R114, R186, R19). -/
def bitTime (s : State) : State :=
  { s with
    line := bitTimeLine s.driving s.line
    clock := bitTimeClock s.clock
    fetch := { s.fetch with burst := s.fetch.burst.map fun b => { b with left := b.left - 1 } } }

/-- The commands of the reception that ends with the present bit time (R125). -/
def receptionEvents (s : State) : List Instr :=
  if s.driving then []
  else
    match (rxBit s.line.rx (heardLevel s.line)).2 with
    | some r => commandsOfReception r
    | none => []

/-- The events of the line that a bit time has brought about (R115, R116, R118, R119). -/
def lineEvents (s : State) : List Instr :=
  if transmitDue s then [.transmitComplete]
  else if jamDue s then [.jamEnd]
  else if gapDue s then [.interframeGapComplete, .sendSlot]
  else if referenceDue s then [.referenceSlot, .sendSlot]
  else if sendDue s then [.sendSlot]
  else []

/-- The word clock is missing where that matters (R186). -/
def timeoutEvents (s : State) : List Instr :=
  if quietDue s && (s.clock.clock == .acquiring || s.clock.clock == .locked) then [.wordClockTimeout] else []

/-- One bit time passes within a sample frame, which may end with it. -/
def tickBit (s : State) : State :=
  let heard := receptionEvents s
  let s := bitTime s
  let s := { s with pending := heard ++ lineEvents s ++ timeoutEvents s }
  if frameOver s.clock then { s with clock := closeFrame s.clock } else s

/-! ### Sample frames -/

/-- The events that station time has brought about at the opening of a sample frame. The fade ends are taken after the
boundary. -/
def openingEvents (s : State) : List Instr :=
  (if boundaryDue s then [.controlFrameBoundary] else [])
    ++ (voiceIds.filter fun v => (s.voice v).state == .fading).map .fadeEnd
    ++ (voiceIds.filter (primeDue s)).map .primeDeadline
    ++ ((s.starts.queue.map (·.cue)).filter (entryExpired s)).map .pendingExpiry
    ++ ((List.finRange 16).filter (filterDue s)).map .triggerFilterExpiry
    ++ (groupIds.filter (answerDue s)).map .answerTimerExpiry
    ++ (if listenDue s then [.listenTimerExpiry] else [])
    ++ (if presenceDue s then [.presenceTimerExpiry] else [])
    ++ (stationIds.filter fun x => peerDue s x .present 2).map .peerStale
    ++ (stationIds.filter fun x => peerDue s x .stale 4).map .peerGone

/-- The events at the close of a sample frame: every voice's need, the beat boundary, the needs of the voices that entered
PLAYING by then, and the output (R67, R80, R97). -/
def closingEvents : List Instr :=
  voiceIds.map .voiceSampleNeed ++ [.beatBoundary] ++ voiceIds.map .voiceSampleNeed ++ [.busSampleOutput]

/-- The next sample frame begins: station time and the control frame phase advance by one (R86, R186). -/
def nextFrame (s : State) : State :=
  { s with
    clock := { s.clock with
      time := s.clock.time + 1, stage := .opening, hadBoundary := false, hadBeat := Vector.replicate 8 false,
      hadOutput := false }
    mixer := { s.mixer with phase := (s.mixer.phase + 1) % Config.framesPerMs, given := Vector.replicate 8 none } }

/-- The step on an empty queue: nothing while the reset pin is held, else the next thing that time does. A voice that entered
PLAYING after the output of its sample frame takes its need before the frame turns. -/
def tick (s : State) : State :=
  if s.inReset then s
  else
    match s.clock.stage with
    | .opening => { s with clock := { s.clock with stage := .running }, pending := openingEvents s }
    | .running => tickBit s
    | .closing => { s with clock := { s.clock with stage := .over }, pending := closingEvents }
    | .over =>
      match voiceIds.filter (needDue s) with
      | [] => nextFrame s
      | v :: l => { s with pending := (v :: l).map .voiceSampleNeed }

end Sys2Proof.Machine
end

