-- ==== Sys2Proof/Machine/Lamps.lean ====
section
/-! DEFINITION. The Lamp Unit: every lamp is a function of its source and of station time (R108 to R111). -/

namespace Sys2Proof.Machine

/-- The patterns (R109). -/
inductive Pattern where
  | off | steady | slow | fast
deriving DecidableEq, Repr

/-- A pattern is on in the sample frame of a station time (R109). -/
def patternOn (p : Pattern) (t : Time) : Bool :=
  match p with
  | .off => false
  | .steady => true
  | .slow => decide (t.toNat % 48000 < 24000)
  | .fast => decide (t.toNat % 6000 < 3000)

/-- The answer timer has at most 5 s left, or has expired (R111). -/
def timerUrgent (now : Time) (t : AnswerTimer) : Bool :=
  match t with
  | .stopped => false
  | .running e => reached now e || decide (since e now ≤ Config.fastLamp)
  | .expired => true

/-- The pattern of a GROUP lamp (R111). -/
def groupPattern (s : State) (g : GroupId) (onFree : Bool) : Pattern :=
  let w := s.view g
  match w.state with
  | .heldMe => if timerUrgent s.now w.timer then .fast else .steady
  | .claiming => .fast
  | .heldOther => if inSet s.number w.excl then .slow else .off
  | .free => if inSet s.number w.excl then .slow else if onFree then .steady else .off

/-- STEADY when the condition holds, else OFF. -/
def steadyIf (b : Bool) : Pattern := if b then .steady else .off

/-- The pattern of a source (R110, R111). -/
def sourcePattern (s : State) (l : LampSource) : Pattern :=
  match l with
  | .none => .off
  | .group g onFree => groupPattern s g onFree
  | .cue c => steadyIf (voiceIds.any fun v => (s.voice v).active && (s.voice v).cue == c)
  | .cls c => steadyIf (voiceIds.any fun v => (s.voice v).active && (s.voice v).cls == c)
  | .clock =>
    match s.clock.clock with
    | .locked => .steady
    | .acquiring | .holdover => .slow
    | .free => .off
  | .station =>
    match s.station with
    | .loading => .off
    | .unconfigured => .fast
    | .listening => if s.peers.duplicate then .fast else .slow
    | .running => if s.peers.duplicate then .fast else .steady
  | .trigger i => steadyIf (s.triggers.recognized.get i)

/-- The pattern of a lamp (R108). -/
def lampPattern (s : State) (l : LampId) : Pattern := sourcePattern s (s.tables.lamps.get l)

/-- The lamp output is on: never while the reset pin is held (R109, R181). -/
def lampOn (s : State) (l : LampId) : Bool := !s.inReset && patternOn (lampPattern s l) s.now

end Sys2Proof.Machine
end

