-- ==== Sys2Proof/Safety.lean ====
section
/-! DEFINITION. What the manual says of every moment of the part's running, as properties of the state: ranges of counters,
the loaded tables' properties, lawful group views, bounds and order of the queues, the Preload Memory's form, bounds of the
FIFOs; and the conditions under which a frame is handed on and a voice is stolen. -/

namespace Sys2Proof.Machine

/-- Every counter stays within 0..65,535 (R145). -/
def CountersOk (s : State) : Prop := ∀ c : Fin 16, s.counters.get c ≤ 65535

/-- The Preload Memory is in its canonical form (notes/assumptions/5.md). -/
def PreloadOk (s : State) : Prop := memWf s.preload.mem = true

/-- From descriptor d on, following next, a descriptor with no next is reached and none is met twice: the descriptors met are
listed in order, each one's next the one after it (R12). -/
def ChainEnds (t : Vector (Option Segment) 512) (d : SegIdx) : Prop :=
  ∃ l : List SegIdx, l.head? = some d ∧ l.Nodup
    ∧ ∀ (i : Nat) (e : SegIdx), l[i]? = some e → ∃ g, t.get e = some g ∧ g.next = l[i + 1]?

/-- The properties that the tables hold after a load, and at hard reset: every cue's chain is defined and ends, its head lies
in its first segment, its follow-on is valid, every present next is defined, a window's base is a multiple of its size, groups
and bindings name valid cues and bound inputs, and every field lies in its range (R15, R2, R4, R6, R18, R96, R102, R147,
R170). -/
def TablesOk (t : Tables) : Prop :=
  (∀ c q, t.cues.get c = some q →
    (∃ g, t.segments.get q.first = some g ∧ q.headLen ≤ g.length) ∧ ChainEnds t.segments q.first
    ∧ (∀ n, q.followOn = some n → (t.cues.get n).isSome = true)
    ∧ q.headLen ≤ 4096 ∧ q.level ≤ 126 ∧ q.fadeIn ≤ 8191 ∧ q.fadeOut ≤ 8191 ∧ q.choke ≤ 15
    ∧ ∀ b, q.beat = some b → 480 ≤ b ∧ b ≤ 96000)
  ∧ (∀ d g, t.segments.get d = some g →
    (∀ n, g.next = some n → (t.segments.get n).isSome = true)
    ∧ g.start < 2 ^ 25 ∧ 1 ≤ g.length ∧ g.length ≤ 2 ^ 24 ∧ g.repeats ≤ 255)
  ∧ (∀ c, (t.classes.get c).priority ≤ 7 ∧ 1 ≤ (t.classes.get c).polyphony ∧ (t.classes.get c).polyphony ≤ 8
    ∧ (t.classes.get c).maxWait ≤ 2000 ∧ (∀ k, (t.classes.get c).depth.get k ≤ 126)
    ∧ 1 ≤ (t.classes.get c).attack ∧ (t.classes.get c).attack ≤ 127
    ∧ 1 ≤ (t.classes.get c).release ∧ (t.classes.get c).release ≤ 127)
  ∧ (∀ w, (∃ k, 16 ≤ k ∧ k ≤ 24 ∧ (t.store.get w).size = 2 ^ k)
    ∧ (t.store.get w).base % (t.store.get w).size = 0 ∧ (t.store.get w).base < 2 ^ 25)
  ∧ (∀ g c, (t.groups.get g).wonCue = some c ∨ (t.groups.get g).timeoutCue = some c → (t.cues.get c).isSome = true)
  ∧ (∀ g i, (t.groups.get g).claimTrigger = some i → (t.triggers.get i).isSome = true)
  ∧ (∀ g, (t.groups.get g).answerTime ≤ 600)
  ∧ (∀ i b, t.triggers.get i = some b → 1 ≤ b.filterMs ∧ b.filterMs ≤ 50
    ∧ ∀ c, b.press = some (.play c) ∨ b.release = some (.play c) → (t.cues.get c).isSome = true)
  ∧ t.trimProg ≤ 126 ∧ t.trimFold ≤ 126 ∧ 100 ≤ t.periodMs ∧ t.periodMs ≤ 1000

/-- The tables give what the image holds, by the layout of its records and the clamps of their fields. A record at offset o with
its index is the last one of its section with that index; a part that the image does not contain holds its default. Cues are
valid by R11 to R14, and what names an invalid cue, an undefined descriptor or an input without binding is absent (R3, R4, R7,
R8, R12 to R14, R18, R96, R102, R108, R134, R135, R147, R170). -/
def TablesFollow (image : List Byte) (t : Tables) : Prop :=
  let raw (i : Nat) : Byte := image.getD i 0xFF
  let byte (i : Nat) : Nat := (raw i).toNat
  let two (i : Nat) : Nat := 256 * byte i + byte (i + 1)
  let four (i : Nat) : Nat := 65536 * two i + two (i + 2)
  let bit (i k : Nat) : Bool := (byte i).testBit k
  let segments := 18 + 20 * two 8
  let classes := segments + 14 * two 10
  let listens := classes + 18 * byte 12
  let stores := listens + 7 * byte 13
  let groups := stores + 8 * byte 14
  let triggers := groups + 7 * byte 15
  let lamps := triggers + 15 * byte 16
  -- Record i of a section of n records of a size stands at offset o; the section has none.
  let isAt (start size n : Nat) (index : Nat → Nat) (i o : Nat) : Prop :=
    ∃ j, j < n ∧ o = start + j * size ∧ index o = i ∧ ∀ l, j < l → l < n → index (start + l * size) ≠ i
  let lacks (start size n : Nat) (index : Nat → Nat) (i : Nat) : Prop := ∀ j, j < n → index (start + j * size) ≠ i
  let named (o : Nat) : Nat := two o % 512
  let chain (d : SegIdx) : Prop := ChainEnds t.segments d
  t.periodMs = 10 * max 10 (min 100 (byte 4))
  ∧ t.trimProg = (if bit 5 0 then min 126 (byte 6) else 0) ∧ t.trimFold = (if bit 5 1 then min 126 (byte 7) else 0)
  ∧ (∀ d : SegIdx,
    (lacks segments 14 (two 10) named d.val → t.segments.get d = none)
    ∧ ∀ o, isAt segments 14 (two 10) named d.val o → ∃ g, t.segments.get d = some g
      ∧ g.start = four (o + 2) % 2 ^ 25 ∧ g.length = max 1 (min (2 ^ 24) (four (o + 6))) ∧ g.repeats = byte (o + 10)
      ∧ ∀ n : SegIdx, g.next = some n ↔
          bit (o + 11) 0 = true ∧ n.val = two (o + 12) % 512 ∧ ¬ lacks segments 14 (two 10) named n.val)
  ∧ (∀ c : LocalCue,
    (lacks 18 20 (two 8) byte c.val → t.cues.get c = none)
    ∧ ∀ o, isAt 18 20 (two 8) byte c.val o →
      (∀ d : SegIdx, d.val = byte (o + 2) % 2 * 256 + byte (o + 3) → ((t.cues.get c).isSome = true ↔ chain d))
      ∧ ∀ q, t.cues.get c = some q →
        q.cls.val = min 7 (byte (o + 1)) ∧ q.first.val = byte (o + 2) % 2 * 256 + byte (o + 3)
        ∧ q.level = min 126 (byte (o + 4))
        ∧ q.bus = (if byte (o + 5) = 1 then .fold else if byte (o + 5) = 2 then .both else .prog)
        ∧ q.fadeIn = min 8191 (two (o + 6)) ∧ q.fadeOut = min 8191 (two (o + 8))
        ∧ q.mode = (if byte (o + 10) = 1 then .nextBeat else .immediate)
        ∧ q.retrigger = (if byte (o + 11) = 1 then .layer else if byte (o + 11) = 2 then .ignore else .restart)
        ∧ q.choke = min 15 (byte (o + 12))
        ∧ (∀ g, t.segments.get q.first = some g → q.headLen = min g.length (min 4096 (two (o + 13))))
        ∧ (∀ n : LocalCue, q.followOn = some n ↔
            bit (o + 15) 0 = true ∧ n.val = byte (o + 16) ∧ (t.cues.get n).isSome = true)
        ∧ q.beat = if bit (o + 15) 1 then some (max 480 (min 96000 (65536 * byte (o + 17) + two (o + 18)))) else none)
  ∧ (∀ c : ClassId,
    (lacks classes 18 (byte 12) byte c.val → t.classes.get c = ⟨7, 8, .none, 0, none, Vector.replicate 8 0, 127, 127⟩)
    ∧ ∀ o, isAt classes 18 (byte 12) byte c.val o →
      let r := t.classes.get c
      r.priority = min 7 (byte (o + 1)) ∧ r.polyphony = max 1 (min 8 (byte (o + 2)))
      ∧ r.steal = (if byte (o + 3) = 1 then .oldest else if byte (o + 3) = 2 then .lowest else .none)
      ∧ r.maxWait = min 2000 (two (o + 4))
      ∧ (∀ k : KeyId, r.key = some k ↔ bit (o + 6) 0 = true ∧ k.val = byte (o + 7))
      ∧ (∀ k : KeyId, r.depth.get k = min 126 (byte (o + 8 + k.val)))
      ∧ r.attack = max 1 (min 127 (byte (o + 16))) ∧ r.release = max 1 (min 127 (byte (o + 17))))
  ∧ (∀ w : WindowId,
    (lacks listens 7 (byte 13) byte w.val → (t.listen.get w).enable = false)
    ∧ ∀ o, isAt listens 7 (byte 13) byte w.val o →
      let r := t.listen.get w
      r.enable = bit (o + 1) 0 ∧ r.translate = bit (o + 1) 1 ∧ r.base.toNat = two (o + 2) % 4096
      ∧ r.mask.toNat = two (o + 4) % 4096 ∧ r.localBase.val = byte (o + 6))
  ∧ (∀ w : WindowId,
    (lacks stores 8 (byte 14) byte w.val → (t.store.get w).enable = false)
    ∧ ∀ o, isAt stores 8 (byte 14) byte w.val o →
      let r := t.store.get w
      let base := four (o + 2) % 2 ^ 25
      r.enable = bit (o + 1) 0 ∧ r.size = 2 ^ max 16 (min 24 (byte (o + 6))) ∧ r.base = base - base % r.size
      ∧ r.access.val = byte (o + 7) % 4)
  ∧ (∀ g : GroupId,
    (lacks groups 7 (byte 15) byte g.val → t.groups.get g = ⟨false, false, none, none, none, 0⟩)
    ∧ ∀ o, isAt groups 7 (byte 15) byte g.val o →
      let r := t.groups.get g
      r.enabled = bit (o + 1) 0 ∧ r.excludeOnWrong = bit (o + 1) 1
      ∧ (∀ i : InputId, r.claimTrigger = some i ↔
          bit (o + 1) 2 = true ∧ i.val = byte (o + 2) ∧ (t.triggers.get i).isSome = true)
      ∧ (∀ c : LocalCue, r.wonCue = some c ↔ bit (o + 1) 3 = true ∧ c.val = byte (o + 3) ∧ (t.cues.get c).isSome = true)
      ∧ (∀ c : LocalCue, r.timeoutCue = some c ↔ bit (o + 1) 4 = true ∧ c.val = byte (o + 4) ∧ (t.cues.get c).isSome = true)
      ∧ r.answerTime = min 600 (two (o + 5)))
  ∧ (∀ i : InputId,
    (lacks triggers 15 (byte 16) byte i.val → t.triggers.get i = none)
    ∧ ∀ o, isAt triggers 15 (byte 16) byte i.val o → ∃ r, t.triggers.get i = some r
      ∧ r.polarity = (if byte (o + 1) = 1 then .opened else .closed) ∧ r.filterMs = max 1 (min 50 (byte (o + 2)))
      ∧ ∀ (a : Nat) (x : Option Action), a = o + 3 ∧ x = r.press ∨ a = o + 9 ∧ x = r.release →
        let p (k : Nat) : Nat := byte (a + 1 + k)
        let mode (k : Nat) : StopMode := if p k = 1 then .fade else if p k = 2 then .tail else .cut
        (∀ c : LocalCue, byte a = 1 → c.val = p 0 → x = if (t.cues.get c).isSome then some (.play c) else none)
        ∧ (∀ l : LineCue, byte a = 2 → l.toNat = two (a + 1) % 4096 →
          x = some (.send l (max (-24) (min 24 (raw (a + 3)).toInt))))
        ∧ (∀ (c : LocalCue) (k : ClassId), byte a = 3 → c.val = p 1 → k.val = min 7 (p 1) →
          x = if p 0 = 0 then some (.stopLocal (.cue c) (mode 2)) else if p 0 = 1 then some (.stopLocal (.cls k) (mode 2))
            else if p 0 = 2 then some (.stopLocal .all (mode 2)) else none)
        ∧ (∀ (l : LineCue) (k : ClassId), byte a = 4 → l.toNat = two (a + 2) % 4096 → k.val = min 7 (two (a + 2)) →
          x = if p 0 = 0 then some (.stopLine (.cue l) (mode 3)) else if p 0 = 1 then some (.stopLine (.cls k) (mode 3))
            else if p 0 = 2 then some (.stopLine .all (mode 3)) else none)
        ∧ (∀ g : GroupId, byte a = 5 → g.val = min 15 (p 0) → x = some (.claim g))
        ∧ (∀ g : GroupId, byte a = 6 → g.val = min 15 (p 0) →
          x = some (.release g (if p 1 = 1 then .correct else if p 1 = 2 then .wrong else if p 1 = 3 then .timeout
            else if p 1 = 4 then .clear else .none)))
        ∧ (byte a = 7 → x = some (.segment (raw (a + 1)) (raw (a + 2)) (bit (a + 3) 0)))
        ∧ (byte a = 0 ∨ 8 ≤ byte a → x = none))
  ∧ ∀ l : LampId,
    (lacks lamps 4 (byte 17) byte l.val → t.lamps.get l = .none)
    ∧ ∀ o, isAt lamps 4 (byte 17) byte l.val o →
      let n := byte (o + 2)
      let x := t.lamps.get l
      (∀ g : GroupId, byte (o + 1) = 1 → g.val = n → x = .group g (bit (o + 3) 0))
      ∧ (∀ c : LocalCue, byte (o + 1) = 2 → c.val = n → x = .cue c)
      ∧ (∀ c : ClassId, byte (o + 1) = 3 → c.val = n → x = .cls c)
      ∧ (byte (o + 1) = 4 → x = .clock) ∧ (byte (o + 1) = 5 → x = .station)
      ∧ (∀ i : InputId, byte (o + 1) = 6 → i.val = n → x = .trigger i)
      ∧ (byte (o + 1) = 0 ∨ 7 ≤ byte (o + 1) ∨ byte (o + 1) = 1 ∧ 16 ≤ n ∨ byte (o + 1) = 3 ∧ 8 ≤ n
          ∨ byte (o + 1) = 6 ∧ 16 ≤ n → x = .none)

/-- From s to t the preload pass has gone on from cue number c: the first cue from there whose head resolves and fits is taken
up at the allocation point, which rises by its head length; with none the pass is done; and STORE_FAULT has counted each cue passed
over on the way whose first segment does not resolve (R31, R32). -/
def PassGoesOn (s : State) (c : Nat) (t : State) : Prop :=
  let fits (m : LocalCue) (q : Cue) (g : Segment) (w : WindowId) : Prop :=
    s.cue m = some q ∧ 0 < q.headLen ∧ s.segment q.first = some g ∧ resolve s.tables g = some w
      ∧ s.fetch.alloc + q.headLen ≤ 32768
  let noneBefore (n : Nat) : Prop := ∀ m q g w, c ≤ m.val → m.val < n → ¬ fits m q g w
  let faults (m : LocalCue) : Bool :=
    (s.cue m).any fun q => decide (0 < q.headLen) && ((s.segment q.first).bind (resolve s.tables)).isNone
  let counted (n : Nat) : Prop := CountersOk s → t.counter .storeFault = min 65535
    (s.counter .storeFault + (List.finRange 256).countP fun m => decide (c ≤ m.val ∧ m.val < n) && faults m)
  (∀ m q g w, c ≤ m.val → fits m q g w → noneBefore m.val →
    t.fetch.nextCue = m.val + 1 ∧ t.fetch.alloc = s.fetch.alloc + q.headLen ∧ t.fetch.pass = .running
      ∧ t.fetch.work = some ⟨m, s.fetch.alloc, q.headLen, 0, g.start, w⟩ ∧ counted m.val)
  ∧ (noneBefore 256 →
    t.fetch.nextCue = 256 ∧ t.fetch.alloc = s.fetch.alloc ∧ t.fetch.pass = .done ∧ t.fetch.work = none ∧ counted 256)
  ∧ ∀ k : Counter, k ≠ .storeFault → t.counter k = s.counter k

/-- The burst that an idle port is granted while no voice requests it: the next of the head in progress, or none (R25, R33). -/
def preloadGrant (t : State) : Option Burst :=
  match t.fetch.pass, t.fetch.work with
  | .running, some h => some ⟨.preload, h.window, h.first + h.read, min 64 (h.length - h.read),
      40 * 2 ^ (t.tables.store.get h.window).access.val⟩
  | _, _ => none

/-- A view of a group at the station of a number (R148): a holder exactly in HELD_ME and HELD_OTHER, the own station or a
peer accordingly, and outside the exclusion set; the own number in the set only in FREE and HELD_OTHER; the stale flag only
in HELD_OTHER; the answer timer and the timeout release only in HELD_ME. -/
def ViewOk (number : Station) (w : View) : Prop :=
  (match w.state with
    | .free => w.holder = none
    | .claiming => w.holder = none ∧ inSet number w.excl = false
    | .heldMe => w.holder = some number ∧ inSet number w.excl = false
    | .heldOther => ∃ x, w.holder = some x ∧ x ≠ 0 ∧ x ≠ number ∧ inSet x w.excl = false)
  ∧ (w.stale = true → w.state = .heldOther)
  ∧ (w.timer ≠ .stopped → w.state = .heldMe)
  ∧ (w.timeoutQueued = true → w.state = .heldMe)

/-- Every group view is as R148 states. -/
def ViewsOk (s : State) : Prop := ∀ g : GroupId, ViewOk s.number (s.view g)

/-- The pending-start queue holds at most 16 entries and never two for the same local cue (R51). -/
def StartQueueOk (s : State) : Prop :=
  s.starts.queue.length ≤ 16 ∧ s.starts.queue.Pairwise fun a b => a.cue ≠ b.cue

/-- The transmit queue holds at most 8 frames, in order of rank, with at most one PRESENCE and one STATUS, and at most one
HOLD and one RELEASE of each group (R121, R122). -/
def TxQueueOk (s : State) : Prop :=
  s.line.queue.length ≤ 8
  ∧ (s.line.queue.Pairwise fun a b => a.body.rank ≤ b.body.rank)
  ∧ s.line.queue.countP (·.body == .presence) ≤ 1
  ∧ s.line.queue.countP (·.body == .status) ≤ 1
  ∧ ∀ g : GroupId, s.line.queue.countP (·.body.holds g) ≤ 1 ∧ s.line.queue.countP (·.body.releases g) ≤ 1

/-- The transmit queue holds at most one CLAIM of each group, and one only while the group's view is CLAIMING (R122, R152). -/
def ClaimsOk (s : State) : Prop :=
  ∀ g : GroupId, s.line.queue.countP (·.body.claims g) ≤ 1
    ∧ ((∃ e ∈ s.line.queue, e.body.claims g = true) → (s.view g).state = .claiming)

/-- A burst holds at most 64 samples, a voice that requests the port or has its own burst outstanding holds at most 192
samples in its FIFO, and no FIFO holds more than 256 (R24, R26). -/
def FifoOk (s : State) : Prop :=
  (∀ b, s.fetch.burst = some b → b.length ≤ 64)
  ∧ ∀ v : VoiceId,
    ((s.fetch.requests.get v).isSome = true ∨ s.ownBurst v = true → (s.voice v).fifo.length ≤ 192)
    ∧ (s.voice v).fifo.length ≤ 256 ∧ (s.voice v).inFlight ≤ 64

/-- No return of a voice to IDLE is left to take: the part is between two handlings (R54). -/
def Settled (s : State) : Prop := s.returns = []

/-- The part is between two handlings and no start waits in the pending-start queue. -/
def NoStartWaits (s : State) : Prop := Settled s ∧ s.starts.queue = []

/-- Voice w is the victim of a steal for class c: at the polyphony limit of a class that steals, the oldest of its own voices
in PRIMING or PLAYING (R48); below it with no voice free, of those voices of classes of worse priority, the oldest for OLDEST,
and for LOWEST the oldest of the worst priority (R49). -/
def Victim (s : State) (c : ClassId) (w : VoiceId) : Prop :=
  let live (x : VoiceId) : Prop := (s.voice x).state = .priming ∨ (s.voice x).state = .playing
  let rank (x : VoiceId) : Nat := (s.cls (s.voice x).cls).priority
  let own (x : VoiceId) : Prop := live x ∧ (s.voice x).cls = c
  let worse (x : VoiceId) : Prop := live x ∧ (s.cls c).priority < rank x
  if (s.cls c).polyphony ≤ s.occupancy c then
    (s.cls c).steal ≠ .none ∧ own w ∧ ∀ x, x ≠ w → own x → s.older w x = true
  else
    s.lowestFree = none ∧ worse w
    ∧ match (s.cls c).steal with
      | .none => False
      | .oldest => ∀ x, x ≠ w → worse x → s.older w x = true
      | .lowest => ∀ x, x ≠ w → worse x → rank x < rank w ∨ rank x = rank w ∧ s.older w x = true

/-- The station receives and hands on a good frame of a source to the owner of its kind: it is neither held in reset nor
LOADING nor driving the line but receiving, the source is another station, and the destination is 0 or the own number (R118,
R125, R127). -/
def HandsOn (s : State) (src : Station) (dst : Byte) : Prop :=
  s.inReset = false ∧ s.station ≠ .loading ∧ s.driving = false ∧ s.receiving = true ∧ src ≠ 0 ∧ src ≠ s.number
    ∧ (dst = 0 ∨ dst = BitVec.ofNat 8 s.number.val)

/-- The station as a good frame from a source finds it once the reception has ended and the sign of life is taken (R125,
R172). -/
def heard (src : Station) (s : State) : State := signOfLife src (endReception .frameEnded s)

/-- The eight properties at once: a safe state of the part. -/
def Safe (s : State) : Prop :=
  CountersOk s ∧ PreloadOk s ∧ TablesOk s.tables ∧ ViewsOk s ∧ StartQueueOk s ∧ TxQueueOk s ∧ ClaimsOk s ∧ FifoOk s

end Sys2Proof.Machine
end

