-- ==== Sys2Proof/WellFormed.lean ====
section
/-! DEFINITION. Well-formed commands: the operands an event of its row can have. A command that fails its
check stands for no event of the part. -/

namespace Sys2Proof

/-- The operands of a command can be those of an event of its row. -/
def Instr.wf (i : Instr) : Bool :=
  match i with
  -- R126, check 4: the source of a good frame is 1..31.
  | .fireReceived src _ _ _ _ _ | .stopReceived src _ _ _ _ _ | .segmentReceived src _ _ _
  | .claimReceived src _ _ _ | .holdReceived src _ _ _ _ | .releaseReceived src _ _ _ _
  | .statusReceived src _ _ | .restartReceived src _ _ => src != 0
  -- R126, check 5: a QUERY names a station.
  | .queryReceived src dst _ => src != 0 && dst != 0
  -- R126, checks 2 and 3: at most 144 payload bytes, hence a held count of at most 19.
  | .presenceReceived src p => src != 0 && p.held.length ≤ 19
  -- R125: a reception that RX_BAD reports is not a frame received.
  | .rxBad r =>
    match Machine.rxOutcome r with
    | .good _ => false
    | .bad | .jammed => true
  -- R126: some check fails; the length byte holds at most 255.
  | .rxProtocol f => (Machine.protocolFault f).isSome && f.payload.length ≤ 255
  -- R171: the peer table has entries 1..31.
  | .peerStale x | .peerGone x => x != 0
  -- R186: a period has a length.
  | .wordClockEdge ns => ns != 0
  | .hardReset | .hardResetRelease _ | .loadEnd _ | .listenTimerExpiry | .wordClockTimeout
  | .voiceSampleNeed _ | .busSampleOutput | .controlFrameBoundary | .fadeEnd _ | .primeDeadline _
  | .beatBoundary | .pendingExpiry _ | .burstComplete _ | .preloadBurstComplete _
  | .triggerInputChange _ _ | .triggerFilterExpiry _ | .interframeGapComplete | .lineBusy | .sendSlot
  | .transmitComplete | .collision | .jamEnd | .answerTimerExpiry _ | .presenceTimerExpiry
  | .referenceSlot => true

end Sys2Proof
end

