-- ==== Sys2Proof/Certificates/Slice0/Obligations.lean ====
section
/-! DEFINITION. The statements for the provers. Each says what a rule of spec/ says a command, or the part at every moment,
does; OBLIGATIONS.json says of each what it rests on. -/

open Sys2Proof Sys2Proof.Machine

/-! ### Steps, reset and load -/

/-- The step of a state with a command at the front of its queue is that command's meaning on the state with the rest. The
queue is the model's own (notes/assumptions/2.md). -/
def Obligations.StepTakesTheFrontCommand : Prop :=
  ∀ (c : Instr) (s : State), step { s with pending := c :: s.pending } = exec c s

/-- HARD_RESET puts the part in its hard-reset state from any state, with both outputs 0, every lamp off and the line not
driven; and while the pin is held every other command but the release and a contact's change leaves it there (R181). The
commands that wait and the contacts are outside the part (notes/assumptions/3.md). -/
def Obligations.HardResetHoldsThePart : Prop :=
  ∀ s : State, ∃ t : State, exec .hardReset s = .next t
    ∧ t = { State.reset with
        pending := s.pending, triggers := { Triggers.reset with contacts := s.triggers.contacts } }
    ∧ t.mixer.progOut = 0 ∧ t.mixer.foldOut = 0 ∧ (∀ l : LampId, lampOn t l = false) ∧ t.driving = false
    ∧ ∀ c : Instr, c ≠ .hardReset → (∀ n, c ≠ .hardResetRelease n) → (∀ i b, c ≠ .triggerInputChange i b) →
        exec c t = .next t

/-- HARD_RESET_RELEASE samples the straps and begins LOADING at station time 0, every block at its hard-reset values and the
random slot source seeded from the number (R181, R113, R116). -/
def Obligations.ReleaseSamplesTheStrapsAndBeginsLoading : Prop :=
  ∀ (straps : Station) (s : State), s.inReset = true → ∃ t : State, exec (.hardResetRelease straps) s = .next t
    ∧ t = { State.reset with
        pending := s.pending, inReset := false, number := straps,
        triggers := { Triggers.reset with contacts := s.triggers.contacts },
        line := { Line.reset 0 with shift := BitVec.ofNat 16 (256 * straps.val + 1) } }
    ∧ t.station = .loading ∧ t.now = 0

/-- LOAD_END: an image that fails a check takes the station to UNCONFIGURED with its tables as they are and offers a PRESENCE;
an image that passes takes it to LISTENING, every loaded table in force, the listen timer at 2P, and each bound input at its
present raw level with no timer running (R179, R182 to R184, R104). The tables built from any image give what its records hold,
each field at its place of the layout and clamped as its rule says, cues valid and references present as R11 to R14 decide (R3,
R4, R7, R8, R18, R96, R102, R108, R134, R135, R147, R170), and hold the properties of R15. That the bits of a field beyond
those the layout gives it are not read, and a key or claim trigger beyond its table is absent, is the model's reading
(notes/assumptions/12.md). The preload pass takes up the first cue whose head resolves and fits, at place 0, STORE_FAULT
counting each cue on the way whose first segment does not resolve, and the idle port is granted to it (R31, R32, R25). -/
def Obligations.LoadEndDecidesByTheImage : Prop :=
  (∀ image : List Byte, TablesOk (buildTables image) ∧ TablesFollow image (buildTables image))
  ∧ ∀ (image : List Byte) (s : State), s.inReset = false → s.station = .loading →
    (imageOk image = false → exec (.loadEnd image) s = .next (offer .presence { s with station := .unconfigured }))
    ∧ (imageOk image = true → Settled s → s.fetch.burst = none → (∀ v : VoiceId, s.fetch.requests.get v = none) →
        ∃ t : State, exec (.loadEnd image) s = .next t
          ∧ t = { s with
              station := .listening, tables := buildTables image,
              peers := { s.peers with listenTimer := some (later s.now (96 * (buildTables image).periodMs)) },
              triggers := t.triggers, fetch := t.fetch, counters := t.counters }
          ∧ (∀ (i : InputId) (b : Binding), t.tables.triggers.get i = some b →
              t.triggers.raw.get i = rawLevel b.polarity (s.triggers.contacts.get i)
                ∧ t.triggers.recognized.get i = rawLevel b.polarity (s.triggers.contacts.get i)
                ∧ t.triggers.timers.get i = none)
          ∧ t.triggers.contacts = s.triggers.contacts
          ∧ (t.fetch.pass = .done ∨ t.fetch.pass = .running ∧ t.fetch.burst.isSome = true)
          ∧ PassGoesOn { s with tables := buildTables image, fetch := { s.fetch with alloc := 0 } } 0 t
          ∧ t.fetch.burst = preloadGrant t ∧ t.fetch.requests = s.fetch.requests)

/-- LISTEN_TIMER_EXPIRY makes a LISTENING station RUNNING, stops the timer and offers a PRESENCE, and a holdoff for a frame
that is no longer the head is abandoned (R179, R185, R177, R117). -/
def Obligations.ListenTimerExpiryBeginsRunning : Prop :=
  ∀ (s : State) (e : Time), s.inReset = false → s.station = .listening → s.peers.listenTimer = some e →
    reached s.now e = true →
    exec .listenTimerExpiry s
      = .next (recheckHoldoff (offer .presence
          { s with station := .running, peers := { s.peers with listenTimer := none } }))

/-! ### Timebase -/

/-- WORD_CLOCK_EDGE moves the clock state and the acquisition count by the table of R186, in tolerance from 20,729 to 20,938
ns, and changes neither station time nor the microsecond clock nor any other block. -/
def Obligations.WordClockEdgeMovesTheClockState : Prop :=
  ∀ (ns : Nat) (s : State), s.inReset = false → 0 < ns → ∃ t : State, exec (.wordClockEdge ns) s = .next t
    ∧ t = { s with clock := t.clock }
    ∧ t.clock.time = s.clock.time ∧ t.clock.micros = s.clock.micros ∧ t.clock.half = s.clock.half
    ∧ (20729 ≤ ns ∧ ns ≤ 20938 →
        (s.clock.clock = .free ∨ s.clock.clock = .holdover → t.clock.clock = .acquiring ∧ t.clock.acq = 1)
        ∧ (s.clock.clock = .acquiring → s.clock.acq + 1 < 4800 →
            t.clock.clock = .acquiring ∧ t.clock.acq = s.clock.acq + 1)
        ∧ (s.clock.clock = .acquiring → 4800 ≤ s.clock.acq + 1 → t.clock.clock = .locked ∧ t.clock.acq = 4800)
        ∧ (s.clock.clock = .locked → t.clock.clock = .locked ∧ t.clock.acq = s.clock.acq))
    ∧ (ns < 20729 ∨ 20938 < ns →
        (s.clock.clock = .free ∨ s.clock.clock = .holdover →
            t.clock.clock = s.clock.clock ∧ t.clock.acq = s.clock.acq)
        ∧ (s.clock.clock = .acquiring → t.clock.clock = .free ∧ t.clock.acq = 0)
        ∧ (s.clock.clock = .locked → t.clock.clock = .holdover ∧ t.clock.acq = 0))

/-- WORD_CLOCK_TIMEOUT, 84 bit times and more after the last edge, takes ACQUIRING to FREE and LOCKED to HOLDOVER with count 0,
and changes nothing else (R186). The bound of 84 bit times is the model's, the first whole bit times beyond the manual's 41.667
µs (notes/assumptions/7.md). -/
def Obligations.WordClockTimeoutLosesTheClock : Prop :=
  ∀ s : State, s.inReset = false → 84 ≤ s.clock.quiet →
    (s.clock.clock = .acquiring →
      exec .wordClockTimeout s = .next { s with clock := { s.clock with clock := .free, acq := 0 } })
    ∧ (s.clock.clock = .locked →
      exec .wordClockTimeout s = .next { s with clock := { s.clock with clock := .holdover, acq := 0 } })
    ∧ (s.clock.clock = .free ∨ s.clock.clock = .holdover → exec .wordClockTimeout s = .next s)

/-- One bit time on an empty queue steps the random slot source once and the microsecond clock by half a microsecond, and
station time stays (R116, R186, R114). The line's REST is counted up to the gap's 16 bit times outside a byte, for a hunting
station as for a receiving one, and broken by ACTIVE; and while the station does not drive the line a reception takes one bit
more: a start bit, eight data bits, and the byte at its stop bit at REST, the command of a reception that ends there going
first into the queue (R114, R115, R125). The sample frame ends with the bit time at a word clock edge in LOCKED, at the held
length in HOLDOVER and in ACQUIRING from HOLDOVER, and else at the nominal one; and as it turns, every sample given, station
time and the control frame phase advance by exactly one (R186, R86). That a step on an empty queue lets time pass, in four
stages of a sample frame, that a LINE_BUSY is the ACTIVE level of its bit time, which period is the held one and how a frame's
overrun is carried on, and what a hunting station takes for a byte where a stop bit is at ACTIVE or its own jam has ended, is
the model's choice (notes/assumptions/2.md, 8.md, 13.md). -/
def Obligations.BitTimeStepsTheClocks : Prop :=
  (∀ s : State, s.inReset = false → s.pending = [] → s.clock.stage = .running → ∃ t : State, step s = .next t
    ∧ (∀ i : Nat, i < 15 → t.line.shift.getLsbD (i + 1) = s.line.shift.getLsbD i)
    ∧ t.line.shift.getLsbD 0
        = (s.line.shift.getLsbD 15 ^^ s.line.shift.getLsbD 13 ^^ s.line.shift.getLsbD 12 ^^ s.line.shift.getLsbD 10)
    ∧ t.clock.half = !s.clock.half
    ∧ t.clock.micros = (if s.clock.half then s.clock.micros + 1 else s.clock.micros)
    ∧ t.clock.time = s.clock.time ∧ t.mixer = s.mixer
    -- The length of a sample frame that the part paces itself, and the age of this one, in thirds of a ns.
    ∧ (let length :=
          if s.clock.clock = .holdover ∨ s.clock.clock = .acquiring ∧ s.clock.fromHoldover = true then 3 * s.clock.heldNs
          else 62500
        let age := s.clock.frameAge + 1500
        (s.clock.clock = .locked → t.clock.stage = (if 0 < s.clock.edges then .closing else .running)
          ∧ t.clock.edges = s.clock.edges - 1)
        ∧ (s.clock.clock ≠ .locked → t.clock.stage = (if length ≤ age then .closing else .running)
          ∧ t.clock.frameAge = (if length ≤ age then age - length else age)))
    ∧ (s.driving = true → t.line.rest = s.line.rest ∧ t.line.rx = s.line.rx)
    ∧ (s.driving = false →
      let heard : LineLevel := if s.line.rest = none then .active else .rest
      (s.line.rest = none → t.line.rest = some 0)
      -- Outside a byte, in which k bit times have been heard within one.
      ∧ (∀ k : Nat, s.line.rx = .hunting k →
        (k = 0 → heard = .active → t.line.rx = .hunting 1)
        ∧ (∀ n : Nat, k = 0 → s.line.rest = some n → t.line.rx = .hunting 0 ∧ t.line.rest = some (min 16 (n + 1)))
        ∧ (1 ≤ k → t.line.rest = some 0 ∧ (k < 9 → t.line.rx = .hunting (k + 1))
          ∧ (9 ≤ k → t.line.rx = if heard = .rest then .hunting 0 else .activeHeld)))
      ∧ (s.line.rx = .activeHeld → (heard = .active → t.line.rx = .activeHeld)
        ∧ ∀ n : Nat, s.line.rest = some n → t.line.rx = .hunting 0 ∧ t.line.rest = some (min 16 (n + 1)))
      ∧ (∀ bytes : List Byte, s.line.rx = .receiving bytes [] → heard = .active → t.line.rx = .receiving bytes [.active])
      ∧ ∀ (bytes : List Byte) (b : LineLevel) (bits : List LineLevel), s.line.rx = .receiving bytes (b :: bits) →
        t.line.rest = some 0
        ∧ (bits.length < 8 → t.line.rx = .receiving bytes (b :: bits ++ [heard]))
        ∧ (bits.length = 8 → heard = .rest → ∃ x : Byte, t.line.rx = .receiving (bytes ++ [x]) []
          ∧ ∀ i : Fin 8, x.getLsbD (7 - i.val) = (bits[i.val]? == some .rest))
        ∧ ∀ r : Reception, (rxBit s.line.rx heard).2 = some r → ∃ l : List Instr, t.pending = commandsOfReception r ++ l))
  -- The other stages of a sample frame, and its turn.
  ∧ ∀ s : State, s.inReset = false → s.pending = [] →
    (s.clock.stage = .opening → ∃ l : List Instr,
      step s = .next { s with clock := { s.clock with stage := .running }, pending := l })
    ∧ (s.clock.stage = .closing →
      let needs := (List.finRange 8).map Instr.voiceSampleNeed
      step s = .next { s with
        clock := { s.clock with stage := .over }, pending := needs ++ [.beatBoundary] ++ needs ++ [.busSampleOutput] })
    ∧ (s.clock.stage = .over →
      (∀ v : VoiceId, (s.voice v).state = .playing ∨ (s.voice v).state = .fading → s.mixer.given.get v ≠ none) →
      step s = .next { s with
        clock := { s.clock with
          time := s.clock.time + 1, stage := .opening, hadBoundary := false, hadBeat := Vector.replicate 8 false
          hadOutput := false }
        mixer := { s.mixer with phase := (s.mixer.phase + 1) % 48, given := Vector.replicate 8 none } })

/-- No command but HARD_RESET and HARD_RESET_RELEASE changes station time, the microsecond clock, the station number, the
control frame phase, the random slot source or the duplicate flag's being set; and none but those and LOAD_END changes the
tables (R181, R186, R86, R116, R176, R15, R17). A step on an empty queue keeps number and tables, and changes station time and
phase together, by one each, as a sample frame turns, or neither: no count is skipped or repeated (R186, R86). That such a step
is the passing of time is the model's choice (notes/assumptions/2.md). -/
def Obligations.CommandsKeepTimeNumberAndTables : Prop :=
  (∀ (c : Instr) (s t : State), c ≠ .hardReset → (∀ n, c ≠ .hardResetRelease n) → exec c s = .next t →
    t.clock.time = s.clock.time ∧ t.clock.micros = s.clock.micros ∧ t.number = s.number ∧ t.inReset = s.inReset
    ∧ t.mixer.phase = s.mixer.phase ∧ t.line.shift = s.line.shift
    ∧ (s.peers.duplicate = true → t.peers.duplicate = true)
    ∧ ((∀ image, c ≠ .loadEnd image) → t.tables = s.tables))
  ∧ ∀ s t : State, s.pending = [] → step s = .next t →
    t.number = s.number ∧ t.tables = s.tables ∧ t.inReset = s.inReset ∧ t.peers = s.peers
    ∧ (t.clock.time = s.clock.time ∧ t.mixer = s.mixer
      ∨ s.clock.stage = .over ∧ t.clock.stage = .opening
        ∧ t.clock.time = s.clock.time + 1 ∧ t.mixer.phase = (s.mixer.phase + 1) % 48)

/-! ### Samples and outputs -/

/-- VOICE_SAMPLE_NEED takes the sample from the head, from the FIFO, as missing, or as silence in FADING, and changes nothing
else but the request set, which the voice joins when the fill has come to 192 (R67, R68, R71, R24). -/
def Obligations.SampleNeedTakesOneSample : Prop :=
  ∀ (v : VoiceId) (s : State), s.inReset = false → Settled s →
    (s.voice v).state = .playing ∨ (s.voice v).state = .fading → s.mixer.given.get v = none →
    let x := s.voice v
    (x.headPos < x.headLen →
      exec (.voiceSampleNeed v) s
        = .next ((s.setVoice v { x with headPos := x.headPos + 1 }).setGiven v
            (some (memRead s.preload.mem (x.headPlace + x.headPos)))))
    ∧ (∀ (h : Held) (rest : List Held), x.headLen ≤ x.headPos → x.fifo = h :: rest → s.fetch.burst.isSome = true →
        exec (.voiceSampleNeed v) s
          = .next (((s.setVoice v { x with fifo := rest, underrun := false }).setGiven v (some h.sample)).setRequest v
              (if x.fetchDone = false ∧ s.ownBurst v = false ∧ rest.length + x.inFlight ≤ 192 then
                some ((s.fetch.requests.get v).getD s.clock.micros)
              else none)))
    ∧ (x.headLen ≤ x.headPos → x.fifo = [] → x.fetchDone = false →
        exec (.voiceSampleNeed v) s
          = .next (((s.setVoice v { x with debt := min 65535 (x.debt + 1), underrun := true }).setGiven v
              (some 0)).bumpIf (!x.underrun) .underrun))
    ∧ (x.headLen ≤ x.headPos → x.fifo = [] → x.fetchDone = true → x.state = .fading →
        exec (.voiceSampleNeed v) s = .next (s.setGiven v (some 0)))

/-- A natural end in PLAYING, and the end of a fade-out, return the voice to IDLE with its fetch state and flags cleared, out
of the request set, silent, its key withdrawn; and the beat reference passes to the bed of the latest play time when the voice
was it (R77 to R79, R81). The return is then taken: the follow-on of a natural end is admitted, a VOICE entry that reserves the
voice starts on it, every BEAT entry is released when the voice was the beat reference, and the queue is served, in this order
of R77 (R54, R55, R78). It is the model's choice that a return which the follow-on's admission or a release causes is taken
only after the whole of this one (notes/assumptions/24.md), and that a BEAT entry which the follow-on itself makes is released
by this return (notes/assumptions/15.md). With no start waiting, no follow-on leaves the voice IDLE, a startable follow-on
starts on it where it is the only voice IDLE, and so does the one entry that reserves it. -/
def Obligations.NaturalEndAndFadeEndReturnTheVoice : Prop :=
  ∀ (v : VoiceId) (s : State), s.inReset = false → Settled s →
    let x := s.voice v
    let returned (t : State) : Prop :=
      t.voice v = { x with
        state := .idle, deadline := none, fetchDone := true, window := none, fifo := [], inFlight := 0, debt := 0,
        underrun := false, tail := false, fade := none }
      ∧ (∀ u : VoiceId, u ≠ v → t.voice u = s.voice u ∧ t.mix u = s.mix u ∧ t.mixer.given.get u = s.mixer.given.get u)
      ∧ t.mix v = ⟨0, none, none⟩ ∧ t.mixer.given.get v = none
      ∧ t.fetch = { s.fetch with requests := upd s.fetch.requests v none }
      ∧ t.mixer.localKeys = t.assertedKeys
      ∧ t.starts = s.starts ∧ t.groups = s.groups ∧ t.clock = s.clock ∧ t.preload = s.preload ∧ t.tables = s.tables ∧ Settled t
      ∧ (s.beatRef ≠ some v → t.beatRef = s.beatRef)
      ∧ (s.beatRef = some v →
          (t.beatRef = none → ∀ u : VoiceId, t.bedBeat u = none)
          ∧ ∀ r u : VoiceId, t.beatRef = some r → (t.bedBeat u).isSome = true →
              (t.bedBeat r).isSome = true
              ∧ (since t.now (t.voice r).playTime < since t.now (t.voice u).playTime
                ∨ since t.now (t.voice r).playTime = since t.now (t.voice u).playTime ∧ r ≤ u))
    let started (t : State) (c : LocalCue) (k : Cue) (o : Int) : Prop :=
      (t.voice v).state = .priming ∧ (t.voice v).cue = c ∧ (t.voice v).gen = x.gen + 1 ∧ (t.voice v).offset = o
        ∧ (t.voice v).deadline = some (later s.now 480) ∧ (t.voice v).fetchPtr = ⟨k.first, 0, 0⟩ ∧ t.starts.queue = []
    let streams (c : LocalCue) (k : Cue) : Prop := s.cue c = some k ∧ s.preload.heads.get c = none
      ∧ (s.segment k.first).bind (resolve s.tables) ≠ none ∧ s.fetch.burst.isSome = true
    let taken (i : Instr) (follow : Option LocalCue) : Prop := ∃ r t : State, exec i s = .next t ∧ returned r
      ∧ (let admitted := match follow with
          | some c => admitRequest ⟨c, 0, false⟩ r
          | none => r
        let placed := match admitted.reservedFor v with
          | some e => if e.reason = .voice ∧ (admitted.voice v).state = .idle then startEntry e v admitted else admitted
          | none => admitted
        t = finish (serve 17 (if s.beatRef = some v then releaseBeats placed else placed)))
      ∧ (follow = none → s.starts.queue = [] → returned t)
      ∧ (∀ (c : LocalCue) (k : Cue), follow = some c → streams c k → s.starts.queue = [] → k.choke = 0 →
          s.starts.mask.getLsbD k.cls.val = true → k.mode = .immediate → k.retrigger = .layer ∨ r.cueLive c = false →
          (∀ u : VoiceId, u ≠ v → (s.voice u).state ≠ .idle) → r.occupancy k.cls < (s.cls k.cls).polyphony →
          s.station ≠ .loading → started t c k 0)
      ∧ ∀ (e : Entry) (k : Cue), follow = none → streams e.cue k → s.starts.queue = [e] → e.reason = .voice →
          e.reserved = some v → started t e.cue k e.offset
    (x.state = .playing → s.mixer.given.get v = none → x.headLen ≤ x.headPos → x.fifo = [] → x.fetchDone = true →
      taken (.voiceSampleNeed v) ((s.cue x.cue).bind (·.followOn)))
    ∧ (∀ (a0 T k : Nat), x.state = .fading → x.fade = some ⟨.fadeOut, a0, T, some k⟩ → T ≤ k → taken (.fadeEnd v) none)

/-- BUS_SAMPLE_OUTPUT delivers the clamped sum of the contributions on each bus while the station is LISTENING or RUNNING, and
counts each sample that the clamp changes; in LOADING and UNCONFIGURED both outputs are 0 and nothing counts (R95, R97 to R99).
That a sounding voice whose need has not yet been taken in the sample frame contributes 0 is the model's choice
(notes/assumptions/27.md). -/
def Obligations.OutputIsTheClampedSum : Prop :=
  ∀ s : State, s.inReset = false → s.clock.hadOutput = false →
    let sum (level : VoiceMix → Option Level) : Int :=
      ((List.finRange 8).map fun v : VoiceId =>
        match s.mixer.given.get v, level (s.mix v) with
        | some x, some l => (x.toInt * (l.gain : Int) + 16384) / 32768
        | _, _ => 0).sum
    let clipped (x : Int) : Prop := x < -32768 ∨ 32767 < x
    (s.station = .listening ∨ s.station = .running → ∃ t : State, exec .busSampleOutput s = .next t
      ∧ t = { s with
          mixer := { s.mixer with progOut := t.mixer.progOut, foldOut := t.mixer.foldOut }
          counters := t.counters, clock := { s.clock with hadOutput := true } }
      ∧ t.mixer.progOut.toInt = max (-32768) (min 32767 (sum VoiceMix.prog))
      ∧ t.mixer.foldOut.toInt = max (-32768) (min 32767 (sum VoiceMix.fold))
      ∧ (clipped (sum VoiceMix.prog) → t.counter .clipProg = min 65535 (s.counter .clipProg + 1))
      ∧ (¬ clipped (sum VoiceMix.prog) → t.counter .clipProg = s.counter .clipProg)
      ∧ (clipped (sum VoiceMix.fold) → t.counter .clipFold = min 65535 (s.counter .clipFold + 1))
      ∧ (¬ clipped (sum VoiceMix.fold) → t.counter .clipFold = s.counter .clipFold)
      ∧ ∀ c : Counter, c ≠ .clipProg → c ≠ .clipFold → t.counter c = s.counter c)
    ∧ (s.station = .loading ∨ s.station = .unconfigured →
      exec .busSampleOutput s = .next { s with
        mixer := { s.mixer with progOut := 0, foldOut := 0 }, clock := { s.clock with hadOutput := true } })

/-- CONTROL_FRAME_BOUNDARY gives each class the greatest depth over the active keys as its duck target, and moves its duck
attenuation toward it by at most its step, both within 0..126 as the depths are (R88, R89); it leaves every block but the
Mixer's levels and the voices' fades as it was. -/
def Obligations.BoundaryDucksEveryClass : Prop :=
  ∀ s : State, s.inReset = false → s.mixer.phase = 0 → s.clock.hadBoundary = false →
    ∃ t : State, exec .controlFrameBoundary s = .next t
      ∧ t = { s with
          voices := t.voices, clock := { s.clock with hadBoundary := true }
          mixer := { s.mixer with duck := t.mixer.duck, target := t.mixer.target, mix := t.mixer.mix } }
      ∧ ∀ c : ClassId,
          let r := s.cls c
          let D := s.mixer.duck.get c
          let T := t.mixer.target.get c
          (∀ k : KeyId, s.activeKeys.getLsbD k.val = true → r.depth.get k ≤ T)
          ∧ (T = 0 ∨ ∃ k : KeyId, s.activeKeys.getLsbD k.val = true ∧ r.depth.get k = T)
          ∧ (D < T → t.mixer.duck.get c = min T (D + r.attack))
          ∧ (T < D → t.mixer.duck.get c = max T (D - r.release))
          ∧ (D = T → t.mixer.duck.get c = D)
          ∧ (s.activeKeys = 0 → T = 0)
          ∧ ((∀ k : KeyId, r.depth.get k ≤ 126) → T ≤ 126 ∧ (D ≤ 126 → t.mixer.duck.get c ≤ 126))

/-- CONTROL_FRAME_BOUNDARY counts the fade of each voice in PLAYING or FADING, 0 at the first boundary and one more at each
after it up to the length, and gives it the fade attenuation of R90 or R91; it gives the other voices no gain (R73, R86). -/
def Obligations.BoundaryCountsEveryFade : Prop :=
  ∀ (s : State) (v : VoiceId), s.inReset = false → s.mixer.phase = 0 → s.clock.hadBoundary = false →
    ∃ t : State, exec .controlFrameBoundary s = .next t
      ∧ (∀ f : Fade, (s.voice v).state = .playing ∨ (s.voice v).state = .fading → (s.voice v).fade = some f →
          let k := match f.count with
            | none => 0
            | some n => min f.length (n + 1)
          t.voice v = { s.voice v with fade := some { f with count := some k } }
          ∧ (f.kind = .fadeIn → 0 < f.length → (t.mix v).fade = 127 * (f.length - k) / f.length)
          ∧ (f.kind = .fadeIn → f.length = 0 → (t.mix v).fade = 0)
          ∧ (f.kind = .fadeOut → (t.mix v).fade = f.a0 + (127 - f.a0) * k / f.length))
      ∧ ((s.voice v).state = .idle ∨ (s.voice v).state = .priming →
          t.voice v = s.voice v ∧ t.mix v = ⟨0, none, none⟩)

/-- At CONTROL_FRAME_BOUNDARY each voice in PLAYING or FADING, but one whose fade-out ends there, takes on each bus it feeds
the total attenuation of R93 and the gain of R94 (R86, R96). -/
def Obligations.BoundaryFixesEveryGain : Prop :=
  ∀ (s : State) (v : VoiceId) (q : Cue), s.inReset = false → s.mixer.phase = 0 → s.clock.hadBoundary = false →
    (s.voice v).state = .playing ∨ (s.voice v).state = .fading → s.cue (s.voice v).cue = some q →
    ∃ t : State, exec .controlFrameBoundary s = .next t
      ∧ let x := s.voice v
        let M : List Nat := [32768, 30935, 29205, 27571, 26029, 24573, 23198, 21900, 20675, 19519, 18427, 17396]
        let A (trim : Nat) : Nat :=
          min 127 ((max 0 ((q.level : Int) + x.offset)).toNat + (t.mix v).fade + t.mixer.duck.get x.cls + trim)
        let G (a : Nat) : Nat := if a = 127 then 0 else M.getD (a % 12) 0 / 2 ^ (a / 12)
        ((∀ f : Fade, (t.voice v).fade = some f → f.kind = .fadeOut → ∀ k : Nat, f.count = some k → k < f.length) →
          (x.bus = .prog ∨ x.bus = .both →
            (t.mix v).prog = some ⟨A s.tables.trimProg, G (A s.tables.trimProg)⟩)
          ∧ (x.bus = .fold ∨ x.bus = .both →
            (t.mix v).fold = some ⟨A s.tables.trimFold, G (A s.tables.trimFold)⟩)
          ∧ (x.bus = .prog → (t.mix v).fold = none) ∧ (x.bus = .fold → (t.mix v).prog = none))
        ∧ ((∃ f : Fade, ∃ k : Nat, (t.voice v).fade = some f ∧ f.kind = .fadeOut ∧ f.count = some k ∧ f.length ≤ k) →
            (t.mix v).prog = none ∧ (t.mix v).fold = none)

/-! ### Voices and the store port -/

/-- PRIME_DEADLINE takes a PRIMING voice to PLAYING: play time now, a fade-in of the cue's length, the beat reference when the
cue has a beat length, its key asserted; and its first sample is missing, so it gives 0, its skip debt rises by one, and it is
in underrun and counts UNDERRUN (R63, R64, R71, R79, R81, R87). -/
def Obligations.PrimeDeadlineBeginsPlaying : Prop :=
  ∀ (v : VoiceId) (s : State) (d : Time) (q : Cue), s.inReset = false → (s.voice v).state = .priming →
    (s.voice v).deadline = some d → reached s.now d = true → s.cue (s.voice v).cue = some q →
    ∃ (t : State) (a0 : Nat), exec (.primeDeadline v) s = .next t
      ∧ t.voice v = { s.voice v with
          state := .playing, deadline := none, playTime := s.now, fade := some ⟨.fadeIn, a0, q.fadeIn, none⟩
          debt := min 65535 ((s.voice v).debt + 1), underrun := true }
      ∧ t.mixer.given = upd s.mixer.given v (some 0)
      ∧ t.counter .underrun
          = (if (s.voice v).underrun then s.counter .underrun else min 65535 (s.counter .underrun + 1))
      ∧ (∀ u : VoiceId, u ≠ v → t.voice u = s.voice u ∧ t.mix u = s.mix u)
      ∧ (t.mix v).fade = (if q.fadeIn = 0 then 0 else 127)
      ∧ t.beatRef = (if q.beat.isSome then some v else s.beatRef)
      ∧ t.mixer.localKeys = t.assertedKeys
      ∧ t.fetch = s.fetch ∧ t.starts = s.starts ∧ t.preload = s.preload ∧ t.groups = s.groups ∧ t.clock = s.clock
      ∧ t.mixer.duck = s.mixer.duck ∧ t.mixer.peerKeys = s.mixer.peerKeys

/-- BURST_COMPLETE with a matching tag and the debt at most the burst: the samples beyond the debt are appended in store order
with their positions, the debt is settled, and the pointer advances by the length. At the pass end it is walked on: to the next
pass of the descriptor, or out of it to the next descriptor through the window that it resolves to, the tail-exit flag cleared
where it was read; or to chain end, where the fetch is done; and a next descriptor that resolves to none is a store fault,
which ends the fetch, counts STORE_FAULT and cuts the voice (R21, R22, R66). The voice is granted the port again at once when
it rejoins and no other voice requests (R24 to R28). -/
def Obligations.BurstCompletionFillsTheFifo : Prop :=
  ∀ (data : Vector Sample 64) (v : VoiceId) (w b : WindowId) (first n : Nat) (g : Segment) (s : State),
    s.inReset = false → Settled s → (∀ u : VoiceId, s.fetch.requests.get u = none) → s.fetch.pass ≠ .running →
    s.fetch.burst = some ⟨.voice v (s.voice v).gen, b, first, n, 0⟩ →
    (s.voice v).state = .playing ∨ (s.voice v).state = .fading → (s.voice v).fetchDone = false →
    (s.voice v).window = some w → s.segment (s.voice v).fetchPtr.desc = some g → (s.voice v).debt ≤ n →
    let x := s.voice v
    let p := x.fetchPtr
    let taken := (data.toList.take n).mapIdx fun i y => (⟨y, { p with off := p.off + i }⟩ : Held)
    let filled : Voice := { x with inFlight := 0, debt := 0, fifo := x.fifo ++ taken.drop x.debt }
    let free (y : Voice) : State :=
      { s with voices := upd s.voices v y, fetch := { s.fetch with burst := none } }
    -- The voice goes on at its fetch pointer in a segment through a window.
    let goesOn (y : Voice) (k : Segment) (u : WindowId) : Prop :=
      let m := min 64 (k.length - y.fetchPtr.off)
      (y.fifo.length ≤ 192 →
        exec (.burstComplete data) s = .next { s with
          voices := upd s.voices v { y with inFlight := m }
          fetch := { s.fetch with
            burst := some ⟨.voice v x.gen, u, k.start + y.fetchPtr.off, m, 40 * 2 ^ (s.tables.store.get u).access.val⟩ } })
      ∧ (192 < y.fifo.length → exec (.burstComplete data) s = .next (free y))
    (p.off + n < g.length → goesOn { filled with fetchPtr := { p with off := p.off + n } } g w)
    ∧ (g.length ≤ p.off + n →
      (g.repeats ≠ 255 → p.pass < g.repeats → goesOn { filled with fetchPtr := ⟨p.desc, 0, p.pass + 1⟩ } g w)
      ∧ (g.repeats = 255 → x.tail = false → goesOn { filled with fetchPtr := ⟨p.desc, 0, min 255 (p.pass + 1)⟩ } g w)
      ∧ (g.repeats ≠ 255 ∧ g.repeats ≤ p.pass ∨ g.repeats = 255 ∧ x.tail = true →
        let out : Voice := { filled with tail := if g.repeats = 255 then false else x.tail }
        (∀ (d : SegIdx) (k : Segment) (u : WindowId), g.next = some d → s.segment d = some k → resolve s.tables k = some u →
          goesOn { out with fetchPtr := ⟨d, 0, 0⟩, window := some u } k u)
        ∧ (∀ d : SegIdx, g.next = some d → (s.segment d).bind (resolve s.tables) = none →
          ∃ u : Option WindowId, exec (.burstComplete data) s = .next ((free { out with
            fetchPtr := ⟨d, 0, 0⟩, fetchDone := true, window := u, state := .fading
            fade := some ⟨.fadeOut, (s.mix v).fade, 2, none⟩ }).bump .storeFault))
        ∧ (g.next = none →
          exec (.burstComplete data) s
            = .next (free { out with fetchPtr := { p with off := p.off + n }, fetchDone := true }))))

/-- The first completion with a matching tag ends PRIMING: the voice is PLAYING from now with its fade-in begun, and the
samples stand in its FIFO (R28, R63, R64). The pointer stays within its pass and the FIFO takes no more. -/
def Obligations.FirstBurstEndsPriming : Prop :=
  ∀ (data : Vector Sample 64) (v : VoiceId) (b : WindowId) (first n : Nat) (g : Segment) (q : Cue) (s : State),
    s.inReset = false → Settled s → (∀ u : VoiceId, s.fetch.requests.get u = none) →
    s.fetch.burst = some ⟨.voice v (s.voice v).gen, b, first, n, 0⟩ →
    (s.voice v).state = .priming → (s.voice v).fetchDone = false → (s.voice v).window.isSome = true →
    (s.voice v).fifo = [] → (s.voice v).debt = 0 → s.cue (s.voice v).cue = some q →
    s.segment (s.voice v).fetchPtr.desc = some g → (s.voice v).fetchPtr.off + n < g.length → n ≤ 64 →
    ∃ (t : State) (a0 : Nat), exec (.burstComplete data) s = .next t
      ∧ (t.voice v).state = .playing ∧ (t.voice v).playTime = s.now ∧ (t.voice v).deadline = none
      ∧ (t.voice v).fade = some ⟨.fadeIn, a0, q.fadeIn, none⟩
      ∧ (t.voice v).fifo.map (·.sample) = data.toList.take n
      ∧ (t.voice v).fetchPtr = { (s.voice v).fetchPtr with off := (s.voice v).fetchPtr.off + n }
      ∧ (∀ u : VoiceId, u ≠ v → t.voice u = s.voice u) ∧ t.starts = s.starts ∧ t.preload = s.preload
      ∧ t.beatRef = (if q.beat.isSome then some v else s.beatRef)

/-- BURST_COMPLETE whose tag matches no start of its voice is discarded whole, and the port is granted again (R28, R29): to the
requesting voice of the best effective priority, its class priority less one for each 250 µs waited, then of the longest wait,
then of the lowest number; else to the preload pass (R25). The voice granted has its debt settled first, its pointer advancing
sample by sample as fetching would (R27): where that ends its fetch it leaves the set, and else its burst of at most 64 samples
and to the pass end is recorded, holds the port for its window's access time, and reads the chip select at the device sample
offsets from the window's base (R26, R19). -/
def Obligations.StaleBurstIsDiscardedWhole : Prop :=
  ∀ (data : Vector Sample 64) (v : VoiceId) (tag : Byte) (b : WindowId) (first n : Nat) (s : State),
    s.inReset = false → Settled s → s.fetch.burst = some ⟨.voice v tag, b, first, n, 0⟩ →
    (s.voice v).state = .idle ∨ (s.voice v).gen ≠ tag →
    let free : State := { s with fetch := { s.fetch with burst := none } }
    let wait (t : Micros) : Nat := (s.clock.micros - t).toNat
    let priority (u : VoiceId) (t : Micros) : Nat := (s.cls (s.voice u).cls).priority - wait t / 250
    let alone (u : VoiceId) : Prop := (∀ y : VoiceId, y ≠ u → s.fetch.requests.get y = none) ∧ s.fetch.pass ≠ .running
    ((∀ u : VoiceId, s.fetch.requests.get u = none) →
      (s.fetch.pass ≠ .running → exec (.burstComplete data) s = .next free)
      ∧ ∀ h : HeadWork, s.fetch.pass = .running → s.fetch.work = some h →
        exec (.burstComplete data) s = .next { s with
          fetch := { s.fetch with
            burst := some ⟨.preload, h.window, h.first + h.read, min 64 (h.length - h.read),
              40 * 2 ^ (s.tables.store.get h.window).access.val⟩ } })
    ∧ ∀ (u : VoiceId) (t : Micros), s.fetch.requests.get u = some t →
      (∀ (y : VoiceId) (r : Micros), y ≠ u → s.fetch.requests.get y = some r →
        priority u t < priority y r
          ∨ priority u t = priority y r ∧ (wait r < wait t ∨ wait r = wait t ∧ u < y)) →
      (s.voice u).state = .playing ∨ (s.voice u).state = .fading → (s.voice u).fetchDone = false →
      (∀ (d : SegIdx) (k : Segment), s.segment d = some k → 1 ≤ k.length) →
      (∀ k : Segment, s.segment (s.voice u).fetchPtr.desc = some k → (s.voice u).fetchPtr.off < k.length) →
      let walked := (fun z : State => if (z.voice u).fetchDone then z else advancePtr u 1 z)^[(s.voice u).debt] free
      let y := walked.voice u
      (∀ (k : Segment) (w : WindowId), y.fetchDone = false → s.segment y.fetchPtr.desc = some k → y.window = some w →
        let m := min 64 (k.length - y.fetchPtr.off)
        let next : State := { walked with
          voices := upd walked.voices u { y with debt := 0, inFlight := m }
          fetch := { s.fetch with
            requests := upd s.fetch.requests u none
            burst := some ⟨.voice u y.gen, w, k.start + y.fetchPtr.off, m, 40 * 2 ^ (s.tables.store.get w).access.val⟩ } }
        exec (.burstComplete data) s = .next next
          ∧ portReads next
            = (List.range m).map fun i => (w, k.start + y.fetchPtr.off + i - (s.tables.store.get w).base))
      ∧ (y.fetchDone = true → alone u →
        exec (.burstComplete data) s = .next { walked with
          voices := upd walked.voices u { y with debt := 0 }
          fetch := { s.fetch with requests := upd s.fetch.requests u none, burst := none } })

/-- PRELOAD_BURST_COMPLETE writes the burst's samples at their places of the cue's allotted space and nowhere else; the head's
last burst sets the cue's head-loaded flag with its location, and the pass goes on from the next cue: the first one whose head
resolves and fits is taken up where the last ended, each cue passed over for want of a window counting STORE_FAULT (R30 to
R33). The port goes on to the next burst of the pass when no voice requests it, and no voice changes (R25). -/
def Obligations.PreloadBurstWritesTheHead : Prop :=
  ∀ (data : Vector Sample 64) (b : WindowId) (first n : Nat) (h : HeadWork) (s : State),
    s.inReset = false → Settled s → (∀ u : VoiceId, s.fetch.requests.get u = none) → n ≤ 64 →
    s.fetch.burst = some ⟨.preload, b, first, n, 0⟩ → s.fetch.work = some h → s.fetch.pass = .running →
    PreloadOk s →
    ∃ t : State, exec (.preloadBurstComplete data) s = .next t
      ∧ (∀ i : Fin 64, i.val < n → memRead t.preload.mem (h.place + h.read + i.val) = data.get i)
      ∧ (∀ a : Nat, a < h.place + h.read ∨ h.place + h.read + n ≤ a →
          memRead t.preload.mem a = memRead s.preload.mem a)
      ∧ (h.read + n < h.length → t.preload.heads = s.preload.heads ∧ t.counters = s.counters
          ∧ t.fetch = { s.fetch with work := some { h with read := h.read + n }, burst := preloadGrant t })
      ∧ (h.length ≤ h.read + n → t.preload.heads = upd s.preload.heads h.cue (some ⟨h.place, h.length⟩)
          ∧ PassGoesOn s s.fetch.nextCue t ∧ t.fetch.burst = preloadGrant t)
      ∧ t.fetch.requests = s.fetch.requests ∧ t.tables = s.tables
      ∧ t.voices = s.voices ∧ t.starts = s.starts ∧ t.line = s.line ∧ t.groups = s.groups ∧ t.mixer = s.mixer

/-! ### The pending-start queue -/

/-- BEAT_BOUNDARY of the reference voice releases every BEAT entry, one after another in queue order; then the returns are
taken and the queue is served: no BEAT entry is left, and no entry is there that was not before (R80, R55, R54). That the
return of a PRIMING victim is taken only after every release is the model's choice (notes/assumptions/24.md). A released entry
that reserves a voice starts on it when it is IDLE and else becomes a VOICE entry enqueued now that keeps it; without
reservation it starts on the lowest-numbered free voice when its class has room, becomes a VOICE entry enqueued now that
reserves a victim, which is cut, or waits as one, or is removed and counts START_LOST when its class never waits (R47 to R50,
R57). A boundary at the natural end of the reference voice is not reported: the end releases the entries (R80). That a boundary
waits for a need that finds no sample is the model's choice (notes/assumptions/23.md). A boundary that has been reported for
one voice bars none of its successor in the same frame (R79). -/
def Obligations.BeatBoundaryReleasesEveryBeatEntry : Prop :=
  (∀ (s : State) (v : VoiceId) (n m : Nat), s.inReset = false → Settled s → s.beatRef = some v → s.bedBeat v = some n →
    0 < m → 0 < n → since s.now (s.voice v).playTime = m * n → s.clock.hadBeat.get v = false →
    let x := s.voice v
    let reported : State := { s with clock := { s.clock with hadBeat := upd s.clock.hadBeat v true } }
    let spent : Prop := x.state = .playing ∧ s.mixer.given.get v = none ∧ x.headLen ≤ x.headPos ∧ x.fifo = []
    (¬ spent → ∃ t : State, exec .beatBoundary s = .next t
      ∧ t = finish (releaseBeats reported)
      ∧ (∀ e ∈ t.starts.queue, e.reason = .voice)
      ∧ (∀ e ∈ t.starts.queue, ∃ e' ∈ s.starts.queue, e'.cue = e.cue ∧ e'.offset = e.offset)
      ∧ t.starts.segment = s.starts.segment ∧ t.starts.mask = s.starts.mask ∧ t.groups.showNo = s.groups.showNo
      ∧ t.clock = { s.clock with hadBeat := upd s.clock.hadBeat v true } ∧ t.tables = s.tables ∧ t.preload = s.preload
      ∧ t.triggers = s.triggers)
    ∧ (spent → x.fetchDone = true → exec .beatBoundary s = .next s ∧ ∃ t : State, exec (.voiceSampleNeed v) s = .next t
      ∧ ∀ e ∈ t.starts.queue, e.reason = .voice))
  ∧ (∀ s : State, ∃ l : List Entry, l.Perm (s.starts.queue.filter fun e => e.reason == .beat)
    ∧ (l.Pairwise fun a b => s.entryBefore b a = false) ∧ releaseBeats s = (l.map (·.cue)).foldl releaseEntry s)
  ∧ ∀ (s : State) (e : Entry), e ∈ s.starts.queue → e.reason = .beat → (∀ a ∈ s.starts.queue, a.cue = e.cue → a = e) →
    let c := s.classOf e.cue
    let gone : State := s.setQueue (s.starts.queue.filter fun a => a.cue != e.cue)
    let entered (v : Option VoiceId) : State := s.setQueue (s.starts.queue.map fun a =>
      if a.cue = e.cue then { e with reason := .voice, enq := s.now, reserved := v } else a)
    (∀ v : VoiceId, e.reserved = some v →
      ((s.voice v).state = .idle → releaseEntry s e.cue = startVoice v e.cue e.offset gone)
      ∧ ((s.voice v).state ≠ .idle → releaseEntry s e.cue = entered (some v)))
    ∧ (e.reserved = none →
      (∀ v : VoiceId, s.occupancy c < (s.cls c).polyphony → s.lowestFree = some v →
        releaseEntry s e.cue = startVoice v e.cue e.offset gone)
      ∧ (∀ v : VoiceId, Victim s c v → releaseEntry s e.cue = cutVoice (entered (some v)) v)
      ∧ ((s.cls c).polyphony ≤ s.occupancy c ∨ s.lowestFree = none → (∀ v : VoiceId, ¬ Victim s c v) →
        ((s.cls c).maxWait = 0 → releaseEntry s e.cue = gone.bump .startLost)
        ∧ (0 < (s.cls c).maxWait → releaseEntry s e.cue = entered none)))

/-- PENDING_EXPIRY removes a VOICE entry without reservation that has waited its class's max wait, counts START_LOST and has
the queue served, which with no voice free changes nothing more; an entry with a reservation, a BEAT entry and an entry that
has not waited so long do not expire (R53, R54). The queue is lawful, as every step keeps it. -/
def Obligations.PendingExpiryRemovesTheEntry : Prop :=
  ∀ (c : LocalCue) (e : Entry) (s : State), s.inReset = false → Settled s → StartQueueOk s → e ∈ s.starts.queue →
    e.cue = c →
    let wait := (s.cls (s.classOf c)).maxWait * 48
    let left : State :=
      ({ s with starts := { s.starts with queue := s.starts.queue.filter fun a => a.cue != c } }).bump .startLost
    (e.reason = .voice → e.reserved = none → wait ≤ since s.now e.enq →
      exec (.pendingExpiry c) s = .next (finish left) ∧ (s.lowestFree = none → finish left = left))
    ∧ (e.reason = .beat ∨ e.reserved ≠ none ∨ since s.now e.enq < wait → exec (.pendingExpiry c) s = .next s)

/-- Serving a queue of at most 16 entries ends with no free voice standing beside a VOICE entry without reservation whose class
has room, and adds no entry (R54). -/
def Obligations.ServingLeavesNoFreeVoiceBesideAnEntry : Prop :=
  ∀ s : State, s.starts.queue.length ≤ 16 →
    let t := serve 17 s
    (t.lowestFree = none
      ∨ ∀ e ∈ t.starts.queue, e.reason = .voice → e.reserved = none → (s.cls (s.classOf e.cue)).polyphony
          ≤ t.occupancy (t.classOf e.cue))
    ∧ ∀ e ∈ t.starts.queue, e ∈ s.starts.queue

/-! ### Triggers -/

/-- TRIGGER_INPUT_CHANGE of a bound input outside LOADING takes the raw level through the polarity and starts the filter timer
again; of an unbound input, or in LOADING, the part reads nothing of it (R103, R104, R101). That the contact's level is held,
and that a contact that has the level already changes nothing, is the model's choice (notes/assumptions/4.md, 1.md). -/
def Obligations.ContactChangeRestartsTheFilter : Prop :=
  ∀ (i : InputId) (closed : Bool) (s : State), s.inReset = false →
    let t := s.triggers
    (∀ b : Binding, s.station ≠ .loading → t.contacts.get i ≠ closed → s.tables.triggers.get i = some b →
      exec (.triggerInputChange i closed) s = .next { s with
        triggers := { t with
          contacts := upd t.contacts i closed
          raw := upd t.raw i (match b.polarity with | .closed => closed | .opened => !closed)
          timers := upd t.timers i (some (later s.now (48 * b.filterMs))) } })
    ∧ (s.station = .loading ∨ s.tables.triggers.get i = none →
      exec (.triggerInputChange i closed) s = .next { s with
        triggers := { t with contacts := upd t.contacts i closed } })
    ∧ (t.contacts.get i = closed → exec (.triggerInputChange i closed) s = .next s)

/-- TRIGGER_FILTER_EXPIRY stops the timer; where the raw level differs from the recognized one it recognizes a press or a
release and hands its action to the owner: PLAY and STOP_LOCAL always, SEND, STOP_LINE, RELEASE and SEGMENT outside LISTENING
and on a station with a number, and else these count EARLY (R103, R105, R106). CLAIM has its own statement. -/
def Obligations.FilterExpiryRecognizesAndActs : Prop :=
  ∀ (i : InputId) (b : Binding) (e : Time) (s : State), s.inReset = false → s.tables.triggers.get i = some b →
    s.triggers.timers.get i = some e → reached s.now e = true →
    let level := s.triggers.raw.get i
    let stopped : State := { s with triggers := { s.triggers with timers := upd s.triggers.timers i none } }
    let known : State := { s with
      triggers := { s.triggers with
        timers := upd s.triggers.timers i none, recognized := upd s.triggers.recognized i level } }
    let action := if level then b.press else b.release
    (s.triggers.recognized.get i = level → exec (.triggerFilterExpiry i) s = .next stopped)
    ∧ (s.triggers.recognized.get i ≠ level →
      (action = none → exec (.triggerFilterExpiry i) s = .next known)
      ∧ (∀ c, action = some (.play c) → exec (.triggerFilterExpiry i) s = .next (startRequest ⟨c, 0, false⟩ known))
      ∧ (∀ sel m, action = some (.stopLocal sel m) →
          exec (.triggerFilterExpiry i) s = .next (Machine.stop sel m known))
      ∧ ∀ (a : Action) (f : TxBody), action = some a →
          (match a with
            | .send c o => some (.fire c o)
            | .stopLine sel m => some (.stop sel m)
            | .release g v => some (.release g s.groups.showNo (s.view g).epoch v)
            | .segment n m x => some (.segment n m x)
            | .play _ | .stopLocal _ _ | .claim _ => none) = some f →
          (s.station = .listening ∨ s.number = 0 → exec (.triggerFilterExpiry i) s = .next (known.bump .early))
          ∧ (s.station ≠ .listening → s.number ≠ 0 → exec (.triggerFilterExpiry i) s = .next (offer f known)))

/-- A recognized CLAIM, on a press or on a release, is taken through the checks of R107 in order, and in FREE becomes a local
claim with a CLAIM of the show, the group and the view's epoch offered (R102, R105, R107, R153, R147). -/
def Obligations.ClaimPressIsCheckedInOrder : Prop :=
  ∀ (i : InputId) (b : Binding) (e : Time) (g : GroupId) (level : Bool) (s : State), s.inReset = false →
    s.tables.triggers.get i = some b → s.triggers.timers.get i = some e → reached s.now e = true →
    s.triggers.raw.get i = level → s.triggers.recognized.get i ≠ level →
    (if level then b.press else b.release) = some (.claim g) →
    let known : State := { s with
      triggers := { s.triggers with
        timers := upd s.triggers.timers i none, recognized := upd s.triggers.recognized i level } }
    let r := s.tables.groups.get g
    let enabled : Prop := r.enabled = true ∧ (r.claimTrigger = none ∨ r.claimTrigger = some i)
    let w := s.view g
    exec (.triggerFilterExpiry i) s = .next (
      if s.station = .listening ∨ s.number = 0 then known.bump .early
      else if ¬ enabled then known
      else if s.peers.duplicate = true then known.bump .early
      else if inSet s.number w.excl = true then known.bump .pressLate
      else match w.state with
        | .heldOther => known.bump .pressLate
        | .claiming | .heldMe => known
        | .free => offer (.claim g s.groups.showNo w.epoch) (known.setView g { w with state := .claiming }))

/-! ### The studio line -/

/-- An offer in LOADING or on a line-silent station is discarded, without a count and without any report (R117). On a station
that transmits it is merged or refused at its kind's limit; else it joins below 8 frames, behind every frame of its rank or a
better one; at 8 it evicts the worst frame not in flight when its rank is better, and else is dropped, TX_DROPPED counting 1
either way (R121 to R123). The owner of the evicted or dropped frame acts on it: a CLAIM frees its view with CLAIM_LOST, a
RELEASE marks the timeout release not queued where the timer is EXPIRED, a PRESENCE starts the presence timer, a STATUS empties
the answer list (R128, R144, R154, R163, R177). A holdoff stands while its frame is still the first one that may be sent, and
else is abandoned (R116). -/
def Obligations.OfferJoinsMergesEvictsOrIsDropped : Prop :=
  (∀ (b : TxBody) (s : State), s.station = .loading ∨ s.number = 0 → offer b s = s)
  ∧ ∀ (b : TxBody) (s : State), s.station ≠ .loading → s.number ≠ 0 → TxQueueOk s →
    let t := offer b s
    let q := s.line.queue
    let limited : Prop :=
      match b with
      | .presence => ∃ e ∈ q, e.body = .presence
      | .status => ∃ e ∈ q, e.body = .status
      | .hold g _ _ => ∃ e ∈ q, ∃ n k, e.body = .hold g n k
      | .release g _ _ _ => ∃ e ∈ q, ∃ n k v, e.body = .release g n k v
      | .fire _ _ | .stop _ _ | .segment _ _ _ | .claim _ _ _ => False
    -- The frame joins a queue, and a holdoff goes on or is abandoned.
    let joins (q : List TxEntry) : Prop :=
      let first := t.line.queue.find? fun e => decide (s.station ≠ .listening) || e.body == .status
      (∃ l₁ l₂ : List TxEntry, q = l₁ ++ l₂ ∧ t.line.queue = l₁ ++ ⟨s.line.nextIdent, b, s.now, 0, false⟩ :: l₂
        ∧ (∀ e ∈ l₁, e.body.rank ≤ b.rank) ∧ ∀ e ∈ l₂, b.rank < e.body.rank)
      ∧ t.line = { s.line with
          queue := t.line.queue, nextIdent := s.line.nextIdent + 1
          activity := match s.line.activity with
            | .holdoff n k => if first.map (·.ident) = some n then .holdoff n k else .none
            | a => a }
    -- What the owner of a frame does when it is told of its drop.
    let told (f : TxBody) : State :=
      let d := s.bump .txDropped
      match f with
      | .claim g _ _ =>
        if (s.view g).state = .claiming then (d.setView g { s.view g with state := .free }).bump .claimLost else d
      | .release g _ _ _ =>
        if (s.view g).state = .heldMe ∧ (s.view g).timer = .expired then
          d.setView g { s.view g with timeoutQueued := false }
        else d
      | .presence =>
        { d with peers := { s.peers with presenceTimer := some (later s.now (48 * s.tables.periodMs)) } }
      | .status => { d with answers := none }
      | .hold _ _ _ | .fire _ _ | .stop _ _ | .segment _ _ _ => d
    (limited → t = s)
    ∧ (¬ limited → q.length < 8 → joins q ∧ t = { s with line := t.line })
    ∧ (¬ limited → q.length = 8 →
        ∀ (l₁ l₂ : List TxEntry) (w : TxEntry), q = l₁ ++ w :: l₂ → s.inFlight ≠ some w.ident →
          (∀ e ∈ l₂, s.inFlight = some e.ident) → (q.Pairwise fun x y => x.ident ≠ y.ident) →
          (b.rank < w.body.rank → joins (l₁ ++ l₂) ∧ t = { told w.body with line := t.line })
          ∧ (w.body.rank ≤ b.rank → t = told b))

/-- INTERFRAME_GAP_COMPLETE after 8 µs of REST makes the line IDLE at slot 0, and REFERENCE_SLOT at a slot boundary in IDLE;
each begins a holdoff for the first eligible frame with send slot reference + rank × 16 + the four lowest bits of the random
slot source (R115 to R117). -/
def Obligations.HoldoffBeginsAtTheReferenceSlot : Prop :=
  ∀ s : State, s.inReset = false →
    let r := s.line.shift.toNat % 16
    (∀ n : Nat, s.line.phase = .busy → s.driving = false → s.line.rest = some n → 16 ≤ n →
      (s.candidate = none →
        exec .interframeGapComplete s
          = .next { s with line := { s.line with phase := .idle, slot := 0, slotAge := 0 } })
      ∧ ∀ e : TxEntry, s.candidate = some e →
        exec .interframeGapComplete s
          = .next { s with
              line := { s.line with
                phase := .idle, slot := 0, slotAge := 0, activity := .holdoff e.ident (e.body.rank * 16 + r) } })
    ∧ ∀ e : TxEntry, s.line.phase = .idle → s.line.slotAge = 0 → s.line.activity = .none → s.candidate = some e →
        exec .referenceSlot s
          = .next { s with line := { s.line with activity := .holdoff e.ident (s.line.slot + e.body.rank * 16 + r) } }

/-- LINE_BUSY makes the line BUSY and ends a holdoff without an attempt: the queue and every attempt count stay; the first one
after a complete gap begins a reception (R115, R116, R125). -/
def Obligations.LineBusyDefersTheHoldoff : Prop :=
  ∀ s : State, s.inReset = false → s.driving = false →
    exec .lineBusy s = .next { s with
      line := { s.line with
        phase := .busy, activity := .none, rest := none
        rx := if s.line.phase = .idle then .receiving [] [] else s.line.rx } }

/-- SEND_SLOT begins an attempt at the candidate of the holdoff: own activity is SENDING with the frame fixed, its source the
own number, its length setting the bit times to drive; a HOLD's age is the holding's at this moment, and a STATUS goes to the
one querier or, for two and more, to 0 (R118, R121, R131, R142, R149). In the bit times of the attempt the station drives the
frame's bytes, each as a start bit at ACTIVE, eight data bits with the most significant first, a 0 at ACTIVE and a 1 at REST,
and a stop bit at REST (R114, R130). -/
def Obligations.SendSlotFixesTheFrame : Prop :=
  ∀ (n : Nat) (e : TxEntry) (s : State), s.inReset = false → s.line.phase = .idle → s.line.slotAge = 0 →
    s.line.activity = .holdoff n s.line.slot → s.line.queue.find? (fun x => x.ident == n) = some e →
    ∃ f : Frame,
      let sent (left : Nat) : State := { s with
        line := { s.line with activity := .sending n f, phase := .busy, rest := none, rx := .hunting 0, driveLeft := left } }
      let bits := (f.payload.length + 7) * 10
      exec .sendSlot s = .next (sent bits)
      ∧ (∀ (j : Nat) (b : Byte), (frameBytes f)[j]? = some b →
        let level (k : Nat) : Option LineLevel := drivenLevel (sent (bits - (10 * j + k)))
        level 0 = some .active ∧ level 9 = some .rest
          ∧ ∀ i : Fin 8, level (1 + i.val) = some (if b.getLsbD (7 - i.val) then .rest else .active))
      ∧ (frameBytes f).length = f.payload.length + 7
      ∧ f.src = BitVec.ofNat 8 s.number.val
      ∧ (match e.body with
        | .fire c o => f.kind = 1 ∧ f.dst = 0 ∧ fireLineCue (byteAt f.payload 0) (byteAt f.payload 1) = c
            ∧ byteAt f.payload 2 = BitVec.ofInt 8 o ∧ byteAt f.payload 3 = 0 ∧ f.payload.length = 4
        | .stop sel m => f.kind = 2 ∧ f.dst = 0 ∧ f.payload = selectorBytes sel ++ [modeCode m]
        | .claim g k x => f.kind = 3 ∧ f.dst = 0 ∧ f.payload = [k, BitVec.ofNat 8 g.val, x]
        | .hold g k x => f.kind = 4 ∧ f.dst = 0
            ∧ f.payload = [k, BitVec.ofNat 8 g.val, x]
                ++ bytes16 (BitVec.ofNat 16 (min 65535 (since s.now (s.view g).claimTime / 48)))
        | .release g k x v => f.kind = 5 ∧ f.dst = 0 ∧ f.payload = [k, BitVec.ofNat 8 g.val, x, verdictCode v]
        | .segment k m x => f.kind = 7 ∧ f.dst = 0 ∧ f.payload = [k, m, if x then 1 else 0]
        | .presence => f.kind = 6 ∧ f.dst = 0 ∧ f.payload = presenceBytes (buildPresence s)
        | .status => f.kind = 9 ∧ f.payload = buildStatus s
            ∧ ∀ a : Answers, s.answers = some a → ∀ x : Station, x ≠ 0 → inSet x a.queriers = true →
              ((∀ y : Station, y ≠ 0 → y ≠ x → inSet y a.queriers = false) → f.dst = BitVec.ofNat 8 x.val)
              ∧ ∀ y : Station, y ≠ 0 → y ≠ x → inSet y a.queriers = true → f.dst = 0)

/-- What PRESENCE and STATUS carry is the owners' state at the build: flags with the clock state, show, segment, keys, epochs,
sets and holdings; and station and clock state, duplicate flag, show, segment, mask, peers, each voice and group code, the
number of pending entries and each counter at its place among 76 bytes (R132, R133, R142, R167, R178). Every lamp shows the
pattern of its source, SLOW and FAST by station time alone, and none is on while the reset pin is held (R108 to R111). -/
def Obligations.PresenceAndStatusCarryTheOwnersState : Prop :=
  ∀ s : State,
    let p := buildPresence s
    let b := buildStatus s
    let clock : Nat := match s.clock.clock with
      | .free => 0 | .acquiring => 1 | .locked => 2 | .holdover => 3
    let off : Prop := False
    let steady : Prop := True
    let slow : Prop := s.now.toNat % 48000 < 24000
    let fast : Prop := s.now.toNat % 6000 < 3000
    let shows (l : LampId) (on : Prop) : Prop := lampOn s l = true ↔ s.inReset = false ∧ on
    p.flags.getLsbD 0 = (s.station == .listening || s.station == .running)
    ∧ p.flags.getLsbD 1 = (s.station == .listening) ∧ p.flags.getLsbD 2 = s.peers.duplicate
    ∧ p.flags.toNat / 8 = clock ∧ p.spare = 0
    ∧ p.showNo = s.groups.showNo ∧ p.segment = s.starts.segment ∧ p.keys = s.assertedKeys
    ∧ (∀ g : GroupId, p.epochs.get g = (s.view g).epoch)
    ∧ (∀ (g : GroupId) (x : Station), inSet x (p.excl.get g) = (x != 0 && inSet x (s.view g).excl))
    ∧ (∀ g : GroupId, heldEntry p.held g =
        if (s.view g).state = .heldMe then some (min 65535 (since s.now (s.view g).claimTime / 48)) else none)
    ∧ b.length = 76
    ∧ byteAt b 0 = (match s.station with
      | .loading => 0 | .listening => 1 | .running => 2 | .unconfigured => 3)
    ∧ (byteAt b 1).toNat = clock ∧ byteAt b 2 = (if s.peers.duplicate then 1 else 0) ∧ byteAt b 3 = s.groups.showNo
    ∧ byteAt b 4 = s.starts.segment ∧ byteAt b 5 = s.starts.mask
    ∧ (s.starts.queue.length ≤ 16 → (byteAt b 42).toNat = s.starts.queue.length) ∧ byteAt b 75 = 0
    ∧ (CountersOk s → ∀ c : Counter, reportedCounter b c = s.counter c)
    ∧ (∀ v : VoiceId, byteAt b (10 + 2 * v.val) = (match (s.voice v).state with
          | .idle => 0 | .priming => 1 | .playing => 2 | .fading => 3)
        ∧ (byteAt b (11 + 2 * v.val)).toNat = (s.voice v).cue.val)
    ∧ (∀ g : GroupId, (byteAt b (26 + g.val)).toNat = (match (s.view g).state with
          | .free => 0 | .claiming => 1 | .heldMe => 2 | .heldOther => 3)
        + (if inSet s.number (s.view g).excl then 4 else 0) + (if (s.view g).stale then 8 else 0))
    ∧ (∀ x : Station, inSet x (word32 (byteAt b 6) (byteAt b 7) (byteAt b 8) (byteAt b 9))
        = (x != 0 && x != s.number && (s.peer x).state == .present))
    ∧ ∀ l : LampId, match s.tables.lamps.get l with
      | .none => shows l off
      | .cue c => shows l (∃ v : VoiceId, (s.voice v).state ≠ .idle ∧ (s.voice v).cue = c)
      | .cls c => shows l (∃ v : VoiceId, (s.voice v).state ≠ .idle ∧ (s.voice v).cls = c)
      | .trigger i => shows l (s.triggers.recognized.get i = true)
      | .clock => match s.clock.clock with
        | .locked => shows l steady
        | .acquiring | .holdover => shows l slow
        | .free => shows l off
      | .station => match s.station, s.peers.duplicate with
        | .loading, _ => shows l off
        | .listening, true | .running, true | .unconfigured, _ => shows l fast
        | .listening, false => shows l slow
        | .running, false => shows l steady
      | .group g onFree =>
        let w := s.view g
        match w.state, inSet s.number w.excl with
        | .heldMe, _ =>
          (w.timer = .stopped → shows l steady)
          ∧ (w.timer = .expired → shows l fast)
          ∧ ∀ t : Time, w.timer = .running t → reached s.now t = false →
            shows l (if (t - s.now).toNat ≤ 240000 then fast else steady)
        | .claiming, _ => shows l fast
        | .free, true | .heldOther, true => shows l slow
        | .heldOther, false => shows l off
        | .free, false => shows l (if onFree then steady else off)

/-- TRANSMIT_COMPLETE of FIRE, STOP, SEGMENT, HOLD, PRESENCE and STATUS: the frame leaves the queue, the line is released, and
the completion acts: as the received frame, not at all, by starting the presence timer, or by emptying the answer list and
reducing the counters by what was reported when the clear mark stands (R118, R128, R143, R158, R163, R177). -/
def Obligations.OwnFrameActsAtItsCompletion : Prop :=
  ∀ (n : Nat) (f : Frame) (e : TxEntry) (s : State), s.inReset = false → s.line.activity = .sending n f →
    s.line.driveLeft = 0 → s.line.queue.find? (fun x => x.ident == n) = some e →
    let done : State := { s with
      line := { s.line with
        queue := s.line.queue.filter fun x => x.ident != n
        activity := .none, phase := .busy, rest := some 0, driveLeft := 0 } }
    let p := f.payload
    let timed : State := { done with peers := { s.peers with presenceTimer := some (later s.now (48 * s.tables.periodMs)) } }
    (∀ c o, e.body = .fire c o →
      exec .transmitComplete s
        = .next (takeFire (byteAt p 0) (byteAt p 1) (byteAt p 2) (byteAt p 3) done))
    ∧ (∀ sel m, e.body = .stop sel m →
      exec .transmitComplete s
        = .next (takeStop (byteAt p 0) (byteAt p 1) (byteAt p 2) (byteAt p 3) done))
    ∧ (∀ k m x, e.body = .segment k m x →
      exec .transmitComplete s = .next (takeSegment (byteAt p 0) (byteAt p 1) (byteAt p 2) done))
    ∧ (∀ g k x, e.body = .hold g k x → exec .transmitComplete s = .next done)
    ∧ (e.body = .presence → (∀ g : GroupId, (s.view g).state ≠ .heldMe ∨ (s.view g).timer ≠ .expired) →
      exec .transmitComplete s = .next timed)
    ∧ (∀ g : GroupId, e.body = .presence → (s.view g).state = .heldMe → (s.view g).timer = .expired →
      done.releaseQueued g = false →
      (∀ h : GroupId, h ≠ g → (s.view h).state ≠ .heldMe ∨ (s.view h).timer ≠ .expired) →
      exec .transmitComplete s
        = .next (offer (.release g s.groups.showNo (s.view g).epoch .timeout)
            (timed.setView g { s.view g with timeoutQueued := true })))
    ∧ (∀ a : Answers, e.body = .status → s.answers = some a → ∃ t : State, exec .transmitComplete s = .next t
        ∧ t = { done with answers := none, counters := t.counters }
        ∧ ∀ c : Counter, t.counter c = if a.clear then s.counter c - reportedCounter p c else s.counter c)

/-- TRANSMIT_COMPLETE of the own CLAIM makes a CLAIMING view HELD_ME from now with the answer timer of R162, and the won cue is
requested; of the own RELEASE at the view's epoch it frees the view, in every state, at the next epoch, changes the exclusion
set by the verdict, stops the answer timer of a HELD_ME view, removes every queued CLAIM, HOLD and RELEASE of the group, and
counts CLAIM_LOST when the view was CLAIMING (R152, R153, R159, R160, R162). Entering or leaving HELD_ME offers a PRESENCE. -/
def Obligations.OwnClaimAndReleaseActAtCompletion : Prop :=
  ∀ (n : Nat) (f : Frame) (e : TxEntry) (g : GroupId) (s : State), s.inReset = false →
    s.line.activity = .sending n f → s.line.driveLeft = 0 → s.line.queue.find? (fun x => x.ident == n) = some e →
    let w := s.view g
    let done : State := { s with
      line := { s.line with
        queue := s.line.queue.filter fun x => x.ident != n
        activity := .none, phase := .busy, rest := some 0, driveLeft := 0 } }
    let timer : AnswerTimer :=
      if (s.groupCfg g).answerTime = 0 then .stopped else .running (later s.now (4800 * (s.groupCfg g).answerTime))
    let won : State := done.setView g
      { w with state := .heldMe, holder := some s.number, claimTime := s.now, timer := timer }
    let announced (t : State) : Prop := s.station = .running → s.number ≠ 0 → s.line.queue.length ≤ 8 →
      ∃ x ∈ t.line.queue, x.body = .presence
    (e.body = .claim g s.groups.showNo w.epoch → w.state = .claiming →
      ∃ t : State, exec .transmitComplete s = .next t
        ∧ (t.view g).state = .heldMe ∧ (t.view g).holder = some s.number ∧ (t.view g).claimTime = s.now
        ∧ (t.view g).epoch = w.epoch ∧ (t.view g).excl = w.excl ∧ (t.view g).timer = timer
        ∧ (∀ h : GroupId, h ≠ g → t.view h = s.view h) ∧ t.groups.showNo = s.groups.showNo
        ∧ (∀ x ∈ t.line.queue, x.body.claims g = false) ∧ announced t
        ∧ t.counter .claimLost = s.counter .claimLost
        ∧ ((s.groupCfg g).wonCue = none → t.voices = s.voices ∧ t.starts = s.starts ∧ t.mixer = s.mixer)
        ∧ ∀ c : LocalCue, (s.groupCfg g).wonCue = some c →
          let p := startRequest ⟨c, 0, false⟩ won
          t.voices = p.voices ∧ t.starts = p.starts ∧ t.mixer = p.mixer ∧ t.fetch = p.fetch ∧ t.beatRef = p.beatRef
            ∧ t.counter .startLost = p.counter .startLost)
    ∧ (∀ v : Verdict, e.body = .release g s.groups.showNo w.epoch v →
      let held : Prop := w.state = .heldMe ∨ w.state = .heldOther
      ∃ t : State, exec .transmitComplete s = .next t
        ∧ (t.view g).state = .free ∧ (t.view g).holder = none ∧ (t.view g).epoch = w.epoch + 1
        ∧ (t.view g).stale = false
        ∧ (w.state = .heldMe → (t.view g).timer = .stopped ∧ (t.view g).timeoutQueued = false ∧ announced t)
        ∧ (v = .clear → (t.view g).excl = 0)
        ∧ (∀ x : Station, v = .wrong → (s.groupCfg g).excludeOnWrong = true → held → w.holder = some x →
            ∀ y : Station, inSet y (t.view g).excl = (inSet y w.excl || y == x))
        ∧ (v ≠ .clear → v ≠ .wrong ∨ (s.groupCfg g).excludeOnWrong = false ∨ ¬ held → (t.view g).excl = w.excl)
        ∧ (∀ h : GroupId, h ≠ g → t.view h = s.view h) ∧ t.groups.showNo = s.groups.showNo
        ∧ (∀ x ∈ t.line.queue, (x.body.claims g || x.body.holds g || x.body.releases g) = false)
        ∧ t.counter .claimLost
            = (if w.state = .claiming then min 65535 (s.counter .claimLost + 1) else s.counter .claimLost)
        ∧ t.voices = s.voices ∧ t.starts = s.starts ∧ t.mixer = s.mixer)

/-- COLLISION jams for 20 bit times and counts TX_COLLISION; then the frame's held removal is applied, or its attempt count
rises below 15, or it is dropped with TX_DROPPED and reported: a CLAIM frees its view with CLAIM_LOST, a PRESENCE starts the
presence timer, a STATUS empties the answer list, a RELEASE marks the timeout release not queued where the timer is EXPIRED
(R119, R120, R128, R144, R154, R163, R177). -/
def Obligations.CollisionJamsAndRetriesOrDrops : Prop :=
  ∀ (n : Nat) (f : Frame) (e : TxEntry) (s : State), s.inReset = false → s.line.activity = .sending n f →
    s.line.queue.find? (fun x => x.ident == n) = some e →
    let jam (q : List TxEntry) : State :=
      ({ s with line := { s.line with queue := q, activity := .jamming, phase := .busy, driveLeft := 20 } }).bump
        .txCollision
    let gone := jam (s.line.queue.filter fun x => x.ident != n)
    (e.removal = true → exec .collision s = .next gone)
    ∧ (e.removal = false → e.attempts < 15 →
      exec .collision s = .next (jam (s.line.queue.map fun x =>
        if x.ident = n then { x with attempts := x.attempts + 1 } else x)))
    ∧ (e.removal = false → 15 ≤ e.attempts →
      exec .collision s = .next (
        let d := gone.bump .txDropped
        match e.body with
        | .claim g _ _ =>
          if (s.view g).state = .claiming then (d.setView g { s.view g with state := .free }).bump .claimLost else d
        | .release g _ _ _ =>
          if (s.view g).state = .heldMe ∧ (s.view g).timer = .expired then
            d.setView g { s.view g with timeoutQueued := false }
          else d
        | .presence =>
          { d with peers := { s.peers with presenceTimer := some (later s.now (48 * s.tables.periodMs)) } }
        | .status => { d with answers := none }
        | .hold _ _ _ | .fire _ _ | .stop _ _ | .segment _ _ _ => d))

/-- JAM_END releases the line. RX_BAD ends a reception that its ending fits, counts one that fails and does not count a jammed
fragment, RX_PROTOCOL counts a frame that fails a check and is taken only while receiving; each tells no block (R119, R125,
R126, R129). That such a command has no effect where no reception can end so, and that ACTIVE which goes on after the own jam
is taken for another station's jam, is the model's choice (notes/assumptions/1.md, 13.md). -/
def Obligations.JamsAndFailedReceptionsEnd : Prop :=
  ∀ s : State, s.inReset = false →
    (s.line.activity = .jamming → s.line.driveLeft = 0 →
      exec .jamEnd s = .next { s with
        line := { s.line with activity := .none, phase := .busy, rest := some 0, driveLeft := 0, rx := .activeHeld } })
    ∧ (s.driving = false →
      let ended (x : RxState) : State := { s with
        line := { s.line with phase := .busy, activity := .none, rest := some (s.line.rest.getD 0), rx := x } }
      let ends (r : Reception) : Prop := match r.ending with
        | .rest => s.receiving = true
        | .active _ => s.receiving = true ∨ ∃ bytes n, s.line.rx = .broken bytes n
        | .trailing => s.line.rx = .frameEnded
      -- Between bytes, or one bit time within the byte whose start bit was heard.
      let after (r : Reception) : RxState := match r.ending with
        | .rest | .active _ => .hunting 0
        | .trailing => .hunting 1
      (∀ r : Reception, ends r → rxOutcome r = .bad → exec (.rxBad r) s = .next ((ended (after r)).bump .rxBad))
      ∧ (∀ r : Reception, ends r → rxOutcome r = .jammed → exec (.rxBad r) s = .next (ended (after r)))
      ∧ (∀ r : Reception, ¬ ends r → exec (.rxBad r) s = .next s)
      ∧ ∀ f : Frame, (protocolFault f).isSome = true →
        (s.receiving = true → exec (.rxProtocol f) s = .next ((ended .frameEnded).bump .rxProtocol))
        ∧ (s.receiving = false → exec (.rxProtocol f) s = .next s))

/-! ### Good frames -/

/-- Each of the ten good frames is taken only by a station that is receiving (R125). In LOADING it is taken by no block; with
the own number as source it sets the duplicate flag and does nothing else; addressed to another station, and STATUS always, it
is a sign of life alone: its source is PRESENT and last heard now with its flags and keys kept, a STALE source's views are no
longer stale, and the Mixer holds the peers' keys (R127, R166, R172, R174, R176). That the command has no effect where the
station is not receiving is the model's choice (notes/assumptions/1.md, 13.md). -/
def Obligations.GoodFramesAreHandedOnByAddress : Prop :=
  ∀ (i : Instr) (src : Station) (dst : Byte) (s : State), s.inReset = false → s.driving = false → src ≠ 0 →
    ((∃ a b c d, i = .fireReceived src dst a b c d) ∨ (∃ a b c d, i = .stopReceived src dst a b c d)
      ∨ (∃ a b c, i = .segmentReceived src a b c ∧ dst = 0) ∨ (∃ a b c, i = .claimReceived src a b c ∧ dst = 0)
      ∨ (∃ a b c d, i = .holdReceived src a b c d ∧ dst = 0) ∨ (∃ a b c d, i = .releaseReceived src a b c d ∧ dst = 0)
      ∨ (∃ p, i = .presenceReceived src p ∧ dst = 0) ∨ (∃ a, i = .queryReceived src dst a ∧ dst ≠ 0)
      ∨ (∃ p, i = .statusReceived src dst p) ∨ ∃ a, i = .restartReceived src dst a) →
    let ended : State := { s with
      line := { s.line with
        phase := .busy, activity := .none, rest := some (s.line.rest.getD 0), rx := .frameEnded } }
    (s.receiving = false → exec i s = .next s)
    ∧ (s.receiving = true → s.station = .loading → exec i s = .next ended)
    ∧ (s.receiving = true → s.station ≠ .loading → src = s.number →
      exec i s = .next { ended with peers := { s.peers with duplicate := true } })
    ∧ (s.receiving = true → s.station ≠ .loading → src ≠ s.number →
      (dst ≠ 0 ∧ dst ≠ BitVec.ofNat 8 s.number.val) ∨ (∃ p, i = .statusReceived src dst p) →
      ∃ t : State, exec i s = .next t
        ∧ t = { ended with
            peers := { s.peers with
              table := upd s.peers.table src { s.peer src with state := .present, lastHeard := s.now } }
            groups := { s.groups with views := t.groups.views }
            mixer := { s.mixer with peerKeys := t.peerUnion } }
        ∧ ∀ g : GroupId, t.view g =
            if (s.peer src).state = .stale ∧ (s.view g).state = .heldOther ∧ (s.view g).holder = some src then
              { s.view g with stale := false }
            else s.view g)

/-- FIRE_RECEIVED that a window maps to a startable cue without a head starts it on the lowest-numbered free voice: the start
stamp, the generation, PRIMING with its deadline 480 frames on, the fetch pointer at offset 0, the window resolved, the frame's
offset clamped (R137, R38, R47, R62), and the port requested, which grants the voice its first burst at once when it is idle
and nothing requests it (R24 to R26). A first segment that resolves to no window is a store fault: the fetch ends, STORE_FAULT
counts and the voice is IDLE again (R21, R22, R74, R77). No start waits. -/
def Obligations.FireStartsAStreamingVoice : Prop :=
  ∀ (src : Station) (dst b0 b1 b2 b3 : Byte) (s : State) (c : LocalCue) (q : Cue) (v : VoiceId),
    HandsOn s src dst → NoStartWaits s →
    mapLineCue s.tables (fireLineCue b0 b1) = some c → s.cue c = some q →
    s.starts.mask.getLsbD q.cls.val = true → s.cueLive c = false ∨ q.retrigger = .layer → q.choke = 0 →
    q.mode = .immediate ∨ b3.getLsbD 0 = true ∨ s.beatRef = none →
    s.occupancy q.cls < (s.cls q.cls).polyphony → s.lowestFree = some v →
    s.preload.heads.get c = none →
    let i := Instr.fireReceived src dst b0 b1 b2 b3
    let primed (w : Option WindowId) (n : Nat) : Voice := {
      state := .priming, cue := c, cls := q.cls, gen := (s.voice v).gen + 1
      deadline := some (later s.now 480), playTime := (s.voice v).playTime
      headPlace := 0, headLen := 0, headPos := 0, fetchPtr := ⟨q.first, 0, 0⟩, fetchDone := false
      window := w, fifo := [], inFlight := n, debt := 0, underrun := false, tail := false, fade := none
      offset := max (-24) (min 24 b2.toInt), bus := q.bus }
    let started (x : Voice) (f : Fetch) : State := { heard src s with
      starts := { s.starts with stamps := upd s.starts.stamps v s.now }, voices := upd s.voices v x, fetch := f }
    (∀ (g : Segment) (w : WindowId), s.segment q.first = some g → resolve s.tables g = some w →
      s.fetch.requests.get v = none →
      (∀ b : Burst, s.fetch.burst = some b → b.req ≠ .voice v ((s.voice v).gen + 1) →
        exec i s = .next (started (primed (some w) 0)
          { s.fetch with requests := upd s.fetch.requests v (some s.clock.micros) }))
      ∧ (s.fetch.burst = none → (∀ u : VoiceId, s.fetch.requests.get u = none) →
        exec i s = .next (started (primed (some w) (min 64 g.length)) { s.fetch with
          burst := some ⟨.voice v ((s.voice v).gen + 1), w, g.start, min 64 g.length,
            40 * 2 ^ (s.tables.store.get w).access.val⟩ })))
    ∧ ((s.segment q.first).bind (resolve s.tables) = none → s.beatRef ≠ some v → ∃ t : State, exec i s = .next t
      ∧ t.voice v = { primed none 0 with state := .idle, deadline := none, fetchDone := true }
      ∧ (∀ u : VoiceId, u ≠ v → t.voice u = s.voice u ∧ t.mix u = s.mix u ∧ t.mixer.given.get u = s.mixer.given.get u)
      ∧ t.mix v = ⟨0, none, none⟩ ∧ t.mixer.given.get v = none
      ∧ (∀ k : Counter, k ≠ .txDropped → t.counter k = (s.bump .storeFault).counter k)
      ∧ t.starts = { s.starts with stamps := upd s.starts.stamps v s.now }
      ∧ t.fetch = { s.fetch with requests := upd s.fetch.requests v none }
      ∧ t.beatRef = s.beatRef ∧ t.preload = s.preload ∧ t.tables = s.tables ∧ t.clock = s.clock ∧ Settled t)

/-- FIRE_RECEIVED that a window maps to a startable head-loaded cue begins the lowest-numbered free voice in PLAYING at once,
from its head, with its fade-in begun and its fetch pointer past the head (R62, R34, R64, R68). A head as long as the first
segment leaves the pointer at its pass end, and it is walked on: to the next pass, to the next descriptor through the window
that it resolves to, or to chain end, where the fetch is done; and a next descriptor that resolves to none is a store fault,
which counts and cuts the voice from its fade-in's attenuation (R66, R21, R22, R74). The port is requested, which grants the
voice its first burst at once when it is idle and nothing requests it (R24 to R26). No start waits. -/
def Obligations.FireStartsAHeadLoadedVoice : Prop :=
  ∀ (src : Station) (dst b0 b1 b2 b3 : Byte) (s : State) (c : LocalCue) (q : Cue) (g : Segment) (w : WindowId)
    (v : VoiceId) (h : HeadLoc),
    HandsOn s src dst → NoStartWaits s →
    mapLineCue s.tables (fireLineCue b0 b1) = some c → s.cue c = some q →
    s.starts.mask.getLsbD q.cls.val = true → s.cueLive c = false ∨ q.retrigger = .layer → q.choke = 0 →
    q.mode = .immediate ∨ b3.getLsbD 0 = true ∨ s.beatRef = none →
    s.occupancy q.cls < (s.cls q.cls).polyphony → s.lowestFree = some v →
    s.preload.heads.get c = some h → s.segment q.first = some g → resolve s.tables g = some w →
    s.fetch.requests.get v = none → (∀ b : Burst, s.fetch.burst = some b → b.req ≠ .voice v ((s.voice v).gen + 1)) →
    let begun : Voice := {
      state := .playing, cue := c, cls := q.cls, gen := (s.voice v).gen + 1, deadline := none, playTime := s.now
      headPlace := h.place, headLen := h.length, headPos := 0, fetchPtr := ⟨q.first, h.length, 0⟩
      fetchDone := false, window := some w, fifo := [], inFlight := 0, debt := 0, underrun := false, tail := false
      fade := none, offset := max (-24) (min 24 b2.toInt), bus := q.bus }
    -- The start leaves the voice and the Fetch Engine so, and the counters as they are in z.
    let starts (x : Voice → Prop) (f : Fetch) (z : State) : Prop :=
      ∃ t : State, exec (.fireReceived src dst b0 b1 b2 b3) s = .next t
        ∧ x (t.voice v) ∧ (∀ u : VoiceId, u ≠ v → t.voice u = s.voice u)
        ∧ t.starts = { s.starts with stamps := upd s.starts.stamps v s.now } ∧ t.fetch = f
        ∧ t.beatRef = (if q.beat.isSome then some v else s.beatRef)
        ∧ (∀ k : Counter, k ≠ .txDropped → t.counter k = z.counter k)
        ∧ t.preload = s.preload ∧ t.tables = s.tables ∧ t.clock = s.clock
    let fadesIn (x y : Voice) : Prop := ∃ a0 : Nat, y = { x with fade := some ⟨.fadeIn, a0, q.fadeIn, none⟩ }
    let unasked : Fetch := { s.fetch with requests := upd s.fetch.requests v none }
    -- The fetch goes on at a place of a descriptor through a window.
    let goesOn (p : Pos) (k : Segment) (u : WindowId) : Prop :=
      let n := min 64 (k.length - p.off)
      (s.fetch.burst.isSome = true → starts (fadesIn { begun with fetchPtr := p, window := some u })
        { s.fetch with requests := upd s.fetch.requests v (some s.clock.micros) } s)
      ∧ (s.fetch.burst = none → (∀ y : VoiceId, s.fetch.requests.get y = none) →
        starts (fadesIn { begun with fetchPtr := p, window := some u, inFlight := n })
          { s.fetch with
            burst := some ⟨.voice v ((s.voice v).gen + 1), u, k.start + p.off, n,
              40 * 2 ^ (s.tables.store.get u).access.val⟩ } s)
    (h.length < g.length → goesOn ⟨q.first, h.length, 0⟩ g w)
    ∧ (g.length ≤ h.length →
      (g.repeats ≠ 0 → goesOn ⟨q.first, 0, 1⟩ g w)
      ∧ (g.repeats = 0 →
        (∀ (d : SegIdx) (k : Segment) (u : WindowId), g.next = some d → s.segment d = some k → resolve s.tables k = some u →
          goesOn ⟨d, 0, 0⟩ k u)
        ∧ (∀ d : SegIdx, g.next = some d → (s.segment d).bind (resolve s.tables) = none →
          starts (fun y => ∃ u : Option WindowId, y = { begun with
            state := .fading, fetchPtr := ⟨d, 0, 0⟩, fetchDone := true, window := u
            fade := some ⟨.fadeOut, if q.fadeIn = 0 then 0 else 127, 2, none⟩ }) unasked (s.bump .storeFault))
        ∧ (g.next = none → starts (fadesIn { begun with fetchDone := true }) unasked s)))

/-- FIRE_RECEIVED that no window hits makes no request; a request for an invalid cue counts START_INVALID, for a cue of a
masked class START_MASKED, for a cue already pending START_LOST, and each leaves voices, queue and every other counter as they
were (R9, R40, R41, R137). No start waits, or no voice is free. -/
def Obligations.FireIsRefusedWithoutEffect : Prop :=
  ∀ (src : Station) (dst b0 b1 b2 b3 : Byte) (s : State), HandsOn s src dst → Settled s →
    s.starts.queue = [] ∨ s.lowestFree = none →
    let i := Instr.fireReceived src dst b0 b1 b2 b3
    (mapLineCue s.tables (fireLineCue b0 b1) = none → exec i s = .next (heard src s))
    ∧ ∀ c : LocalCue, mapLineCue s.tables (fireLineCue b0 b1) = some c →
        (s.cue c = none → exec i s = .next ((heard src s).bump .startInvalid))
        ∧ ∀ q : Cue, s.cue c = some q →
            (s.starts.mask.getLsbD q.cls.val = false → exec i s = .next ((heard src s).bump .startMasked))
            ∧ ((∃ e ∈ s.starts.queue, e.cue = c) → s.starts.mask.getLsbD q.cls.val = true →
                exec i s = .next ((heard src s).bump .startLost))

/-- FIRE_RECEIVED that a window maps to a startable cue with no entry pending. A sounding RESTART cue needs room for its entry,
and then its voices are cut and the oldest reserved for it; a sounding IGNORE cue counts START_LOST; else the choke fades out
or cuts every PRIMING and PLAYING voice of another cue of the set, and touches no other (R42 to R44). A NEXT_BEAT cue then
waits for a beat where a reference exists, and else the cue starts on the lowest-numbered free voice, or steals its victim,
which is cut and reserved, or waits, or is lost as its class says (R45, R47 to R50, R74). An entry joins below 16, and at 16 in
place of the worst one when its priority is numerically lower than that one's, which counts START_LOST (R52). The event ends
with the returns taken and the queue served, which with no return and no voice free changes nothing (R54). -/
def Obligations.FireRetriggersWaitsOrIsLost : Prop :=
  (∀ (src : Station) (dst b0 b1 b2 b3 : Byte) (s : State) (c : LocalCue) (q : Cue), HandsOn s src dst → Settled s →
    mapLineCue s.tables (fireLineCue b0 b1) = some c → s.cue c = some q →
    s.starts.mask.getLsbD q.cls.val = true → (∀ e ∈ s.starts.queue, e.cue ≠ c) →
    let i := Instr.fireReceived src dst b0 b1 b2 b3
    let h := heard src s
    let o : Int := max (-24) (min 24 b2.toInt)
    let entry (r : Reason) (v : Option VoiceId) : Entry := ⟨c, o, s.now, r, v⟩
    let live (z : State) (u : VoiceId) : Prop := (z.voice u).state = .priming ∨ (z.voice u).state = .playing
    let cut (z : State) (u : VoiceId) (T : Nat) : Voice :=
      { z.voice u with state := .fading, fade := some ⟨.fadeOut, (z.mix u).fade, T, none⟩ }
    let beat (z : State) : Prop := q.mode = .nextBeat ∧ b3.getLsbD 0 = false ∧ z.beatRef ≠ none
    let lost (z : State) : Prop := exec i s = .next (finish (z.bump .startLost))
    -- The entry joins, and then something is done, or it is lost.
    let joins (e : Entry) (z : State) (p : State → State) : Prop :=
      (∀ j : State, joinQueue e z = some j → exec i s = .next (finish (p j))) ∧ (joinQueue e z = none → lost z)
    let k := choke c q h
    (∀ u : VoiceId,
      let hit : Prop := live h u ∧ q.choke ≠ 0 ∧ (h.voice u).cue ≠ c
        ∧ ∃ y : Cue, s.cue (h.voice u).cue = some y ∧ y.choke = q.choke
      (hit → (h.voice u).state = .playing → ∀ y : Cue, s.cue (h.voice u).cue = some y →
        k.voice u = cut h u (if y.fadeOut = 0 then 2 else y.fadeOut))
      ∧ (hit → (h.voice u).state = .priming → (k.voice u).state = .idle)
      ∧ (¬ hit → k.voice u = h.voice u))
    ∧ (q.retrigger = .ignore → s.cueLive c = true → lost h)
    ∧ (∀ v : VoiceId, q.retrigger = .restart → live s v → (s.voice v).cue = c →
      (∀ u : VoiceId, u ≠ v → live s u → (s.voice u).cue = c → s.older v u = true) →
      (joinQueue (entry .voice (some v)) h = none → lost h)
      ∧ ∀ j : State, joinQueue (entry .voice (some v)) h = some j →
        let m := (liveVoices h c).foldl cutVoice j
        let y := choke c q m
        (∀ u : VoiceId, (s.voice u).cue = c →
          ((s.voice u).state = .playing → m.voice u = cut h u 2) ∧ ((s.voice u).state = .priming → (m.voice u).state = .idle))
        ∧ (¬ beat y → exec i s = .next (finish y))
        ∧ (beat y → exec i s = .next (finish (y.setQueue
          (y.starts.queue.map fun a => if a.cue = c then { a with reason := .beat } else a)))))
    ∧ (q.retrigger = .layer ∨ s.cueLive c = false →
      (beat k → joins (entry .beat none) k id)
      ∧ (¬ beat k →
        (∀ v : VoiceId, k.occupancy q.cls < (k.cls q.cls).polyphony → k.lowestFree = some v →
          exec i s = .next (finish (startVoice v c o k)))
        ∧ (∀ v : VoiceId, Victim k q.cls v → joins (entry .voice (some v)) k fun j => cutVoice j v)
        ∧ ((k.cls q.cls).polyphony ≤ k.occupancy q.cls ∨ k.lowestFree = none → (∀ v : VoiceId, ¬ Victim k q.cls v) →
          ((k.cls q.cls).maxWait = 0 → lost k) ∧ (0 < (k.cls q.cls).maxWait → joins (entry .voice none) k id)))))
  ∧ (∀ (s : State) (e : Entry),
    (s.starts.queue.length < 16 → joinQueue e s = some (s.setQueue (s.starts.queue ++ [e])))
    ∧ ∀ w ∈ s.starts.queue, 16 ≤ s.starts.queue.length → (∀ a ∈ s.starts.queue, a = w ∨ s.entryBefore a w = true) →
      (s.entryPriority e < s.entryPriority w → joinQueue e s
        = some ((s.setQueue (s.starts.queue.filter (fun a => a.cue != w.cue) ++ [e])).bump .startLost))
      ∧ (s.entryPriority w ≤ s.entryPriority e → joinQueue e s = none))
  ∧ ∀ s : State, Settled s → s.lowestFree = none → finish s = s

/-- STOP_RECEIVED: a selector or mode code of 3 and above, a class of 8 and above and a line cue that no window hits act on
nothing; else every pending entry that matches is removed, and no other, and every matching voice is cut, faded or marked for
tail exit by its own state, and no other voice is touched; then the returns are taken and the queue is served, and no entry of
a matching cue is left (R138, R56, R54, R69, R74 to R76). -/
def Obligations.StopActsOnEveryMatchingVoice : Prop :=
  ∀ (src : Station) (dst b0 b1 b2 b3 : Byte) (s : State), HandsOn s src dst → Settled s →
    let i := Instr.stopReceived src dst b0 b1 b2 b3
    let value := (word16 b1 b2).toNat
    let matched (c : LocalCue) (k : ClassId) : Prop :=
      b0 = 0 ∧ mapLineCue s.tables (BitVec.ofNat 12 value) = some c ∨ b0 = 1 ∧ value = k.val ∨ b0 = 2
    let hits (x : Voice) : Prop := matched x.cue x.cls
    let T (x : Voice) : Nat :=
      if b3 = 0 then 2 else match s.cue x.cue with
        | some q => if q.fadeOut = 0 then 2 else q.fadeOut
        | none => 2
    let out (v : VoiceId) : Voice :=
      { s.voice v with state := .fading, fade := some ⟨.fadeOut, (s.mix v).fade, T (s.voice v), none⟩ }
    (3 ≤ b0.toNat ∨ 3 ≤ b3.toNat ∨ (b0 = 1 ∧ 8 ≤ value)
        ∨ (b0 = 0 ∧ mapLineCue s.tables (BitVec.ofNat 12 value) = none) →
      exec i s = .next (heard src s))
    ∧ (b0.toNat < 3 → b3.toNat < 3 → ¬ (b0 = 1 ∧ 8 ≤ value) →
        ¬ (b0 = 0 ∧ mapLineCue s.tables (BitVec.ofNat 12 value) = none) →
      ∃ m t : State, exec i s = .next t ∧ t = finish m
      ∧ (∀ e : Entry, e ∈ m.starts.queue ↔ e ∈ s.starts.queue ∧ ¬ matched e.cue (s.classOf e.cue))
      ∧ m.starts.segment = s.starts.segment ∧ m.starts.mask = s.starts.mask
      ∧ (∀ e ∈ t.starts.queue, ∃ a ∈ m.starts.queue, a.cue = e.cue)
      ∧ (s.starts.queue = [] → t.starts = s.starts ∧ t.voices = m.voices)
      ∧ ∀ v : VoiceId,
          (hits (s.voice v) →
            (b3 = 2 → (s.voice v).state ≠ .idle → m.voice v = { s.voice v with tail := true })
            ∧ (b3.toNat < 2 → (s.voice v).state = .playing → m.voice v = out v)
            ∧ (b3.toNat < 2 → (s.voice v).state = .priming → (m.voice v).state = .idle)
            ∧ (b3 = 0 → (s.voice v).state = .fading → m.voice v = out v)
            ∧ (b3 = 1 → (s.voice v).state = .fading → m.voice v = s.voice v))
          ∧ (¬ hits (s.voice v) ∨ (s.voice v).state = .idle → m.voice v = s.voice v))

/-- SEGMENT_RECEIVED replaces the segment number and the class mask; with the stop flag it removes the pending entries, and no
others, and fades out the PRIMING and PLAYING voices of the classes that the new mask excludes, and touches no other voice;
then the returns are taken and the queue is served, and no entry of an excluded class is left (R139, R54, R58, R59, R75). -/
def Obligations.SegmentReplacesTheMask : Prop :=
  ∀ (src : Station) (b0 b1 b2 : Byte) (s : State), HandsOn s src 0 → Settled s →
    let i := Instr.segmentReceived src b0 b1 b2
    let taken : State := { heard src s with starts := { s.starts with segment := b0, mask := b1 } }
    (b2.getLsbD 0 = false → exec i s = .next (finish taken) ∧ (s.starts.queue = [] → finish taken = taken))
    ∧ (b2.getLsbD 0 = true → ∃ m t : State, exec i s = .next t ∧ t = finish m
      ∧ (∀ e : Entry, e ∈ m.starts.queue ↔ e ∈ s.starts.queue ∧ b1.getLsbD (s.classOf e.cue).val = true)
      ∧ m.starts.segment = b0 ∧ m.starts.mask = b1 ∧ t.starts.segment = b0 ∧ t.starts.mask = b1
      ∧ (∀ e ∈ t.starts.queue, ∃ a ∈ m.starts.queue, a.cue = e.cue)
      ∧ (s.starts.queue = [] → t.starts = m.starts ∧ t.voices = m.voices)
      ∧ ∀ v : VoiceId,
          (b1.getLsbD (s.voice v).cls.val = false →
            ((s.voice v).state = .playing → ∀ q : Cue, s.cue (s.voice v).cue = some q →
              m.voice v = { s.voice v with
                state := .fading
                fade := some ⟨.fadeOut, (s.mix v).fade, if q.fadeOut = 0 then 2 else q.fadeOut, none⟩ })
            ∧ ((s.voice v).state = .priming → (m.voice v).state = .idle))
          ∧ (b1.getLsbD (s.voice v).cls.val = true ∨ (s.voice v).state = .idle ∨ (s.voice v).state = .fading →
            m.voice v = s.voice v))

/-- CLAIM_RECEIVED of equal show and epoch: ignored from an excluded station and in HELD_OTHER; in FREE the source holds the
group from now; in CLAIMING too, the own CLAIM withdrawn and CLAIM_LOST counted; in HELD_ME a HOLD is offered (R155, R152,
R158). -/
def Obligations.ClaimIsTakenByTheViewsState : Prop :=
  ∀ (src : Station) (g : GroupId) (s : State), HandsOn s src 0 →
    let h := heard src s
    let w := h.view g
    let i := Instr.claimReceived src s.groups.showNo (BitVec.ofNat 8 g.val) w.epoch
    let taken : State :=
      h.setView g { w with state := .heldOther, holder := some src, claimTime := s.now, stale := false }
    (inSet src w.excl = true → exec i s = .next h)
    ∧ (inSet src w.excl = false →
      (w.state = .free → exec i s = .next taken)
      ∧ (w.state = .claiming → exec i s = .next (({ taken with
          line := { taken.line with queue := taken.line.queue.filter fun e => !e.body.claims g } }).bump .claimLost))
      ∧ (w.state = .heldMe → exec i s = .next (offer (.hold g s.groups.showNo w.epoch) h))
      ∧ (w.state = .heldOther → exec i s = .next h))

/-- HOLD_RECEIVED of equal show and epoch: ignored from an excluded station and from the holder itself; adopted in FREE and
CLAIMING with the claim time the age gives; in HELD_OTHER of another the older holding stands, a switch counting CONFLICT; in
HELD_ME the station keeps an older holding and offers a HOLD, or yields to it, counting CONFLICT, its answer timer stopped and
a stop of its won cue made, mode CUT, which cuts every voice of that cue (R149, R152, R156, R157, R74, R76). -/
def Obligations.HoldKeepsTheOlderHolding : Prop :=
  ∀ (src : Station) (age : BitVec 16) (g : GroupId) (s : State), HandsOn s src 0 →
    let h := heard src s
    let w := h.view g
    let i := Instr.holdReceived src s.groups.showNo (BitVec.ofNat 8 g.val) w.epoch age
    let own := min 65535 (since s.now w.claimTime / 48)
    let older (y : Station) : Prop := own < age.toNat ∨ own = age.toNat ∧ src < y
    let w' : View := { w with
      state := .heldOther, holder := some src, claimTime := s.now - BitVec.ofNat 32 (48 * age.toNat), stale := false }
    (inSet src w.excl = true → exec i s = .next h)
    ∧ (inSet src w.excl = false →
      (w.state = .free → exec i s = .next (h.setView g w'))
      ∧ (w.state = .claiming → ∃ t : State, exec i s = .next t
        ∧ t.groups = (h.setView g w').groups ∧ t.voices = h.voices ∧ t.starts = h.starts
        ∧ t.line.queue = h.line.queue.filter (fun e => !e.body.claims g)
        ∧ t.counters = (h.bump .claimLost).counters)
      ∧ (∀ y : Station, w.state = .heldOther → w.holder = some y →
        (y = src ∨ ¬ older y → exec i s = .next h)
        ∧ (y ≠ src → older y → exec i s = .next ((h.setView g w').bump .conflict)))
      ∧ (w.state = .heldMe →
        (¬ older s.number → exec i s = .next (offer (.hold g s.groups.showNo w.epoch) h))
        ∧ (older s.number → ∃ t : State, exec i s = .next t
          ∧ t.view g = { w' with timer := .stopped, timeoutQueued := false }
          ∧ (∀ k : GroupId, k ≠ g → t.view k = h.view k)
          ∧ ((s.groupCfg g).wonCue = none → t.voices = h.voices ∧ t.starts = h.starts)
          ∧ (∀ c : LocalCue, (s.groupCfg g).wonCue = some c →
            let p := Machine.stop (.cue c) .cut (h.setView g w')
            t.voices = p.voices ∧ t.starts = p.starts ∧ t.mixer = p.mixer ∧ t.fetch = p.fetch ∧ t.beatRef = p.beatRef
            ∧ (NoStartWaits s → t.starts = s.starts ∧ ∀ v : VoiceId,
              ((s.voice v).cue = c → (s.voice v).state = .playing ∨ (s.voice v).state = .fading →
                t.voice v = { s.voice v with state := .fading, fade := some ⟨.fadeOut, (s.mix v).fade, 2, none⟩ })
              ∧ ((s.voice v).cue = c → (s.voice v).state = .priming → (t.voice v).state = .idle)
              ∧ ((s.voice v).cue ≠ c ∨ (s.voice v).state = .idle → t.voice v = s.voice v)))
          ∧ t.counter .conflict = min 65535 (h.counter .conflict + 1)
          ∧ t.counter .claimLost = h.counter .claimLost
          ∧ ∀ e ∈ t.line.queue, e.body.holds g = false
              ∧ (w.timeoutQueued = true → e.body.releases g = false))))

/-- RELEASE_RECEIVED of equal show and epoch frees the view at the next epoch in every state, changes the exclusion set by the
verdict, removes every queued CLAIM, HOLD and RELEASE of the group, stops the answer timer of a HELD_ME view, and counts
CLAIM_LOST when the view was CLAIMING (R160, R152). -/
def Obligations.ReleaseFreesTheView : Prop :=
  ∀ (src : Station) (verdict : Byte) (g : GroupId) (s : State), HandsOn s src 0 →
    let h := heard src s
    let w := h.view g
    let i := Instr.releaseReceived src s.groups.showNo (BitVec.ofNat 8 g.val) w.epoch verdict
    let held : Prop := w.state = .heldMe ∨ w.state = .heldOther
    ∃ t : State, exec i s = .next t
      ∧ (t.view g).state = .free ∧ (t.view g).holder = none ∧ (t.view g).epoch = w.epoch + 1
      ∧ (t.view g).stale = false
      ∧ (w.state = .heldMe → (t.view g).timer = .stopped ∧ (t.view g).timeoutQueued = false)
      ∧ (verdict = 4 → (t.view g).excl = 0)
      ∧ (∀ x : Station, verdict = 2 → (s.groupCfg g).excludeOnWrong = true → held → w.holder = some x →
          ∀ y : Station, inSet y (t.view g).excl = (inSet y w.excl || y == x))
      ∧ (verdict ≠ 4 → verdict ≠ 2 ∨ (s.groupCfg g).excludeOnWrong = false ∨ ¬ held → (t.view g).excl = w.excl)
      ∧ (∀ k : GroupId, k ≠ g → t.view k = h.view k)
      ∧ (∀ e ∈ t.line.queue, (e.body.claims g || e.body.holds g || e.body.releases g) = false)
      ∧ t.counter .claimLost
          = (if w.state = .claiming then min 65535 (h.counter .claimLost + 1) else h.counter .claimLost)
      ∧ t.voices = h.voices ∧ t.starts = h.starts ∧ t.mixer = h.mixer ∧ t.groups.showNo = h.groups.showNo

/-- CLAIM, HOLD and RELEASE whose show, or at equal show whose epoch, is behind count STALE_FRAME and change no view; at equal
show a group byte of 16 and above is ignored; of equal show and epoch they are applied under the rule of their kind, of a newer
show after a show restart to it, and of a newer epoch after the implicit release to it (R150, R151). The implicit release
leaves the view FREE without holder at the frame's epoch, its exclusion set kept, its stale flag clear, its answer timer
STOPPED and no timeout release queued; the group's queued CLAIMs, HOLDs and RELEASEs are removed, CLAIM_LOST counts when the
view was CLAIMING, a PRESENCE is offered in RUNNING and UNCONFIGURED when it was HELD_ME, and nothing else changes: no cue is
cut and no CONFLICT counted (R151, R152, R177). -/
def Obligations.GroupFramesMeetTheShowAndEpochTests : Prop :=
  ∀ (src : Station) (n group epoch v : Byte) (age : BitVec 16) (s : State), HandsOn s src 0 →
    let h := heard src s
    ∀ (i : Instr) (rule : GroupId → State → State),
      (i = .claimReceived src n group epoch ∧ rule = claimRule src)
        ∨ (i = .holdReceived src n group epoch age ∧ rule = holdRule src age.toNat)
        ∨ (i = .releaseReceived src n group epoch v ∧ rule = releaseRule (verdictOfCode v)) →
      (128 ≤ (n - s.groups.showNo).toNat → exec i s = .next (h.bump .staleFrame))
      ∧ (1 ≤ (n - s.groups.showNo).toNat → (n - s.groups.showNo).toNat < 128 →
          let z := showRestart n h
          exec i s = .next (groupFrame n group epoch rule z)
          ∧ (16 ≤ group.toNat → exec i s = .next z)
          ∧ ∀ g : GroupId, group.toNat = g.val →
            (epoch = 0 → exec i s = .next (rule g z))
            ∧ (1 ≤ epoch.toNat → epoch.toNat < 128 → exec i s = .next (rule g (implicitRelease g epoch none z)))
            ∧ (128 ≤ epoch.toNat → exec i s = .next (z.bump .staleFrame)))
      ∧ (n = s.groups.showNo → 16 ≤ group.toNat → exec i s = .next h)
      ∧ ∀ g : GroupId, n = s.groups.showNo → group.toNat = g.val →
          (epoch = (h.view g).epoch → exec i s = .next (rule g h))
          ∧ (128 ≤ (epoch - (h.view g).epoch).toNat → exec i s = .next (h.bump .staleFrame))
          ∧ (1 ≤ (epoch - (h.view g).epoch).toNat → (epoch - (h.view g).epoch).toNat < 128 →
            let w := h.view g
            let z := implicitRelease g epoch none h
            let free : View := { w with
              state := .free, holder := none, epoch := epoch, stale := false, timer := .stopped, timeoutQueued := false }
            let queue := h.line.queue.filter fun e => !(e.body.claims g || e.body.holds g || e.body.releases g)
            let freed : State := { h.setView g free with line := { h.line with queue := queue } }
            exec i s = .next (rule g z)
            ∧ (w.state = .free ∨ w.state = .heldOther → z = freed)
            ∧ (w.state = .claiming → z = freed.bump .claimLost)
            ∧ (w.state = .heldMe → z = if s.station = .listening then freed else offer .presence freed))

/-- PRESENCE_RECEIVED writes the sender's flags and keys; and its group fields are taken when it is configured, not listening,
no duplicate and lists at most 16 holdings (R175). Of an older show they are not applied and STALE_FRAME counts once; of a
newer one they are applied after a show restart to it (R150). At an epoch behind, a view keeps all but its timeout-release
mark, which an eviction by a HOLD of another group may clear (R128, R163), and STALE_FRAME counts. At an equal epoch the sets
are united: a holder that the union forbids loses the group at the next epoch, and the own claim at its epoch (R165); where the
station itself loses a holding so, or yields it, a stop of its won cue is made, mode CUT, and at equal show nothing else
touches a voice (R157, R76); else a listed holding is adopted in FREE and CLAIMING, and meets the own holding or another's as a
HOLD does, the older one standing (R156, R157); and a view held by the sender that is not listed is freed at the next epoch. At
an epoch ahead the view takes epoch and set, and a listed holding with them (R164, R151). -/
def Obligations.PresenceUpdatesPeerAndViews : Prop :=
  ∀ (src : Station) (p : Presence) (s : State), HandsOn s src 0 → p.held.length ≤ 19 →
    let i := Instr.presenceReceived src p
    let h := heard src s
    let ds := (p.showNo - s.groups.showNo).toNat
    let gated : Prop := p.flags.getLsbD 0 = true ∧ p.flags.getLsbD 1 = false ∧ p.flags.getLsbD 2 = false
      ∧ p.held.length ≤ 16
    ∃ u t : State, exec i s = .next t
      ∧ u = { h with
          peers := { h.peers with table := upd h.peers.table src {
            state := .present, lastHeard := s.now, configured := p.flags.getLsbD 0, listening := p.flags.getLsbD 1
            duplicate := p.flags.getLsbD 2, keys := p.keys } }
          mixer := { h.mixer with peerKeys := u.peerUnion } }
      ∧ t.peers.table = u.peers.table ∧ t.mixer.peerKeys = u.peerUnion ∧ (∀ y : Station, y ≠ src → t.peer y = s.peer y)
      ∧ (¬ gated → t = u)
      ∧ (gated → 128 ≤ ds → t = u.bump .staleFrame)
      ∧ (gated → ds < 128 →
          let b := if ds = 0 then u else showRestart p.showNo u
          -- No own holding of a group with a won cue meets the frame at its epoch.
          let quiet (g : GroupId) : Prop := (s.view g).state ≠ .heldMe ∨ (s.groupCfg g).wonCue = none
            ∨ p.epochs.get g ≠ (s.view g).epoch
          t.groups.showNo = p.showNo
          ∧ (ds = 0 → (∀ g : GroupId, quiet g) → t.voices = s.voices ∧ t.starts = s.starts)
          ∧ (∀ (g : GroupId) (c : LocalCue), ds = 0 → (∀ k : GroupId, k ≠ g → quiet k) → NoStartWaits s →
            (s.view g).state = .heldMe → (s.view g).holder = some s.number → (s.groupCfg g).wonCue = some c →
            p.epochs.get g = (s.view g).epoch →
            let set := (s.view g).excl ||| readSet (p.excl.get g)
            let own := min 65535 (since s.now (s.view g).claimTime / 48)
            let lost : Prop := inSet s.number set = true ∨ inSet src set = false
              ∧ ∃ age : Nat, heldEntry p.held g = some age ∧ (own < age ∨ own = age ∧ src < s.number)
            t.starts = s.starts ∧ (¬ lost → t.voices = s.voices)
            ∧ (lost → ∀ v : VoiceId,
              ((s.voice v).cue = c → (s.voice v).state = .playing ∨ (s.voice v).state = .fading →
                t.voice v = { s.voice v with state := .fading, fade := some ⟨.fadeOut, (s.mix v).fade, 2, none⟩ })
              ∧ ((s.voice v).cue = c → (s.voice v).state = .priming → (t.voice v).state = .idle)
              ∧ ((s.voice v).cue ≠ c ∨ (s.voice v).state = .idle → t.voice v = s.voice v)))
          ∧ ∀ g : GroupId,
            let w := b.view g
            let d := (p.epochs.get g - w.epoch).toNat
            let sent := readSet (p.excl.get g)
            let set := w.excl ||| sent
            let own := min 65535 (since s.now w.claimTime / 48)
            let older (age : Nat) (y : Station) : Prop := own < age ∨ own = age ∧ src < y
            let adopted (age : Nat) (w : View) : View := { w with
              state := .heldOther, holder := some src, claimTime := s.now - BitVec.ofNat 32 (48 * age), stale := false }
            -- The view has left HELD_ME, where the answer timer stops and no timeout release is queued.
            let stopped (w : View) : View := { w with timer := .stopped, timeoutQueued := false }
            -- The view is as given but for its timeout-release mark.
            let is (w : View) : Prop := t.view g = { w with timeoutQueued := (t.view g).timeoutQueued }
            (128 ≤ d → is w ∧ (w.state ≠ .heldMe → t.view g = w)
              ∧ t.counter .staleFrame = min 65535 (b.counter .staleFrame + 1))
            ∧ (d = 0 → w.state = .heldOther → ∀ y : Station, w.holder = some y →
              (inSet y set = true → t.view g
                = { w with excl := set, state := .free, holder := none, epoch := w.epoch + 1, stale := false })
              ∧ (inSet y set = false → y = src → heldEntry p.held g = none → t.view g
                = { w with excl := set, state := .free, holder := none, epoch := w.epoch + 1, stale := false })
              ∧ (inSet y set = false → y ≠ src → heldEntry p.held g = none → t.view g = { w with excl := set })
              ∧ ∀ age : Nat, inSet y set = false → heldEntry p.held g = some age →
                (y = src ∨ inSet src set = true ∨ ¬ older age y → t.view g = { w with excl := set })
                ∧ (y ≠ src → inSet src set = false → older age y → t.view g = adopted age { w with excl := set }))
            ∧ (d = 0 → w.state = .heldMe → w.holder = some s.number →
              (inSet s.number set = true → t.view g = stopped
                { w with excl := set, state := .free, holder := none, epoch := w.epoch + 1, stale := false })
              ∧ (inSet s.number set = false → heldEntry p.held g = none → is { w with excl := set })
              ∧ ∀ age : Nat, inSet s.number set = false → heldEntry p.held g = some age →
                (inSet src set = true ∨ ¬ older age s.number → is { w with excl := set })
                ∧ (inSet src set = false → older age s.number → t.view g = stopped (adopted age { w with excl := set })))
            ∧ (d = 0 → w.state = .free ∨ w.state = .claiming ∧ inSet s.number set = false →
              (heldEntry p.held g = none → t.view g = { w with excl := set })
              ∧ ∀ age : Nat, heldEntry p.held g = some age →
                (inSet src set = true → t.view g = { w with excl := set })
                ∧ (inSet src set = false → t.view g = adopted age { w with excl := set }))
            ∧ (d = 0 → w.state = .claiming → inSet s.number set = true → heldEntry p.held g = none →
              t.view g = { w with excl := set, state := .free, holder := none, stale := false })
            ∧ (1 ≤ d → d < 128 →
              let freed : View := stopped
                { w with excl := sent, state := .free, holder := none, epoch := p.epochs.get g, stale := false }
              (heldEntry p.held g = none → t.view g = freed)
              ∧ ∀ age : Nat, heldEntry p.held g = some age →
                (inSet src sent = true → t.view g = freed)
                ∧ (inSet src sent = false → t.view g = adopted age freed)))

/-- QUERY_RECEIVED at the own number: an empty answer list takes the querier and the clear flag and a STATUS is offered; else
the querier is added and a clear mark once set stays (R141). -/
def Obligations.QueryJoinsTheAnswerList : Prop :=
  ∀ (src : Station) (b0 : Byte) (s : State), HandsOn s src (BitVec.ofNat 8 s.number.val) → s.number ≠ 0 →
    let h := heard src s
    let i := Instr.queryReceived src (BitVec.ofNat 8 s.number.val) b0
    let clear := b0.getLsbD 0
    (s.answers = none →
      exec i s = .next (offer .status { h with answers := some ⟨(1 : StationSet) <<< src.val, clear⟩ }))
    ∧ ∀ a : Answers, s.answers = some a →
        exec i s = .next { h with
          answers := some ⟨a.queriers ||| ((1 : StationSet) <<< src.val), a.clear || clear⟩ }

/-- RESTART_RECEIVED: equal is ignored, behind counts STALE_FRAME, and ahead makes a show restart whole: the show, every view
as after hard reset, no queued CLAIM, HOLD or RELEASE and the other frames in their places, an empty pending-start queue,
segment 0 and all classes, and every voice cut (R187, R188). That a timeout cue sounding then is cut with every other voice,
where R163 has it play on, is the model's choice (notes/assumptions/28.md). -/
def Obligations.RestartReturnsTheShowToItsStart : Prop :=
  ∀ (src : Station) (dst n : Byte) (s : State), HandsOn s src dst → Settled s →
    let i := Instr.restartReceived src dst n
    let h := heard src s
    let d := (n - s.groups.showNo).toNat
    (d = 0 → exec i s = .next h)
    ∧ (128 ≤ d → exec i s = .next (h.bump .staleFrame))
    ∧ (1 ≤ d → d < 128 → s.line.queue.length < 8 → ∃ t : State, exec i s = .next t
      ∧ t.groups = ⟨n, Vector.replicate 16 View.reset⟩
      ∧ t.starts = { s.starts with queue := [], segment := 0, mask := 0xFF }
      ∧ t.line.queue.filter (fun e => e.body != .presence)
          = s.line.queue.filter (fun e => !e.body.ofGroups && e.body != .presence)
      ∧ (∀ v : VoiceId,
          ((s.voice v).state = .idle → t.voice v = s.voice v)
          ∧ ((s.voice v).state = .priming → (t.voice v).state = .idle)
          ∧ ((s.voice v).state = .playing ∨ (s.voice v).state = .fading →
              t.voice v = { s.voice v with
                state := .fading, fade := some ⟨.fadeOut, (s.mix v).fade, 2, none⟩ }))
      ∧ t.counters = h.counters ∧ t.clock = s.clock ∧ t.tables = s.tables ∧ t.preload = s.preload
      ∧ t.triggers = s.triggers ∧ t.answers = s.answers ∧ t.mixer.duck = s.mixer.duck)

/-! ### Timers of groups and peers -/

/-- ANSWER_TIMER_EXPIRY in HELD_ME: the timer is EXPIRED, the view stays HELD_ME, the timeout cue, when present, is requested,
and a RELEASE with verdict TIMEOUT is offered and marked queued, unless a RELEASE of the group stands for it (R163, R38). -/
def Obligations.AnswerExpiryOffersTheTimeoutRelease : Prop :=
  ∀ (g : GroupId) (e : Time) (s : State), s.inReset = false → (s.view g).state = .heldMe →
    (s.view g).timer = .running e → reached s.now e = true →
    let i := Instr.answerTimerExpiry g
    let w := s.view g
    let expired : State := s.setView g { w with timer := .expired }
    let cued : State := match (s.groupCfg g).timeoutCue with
      | some c => startRequest ⟨c, 0, false⟩ expired
      | none => expired
    (s.releaseQueued g = false →
      exec i s = .next (offer (.release g s.groups.showNo w.epoch .timeout)
        (cued.setView g { w with timer := .expired, timeoutQueued := true })))
    ∧ (s.releaseQueued g = true → s.station ≠ .loading → s.number ≠ 0 →
      exec i s = .next (cued.setView g { w with timer := .expired, timeoutQueued := false }))

/-- PRESENCE_TIMER_EXPIRY stops the timer and offers a PRESENCE in RUNNING and UNCONFIGURED (R177). PEER_STALE, 2P after the
last sign of life, and PEER_GONE, 4P after it, turn the peer, mark or free every view it holds, and leave every other view; a
GONE peer's keys are dropped (R173, R166, R174). -/
def Obligations.PresenceAndPeerTimersExpire : Prop :=
  ∀ s : State, s.inReset = false →
    (∀ e : Time, s.peers.presenceTimer = some e → reached s.now e = true →
      let stopped : State := { s with peers := { s.peers with presenceTimer := none } }
      (s.station = .running ∨ s.station = .unconfigured →
        exec .presenceTimerExpiry s = .next (offer .presence stopped))
      ∧ (s.station = .loading ∨ s.station = .listening → exec .presenceTimerExpiry s = .next stopped))
    ∧ ∀ x : Station, x ≠ 0 → x ≠ s.number →
      let held (g : GroupId) : Prop := (s.view g).state = .heldOther ∧ (s.view g).holder = some x
      ((s.peer x).state = .present → 96 * s.tables.periodMs ≤ since s.now (s.peer x).lastHeard →
        ∃ t : State, exec (.peerStale x) s = .next t
          ∧ t = { s with
              peers := { s.peers with table := upd s.peers.table x { s.peer x with state := .stale } }
              groups := { s.groups with views := t.groups.views } }
          ∧ ∀ g : GroupId, (held g → t.view g = { s.view g with stale := true }) ∧ (¬ held g → t.view g = s.view g))
      ∧ ((s.peer x).state = .stale → 192 * s.tables.periodMs ≤ since s.now (s.peer x).lastHeard →
        ∃ t : State, exec (.peerGone x) s = .next t
          ∧ t.peer x = { s.peer x with state := .gone, keys := 0 }
          ∧ (∀ y : Station, y ≠ x → t.peer y = s.peer y) ∧ t.mixer.peerKeys = t.peerUnion
          ∧ (∀ g : GroupId,
              (held g → t.view g = { s.view g with
                state := .free, holder := none, epoch := (s.view g).epoch + 1, stale := false })
              ∧ (¬ held g → t.view g = s.view g))
          ∧ t.voices = s.voices ∧ t.starts = s.starts ∧ t.counters = s.counters)

/-! ### At every moment -/

/-- The hard-reset state is safe and settled (R145, R15, R148, R51, R121, R122, R26, R37, R113). -/
def Obligations.ResetStateIsSafe : Prop := Safe State.reset ∧ Settled State.reset

/-- Every step keeps every counter within 0..65,535, the Preload Memory in its canonical form, and the properties of the tables
(R145, R15; for the memory's form, which is the model's own, notes/assumptions/5.md). -/
def Obligations.EveryStepKeepsCountersAndPreload : Prop :=
  ∀ s t : State, step s = .next t →
    (CountersOk s → CountersOk t) ∧ (PreloadOk s → PreloadOk t) ∧ (TablesOk s.tables → TablesOk t.tables)

/-- No step makes a counter fall, that of time on an empty queue included, but the completion of a STATUS whose answer list's
clear mark is yes, and a hard reset (R145). -/
def Obligations.CountersFallOnlyAtAClearingStatus : Prop :=
  ∀ (s t : State) (k : Counter), CountersOk s → step s = .next t → t.counter k < s.counter k →
    ∃ (c : Instr) (rest : List Instr), s.pending = c :: rest
      ∧ (c = .hardReset ∨ (∃ n, c = .hardResetRelease n)
        ∨ c = .transmitComplete ∧ (∃ a, s.answers = some a ∧ a.clear = true)
          ∧ ∃ n f e, s.line.activity = .sending n f ∧ s.line.queue.find? (fun x => x.ident == n) = some e
            ∧ e.body = .status)

/-- Every step keeps every group view as R148 states: one holder outside the exclusion set exactly in HELD_ME and HELD_OTHER,
and an excluded station in neither CLAIMING nor HELD_ME (R148, R161, R166). -/
def Obligations.EveryStepKeepsTheGroupViews : Prop :=
  ∀ s t : State, ViewsOk s → step s = .next t → ViewsOk t

/-- Every step keeps at most 16 pending entries and never two for the same local cue (R51). -/
def Obligations.EveryStepKeepsTheStartQueue : Prop :=
  ∀ s t : State, StartQueueOk s → step s = .next t → StartQueueOk t

/-- Every step keeps at most 8 frames in order of rank, at most one PRESENCE and one STATUS and at most one HOLD and one
RELEASE of each group in the transmit queue; and at most one CLAIM of each group, which it holds only while the group's view is
CLAIMING (R121, R122, R152). -/
def Obligations.EveryStepKeepsTheTransmitQueue : Prop :=
  ∀ s t : State, step s = .next t → (TxQueueOk s → TxQueueOk t) ∧ (ClaimsOk s → ClaimsOk t)

/-- Every step keeps the fill of a FIFO plus its outstanding burst within 256 samples (R26, R24). -/
def Obligations.EveryStepKeepsTheFifosBounded : Prop :=
  ∀ s t : State, FifoOk s → step s = .next t → FifoOk t

/-- Every step keeps `Settled`, the premise of other statements: no return of a voice to IDLE is left between commands; and
none is dropped, since settling drops none and from every state its rounds are enough, any further ones finding nothing to do
(R54). The list of returns and the bound of its rounds are the model's own (notes/assumptions/9.md). -/
def Obligations.EveryStepTakesItsReturns : Prop :=
  (∀ s t : State, Settled s → step s = .next t → Settled t)
  ∧ ∀ (s : State) (n : Nat), Settled (finish s) ∧ settle (settleRounds s + n) s = finish s

/-! ### The bytes of the line -/

/-- The bytes of the frame that a received command stands for, heard whole, stand for that command again, for every field at
every value its layout admits, and bytes that follow them for one RX_BAD more; heard bit by bit, the levels of the frame make
that reception and no other; every frame the station itself builds passes the protocol checks; and the CRC of the bytes 0x31 to
0x39 is 0x29B1 (R114, R125, R126, R130 to R133). -/
def Obligations.ReceptionReadsWhatTheLayoutWrites : Prop :=
  (∀ (i : Instr) (f : Frame), i.wf = true → frameOfCommand i = some f →
    commandsOfReception ⟨frameBytes f, .rest⟩ = [i]
    ∧ (∀ (b : Byte) (l : List Byte), commandsOfReception ⟨frameBytes f ++ b :: l, .rest⟩ = [i, .rxBad ⟨b :: l, .trailing⟩])
    ∧ (frameLevels f).foldl (fun (a : RxState × List Reception) x => ((rxBit a.1 x).1, a.2 ++ (rxBit a.1 x).2.toList))
        (.receiving [] [], []) = (.receiving (frameBytes f) [], [⟨frameBytes f, .rest⟩]))
  ∧ (∀ (s : State) (b : TxBody), s.number ≠ 0 → protocolFault (buildFrame s b) = none)
  ∧ crc [0x31, 0x32, 0x33, 0x34, 0x35, 0x36, 0x37, 0x38, 0x39] = 0x29B1
end

