-- ==== Sys2Proof/Laws/State.lean ====
section
/-! SUPPORT. What the named updates of the state leave as it is and what they put in place: one lemma per field and update,
so that no later proof unfolds a record update. -/

namespace Sys2Proof

/-! ### Tables -/

@[simp] theorem tabulate_get {α : Type} {n : Nat} (f : Fin n → α) (i : Fin n) : (tabulate n f).get i = f i := by
  show (List.ofFn f).toArray[i.val]'(by simp) = f i
  simp

@[simp] theorem upd_get_self {α : Type} {n : Nat} (t : Vector α n) (i : Fin n) (a : α) : (upd t i a).get i = a := by
  show (t.set i.val a i.isLt)[i.val] = a
  simp

theorem upd_get {α : Type} {n : Nat} (t : Vector α n) (i j : Fin n) (a : α) :
    (upd t i a).get j = if j = i then a else t.get j := by
  by_cases h : j = i
  · subst h; simp
  · have h' : i.val ≠ j.val := fun e => h (Fin.ext e.symm)
    rw [if_neg h]
    show (t.set i.val a i.isLt)[j.val] = t[j.val]
    rw [Vector.getElem_set_ne _ _ h']

theorem upd_get_ne {α : Type} {n : Nat} (t : Vector α n) {i j : Fin n} (a : α) (h : j ≠ i) :
    (upd t i a).get j = t.get j := by
  simp [upd_get, h]

@[simp] theorem replicate_get {α : Type} {n : Nat} (a : α) (i : Fin n) : (Vector.replicate n a).get i = a := by
  simp [Vector.get]

end Sys2Proof

namespace Sys2Proof.Machine

/-! ### setVoice -/

@[simp] theorem State.setVoice_pending (s : State) (v : VoiceId) (x : Voice) : (s.setVoice v x).pending = s.pending := rfl
@[simp] theorem State.setVoice_inReset (s : State) (v : VoiceId) (x : Voice) : (s.setVoice v x).inReset = s.inReset := rfl
@[simp] theorem State.setVoice_station (s : State) (v : VoiceId) (x : Voice) : (s.setVoice v x).station = s.station := rfl
@[simp] theorem State.setVoice_number (s : State) (v : VoiceId) (x : Voice) : (s.setVoice v x).number = s.number := rfl
@[simp] theorem State.setVoice_tables (s : State) (v : VoiceId) (x : Voice) : (s.setVoice v x).tables = s.tables := rfl
@[simp] theorem State.setVoice_starts (s : State) (v : VoiceId) (x : Voice) : (s.setVoice v x).starts = s.starts := rfl
@[simp] theorem State.setVoice_beatRef (s : State) (v : VoiceId) (x : Voice) : (s.setVoice v x).beatRef = s.beatRef := rfl
@[simp] theorem State.setVoice_returns (s : State) (v : VoiceId) (x : Voice) : (s.setVoice v x).returns = s.returns := rfl
@[simp] theorem State.setVoice_fetch (s : State) (v : VoiceId) (x : Voice) : (s.setVoice v x).fetch = s.fetch := rfl
@[simp] theorem State.setVoice_preload (s : State) (v : VoiceId) (x : Voice) : (s.setVoice v x).preload = s.preload := rfl
@[simp] theorem State.setVoice_mixer (s : State) (v : VoiceId) (x : Voice) : (s.setVoice v x).mixer = s.mixer := rfl
@[simp] theorem State.setVoice_triggers (s : State) (v : VoiceId) (x : Voice) : (s.setVoice v x).triggers = s.triggers := rfl
@[simp] theorem State.setVoice_line (s : State) (v : VoiceId) (x : Voice) : (s.setVoice v x).line = s.line := rfl
@[simp] theorem State.setVoice_answers (s : State) (v : VoiceId) (x : Voice) : (s.setVoice v x).answers = s.answers := rfl
@[simp] theorem State.setVoice_peers (s : State) (v : VoiceId) (x : Voice) : (s.setVoice v x).peers = s.peers := rfl
@[simp] theorem State.setVoice_groups (s : State) (v : VoiceId) (x : Voice) : (s.setVoice v x).groups = s.groups := rfl
@[simp] theorem State.setVoice_clock (s : State) (v : VoiceId) (x : Voice) : (s.setVoice v x).clock = s.clock := rfl
@[simp] theorem State.setVoice_counters (s : State) (v : VoiceId) (x : Voice) : (s.setVoice v x).counters = s.counters := rfl

/-! ### setMix -/

@[simp] theorem State.setMix_pending (s : State) (v : VoiceId) (x : VoiceMix) : (s.setMix v x).pending = s.pending := rfl
@[simp] theorem State.setMix_inReset (s : State) (v : VoiceId) (x : VoiceMix) : (s.setMix v x).inReset = s.inReset := rfl
@[simp] theorem State.setMix_station (s : State) (v : VoiceId) (x : VoiceMix) : (s.setMix v x).station = s.station := rfl
@[simp] theorem State.setMix_number (s : State) (v : VoiceId) (x : VoiceMix) : (s.setMix v x).number = s.number := rfl
@[simp] theorem State.setMix_tables (s : State) (v : VoiceId) (x : VoiceMix) : (s.setMix v x).tables = s.tables := rfl
@[simp] theorem State.setMix_starts (s : State) (v : VoiceId) (x : VoiceMix) : (s.setMix v x).starts = s.starts := rfl
@[simp] theorem State.setMix_voices (s : State) (v : VoiceId) (x : VoiceMix) : (s.setMix v x).voices = s.voices := rfl
@[simp] theorem State.setMix_beatRef (s : State) (v : VoiceId) (x : VoiceMix) : (s.setMix v x).beatRef = s.beatRef := rfl
@[simp] theorem State.setMix_returns (s : State) (v : VoiceId) (x : VoiceMix) : (s.setMix v x).returns = s.returns := rfl
@[simp] theorem State.setMix_fetch (s : State) (v : VoiceId) (x : VoiceMix) : (s.setMix v x).fetch = s.fetch := rfl
@[simp] theorem State.setMix_preload (s : State) (v : VoiceId) (x : VoiceMix) : (s.setMix v x).preload = s.preload := rfl
@[simp] theorem State.setMix_triggers (s : State) (v : VoiceId) (x : VoiceMix) : (s.setMix v x).triggers = s.triggers := rfl
@[simp] theorem State.setMix_line (s : State) (v : VoiceId) (x : VoiceMix) : (s.setMix v x).line = s.line := rfl
@[simp] theorem State.setMix_answers (s : State) (v : VoiceId) (x : VoiceMix) : (s.setMix v x).answers = s.answers := rfl
@[simp] theorem State.setMix_peers (s : State) (v : VoiceId) (x : VoiceMix) : (s.setMix v x).peers = s.peers := rfl
@[simp] theorem State.setMix_groups (s : State) (v : VoiceId) (x : VoiceMix) : (s.setMix v x).groups = s.groups := rfl
@[simp] theorem State.setMix_clock (s : State) (v : VoiceId) (x : VoiceMix) : (s.setMix v x).clock = s.clock := rfl
@[simp] theorem State.setMix_counters (s : State) (v : VoiceId) (x : VoiceMix) : (s.setMix v x).counters = s.counters := rfl
@[simp] theorem State.setMix_mixer_localKeys (s : State) (v : VoiceId) (x : VoiceMix) : (s.setMix v x).mixer.localKeys = s.mixer.localKeys := rfl
@[simp] theorem State.setMix_mixer_peerKeys (s : State) (v : VoiceId) (x : VoiceMix) : (s.setMix v x).mixer.peerKeys = s.mixer.peerKeys := rfl
@[simp] theorem State.setMix_mixer_duck (s : State) (v : VoiceId) (x : VoiceMix) : (s.setMix v x).mixer.duck = s.mixer.duck := rfl
@[simp] theorem State.setMix_mixer_target (s : State) (v : VoiceId) (x : VoiceMix) : (s.setMix v x).mixer.target = s.mixer.target := rfl
@[simp] theorem State.setMix_mixer_phase (s : State) (v : VoiceId) (x : VoiceMix) : (s.setMix v x).mixer.phase = s.mixer.phase := rfl
@[simp] theorem State.setMix_mixer_given (s : State) (v : VoiceId) (x : VoiceMix) : (s.setMix v x).mixer.given = s.mixer.given := rfl
@[simp] theorem State.setMix_mixer_progOut (s : State) (v : VoiceId) (x : VoiceMix) : (s.setMix v x).mixer.progOut = s.mixer.progOut := rfl
@[simp] theorem State.setMix_mixer_foldOut (s : State) (v : VoiceId) (x : VoiceMix) : (s.setMix v x).mixer.foldOut = s.mixer.foldOut := rfl

/-! ### setGiven -/

@[simp] theorem State.setGiven_pending (s : State) (v : VoiceId) (x : Option Sample) : (s.setGiven v x).pending = s.pending := rfl
@[simp] theorem State.setGiven_inReset (s : State) (v : VoiceId) (x : Option Sample) : (s.setGiven v x).inReset = s.inReset := rfl
@[simp] theorem State.setGiven_station (s : State) (v : VoiceId) (x : Option Sample) : (s.setGiven v x).station = s.station := rfl
@[simp] theorem State.setGiven_number (s : State) (v : VoiceId) (x : Option Sample) : (s.setGiven v x).number = s.number := rfl
@[simp] theorem State.setGiven_tables (s : State) (v : VoiceId) (x : Option Sample) : (s.setGiven v x).tables = s.tables := rfl
@[simp] theorem State.setGiven_starts (s : State) (v : VoiceId) (x : Option Sample) : (s.setGiven v x).starts = s.starts := rfl
@[simp] theorem State.setGiven_voices (s : State) (v : VoiceId) (x : Option Sample) : (s.setGiven v x).voices = s.voices := rfl
@[simp] theorem State.setGiven_beatRef (s : State) (v : VoiceId) (x : Option Sample) : (s.setGiven v x).beatRef = s.beatRef := rfl
@[simp] theorem State.setGiven_returns (s : State) (v : VoiceId) (x : Option Sample) : (s.setGiven v x).returns = s.returns := rfl
@[simp] theorem State.setGiven_fetch (s : State) (v : VoiceId) (x : Option Sample) : (s.setGiven v x).fetch = s.fetch := rfl
@[simp] theorem State.setGiven_preload (s : State) (v : VoiceId) (x : Option Sample) : (s.setGiven v x).preload = s.preload := rfl
@[simp] theorem State.setGiven_triggers (s : State) (v : VoiceId) (x : Option Sample) : (s.setGiven v x).triggers = s.triggers := rfl
@[simp] theorem State.setGiven_line (s : State) (v : VoiceId) (x : Option Sample) : (s.setGiven v x).line = s.line := rfl
@[simp] theorem State.setGiven_answers (s : State) (v : VoiceId) (x : Option Sample) : (s.setGiven v x).answers = s.answers := rfl
@[simp] theorem State.setGiven_peers (s : State) (v : VoiceId) (x : Option Sample) : (s.setGiven v x).peers = s.peers := rfl
@[simp] theorem State.setGiven_groups (s : State) (v : VoiceId) (x : Option Sample) : (s.setGiven v x).groups = s.groups := rfl
@[simp] theorem State.setGiven_clock (s : State) (v : VoiceId) (x : Option Sample) : (s.setGiven v x).clock = s.clock := rfl
@[simp] theorem State.setGiven_counters (s : State) (v : VoiceId) (x : Option Sample) : (s.setGiven v x).counters = s.counters := rfl
@[simp] theorem State.setGiven_mixer_localKeys (s : State) (v : VoiceId) (x : Option Sample) : (s.setGiven v x).mixer.localKeys = s.mixer.localKeys := rfl
@[simp] theorem State.setGiven_mixer_peerKeys (s : State) (v : VoiceId) (x : Option Sample) : (s.setGiven v x).mixer.peerKeys = s.mixer.peerKeys := rfl
@[simp] theorem State.setGiven_mixer_duck (s : State) (v : VoiceId) (x : Option Sample) : (s.setGiven v x).mixer.duck = s.mixer.duck := rfl
@[simp] theorem State.setGiven_mixer_target (s : State) (v : VoiceId) (x : Option Sample) : (s.setGiven v x).mixer.target = s.mixer.target := rfl
@[simp] theorem State.setGiven_mixer_phase (s : State) (v : VoiceId) (x : Option Sample) : (s.setGiven v x).mixer.phase = s.mixer.phase := rfl
@[simp] theorem State.setGiven_mixer_mix (s : State) (v : VoiceId) (x : Option Sample) : (s.setGiven v x).mixer.mix = s.mixer.mix := rfl
@[simp] theorem State.setGiven_mixer_progOut (s : State) (v : VoiceId) (x : Option Sample) : (s.setGiven v x).mixer.progOut = s.mixer.progOut := rfl
@[simp] theorem State.setGiven_mixer_foldOut (s : State) (v : VoiceId) (x : Option Sample) : (s.setGiven v x).mixer.foldOut = s.mixer.foldOut := rfl

/-! ### setRequest -/

@[simp] theorem State.setRequest_pending (s : State) (v : VoiceId) (t : Option Micros) : (s.setRequest v t).pending = s.pending := rfl
@[simp] theorem State.setRequest_inReset (s : State) (v : VoiceId) (t : Option Micros) : (s.setRequest v t).inReset = s.inReset := rfl
@[simp] theorem State.setRequest_station (s : State) (v : VoiceId) (t : Option Micros) : (s.setRequest v t).station = s.station := rfl
@[simp] theorem State.setRequest_number (s : State) (v : VoiceId) (t : Option Micros) : (s.setRequest v t).number = s.number := rfl
@[simp] theorem State.setRequest_tables (s : State) (v : VoiceId) (t : Option Micros) : (s.setRequest v t).tables = s.tables := rfl
@[simp] theorem State.setRequest_starts (s : State) (v : VoiceId) (t : Option Micros) : (s.setRequest v t).starts = s.starts := rfl
@[simp] theorem State.setRequest_voices (s : State) (v : VoiceId) (t : Option Micros) : (s.setRequest v t).voices = s.voices := rfl
@[simp] theorem State.setRequest_beatRef (s : State) (v : VoiceId) (t : Option Micros) : (s.setRequest v t).beatRef = s.beatRef := rfl
@[simp] theorem State.setRequest_returns (s : State) (v : VoiceId) (t : Option Micros) : (s.setRequest v t).returns = s.returns := rfl
@[simp] theorem State.setRequest_preload (s : State) (v : VoiceId) (t : Option Micros) : (s.setRequest v t).preload = s.preload := rfl
@[simp] theorem State.setRequest_mixer (s : State) (v : VoiceId) (t : Option Micros) : (s.setRequest v t).mixer = s.mixer := rfl
@[simp] theorem State.setRequest_triggers (s : State) (v : VoiceId) (t : Option Micros) : (s.setRequest v t).triggers = s.triggers := rfl
@[simp] theorem State.setRequest_line (s : State) (v : VoiceId) (t : Option Micros) : (s.setRequest v t).line = s.line := rfl
@[simp] theorem State.setRequest_answers (s : State) (v : VoiceId) (t : Option Micros) : (s.setRequest v t).answers = s.answers := rfl
@[simp] theorem State.setRequest_peers (s : State) (v : VoiceId) (t : Option Micros) : (s.setRequest v t).peers = s.peers := rfl
@[simp] theorem State.setRequest_groups (s : State) (v : VoiceId) (t : Option Micros) : (s.setRequest v t).groups = s.groups := rfl
@[simp] theorem State.setRequest_clock (s : State) (v : VoiceId) (t : Option Micros) : (s.setRequest v t).clock = s.clock := rfl
@[simp] theorem State.setRequest_counters (s : State) (v : VoiceId) (t : Option Micros) : (s.setRequest v t).counters = s.counters := rfl
@[simp] theorem State.setRequest_fetch_burst (s : State) (v : VoiceId) (t : Option Micros) : (s.setRequest v t).fetch.burst = s.fetch.burst := rfl
@[simp] theorem State.setRequest_fetch_nextCue (s : State) (v : VoiceId) (t : Option Micros) : (s.setRequest v t).fetch.nextCue = s.fetch.nextCue := rfl
@[simp] theorem State.setRequest_fetch_alloc (s : State) (v : VoiceId) (t : Option Micros) : (s.setRequest v t).fetch.alloc = s.fetch.alloc := rfl
@[simp] theorem State.setRequest_fetch_pass (s : State) (v : VoiceId) (t : Option Micros) : (s.setRequest v t).fetch.pass = s.fetch.pass := rfl
@[simp] theorem State.setRequest_fetch_work (s : State) (v : VoiceId) (t : Option Micros) : (s.setRequest v t).fetch.work = s.fetch.work := rfl

/-! ### setView -/

@[simp] theorem State.setView_pending (s : State) (g : GroupId) (w : View) : (s.setView g w).pending = s.pending := rfl
@[simp] theorem State.setView_inReset (s : State) (g : GroupId) (w : View) : (s.setView g w).inReset = s.inReset := rfl
@[simp] theorem State.setView_station (s : State) (g : GroupId) (w : View) : (s.setView g w).station = s.station := rfl
@[simp] theorem State.setView_number (s : State) (g : GroupId) (w : View) : (s.setView g w).number = s.number := rfl
@[simp] theorem State.setView_tables (s : State) (g : GroupId) (w : View) : (s.setView g w).tables = s.tables := rfl
@[simp] theorem State.setView_starts (s : State) (g : GroupId) (w : View) : (s.setView g w).starts = s.starts := rfl
@[simp] theorem State.setView_voices (s : State) (g : GroupId) (w : View) : (s.setView g w).voices = s.voices := rfl
@[simp] theorem State.setView_beatRef (s : State) (g : GroupId) (w : View) : (s.setView g w).beatRef = s.beatRef := rfl
@[simp] theorem State.setView_returns (s : State) (g : GroupId) (w : View) : (s.setView g w).returns = s.returns := rfl
@[simp] theorem State.setView_fetch (s : State) (g : GroupId) (w : View) : (s.setView g w).fetch = s.fetch := rfl
@[simp] theorem State.setView_preload (s : State) (g : GroupId) (w : View) : (s.setView g w).preload = s.preload := rfl
@[simp] theorem State.setView_mixer (s : State) (g : GroupId) (w : View) : (s.setView g w).mixer = s.mixer := rfl
@[simp] theorem State.setView_triggers (s : State) (g : GroupId) (w : View) : (s.setView g w).triggers = s.triggers := rfl
@[simp] theorem State.setView_line (s : State) (g : GroupId) (w : View) : (s.setView g w).line = s.line := rfl
@[simp] theorem State.setView_answers (s : State) (g : GroupId) (w : View) : (s.setView g w).answers = s.answers := rfl
@[simp] theorem State.setView_peers (s : State) (g : GroupId) (w : View) : (s.setView g w).peers = s.peers := rfl
@[simp] theorem State.setView_clock (s : State) (g : GroupId) (w : View) : (s.setView g w).clock = s.clock := rfl
@[simp] theorem State.setView_counters (s : State) (g : GroupId) (w : View) : (s.setView g w).counters = s.counters := rfl
@[simp] theorem State.setView_groups_showNo (s : State) (g : GroupId) (w : View) : (s.setView g w).groups.showNo = s.groups.showNo := rfl

/-! ### setPeer -/

@[simp] theorem State.setPeer_pending (s : State) (x : Station) (p : Peer) : (s.setPeer x p).pending = s.pending := rfl
@[simp] theorem State.setPeer_inReset (s : State) (x : Station) (p : Peer) : (s.setPeer x p).inReset = s.inReset := rfl
@[simp] theorem State.setPeer_station (s : State) (x : Station) (p : Peer) : (s.setPeer x p).station = s.station := rfl
@[simp] theorem State.setPeer_number (s : State) (x : Station) (p : Peer) : (s.setPeer x p).number = s.number := rfl
@[simp] theorem State.setPeer_tables (s : State) (x : Station) (p : Peer) : (s.setPeer x p).tables = s.tables := rfl
@[simp] theorem State.setPeer_starts (s : State) (x : Station) (p : Peer) : (s.setPeer x p).starts = s.starts := rfl
@[simp] theorem State.setPeer_voices (s : State) (x : Station) (p : Peer) : (s.setPeer x p).voices = s.voices := rfl
@[simp] theorem State.setPeer_beatRef (s : State) (x : Station) (p : Peer) : (s.setPeer x p).beatRef = s.beatRef := rfl
@[simp] theorem State.setPeer_returns (s : State) (x : Station) (p : Peer) : (s.setPeer x p).returns = s.returns := rfl
@[simp] theorem State.setPeer_fetch (s : State) (x : Station) (p : Peer) : (s.setPeer x p).fetch = s.fetch := rfl
@[simp] theorem State.setPeer_preload (s : State) (x : Station) (p : Peer) : (s.setPeer x p).preload = s.preload := rfl
@[simp] theorem State.setPeer_mixer (s : State) (x : Station) (p : Peer) : (s.setPeer x p).mixer = s.mixer := rfl
@[simp] theorem State.setPeer_triggers (s : State) (x : Station) (p : Peer) : (s.setPeer x p).triggers = s.triggers := rfl
@[simp] theorem State.setPeer_line (s : State) (x : Station) (p : Peer) : (s.setPeer x p).line = s.line := rfl
@[simp] theorem State.setPeer_answers (s : State) (x : Station) (p : Peer) : (s.setPeer x p).answers = s.answers := rfl
@[simp] theorem State.setPeer_groups (s : State) (x : Station) (p : Peer) : (s.setPeer x p).groups = s.groups := rfl
@[simp] theorem State.setPeer_clock (s : State) (x : Station) (p : Peer) : (s.setPeer x p).clock = s.clock := rfl
@[simp] theorem State.setPeer_counters (s : State) (x : Station) (p : Peer) : (s.setPeer x p).counters = s.counters := rfl
@[simp] theorem State.setPeer_peers_presenceTimer (s : State) (x : Station) (p : Peer) : (s.setPeer x p).peers.presenceTimer = s.peers.presenceTimer := rfl
@[simp] theorem State.setPeer_peers_listenTimer (s : State) (x : Station) (p : Peer) : (s.setPeer x p).peers.listenTimer = s.peers.listenTimer := rfl
@[simp] theorem State.setPeer_peers_duplicate (s : State) (x : Station) (p : Peer) : (s.setPeer x p).peers.duplicate = s.peers.duplicate := rfl

/-! ### setLine -/

@[simp] theorem State.setLine_pending (s : State) (l : Line) : (s.setLine l).pending = s.pending := rfl
@[simp] theorem State.setLine_inReset (s : State) (l : Line) : (s.setLine l).inReset = s.inReset := rfl
@[simp] theorem State.setLine_station (s : State) (l : Line) : (s.setLine l).station = s.station := rfl
@[simp] theorem State.setLine_number (s : State) (l : Line) : (s.setLine l).number = s.number := rfl
@[simp] theorem State.setLine_tables (s : State) (l : Line) : (s.setLine l).tables = s.tables := rfl
@[simp] theorem State.setLine_starts (s : State) (l : Line) : (s.setLine l).starts = s.starts := rfl
@[simp] theorem State.setLine_voices (s : State) (l : Line) : (s.setLine l).voices = s.voices := rfl
@[simp] theorem State.setLine_beatRef (s : State) (l : Line) : (s.setLine l).beatRef = s.beatRef := rfl
@[simp] theorem State.setLine_returns (s : State) (l : Line) : (s.setLine l).returns = s.returns := rfl
@[simp] theorem State.setLine_fetch (s : State) (l : Line) : (s.setLine l).fetch = s.fetch := rfl
@[simp] theorem State.setLine_preload (s : State) (l : Line) : (s.setLine l).preload = s.preload := rfl
@[simp] theorem State.setLine_mixer (s : State) (l : Line) : (s.setLine l).mixer = s.mixer := rfl
@[simp] theorem State.setLine_triggers (s : State) (l : Line) : (s.setLine l).triggers = s.triggers := rfl
@[simp] theorem State.setLine_answers (s : State) (l : Line) : (s.setLine l).answers = s.answers := rfl
@[simp] theorem State.setLine_peers (s : State) (l : Line) : (s.setLine l).peers = s.peers := rfl
@[simp] theorem State.setLine_groups (s : State) (l : Line) : (s.setLine l).groups = s.groups := rfl
@[simp] theorem State.setLine_clock (s : State) (l : Line) : (s.setLine l).clock = s.clock := rfl
@[simp] theorem State.setLine_counters (s : State) (l : Line) : (s.setLine l).counters = s.counters := rfl

/-! ### setQueue -/

@[simp] theorem State.setQueue_pending (s : State) (q : List Entry) : (s.setQueue q).pending = s.pending := rfl
@[simp] theorem State.setQueue_inReset (s : State) (q : List Entry) : (s.setQueue q).inReset = s.inReset := rfl
@[simp] theorem State.setQueue_station (s : State) (q : List Entry) : (s.setQueue q).station = s.station := rfl
@[simp] theorem State.setQueue_number (s : State) (q : List Entry) : (s.setQueue q).number = s.number := rfl
@[simp] theorem State.setQueue_tables (s : State) (q : List Entry) : (s.setQueue q).tables = s.tables := rfl
@[simp] theorem State.setQueue_voices (s : State) (q : List Entry) : (s.setQueue q).voices = s.voices := rfl
@[simp] theorem State.setQueue_beatRef (s : State) (q : List Entry) : (s.setQueue q).beatRef = s.beatRef := rfl
@[simp] theorem State.setQueue_returns (s : State) (q : List Entry) : (s.setQueue q).returns = s.returns := rfl
@[simp] theorem State.setQueue_fetch (s : State) (q : List Entry) : (s.setQueue q).fetch = s.fetch := rfl
@[simp] theorem State.setQueue_preload (s : State) (q : List Entry) : (s.setQueue q).preload = s.preload := rfl
@[simp] theorem State.setQueue_mixer (s : State) (q : List Entry) : (s.setQueue q).mixer = s.mixer := rfl
@[simp] theorem State.setQueue_triggers (s : State) (q : List Entry) : (s.setQueue q).triggers = s.triggers := rfl
@[simp] theorem State.setQueue_line (s : State) (q : List Entry) : (s.setQueue q).line = s.line := rfl
@[simp] theorem State.setQueue_answers (s : State) (q : List Entry) : (s.setQueue q).answers = s.answers := rfl
@[simp] theorem State.setQueue_peers (s : State) (q : List Entry) : (s.setQueue q).peers = s.peers := rfl
@[simp] theorem State.setQueue_groups (s : State) (q : List Entry) : (s.setQueue q).groups = s.groups := rfl
@[simp] theorem State.setQueue_clock (s : State) (q : List Entry) : (s.setQueue q).clock = s.clock := rfl
@[simp] theorem State.setQueue_counters (s : State) (q : List Entry) : (s.setQueue q).counters = s.counters := rfl
@[simp] theorem State.setQueue_starts_segment (s : State) (q : List Entry) : (s.setQueue q).starts.segment = s.starts.segment := rfl
@[simp] theorem State.setQueue_starts_mask (s : State) (q : List Entry) : (s.setQueue q).starts.mask = s.starts.mask := rfl
@[simp] theorem State.setQueue_starts_stamps (s : State) (q : List Entry) : (s.setQueue q).starts.stamps = s.starts.stamps := rfl

/-! ### bump -/

@[simp] theorem State.bump_pending (s : State) (c : Counter) : (s.bump c).pending = s.pending := rfl
@[simp] theorem State.bump_inReset (s : State) (c : Counter) : (s.bump c).inReset = s.inReset := rfl
@[simp] theorem State.bump_station (s : State) (c : Counter) : (s.bump c).station = s.station := rfl
@[simp] theorem State.bump_number (s : State) (c : Counter) : (s.bump c).number = s.number := rfl
@[simp] theorem State.bump_tables (s : State) (c : Counter) : (s.bump c).tables = s.tables := rfl
@[simp] theorem State.bump_starts (s : State) (c : Counter) : (s.bump c).starts = s.starts := rfl
@[simp] theorem State.bump_voices (s : State) (c : Counter) : (s.bump c).voices = s.voices := rfl
@[simp] theorem State.bump_beatRef (s : State) (c : Counter) : (s.bump c).beatRef = s.beatRef := rfl
@[simp] theorem State.bump_returns (s : State) (c : Counter) : (s.bump c).returns = s.returns := rfl
@[simp] theorem State.bump_fetch (s : State) (c : Counter) : (s.bump c).fetch = s.fetch := rfl
@[simp] theorem State.bump_preload (s : State) (c : Counter) : (s.bump c).preload = s.preload := rfl
@[simp] theorem State.bump_mixer (s : State) (c : Counter) : (s.bump c).mixer = s.mixer := rfl
@[simp] theorem State.bump_triggers (s : State) (c : Counter) : (s.bump c).triggers = s.triggers := rfl
@[simp] theorem State.bump_line (s : State) (c : Counter) : (s.bump c).line = s.line := rfl
@[simp] theorem State.bump_answers (s : State) (c : Counter) : (s.bump c).answers = s.answers := rfl
@[simp] theorem State.bump_peers (s : State) (c : Counter) : (s.bump c).peers = s.peers := rfl
@[simp] theorem State.bump_groups (s : State) (c : Counter) : (s.bump c).groups = s.groups := rfl
@[simp] theorem State.bump_clock (s : State) (c : Counter) : (s.bump c).clock = s.clock := rfl

/-! ### Reading back -/

@[simp] theorem State.voice_setVoice (s : State) (v : VoiceId) (x : Voice) : (s.setVoice v x).voice v = x := by
  simp [State.voice, State.setVoice]
theorem State.voice_setVoice_ne (s : State) {v u : VoiceId} (x : Voice) (h : u ≠ v) :
    (s.setVoice v x).voice u = s.voice u := by
  simp [State.voice, State.setVoice, upd_get_ne _ _ h]
@[simp] theorem State.mix_setMix (s : State) (v : VoiceId) (x : VoiceMix) : (s.setMix v x).mix v = x := by
  simp [State.mix, State.setMix]
theorem State.mix_setMix_ne (s : State) {v u : VoiceId} (x : VoiceMix) (h : u ≠ v) : (s.setMix v x).mix u = s.mix u := by
  simp [State.mix, State.setMix, upd_get_ne _ _ h]
@[simp] theorem State.view_setView (s : State) (g : GroupId) (w : View) : (s.setView g w).view g = w := by
  simp [State.view, State.setView]
theorem State.view_setView_ne (s : State) {g h : GroupId} (w : View) (e : h ≠ g) : (s.setView g w).view h = s.view h := by
  simp [State.view, State.setView, upd_get_ne _ _ e]
@[simp] theorem State.peer_setPeer (s : State) (x : Station) (p : Peer) : (s.setPeer x p).peer x = p := by
  simp [State.peer, State.setPeer]
theorem State.peer_setPeer_ne (s : State) {x y : Station} (p : Peer) (h : y ≠ x) :
    (s.setPeer x p).peer y = s.peer y := by
  simp [State.peer, State.setPeer, upd_get_ne _ _ h]
@[simp] theorem State.queue_setQueue (s : State) (q : List Entry) : (s.setQueue q).starts.queue = q := rfl
@[simp] theorem State.line_setLine (s : State) (l : Line) : (s.setLine l).line = l := rfl

/-! ### What a record is read from -/

theorem State.voice_eq (s t : State) (h : t.voices = s.voices) (v : VoiceId) : t.voice v = s.voice v := by
  simp [State.voice, h]
theorem State.view_eq (s t : State) (h : t.groups = s.groups) (g : GroupId) : t.view g = s.view g := by
  simp [State.view, h]
theorem State.peer_eq (s t : State) (h : t.peers = s.peers) (x : Station) : t.peer x = s.peer x := by
  simp [State.peer, h]

/-! ### Counters (R145) -/

theorem Counter.idx_inj : ∀ a b : Counter, a.idx = b.idx → a = b := by
  intro a b; cases a <;> cases b <;> simp [Counter.idx]

@[simp] theorem State.counter_bump (s : State) (c : Counter) :
    (s.bump c).counter c = min Config.counterMax (s.counter c + 1) := by
  simp [State.counter, State.bump]

theorem State.counter_bump_ne (s : State) {c d : Counter} (h : d ≠ c) : (s.bump c).counter d = s.counter d := by
  have : d.idx ≠ c.idx := fun e => h (Counter.idx_inj _ _ e)
  simp [State.counter, State.bump, upd_get_ne _ _ this]

theorem State.bumpIf_cases (s : State) (b : Bool) (c : Counter) : s.bumpIf b c = s ∨ s.bumpIf b c = s.bump c := by
  cases b <;> simp [State.bumpIf]

end Sys2Proof.Machine
end

