-- ==== Sys2Proof/Laws/LineQueue.lean ====
section
/-! SUPPORT. What the operations of the transmit queue can do: the fields they can change, and that the queue stays lawful
(R121 to R124). -/

namespace Sys2Proof.Machine

/-! ### The fields an operation can change -/

theorem recheckHoldoff_shape (s : State) :
    recheckHoldoff s = s ∨
      (∃ n k, s.line.activity = .holdoff n k) ∧ recheckHoldoff s = { s with line := { s.line with activity := .none } } := by
  unfold recheckHoldoff
  split
  · split
    · exact .inl rfl
    · exact .inr ⟨⟨_, _, by assumption⟩, rfl⟩
  all_goals exact .inl rfl

/-- Only the view of a CLAIM's or a timeout release's group, the counters, the presence timer and the answer list hear of a
frame that is dropped. -/
theorem frameDropped_shape (b : TxBody) (s : State) :
    frameDropped b s = { s with
      groups := { s.groups with views := (frameDropped b s).groups.views }
      counters := (frameDropped b s).counters
      peers := { s.peers with presenceTimer := (frameDropped b s).peers.presenceTimer }
      answers := (frameDropped b s).answers } := by
  unfold frameDropped
  split
  · dsimp only; split <;> rfl
  · dsimp only; split <;> rfl
  all_goals rfl

theorem frameDropped_groups {b : TxBody} (h : 2 ≤ b.rank) (s : State) : (frameDropped b s).groups = s.groups := by
  cases b <;> simp [TxBody.rank] at h <;> rfl

theorem frameDropped_counter (b : TxBody) (s : State) :
    (frameDropped b s).counters = s.counters ∨ (frameDropped b s).counters = (s.bump .claimLost).counters := by
  unfold frameDropped
  split
  · dsimp only; split
    · exact .inr rfl
    · exact .inl rfl
  · dsimp only; split <;> exact .inl rfl
  all_goals exact .inl rfl

/-- What becomes of an offer (R117, R122, R123). -/
theorem offerWith_cases (b : TxBody) (s : State) :
    (offerWith b s).1 = s
    ∨ (offerWith b s).1 = recheckHoldoff (joinTx b s) ∧ s.line.queue.length < 8 ∧ offerLimit s.line.queue b = none
        ∧ (offerWith b s).2 = .joined
    ∨ (offerWith b s).1 = frameDropped b (s.bump .txDropped) ∧ offerLimit s.line.queue b = none
        ∧ (offerWith b s).2 = .dropped
    ∨ ∃ w ∈ s.line.queue, b.rank < w.body.rank ∧ offerLimit s.line.queue b = none ∧ s.inFlight ≠ some w.ident
        ∧ (offerWith b s).1
          = recheckHoldoff (joinTx b (frameDropped w.body ((leaveTx w.ident s).bump .txDropped)))
        ∧ (offerWith b s).2 = .joined := by
  unfold offerWith
  split
  · exact .inl rfl
  · split
    · exact .inl rfl
    · rename_i hl
      split
      · rename_i hq
        exact .inr (.inl ⟨rfl, hq, hl, rfl⟩)
      · split
        · exact .inr (.inr (.inl ⟨rfl, hl, rfl⟩))
        · rename_i w hw
          have hm := List.mem_of_getLast? hw
          rw [List.mem_filter] at hm
          split
          · rename_i hr
            exact .inr (.inr (.inr ⟨w, hm.1, hr, hl, by simpa using hm.2, rfl, rfl⟩))
          · exact .inr (.inr (.inl ⟨rfl, hl, rfl⟩))

/-- The fields an offer can change. -/
theorem offer_shape (b : TxBody) (s : State) :
    offer b s = { s with
      line := { s.line with
        queue := (offer b s).line.queue, nextIdent := (offer b s).line.nextIdent, activity := (offer b s).line.activity }
      groups := { s.groups with views := (offer b s).groups.views }
      counters := (offer b s).counters
      peers := { s.peers with presenceTimer := (offer b s).peers.presenceTimer }
      answers := (offer b s).answers } := by
  have hr : ∀ t : State, recheckHoldoff t
      = { t with line := { t.line with activity := (recheckHoldoff t).line.activity } } := by
    intro t
    rcases recheckHoldoff_shape t with h | ⟨_, h⟩ <;> rw [h]
  rw [offer]
  rcases offerWith_cases b s with h | ⟨h, -⟩ | ⟨h, -⟩ | ⟨w, -, -, -, -, h, -⟩ <;> rw [h]
  · rw [hr]; rfl
  · rw [frameDropped_shape]; rfl
  · rw [hr, joinTx, frameDropped_shape]; rfl

/-- An offer of a frame of rank 1 or worse, but a timeout release of the group itself, changes no view. -/
theorem offer_groups {b : TxBody} (hb : 2 ≤ b.rank) (s : State) : (offer b s).groups = s.groups := by
  have hr : ∀ t : State, (recheckHoldoff t).groups = t.groups := by
    intro t
    rcases recheckHoldoff_shape t with h | ⟨_, h⟩ <;> rw [h]
  rw [offer]
  rcases offerWith_cases b s with h | ⟨h, -⟩ | ⟨h, -⟩ | ⟨w, -, hw, -, -, h, -⟩ <;> rw [h]
  · rw [hr]; rfl
  · rw [frameDropped_groups hb]; rfl
  · rw [hr]
    show (frameDropped w.body _).groups = _
    rw [frameDropped_groups (by omega)]; rfl

theorem offer_activity (b : TxBody) (s : State) :
    (offer b s).line.activity = s.line.activity
      ∨ (∃ n k, s.line.activity = .holdoff n k) ∧ (offer b s).line.activity = .none := by
  have hr : ∀ t : State, (recheckHoldoff t).line.activity = t.line.activity
      ∨ (∃ n k, t.line.activity = .holdoff n k) ∧ (recheckHoldoff t).line.activity = .none := by
    intro t
    rcases recheckHoldoff_shape t with h | ⟨h', h⟩ <;> rw [h]
    · exact .inl rfl
    · exact .inr ⟨h', rfl⟩
  have hf : ∀ (c : TxBody) (t : State), (frameDropped c t).line = t.line := by
    intro c t; rw [frameDropped_shape]
  rw [offer]
  rcases offerWith_cases b s with h | ⟨h, -⟩ | ⟨h, -⟩ | ⟨w, -, hw, -, -, h, -⟩ <;> rw [h]
  · exact .inl rfl
  · exact hr _
  · rw [hf]; exact .inl rfl
  · have := hr (joinTx b (frameDropped w.body ((leaveTx w.ident s).bump .txDropped)))
    have ha : (joinTx b (frameDropped w.body ((leaveTx w.ident s).bump .txDropped))).line.activity
        = s.line.activity := by
      show (frameDropped _ _).line.activity = _
      rw [hf]; rfl
    rwa [ha] at this

/-! ### The queue stays lawful -/

theorem insertTx_perm (e : TxEntry) (l : List TxEntry) : (insertTx e l).Perm (e :: l) := by
  induction l with
  | nil => exact .refl _
  | cons b l ih =>
    simp only [insertTx]
    split
    · exact (List.Perm.cons b ih).trans (.swap e b l)
    · exact .refl _

/-- A frame joins behind every frame of its rank or a better one (R121). -/
theorem insertTx_split (e : TxEntry) (l : List TxEntry)
    (h : l.Pairwise fun a b => a.body.rank ≤ b.body.rank) :
    ∃ l₁ l₂, l = l₁ ++ l₂ ∧ insertTx e l = l₁ ++ e :: l₂ ∧ (∀ b ∈ l₁, b.body.rank ≤ e.body.rank)
      ∧ ∀ b ∈ l₂, e.body.rank < b.body.rank := by
  induction l with
  | nil => exact ⟨[], [], rfl, rfl, by simp, by simp⟩
  | cons b l ih =>
    rw [List.pairwise_cons] at h
    simp only [insertTx]
    split
    · rename_i hb
      obtain ⟨l₁, l₂, h1, h2, h3, h4⟩ := ih h.2
      exact ⟨b :: l₁, l₂, by rw [h1]; rfl, by rw [h2]; rfl, by simp [hb]; exact h3, h4⟩
    · rename_i hb
      refine ⟨[], b :: l, rfl, rfl, by simp, ?_⟩
      intro c hc
      rcases List.mem_cons.mp hc with rfl | hc
      · omega
      · have := h.1 c hc; omega

theorem insertTx_sorted (e : TxEntry) (l : List TxEntry)
    (h : l.Pairwise fun a b => a.body.rank ≤ b.body.rank) :
    (insertTx e l).Pairwise fun a b => a.body.rank ≤ b.body.rank := by
  obtain ⟨l₁, l₂, h1, h2, h3, h4⟩ := insertTx_split e l h
  rw [h2]
  rw [h1, List.pairwise_append] at h
  rw [List.pairwise_append, List.pairwise_cons]
  refine ⟨h.1, ⟨fun a ha => Nat.le_of_lt (h4 a ha), h.2.1⟩, ?_⟩
  intro a ha b hb
  rcases List.mem_cons.mp hb with rfl | hb
  · exact h3 a ha
  · exact h.2.2 a ha b hb

/-- A queue whose bodies stand among those of a lawful one in the same order is lawful. -/
theorem TxQueueOk.sublist {s t : State} (h : TxQueueOk s)
    (hs : (t.line.queue.map (·.body)).Sublist (s.line.queue.map (·.body))) : TxQueueOk t := by
  obtain ⟨h1, h2, h3, h4, h5⟩ := h
  have hc : ∀ p : TxBody → Bool, t.line.queue.countP (fun e => p e.body) ≤ s.line.queue.countP (fun e => p e.body) := by
    intro p
    have := hs.countP_le (p := p)
    rwa [List.countP_map, List.countP_map] at this
  refine ⟨?_, ?_, (hc (· == .presence)).trans h3, (hc (· == .status)).trans h4, fun g => ⟨(hc _).trans (h5 g).1, (hc _).trans (h5 g).2⟩⟩
  · have := hs.length_le
    simp only [List.length_map] at this
    omega
  · have : (s.line.queue.map (·.body)).Pairwise fun a b => a.rank ≤ b.rank := by
      rw [List.pairwise_map]; exact h2
    have := this.sublist hs
    rwa [List.pairwise_map] at this

theorem TxQueueOk.congr {s t : State} (h : TxQueueOk s) (e : t.line.queue = s.line.queue) : TxQueueOk t :=
  h.sublist (by rw [e])

theorem recheckHoldoff_queue (s : State) : (recheckHoldoff s).line.queue = s.line.queue := by
  rcases recheckHoldoff_shape s with h | ⟨_, h⟩ <;> rw [h]

theorem leaveTx_lawful {s : State} (n : Nat) (h : TxQueueOk s) : TxQueueOk (leaveTx n s) :=
  h.sublist (List.filter_sublist.map _)

theorem removeTx_queue_sublist (p : TxBody → Bool) (s : State) :
    ((removeTx p s).line.queue.map (·.body)).Sublist (s.line.queue.map (·.body)) := by
  unfold removeTx
  rw [recheckHoldoff_queue]
  generalize s.inFlight = m
  generalize s.line.queue = q
  induction q with
  | nil => exact List.Sublist.refl _
  | cons e q ih =>
    simp only [List.filterMap_cons]
    by_cases hp : p e.body
    · simp only [hp, if_true]
      by_cases hm : m = some e.ident
      · simp only [hm, if_true, List.map_cons]
        rw [hm] at ih
        exact ih.cons_cons _
      · simp only [hm, if_false, List.map_cons]
        exact ih.cons _
    · simp only [hp, List.map_cons]
      exact ih.cons_cons _

theorem removeTx_lawful {s : State} (p : TxBody → Bool) (h : TxQueueOk s) : TxQueueOk (removeTx p s) :=
  h.sublist (removeTx_queue_sublist p s)

/-- A frame whose kind's limit is not met joins a lawful queue of less than eight frames (R121, R122). -/
theorem joinTx_lawful {b : TxBody} {s : State} (h : TxQueueOk s) (hl : s.line.queue.length < 8)
    (hb : offerLimit s.line.queue b = none) : TxQueueOk (joinTx b s) := by
  obtain ⟨h1, h2, h3, h4, h5⟩ := h
  have hp := insertTx_perm ⟨s.line.nextIdent, b, s.now, 0, false⟩ s.line.queue
  have hc : ∀ p : TxBody → Bool, (joinTx b s).line.queue.countP (fun e => p e.body)
      = s.line.queue.countP (fun e => p e.body) + if p b then 1 else 0 := by
    intro p
    show (insertTx _ _).countP _ = _
    rw [hp.countP_eq, List.countP_cons]
  have hz : ∀ p : TxBody → Bool, (s.line.queue.any fun e => p e.body) = false →
      s.line.queue.countP (fun e => p e.body) = 0 := by
    intro p hp
    rw [List.countP_eq_zero]
    intro a ha
    have := List.any_eq_false.mp hp a ha
    exact this
  refine ⟨?_, insertTx_sorted _ _ h2, ?_, ?_, fun g => ⟨?_, ?_⟩⟩
  · show (insertTx _ _).length ≤ 8
    rw [hp.length_eq]; simp; omega
  · have hc' := hc (· == .presence)
    rw [hc']
    split
    · rename_i he
      obtain rfl : b = .presence := by simpa using he
      have hl' : s.line.queue.any (fun e => e.body == .presence) = false := by
        by_contra hh
        simp only [Bool.not_eq_false] at hh
        simp [offerLimit, hh] at hb
      have hz' := hz (· == .presence) hl'
      omega
    · omega
  · have hc' := hc (· == .status)
    rw [hc']
    split
    · rename_i he
      obtain rfl : b = .status := by simpa using he
      have hl' : s.line.queue.any (fun e => e.body == .status) = false := by
        by_contra hh
        simp only [Bool.not_eq_false] at hh
        simp [offerLimit, hh] at hb
      have hz' := hz (· == .status) hl'
      omega
    · omega
  · have hc' := hc (TxBody.holds g)
    rw [hc']
    have := (h5 g).1
    split
    · rename_i he
      cases b <;> simp [TxBody.holds] at he
      subst he
      rename_i g n k
      have hl' : s.line.queue.any (fun e => e.body.holds g) = false := by
        by_contra hh
        simp only [Bool.not_eq_false] at hh
        simp [offerLimit, hh] at hb
      have hz' := hz (TxBody.holds g) hl'
      omega
    · omega
  · have hc' := hc (TxBody.releases g)
    rw [hc']
    have := (h5 g).2
    split
    · rename_i he
      cases b <;> simp [TxBody.releases] at he
      subst he
      rename_i g n k v
      have hl' : s.line.queue.any (fun e => e.body.releases g) = false := by
        by_contra hh
        simp only [Bool.not_eq_false] at hh
        simp [offerLimit, hh] at hb
      have hz' := hz (TxBody.releases g) hl'
      omega
    · omega

/-- A limit that a queue does not meet is not met by one with fewer frames. -/
theorem offerLimit_sublist {q q' : List TxEntry} (b : TxBody) (h : q'.Sublist q) (hb : offerLimit q b = none) :
    offerLimit q' b = none := by
  have hm : ∀ p : TxEntry → Bool, q.any p = false → q'.any p = false := by
    intro p hp
    rw [List.any_eq_false] at hp ⊢
    exact fun x hx => hp x (h.subset hx)
  cases b <;> simp only [offerLimit] at hb ⊢
  all_goals
    split at hb
    · cases hb
    · rename_i hh
      simp only [Bool.not_eq_true] at hh
      rw [hm _ hh]
      rfl

/-- An offer keeps a lawful queue lawful (R121 to R123). -/
theorem offer_lawful (b : TxBody) {s : State} (h : TxQueueOk s) : TxQueueOk (offer b s) := by
  have hf : ∀ (c : TxBody) (t : State), (frameDropped c t).line = t.line := by
    intro c t; rw [frameDropped_shape]
  rw [offer]
  rcases offerWith_cases b s with e | ⟨e, hl, hb, -⟩ | ⟨e, -⟩ | ⟨w, hm, hw, hb, -, e, -⟩ <;> rw [e]
  · exact h
  · exact (joinTx_lawful h hl hb).congr (recheckHoldoff_queue _)
  · refine h.congr ?_
    rw [hf]; rfl
  · refine TxQueueOk.congr (s := joinTx b _) ?_ (recheckHoldoff_queue _)
    have hq : (frameDropped w.body ((leaveTx w.ident s).bump .txDropped)).line = (leaveTx w.ident s).line := by
      rw [hf]; rfl
    refine joinTx_lawful ((leaveTx_lawful w.ident h).congr (by rw [hq])) ?_ ?_
    · rw [hq]
      show (s.line.queue.filter _).length < 8
      have h1 : (s.line.queue.filter fun x => x.ident != w.ident).length < s.line.queue.length :=
        List.length_filter_lt_length_iff_exists.mpr ⟨w, hm, by simp⟩
      have := h.1
      omega
    · rw [hq]
      exact offerLimit_sublist b List.filter_sublist hb

end Sys2Proof.Machine
end

