-- ==== Sys2Proof/Laws/Sounds.lean ====
section
/-! SUPPORT. What the Voice Engine, the Fetch Engine and the Start Controller leave as it is, whatever they do: one relation
between the state before and after, which holds of every operation of theirs and passes through any number of them. -/

namespace Sys2Proof.Machine

/-- An own activity is as before, or a holdoff has been abandoned. -/
def Calmer (a b : Activity) : Prop := b = a ∨ (∃ n k, a = .holdoff n k) ∧ b = .none

/-- What every operation of the voices, the port and the starts keeps. It can change the pending-start queue and the start
stamps, the voices, the beat reference, the returns, the request set and the burst, the own key set and the levels of the
voices, the transmit queue by a PRESENCE, the counters upward, the presence timer and the answer list. -/
structure Sounds (s t : State) : Prop where
  pending : t.pending = s.pending
  inReset : t.inReset = s.inReset
  station : t.station = s.station
  number : t.number = s.number
  tables : t.tables = s.tables
  preload : t.preload = s.preload
  triggers : t.triggers = s.triggers
  groups : t.groups = s.groups
  clock : t.clock = s.clock
  segment : t.starts.segment = s.starts.segment
  mask : t.starts.mask = s.starts.mask
  pass : t.fetch.pass = s.fetch.pass
  work : t.fetch.work = s.fetch.work
  nextCue : t.fetch.nextCue = s.fetch.nextCue
  alloc : t.fetch.alloc = s.fetch.alloc
  peerKeys : t.mixer.peerKeys = s.mixer.peerKeys
  duck : t.mixer.duck = s.mixer.duck
  target : t.mixer.target = s.mixer.target
  phase : t.mixer.phase = s.mixer.phase
  progOut : t.mixer.progOut = s.mixer.progOut
  foldOut : t.mixer.foldOut = s.mixer.foldOut
  linePhase : t.line.phase = s.line.phase
  shift : t.line.shift = s.line.shift
  rx : t.line.rx = s.line.rx
  slot : t.line.slot = s.line.slot
  slotAge : t.line.slotAge = s.line.slotAge
  rest : t.line.rest = s.line.rest
  driveLeft : t.line.driveLeft = s.line.driveLeft
  activity : Calmer s.line.activity t.line.activity
  peers : t.peers.table = s.peers.table
  listenTimer : t.peers.listenTimer = s.peers.listenTimer
  duplicate : t.peers.duplicate = s.peers.duplicate
  counters : CountersOk s → CountersOk t ∧ ∀ c, s.counter c ≤ t.counter c
  lawful : TxQueueOk s → TxQueueOk t

theorem Calmer.refl (a : Activity) : Calmer a a := .inl rfl

theorem Calmer.trans {a b c : Activity} (h : Calmer a b) (k : Calmer b c) : Calmer a c := by
  rcases h with rfl | ⟨h, rfl⟩
  · exact k
  · rcases k with rfl | ⟨⟨_, _, k⟩, _⟩
    · exact .inr ⟨h, rfl⟩
    · cases k

theorem Sounds.refl (s : State) : Sounds s s := by
  constructor <;> first | rfl | exact .refl _ | exact fun h => ⟨h, fun _ => Nat.le_refl _⟩ | exact fun h => h

theorem Sounds.trans {s t u : State} (h : Sounds s t) (k : Sounds t u) : Sounds s u := by
  constructor
  case counters =>
    intro hs
    obtain ⟨h1, h2⟩ := h.counters hs
    obtain ⟨k1, k2⟩ := k.counters h1
    exact ⟨k1, fun c => (h2 c).trans (k2 c)⟩
  case lawful => exact fun hs => k.lawful (h.lawful hs)
  case activity => exact h.activity.trans k.activity
  all_goals first
    | exact k.pending.trans h.pending | exact k.inReset.trans h.inReset | exact k.station.trans h.station
    | exact k.number.trans h.number | exact k.tables.trans h.tables | exact k.preload.trans h.preload
    | exact k.triggers.trans h.triggers | exact k.groups.trans h.groups | exact k.clock.trans h.clock
    | exact k.segment.trans h.segment | exact k.mask.trans h.mask | exact k.pass.trans h.pass
    | exact k.work.trans h.work | exact k.nextCue.trans h.nextCue | exact k.alloc.trans h.alloc
    | exact k.peerKeys.trans h.peerKeys | exact k.duck.trans h.duck | exact k.target.trans h.target
    | exact k.phase.trans h.phase | exact k.progOut.trans h.progOut | exact k.foldOut.trans h.foldOut
    | exact k.linePhase.trans h.linePhase | exact k.shift.trans h.shift | exact k.rx.trans h.rx
    | exact k.slot.trans h.slot | exact k.slotAge.trans h.slotAge | exact k.rest.trans h.rest
    | exact k.driveLeft.trans h.driveLeft | exact k.peers.trans h.peers
    | exact k.listenTimer.trans h.listenTimer | exact k.duplicate.trans h.duplicate

theorem Sounds.foldl {α : Type} {f : State → α → State} (h : ∀ s a, Sounds s (f s a)) (l : List α) (s : State) :
    Sounds s (l.foldl f s) := by
  induction l generalizing s with
  | nil => exact .refl s
  | cons a l ih => exact (h s a).trans (ih _)

/-! ### Updates of one record -/

theorem CountersOk.bump {s : State} (h : CountersOk s) (c : Counter) : CountersOk (s.bump c) := by
  intro i
  rw [show (s.bump c).counters = upd s.counters c.idx (min Config.counterMax (s.counter c + 1)) from rfl, upd_get]
  split
  · exact Nat.min_le_left _ _
  · exact h i

theorem CountersOk.bump_le {s : State} (h : CountersOk s) (c d : Counter) : s.counter d ≤ (s.bump c).counter d := by
  by_cases e : d = c
  · subst e
    have : s.counter d ≤ 65535 := h d.idx
    simp [Config.counterMax]; omega
  · rw [State.counter_bump_ne _ e]

theorem Sounds.bump (s : State) (c : Counter) : Sounds s (s.bump c) := by
  constructor <;> first | rfl | exact .refl _ | exact fun h => ⟨h.bump c, h.bump_le c⟩ | exact fun h => h

theorem Sounds.bumpIf (s : State) (b : Bool) (c : Counter) : Sounds s (s.bumpIf b c) := by
  rcases State.bumpIf_cases s b c with h | h <;> rw [h]
  · exact .refl s
  · exact .bump s c

/-- A change of nothing but what the voices, the port and the queue of starts hold. -/
theorem Sounds.update (s : State) (queue : List Entry) (stamps : Vector Time 8) (voices : Vector Voice 8)
    (beatRef : Option VoiceId) (returns : List Return) (requests : Vector (Option Micros) 8) (burst : Option Burst)
    (localKeys : KeySet) (mix : Vector VoiceMix 8) (given : Vector (Option Sample) 8) :
    Sounds s { s with
      starts := { s.starts with queue := queue, stamps := stamps }, voices := voices, beatRef := beatRef, returns := returns
      fetch := { s.fetch with requests := requests, burst := burst }
      mixer := { s.mixer with localKeys := localKeys, mix := mix, given := given } } := by
  constructor <;> first | rfl | exact .refl _ | exact fun h => ⟨h, fun _ => Nat.le_refl _⟩ | exact fun h => h

theorem Sounds.setVoice (s : State) (v : VoiceId) (x : Voice) : Sounds s (s.setVoice v x) :=
  Sounds.update s s.starts.queue s.starts.stamps _ s.beatRef s.returns s.fetch.requests s.fetch.burst
    s.mixer.localKeys s.mixer.mix s.mixer.given
theorem Sounds.setMix (s : State) (v : VoiceId) (x : VoiceMix) : Sounds s (s.setMix v x) :=
  Sounds.update s s.starts.queue s.starts.stamps s.voices s.beatRef s.returns s.fetch.requests s.fetch.burst
    s.mixer.localKeys _ s.mixer.given
theorem Sounds.setGiven (s : State) (v : VoiceId) (x : Option Sample) : Sounds s (s.setGiven v x) :=
  Sounds.update s s.starts.queue s.starts.stamps s.voices s.beatRef s.returns s.fetch.requests s.fetch.burst
    s.mixer.localKeys s.mixer.mix _
theorem Sounds.setRequest (s : State) (v : VoiceId) (t : Option Micros) : Sounds s (s.setRequest v t) :=
  Sounds.update s s.starts.queue s.starts.stamps s.voices s.beatRef s.returns _ s.fetch.burst
    s.mixer.localKeys s.mixer.mix s.mixer.given
theorem Sounds.setQueue (s : State) (q : List Entry) : Sounds s (s.setQueue q) :=
  Sounds.update s q s.starts.stamps s.voices s.beatRef s.returns s.fetch.requests s.fetch.burst
    s.mixer.localKeys s.mixer.mix s.mixer.given
theorem Sounds.setStamps (s : State) (x : Vector Time 8) :
    Sounds s { s with starts := { s.starts with stamps := x } } :=
  Sounds.update s s.starts.queue x s.voices s.beatRef s.returns s.fetch.requests s.fetch.burst
    s.mixer.localKeys s.mixer.mix s.mixer.given
theorem Sounds.setBeatRef (s : State) (r : Option VoiceId) : Sounds s { s with beatRef := r } :=
  Sounds.update s s.starts.queue s.starts.stamps s.voices r s.returns s.fetch.requests s.fetch.burst
    s.mixer.localKeys s.mixer.mix s.mixer.given
theorem Sounds.setReturns (s : State) (r : List Return) : Sounds s { s with returns := r } :=
  Sounds.update s s.starts.queue s.starts.stamps s.voices s.beatRef r s.fetch.requests s.fetch.burst
    s.mixer.localKeys s.mixer.mix s.mixer.given
theorem Sounds.setBurst (s : State) (b : Option Burst) : Sounds s { s with fetch := { s.fetch with burst := b } } :=
  Sounds.update s s.starts.queue s.starts.stamps s.voices s.beatRef s.returns s.fetch.requests b
    s.mixer.localKeys s.mixer.mix s.mixer.given
theorem Sounds.setLocalKeys (s : State) (k : KeySet) :
    Sounds s { s with mixer := { s.mixer with localKeys := k } } :=
  Sounds.update s s.starts.queue s.starts.stamps s.voices s.beatRef s.returns s.fetch.requests s.fetch.burst
    k s.mixer.mix s.mixer.given

/-! ### The key set and its PRESENCE -/

theorem offer_counters (b : TxBody) (s : State) (h : CountersOk s) :
    CountersOk (offer b s) ∧ ∀ c, s.counter c ≤ (offer b s).counter c := by
  have step : ∀ (b : TxBody) (t : State), CountersOk t → (∀ c, s.counter c ≤ t.counter c) →
      CountersOk (frameDropped b t) ∧ ∀ c, s.counter c ≤ (frameDropped b t).counter c := by
    intro b t ht hc
    rcases frameDropped_counter b t with e | e
    · simp only [CountersOk, State.counter, e]; exact ⟨ht, hc⟩
    · simp only [CountersOk, State.counter, e]
      exact ⟨ht.bump _, fun c => (hc c).trans (ht.bump_le _ c)⟩
  have hr : ∀ t : State, (recheckHoldoff t).counters = t.counters := by
    intro t
    rcases recheckHoldoff_shape t with h | ⟨_, h⟩ <;> rw [h]
  rw [offer]
  rcases offerWith_cases b s with e | ⟨e, -⟩ | ⟨e, -⟩ | ⟨w, -, -, -, -, e, -⟩ <;> rw [e]
  · exact ⟨h, fun _ => Nat.le_refl _⟩
  · simp only [CountersOk, State.counter, hr]
    exact ⟨h, fun _ => Nat.le_refl _⟩
  · exact step b _ (h.bump _) (h.bump_le _)
  · simp only [CountersOk, State.counter, hr]
    exact step w.body ((leaveTx w.ident s).bump .txDropped) (CountersOk.bump (s := leaveTx w.ident s) h _)
      (CountersOk.bump_le (s := leaveTx w.ident s) h _)

theorem Sounds.offerPresence (s : State) : Sounds s (offerPresence s) := by
  unfold Machine.offerPresence
  split
  · constructor
    case groups => exact offer_groups (by simp [TxBody.rank]) s
    case activity => exact offer_activity _ s
    case counters => exact offer_counters _ s
    case lawful => exact offer_lawful _
    all_goals rw [offer_shape]
  · exact .refl s

theorem Sounds.handLocalKeys (s : State) : Sounds s (handLocalKeys s) := by
  unfold Machine.handLocalKeys
  dsimp only
  split
  · exact .refl s
  · exact (Sounds.setLocalKeys s _).trans (.offerPresence _)

/-! ### Voices -/

theorem Sounds.enterPlaying (v : VoiceId) (s : State) : Sounds s (enterPlaying v s) := by
  unfold Machine.enterPlaying
  dsimp only
  split
  · exact .refl s
  · rename_i q hq
    split
    · exact (((Sounds.setVoice s v _).trans (Sounds.setMix _ v _)).trans (Sounds.setBeatRef _ _)).trans
        (.handLocalKeys _)
    · exact ((Sounds.setVoice s v _).trans (Sounds.setMix _ v _)).trans (.handLocalKeys _)

theorem Sounds.returnIdle (v : VoiceId) (natural : Bool) (s : State) : Sounds s (returnIdle v natural s) := by
  unfold Machine.returnIdle
  dsimp only
  refine Sounds.trans ?_ (Sounds.setReturns _ _)
  refine Sounds.trans ?_ (Sounds.handLocalKeys _)
  have h := (((Sounds.setVoice s v (idleVoice (s.voice v))).trans (Sounds.setRequest _ v none)).trans
    (Sounds.setMix _ v .silent)).trans (Sounds.setGiven _ v none)
  split
  · exact h.trans (Sounds.setBeatRef _ _)
  · exact h

theorem Sounds.beginFadeOut (v : VoiceId) (T : Nat) (s : State) : Sounds s (beginFadeOut v T s) :=
  Sounds.setVoice s v _

theorem Sounds.cutVoice (s : State) (v : VoiceId) : Sounds s (cutVoice s v) := by
  unfold Machine.cutVoice
  split
  · exact .refl s
  · exact .returnIdle v false s
  all_goals exact .beginFadeOut v _ s

theorem Sounds.fadeVoice (s : State) (v : VoiceId) : Sounds s (fadeVoice s v) := by
  unfold Machine.fadeVoice
  split
  · exact .refl s
  · exact .refl s
  · exact .returnIdle v false s
  · exact .beginFadeOut v _ s

theorem Sounds.tailVoice (s : State) (v : VoiceId) : Sounds s (tailVoice s v) := by
  unfold Machine.tailVoice
  split
  · exact .setVoice s v _
  · exact .refl s

theorem Sounds.stopVoice (m : StopMode) (s : State) (v : VoiceId) : Sounds s (stopVoice m s v) := by
  cases m
  · exact .cutVoice s v
  · exact .fadeVoice s v
  · exact .tailVoice s v

theorem Sounds.endFetch (v : VoiceId) (s : State) : Sounds s (endFetch v s) :=
  (Sounds.setVoice s v _).trans (Sounds.setRequest _ v none)

theorem Sounds.storeFault (v : VoiceId) (s : State) : Sounds s (storeFault v s) :=
  ((Sounds.bump s .storeFault).trans (Sounds.endFetch v _)).trans (Sounds.cutVoice _ v)

theorem Sounds.enterDescriptor (v : VoiceId) (s : State) : Sounds s (enterDescriptor v s) := by
  unfold Machine.enterDescriptor
  dsimp only
  split
  · exact .setVoice s v _
  · exact .storeFault v s

theorem Sounds.nextDescriptor (v : VoiceId) (g : Segment) (s : State) : Sounds s (nextDescriptor v g s) := by
  unfold Machine.nextDescriptor
  split
  · exact (Sounds.setVoice s v _).trans (.enterDescriptor v _)
  · exact .endFetch v s

theorem Sounds.walkOn (v : VoiceId) (g : Segment) (s : State) : Sounds s (walkOn v g s) := by
  unfold Machine.walkOn
  dsimp only
  split
  · split
    · exact (Sounds.setVoice s v _).trans (.nextDescriptor v g _)
    · exact .setVoice s v _
  · split
    · exact .setVoice s v _
    · exact .nextDescriptor v g s

theorem Sounds.advancePtr (v : VoiceId) (n : Nat) (s : State) : Sounds s (advancePtr v n s) := by
  unfold Machine.advancePtr
  dsimp only
  split
  · exact .endFetch v s
  · split
    · exact (Sounds.setVoice s v _).trans (.walkOn v _ _)
    · exact .setVoice s v _

theorem Sounds.debtWalk (v : VoiceId) (rounds d : Nat) (s : State) : Sounds s (debtWalk v rounds d s) := by
  induction rounds generalizing d s with
  | zero => exact .refl s
  | succ rounds ih =>
    unfold Machine.debtWalk
    dsimp only
    split
    · exact .refl s
    · split
      · exact .endFetch v s
      · split
        · exact .advancePtr v d s
        · exact (Sounds.advancePtr v _ s).trans (ih _ _)

/-! ### The store port -/

theorem Sounds.issueVoice (v : VoiceId) (s : State) : Sounds s (issueVoice v s) := by
  unfold Machine.issueVoice
  dsimp only
  split
  · exact ((Sounds.setVoice s v _).trans (Sounds.setRequest _ v none)).trans (Sounds.setBurst _ _)
  · exact .endFetch v s

theorem Sounds.settleDebt (v : VoiceId) (s : State) : Sounds s (settleDebt v s) :=
  (Sounds.debtWalk v _ _ s).trans (Sounds.setVoice _ v _)

theorem Sounds.issuePreload (h : HeadWork) (s : State) : Sounds s (issuePreload h s) := .setBurst s _

theorem Sounds.grant (rounds : Nat) (s : State) : Sounds s (grant rounds s) := by
  induction rounds generalizing s with
  | zero => exact .refl s
  | succ rounds ih =>
    unfold Machine.grant
    split
    · dsimp only
      split
      · exact ((Sounds.settleDebt _ s).trans (Sounds.setRequest _ _ none)).trans (ih _)
      · exact (Sounds.settleDebt _ s).trans (.issueVoice _ _)
    · split
      · exact .issuePreload _ s
      · exact .refl s

theorem Sounds.grantIfIdle (s : State) : Sounds s (grantIfIdle s) := by
  unfold Machine.grantIfIdle
  split
  · exact .grant 9 s
  · exact .refl s

theorem Sounds.refreshRequest (v : VoiceId) (s : State) : Sounds s (refreshRequest v s) := by
  unfold Machine.refreshRequest
  split
  · split
    · exact .refl s
    · exact (Sounds.setRequest s v _).trans (.grantIfIdle _)
  · exact .setRequest s v none

theorem Sounds.startHeadLoaded (v : VoiceId) (q : Cue) (h : HeadLoc) (s : State) : Sounds s (startHeadLoaded v q h s) := by
  unfold Machine.startHeadLoaded
  dsimp only
  have h := ((Sounds.setVoice s v { s.voice v with
    headPlace := h.place, headLen := h.length, fetchPtr := ⟨q.first, h.length, 0⟩ }).trans
    (Sounds.enterPlaying v _)).trans (Sounds.enterDescriptor v _)
  split
  · split
    · exact h.trans (.walkOn v _ _)
    · exact h
  · exact h

theorem Sounds.startStreaming (v : VoiceId) (s : State) : Sounds s (startStreaming v s) :=
  (Sounds.setVoice s v _).trans (Sounds.enterDescriptor v _)

theorem Sounds.startVoice (v : VoiceId) (c : LocalCue) (offset : Int) (s : State) :
    Sounds s (startVoice v c offset s) := by
  unfold Machine.startVoice
  split
  · exact .refl s
  · dsimp only
    refine Sounds.trans ?_ (Sounds.refreshRequest v _)
    split
    · exact ((Sounds.setStamps s _).trans (Sounds.setVoice _ v _)).trans (.startHeadLoaded v _ _ _)
    · exact ((Sounds.setStamps s _).trans (Sounds.setVoice _ v _)).trans (.startStreaming v _)

theorem Sounds.applyBurst (v : VoiceId) (n : Nat) (data : List Sample) (s : State) : Sounds s (applyBurst v n data s) := by
  unfold Machine.applyBurst
  dsimp only
  have h := (Sounds.setVoice s v { s.voice v with
    inFlight := 0, debt := (s.voice v).debt - min (s.voice v).debt n,
    fifo := (s.voice v).fifo ++ (burstSamples (s.voice v).fetchPtr (data.take n)).drop (min (s.voice v).debt n) }).trans
    (Sounds.advancePtr v n _)
  split
  · exact h.trans (.enterPlaying v _)
  · exact h

theorem Sounds.freePort (s : State) : Sounds s (freePort s) := .setBurst s none

theorem Sounds.completeBurst (v : VoiceId) (tag : Byte) (n : Nat) (data : List Sample) (s : State) :
    Sounds s (completeBurst v tag n data s) := by
  unfold Machine.completeBurst
  split
  · exact (((Sounds.applyBurst v n data s).trans (.freePort _)).trans (.refreshRequest v _)).trans (.grantIfIdle _)
  · exact (Sounds.freePort s).trans (.grantIfIdle _)

theorem Sounds.missSample (v : VoiceId) (s : State) : Sounds s (missSample v s) :=
  ((Sounds.setVoice s v _).trans (Sounds.setGiven _ v _)).trans (Sounds.bumpIf _ _ _)

theorem Sounds.takeSample (v : VoiceId) (s : State) : Sounds s (takeSample v s) := by
  unfold Machine.takeSample
  dsimp only
  split
  · exact (Sounds.setVoice s v _).trans (Sounds.setGiven _ v _)
  · exact ((Sounds.setVoice s v _).trans (Sounds.setGiven _ v _)).trans (.refreshRequest v _)
  · exact .missSample v s
  · split
    · exact .returnIdle v true s
    · exact .setGiven s v _

/-! ### The Start Controller -/

theorem Sounds.withoutEntry (c : LocalCue) (s : State) : Sounds s (withoutEntry c s) := .setQueue s _
theorem Sounds.changeEntry (c : LocalCue) (f : Entry → Entry) (s : State) : Sounds s (changeEntry c f s) := .setQueue s _

theorem Sounds.joinQueue {e : Entry} {s t : State} (h : joinQueue e s = some t) : Sounds s t := by
  unfold Machine.joinQueue at h
  split at h
  · cases h; exact .setQueue s _
  · split at h
    · cases h
    · dsimp only at h
      split at h
      · cases h
        exact ((Sounds.withoutEntry _ s).trans (Sounds.bump _ _)).trans (Sounds.setQueue _ _)
      · cases h

theorem Sounds.startEntry (e : Entry) (v : VoiceId) (s : State) : Sounds s (startEntry e v s) :=
  (Sounds.withoutEntry e.cue s).trans (Sounds.startVoice v _ _ _)

theorem Sounds.choke (c : LocalCue) (q : Cue) (s : State) : Sounds s (choke c q s) := by
  unfold Machine.choke
  split
  · exact .refl s
  · exact .foldl Sounds.fadeVoice _ s

theorem Sounds.joinOrLose (e : Entry) (s : State) : Sounds s (joinOrLose e s) := by
  unfold Machine.joinOrLose
  split
  · rename_i h; exact .joinQueue h
  · exact .bump s _

theorem Sounds.stealFor (e : Entry) (v : VoiceId) (s : State) : Sounds s (stealFor e v s) := by
  unfold Machine.stealFor
  split
  · rename_i h; exact (Sounds.joinQueue h).trans (.cutVoice _ v)
  · exact .bump s _

theorem Sounds.allocateRequest (r : Request) (q : Cue) (s : State) : Sounds s (allocateRequest r q s) := by
  unfold Machine.allocateRequest
  dsimp only
  split
  · exact .startVoice _ _ _ s
  · exact .stealFor _ _ s
  · exact .joinOrLose _ s
  · exact .bump s _

theorem Sounds.chokeAndPlace (r : Request) (q : Cue) (s : State) : Sounds s (chokeAndPlace r q s) := by
  unfold Machine.chokeAndPlace
  dsimp only
  split
  · exact (Sounds.choke _ q s).trans (.joinOrLose _ _)
  · exact (Sounds.choke _ q s).trans (.allocateRequest r q _)

theorem Sounds.restartRequest (r : Request) (q : Cue) (s : State) : Sounds s (restartRequest r q s) := by
  unfold Machine.restartRequest
  split
  · exact .refl s
  · split
    · exact .bump s _
    · rename_i h
      have h := ((Sounds.joinQueue h).trans (Sounds.foldl Sounds.cutVoice (liveVoices s r.cue) _)).trans
        (Sounds.choke r.cue q _)
      dsimp only
      split
      · exact h.trans (.changeEntry _ _ _)
      · exact h

theorem Sounds.admitRequest (r : Request) (s : State) : Sounds s (admitRequest r s) := by
  unfold Machine.admitRequest
  split
  · exact .refl s
  · split
    · exact .bump s _
    · split
      · exact .bump s _
      · split
        · exact .bump s _
        · split
          · split
            · exact .chokeAndPlace r _ s
            · exact .bump s _
            · exact .restartRequest r _ s
          · exact .chokeAndPlace r _ s

theorem Sounds.serve (rounds : Nat) (s : State) : Sounds s (serve rounds s) := by
  induction rounds generalizing s with
  | zero => exact .refl s
  | succ rounds ih =>
    unfold Machine.serve
    split
    · exact (Sounds.startEntry _ _ s).trans (ih _)
    · exact .refl s

theorem Sounds.becomeVoice (c : LocalCue) (v : Option VoiceId) (s : State) : Sounds s (becomeVoice c v s) :=
  .changeEntry c _ s

theorem Sounds.releaseEntry (s : State) (c : LocalCue) : Sounds s (releaseEntry s c) := by
  unfold Machine.releaseEntry
  split
  · exact .refl s
  · split
    · split
      · exact .startEntry _ _ s
      · exact .becomeVoice c _ s
    · split
      · exact .startEntry _ _ s
      · exact (Sounds.becomeVoice c _ s).trans (.cutVoice _ _)
      · exact .becomeVoice c _ s
      · exact (Sounds.withoutEntry c s).trans (.bump _ _)

theorem Sounds.releaseBeats (s : State) : Sounds s (releaseBeats s) := .foldl Sounds.releaseEntry _ s

theorem Sounds.startReserved (v : VoiceId) (s : State) : Sounds s (startReserved v s) := by
  unfold Machine.startReserved
  split
  · split
    · exact .startEntry _ v s
    · exact .refl s
  · exact .refl s

theorem Sounds.takeReturn (r : Return) (s : State) : Sounds s (takeReturn r s) := by
  unfold Machine.takeReturn
  dsimp only
  refine Sounds.trans ?_ (Sounds.serve 17 _)
  have h : Sounds s (Machine.startReserved r.voice
      (match r.followOn with | some c => Machine.admitRequest ⟨c, 0, false⟩ s | none => s)) := by
    split
    · exact (Sounds.admitRequest _ s).trans (.startReserved _ _)
    · exact .startReserved _ s
  split
  · exact h.trans (.releaseBeats _)
  · exact h

theorem Sounds.settle (rounds : Nat) (s : State) : Sounds s (settle rounds s) := by
  induction rounds generalizing s with
  | zero => exact .refl s
  | succ rounds ih =>
    unfold Machine.settle
    split
    · exact ((Sounds.setReturns s _).trans (.takeReturn _ _)).trans (ih _)
    · dsimp only
      split
      · exact .serve 17 s
      · exact (Sounds.serve 17 s).trans (ih _)

theorem Sounds.finish (s : State) : Sounds s (finish s) := .settle _ s

theorem Sounds.settleReturns (s : State) : Sounds s (settleReturns s) := by
  unfold Machine.settleReturns
  split
  · exact .refl s
  · exact .finish s

theorem Sounds.startRequest (r : Request) (s : State) : Sounds s (startRequest r s) :=
  (Sounds.admitRequest r s).trans (.finish _)

theorem Sounds.groupCue (c : Option LocalCue) (s : State) : Sounds s (groupCue c s) := by
  unfold Machine.groupCue
  split
  · exact .startRequest _ s
  · exact .refl s

theorem Sounds.stop (sel : StopSel LocalCue) (m : StopMode) (s : State) : Sounds s (stop sel m s) :=
  ((Sounds.setQueue s _).trans (Sounds.foldl (Sounds.stopVoice m) _ _)).trans (.finish _)

theorem Sounds.segmentStop (s : State) : Sounds s (segmentStop s) :=
  (Sounds.setQueue s _).trans (Sounds.foldl Sounds.fadeVoice _ _)

theorem Sounds.takeFire (b0 b1 b2 b3 : Byte) (s : State) : Sounds s (takeFire b0 b1 b2 b3 s) := by
  unfold Machine.takeFire
  split
  · exact .startRequest _ s
  · exact .refl s

theorem Sounds.takeStop (b0 b1 b2 b3 : Byte) (s : State) : Sounds s (takeStop b0 b1 b2 b3 s) := by
  unfold Machine.takeStop
  split
  · exact .stop _ _ s
  · exact .refl s

theorem Sounds.expireEntry (c : LocalCue) (s : State) : Sounds s (expireEntry c s) :=
  ((Sounds.withoutEntry c s).trans (.bump _ _)).trans (.finish _)

end Sys2Proof.Machine
end

