-- ==== Sys2Proof/Laws/Returns.lean ====
section
/-! SUPPORT. Every return to IDLE of a handling is taken, and none is dropped: a measure of what a handling can still bring about
falls at every round of settling, and the rounds that a state is given are more than its measure (R54). -/

namespace Sys2Proof.Machine

/-! ### The measure -/

/-- The voices out of IDLE. -/
def activeVoices (s : State) : Finset VoiceId := Finset.univ.filter fun v => (s.voice v).active = true

/-- What a handling can still bring about: each return is taken, each that has a follow-on can add an entry or a start, each
voice out of IDLE can return, and each entry can start a voice. -/
def pot (s : State) : Nat :=
  s.returns.length + 2 * s.returns.countP (·.followOn.isSome) + (activeVoices s).card + 2 * s.starts.queue.length

theorem pot_setRequest (s : State) (v : VoiceId) (t : Option Micros) : pot (s.setRequest v t) = pot s := rfl
theorem pot_bump (s : State) (c : Counter) : pot (s.bump c) = pot s := rfl
theorem pot_setMix (s : State) (v : VoiceId) (x : VoiceMix) : pot (s.setMix v x) = pot s := rfl

theorem pot_setQueue (s : State) (q : List Entry) :
    pot (s.setQueue q) + 2 * s.starts.queue.length = pot s + 2 * q.length := by
  show s.returns.length + 2 * s.returns.countP (·.followOn.isSome) + (activeVoices s).card + 2 * q.length
    + 2 * s.starts.queue.length = _
  simp only [pot]; omega

theorem voice_setVoice (s : State) (v u : VoiceId) (x : Voice) :
    (s.setVoice v x).voice u = if u = v then x else s.voice u := upd_get _ _ _ _

theorem activeVoices_setVoice_card (s : State) (v : VoiceId) (x : Voice) :
    (activeVoices (s.setVoice v x)).card ≤ (activeVoices s).card + 1 := by
  refine (Finset.card_le_card (t := insert v (activeVoices s)) ?_).trans (Finset.card_insert_le _ _)
  intro u hu
  simp only [activeVoices, Finset.mem_filter, Finset.mem_univ, true_and, voice_setVoice, Finset.mem_insert] at hu ⊢
  by_cases h : u = v
  · exact .inl h
  · rw [if_neg h] at hu; exact .inr hu

theorem pot_setVoice_succ (s : State) (v : VoiceId) (x : Voice) : pot (s.setVoice v x) ≤ pot s + 1 := by
  have h := activeVoices_setVoice_card s v x
  show s.returns.length + 2 * s.returns.countP (·.followOn.isSome) + (activeVoices (s.setVoice v x)).card
    + 2 * s.starts.queue.length ≤ _
  simp only [pot]; omega

theorem pot_setVoice (s : State) (v : VoiceId) (x : Voice) (h : x.active = true → (s.voice v).active = true) :
    pot (s.setVoice v x) ≤ pot s := by
  have h : (activeVoices (s.setVoice v x)).card ≤ (activeVoices s).card := by
    refine Finset.card_le_card ?_
    intro u hu
    simp only [activeVoices, Finset.mem_filter, Finset.mem_univ, true_and, voice_setVoice] at hu ⊢
    by_cases e : u = v
    · subst e; rw [if_pos rfl] at hu; exact h hu
    · rw [if_neg e] at hu; exact hu
  show s.returns.length + 2 * s.returns.countP (·.followOn.isSome) + (activeVoices (s.setVoice v x)).card
    + 2 * s.starts.queue.length ≤ _
  simp only [pot]; omega

theorem pot_setIdle (s : State) (v : VoiceId) (x : Voice) (h : x.active = false) (hv : (s.voice v).active = true) :
    pot (s.setVoice v x) + 1 ≤ pot s := by
  have h : (activeVoices (s.setVoice v x)).card < (activeVoices s).card := by
    refine Finset.card_lt_card ⟨?_, fun k => ?_⟩
    · intro u hu
      simp only [activeVoices, Finset.mem_filter, Finset.mem_univ, true_and, voice_setVoice] at hu ⊢
      by_cases e : u = v
      · subst e; exact hv
      · rw [if_neg e] at hu; exact hu
    · have hm : v ∈ activeVoices s := by simp [activeVoices, hv]
      have := k hm
      simp [activeVoices, voice_setVoice, h] at this
  show s.returns.length + 2 * s.returns.countP (·.followOn.isSome) + (activeVoices (s.setVoice v x)).card
    + 2 * s.starts.queue.length + 1 ≤ _
  simp only [pot]; omega

/-! ### Operations that cannot raise the measure -/

theorem pot_handLocalKeys (s : State) : pot (handLocalKeys s) = pot s := by
  unfold handLocalKeys
  dsimp only
  split
  · rfl
  · unfold offerPresence
    split
    · rw [offer_shape]; rfl
    · rfl

theorem pot_foldl {α : Type} {f : State → α → State} (h : ∀ s a, pot (f s a) ≤ pot s) (l : List α) (s : State) :
    pot (l.foldl f s) ≤ pot s := by
  induction l generalizing s with
  | nil => exact Nat.le_refl _
  | cons a l ih => exact (ih _).trans (h s a)

theorem pot_returnIdle (v : VoiceId) (s : State) (h : (s.voice v).active = true) :
    pot (returnIdle v false s) ≤ pot s := by
  unfold returnIdle
  dsimp only
  have key : ∀ t : State, pot t + 1 ≤ pot s →
      pot { handLocalKeys t with
        returns := (handLocalKeys t).returns ++ [⟨v, s.beatRef == some v, none⟩] } ≤ pot s := by
    intro t ht
    rw [← pot_handLocalKeys] at ht
    generalize handLocalKeys t = u at ht ⊢
    refine Nat.le_trans (Nat.le_of_eq ?_) ht
    show (u.returns ++ [_]).length + 2 * (u.returns ++ [_]).countP _ + (activeVoices u).card
      + 2 * u.starts.queue.length = _
    simp [pot]; omega
  have hi := pot_setIdle s v (idleVoice (s.voice v)) rfl h
  have k (t : State) (e : pot t = pot (s.setVoice v (idleVoice (s.voice v)))) := key t (e ▸ hi)
  split
  · exact k { (((s.setVoice v (idleVoice (s.voice v))).setRequest v none).setMix v .silent).setGiven v none with
      beatRef := _ } rfl
  · exact k ((((s.setVoice v (idleVoice (s.voice v))).setRequest v none).setMix v .silent).setGiven v none) rfl

theorem pot_cutVoice (s : State) (v : VoiceId) : pot (cutVoice s v) ≤ pot s := by
  unfold cutVoice
  split
  · exact Nat.le_refl _
  · rename_i h; exact pot_returnIdle v s (by simp [Voice.active, h])
  all_goals
    rename_i h
    exact pot_setVoice s v _ fun _ => by simp [Voice.active, h]

theorem pot_fadeVoice (s : State) (v : VoiceId) : pot (fadeVoice s v) ≤ pot s := by
  unfold fadeVoice
  split
  · exact Nat.le_refl _
  · exact Nat.le_refl _
  · rename_i h; exact pot_returnIdle v s (by simp [Voice.active, h])
  · rename_i h; exact pot_setVoice s v _ fun _ => by simp [Voice.active, h]

theorem pot_endFetch (v : VoiceId) (s : State) : pot (endFetch v s) ≤ pot s :=
  (pot_setRequest _ v none).trans_le (pot_setVoice s v _ fun h => h)

theorem pot_storeFault (v : VoiceId) (s : State) : pot (storeFault v s) ≤ pot s :=
  (pot_cutVoice _ v).trans ((pot_endFetch v _).trans (pot_bump s _).le)

theorem pot_enterDescriptor (v : VoiceId) (s : State) : pot (enterDescriptor v s) ≤ pot s := by
  unfold enterDescriptor
  dsimp only
  split
  · exact pot_setVoice s v _ fun h => h
  · exact pot_storeFault v s

theorem pot_nextDescriptor (v : VoiceId) (g : Segment) (s : State) : pot (nextDescriptor v g s) ≤ pot s := by
  unfold nextDescriptor
  split
  · exact (pot_enterDescriptor v _).trans (pot_setVoice s v _ fun h => h)
  · exact pot_endFetch v s

theorem pot_walkOn (v : VoiceId) (g : Segment) (s : State) : pot (walkOn v g s) ≤ pot s := by
  unfold walkOn
  dsimp only
  split
  · split
    · exact (pot_nextDescriptor v g _).trans (pot_setVoice s v _ fun h => h)
    · exact pot_setVoice s v _ fun h => h
  · split
    · exact pot_setVoice s v _ fun h => h
    · exact pot_nextDescriptor v g s

theorem pot_advancePtr (v : VoiceId) (n : Nat) (s : State) : pot (advancePtr v n s) ≤ pot s := by
  unfold advancePtr
  dsimp only
  split
  · exact pot_endFetch v s
  · split
    · exact (pot_walkOn v _ _).trans (pot_setVoice s v _ fun h => h)
    · exact pot_setVoice s v _ fun h => h

theorem pot_debtWalk (v : VoiceId) (rounds d : Nat) (s : State) : pot (debtWalk v rounds d s) ≤ pot s := by
  induction rounds generalizing d s with
  | zero => exact Nat.le_refl _
  | succ rounds ih =>
    unfold debtWalk
    dsimp only
    split
    · exact Nat.le_refl _
    · split
      · exact pot_endFetch v s
      · split
        · exact pot_advancePtr v d s
        · exact (ih _ _).trans (pot_advancePtr v _ s)

theorem pot_settleDebt (v : VoiceId) (s : State) : pot (settleDebt v s) ≤ pot s :=
  (pot_setVoice (debtWalk v (s.voice v).debt (s.voice v).debt s) v
    { (debtWalk v (s.voice v).debt (s.voice v).debt s).voice v with debt := 0 } fun h => h).trans (pot_debtWalk v _ _ s)

theorem pot_issueVoice (v : VoiceId) (s : State) : pot (issueVoice v s) ≤ pot s := by
  unfold issueVoice
  dsimp only
  split
  · exact pot_setVoice s v _ fun h => h
  · exact pot_endFetch v s

theorem pot_grant (rounds : Nat) (s : State) : pot (grant rounds s) ≤ pot s := by
  induction rounds generalizing s with
  | zero => exact Nat.le_refl _
  | succ rounds ih =>
    unfold grant
    split
    · dsimp only
      split
      · exact (ih _).trans (pot_settleDebt _ s)
      · exact (pot_issueVoice _ _).trans (pot_settleDebt _ s)
    · split <;> exact Nat.le_refl _

theorem pot_refreshRequest (v : VoiceId) (s : State) : pot (refreshRequest v s) ≤ pot s := by
  unfold refreshRequest
  split
  · split
    · exact Nat.le_refl _
    · unfold grantIfIdle
      split
      · exact pot_grant 9 _
      · exact Nat.le_refl _
  · exact Nat.le_refl _

/-! ### Starts and the queue -/

theorem pot_enterPlaying (v : VoiceId) (s : State) : pot (enterPlaying v s) ≤ pot s + 1 := by
  unfold enterPlaying
  dsimp only
  split
  · omega
  · split
    · rw [pot_handLocalKeys]; exact pot_setVoice_succ s v _
    · rw [pot_handLocalKeys]; exact pot_setVoice_succ s v _

theorem pot_startVoice (v : VoiceId) (c : LocalCue) (o : Int) (s : State) : pot (startVoice v c o s) ≤ pot s + 1 := by
  unfold startVoice
  split
  · omega
  · rename_i q _
    dsimp only
    refine (pot_refreshRequest v _).trans ?_
    generalize ht : (({ s with starts := { s.starts with stamps := upd s.starts.stamps v s.now } } : State).setVoice v
      (startedVoice ((({ s with starts := { s.starts with stamps := upd s.starts.stamps v s.now } } : State)).voice v)
        c q o)) = t
    have h0 : pot t ≤ pot s := by rw [← ht]; exact pot_setVoice { s with
      starts := { s.starts with stamps := upd s.starts.stamps v s.now } } v _ fun h => h
    have h1 : pot t + 1 ≤ pot s + 1 := by omega
    split
    · rename_i h _
      unfold startHeadLoaded
      dsimp only
      have h2 : ∀ x : Voice, (x.active = true → (t.voice v).active = true) →
          pot (enterDescriptor v (enterPlaying v (t.setVoice v x))) ≤ pot s + 1 := fun x hx =>
        (pot_enterDescriptor v _).trans ((pot_enterPlaying v _).trans
          ((Nat.add_le_add_right (pot_setVoice t v x hx) 1).trans h1))
      split
      · split
        · exact (pot_walkOn v _ _).trans (h2 _ fun h => h)
        · exact h2 _ fun h => h
      · exact h2 _ fun h => h
    · exact (pot_enterDescriptor v _).trans ((pot_setVoice_succ t v _).trans h1)

theorem pot_withoutEntry {e : Entry} {s : State} (h : e ∈ s.starts.queue) : pot (withoutEntry e.cue s) + 2 ≤ pot s := by
  have hl : (s.starts.queue.filter fun a => a.cue != e.cue).length < s.starts.queue.length :=
    List.length_filter_lt_length_iff_exists.2 ⟨e, h, by simp⟩
  have := pot_setQueue s (s.starts.queue.filter fun a => a.cue != e.cue)
  unfold withoutEntry
  omega

theorem pot_startEntry {e : Entry} {s : State} (v : VoiceId) (h : e ∈ s.starts.queue) :
    pot (startEntry e v s) + 1 ≤ pot s := by
  have h1 := pot_startVoice v e.cue e.offset (withoutEntry e.cue s)
  have h2 := pot_withoutEntry h
  unfold startEntry
  omega

theorem pot_changeEntry (c : LocalCue) (f : Entry → Entry) (s : State) : pot (changeEntry c f s) = pot s := by
  have := pot_setQueue s (s.starts.queue.map fun e => if e.cue = c then f e else e)
  unfold changeEntry
  rw [List.length_map] at this
  omega

theorem pick_mem {α : Type} {better : α → α → Bool} {l : List α} {a : α} (h : pick better l = some a) : a ∈ l := by
  induction l generalizing a with
  | nil => simp [pick] at h
  | cons b l ih =>
    unfold pick at h
    split at h
    · cases h; exact List.mem_cons_self
    · split at h
      · cases h; rename_i e _; exact List.mem_cons_of_mem _ (ih e)
      · cases h; exact List.mem_cons_self

theorem pot_joinQueue {e : Entry} {s t : State} (h : joinQueue e s = some t) : pot t ≤ pot s + 2 := by
  unfold joinQueue at h
  split at h
  · cases h
    have := pot_setQueue s (s.starts.queue ++ [e])
    simp at this
    omega
  · split at h
    · cases h
    · rename_i w hw
      dsimp only at h
      split at h
      · cases h
        have h1 := pot_withoutEntry (pick_mem hw)
        have h2 := pot_setQueue ((withoutEntry w.cue s).bump .startLost)
          (((withoutEntry w.cue s).bump .startLost).starts.queue ++ [e])
        simp only [List.length_append, List.length_singleton, pot_bump] at h2
        omega
      · cases h

theorem pot_joinOrLose (e : Entry) (s : State) : pot (joinOrLose e s) ≤ pot s + 2 := by
  unfold joinOrLose
  split
  · rename_i h; exact pot_joinQueue h
  · rw [pot_bump]; omega

theorem pot_choke (c : LocalCue) (q : Cue) (s : State) : pot (choke c q s) ≤ pot s := by
  unfold choke
  split
  · exact Nat.le_refl _
  · exact pot_foldl pot_fadeVoice _ s

theorem pot_chokeAndPlace (r : Request) (q : Cue) (s : State) : pot (chokeAndPlace r q s) ≤ pot s + 2 := by
  have hc := pot_choke r.cue q s
  unfold chokeAndPlace
  dsimp only
  generalize choke r.cue q s = t at hc ⊢
  split
  · exact (pot_joinOrLose _ t).trans (by omega)
  · unfold allocateRequest
    dsimp only
    split
    · exact (pot_startVoice _ _ _ t).trans (by omega)
    · unfold stealFor
      split
      · rename_i h
        have := pot_joinQueue h
        exact (pot_cutVoice _ _).trans (by omega)
      · rw [pot_bump]; omega
    · exact (pot_joinOrLose _ t).trans (by omega)
    · rw [pot_bump]; omega

theorem pot_admitRequest (r : Request) (s : State) : pot (admitRequest r s) ≤ pot s + 2 := by
  unfold admitRequest
  split
  · omega
  · split
    · rw [pot_bump]; omega
    · rename_i q _
      have hc := pot_chokeAndPlace r q s
      split
      · rw [pot_bump]; omega
      · split
        · rw [pot_bump]; omega
        · split
          · split
            · exact hc
            · rw [pot_bump]; omega
            · unfold restartRequest
              split
              · omega
              · split
                · rw [pot_bump]; omega
                · rename_i s' h
                  have h1 := pot_joinQueue h
                  have h2 := pot_foldl pot_cutVoice (liveVoices s r.cue) s'
                  have h3 := pot_choke r.cue q ((liveVoices s r.cue).foldl cutVoice s')
                  dsimp only
                  split
                  · rw [pot_changeEntry]; omega
                  · omega
          · exact hc

/-! ### Serving, releases and returns -/

theorem serve_cases (rounds : Nat) (s : State) : serve rounds s = s ∨ pot (serve rounds s) + 1 ≤ pot s := by
  induction rounds generalizing s with
  | zero => exact .inl rfl
  | succ rounds ih =>
    unfold serve
    split
    · rename_i v e _ h
      have hs := pot_startEntry v (List.mem_of_mem_filter (pick_mem h))
      rcases ih (startEntry e v s) with k | k
      · rw [k]; exact .inr hs
      · exact .inr (by omega)
    · exact .inl rfl

theorem pot_serve (rounds : Nat) (s : State) : pot (serve rounds s) ≤ pot s := by
  rcases serve_cases rounds s with h | h
  · rw [h]
  · omega

theorem pot_releaseEntry (s : State) (c : LocalCue) : pot (releaseEntry s c) ≤ pot s := by
  unfold releaseEntry
  split
  · exact Nat.le_refl _
  · rename_i e he
    have hm := List.mem_of_find?_eq_some he
    have hs : ∀ v, pot (startEntry e v s) ≤ pot s := fun v => by have := pot_startEntry v hm; omega
    have hb : ∀ v, pot (becomeVoice c v s) ≤ pot s := fun v => (pot_changeEntry _ _ s).le
    split
    · split
      · exact hs _
      · exact hb _
    · split
      · exact hs _
      · exact (pot_cutVoice _ _).trans (hb _)
      · exact hb _
      · rw [pot_bump]
        have h := List.find?_some he
        simp only [Bool.and_eq_true, beq_iff_eq] at h
        have := pot_withoutEntry hm
        rw [h.1] at this
        omega

theorem pot_startReserved (v : VoiceId) (s : State) : pot (startReserved v s) ≤ pot s := by
  unfold startReserved
  split
  · rename_i e he
    split
    · have := pot_startEntry (s := s) v (List.mem_of_find?_eq_some he); omega
    · exact Nat.le_refl _
  · exact Nat.le_refl _

theorem pot_takeReturn {r : Return} {rest : List Return} {s : State} (h : s.returns = r :: rest) :
    pot (takeReturn r { s with returns := rest }) + 1 ≤ pot s := by
  unfold takeReturn
  dsimp only
  have hp : pot { s with returns := rest } + 1 + 2 * (if r.followOn.isSome then 1 else 0) = pot s := by
    show rest.length + 2 * rest.countP _ + (activeVoices s).card + 2 * s.starts.queue.length + 1 + _ = _
    simp only [pot, h, List.length_cons, List.countP_cons]
    split <;> omega
  generalize ({ s with returns := rest } : State) = t at hp ⊢
  have hf : pot (match r.followOn with | some c => admitRequest ⟨c, 0, false⟩ t | none => t) + 1 ≤ pot s := by
    split
    · rename_i c hc
      have := pot_admitRequest ⟨c, 0, false⟩ t
      rw [hc] at hp
      simp at hp
      omega
    · rename_i hc
      rw [hc] at hp
      simp at hp
      omega
  have key : ∀ u : State, pot u + 1 ≤ pot s → pot (serve 17 (if r.wasRef then releaseBeats (startReserved r.voice u)
      else startReserved r.voice u)) + 1 ≤ pot s := ?_
  · exact key _ hf
  intro u hf
  have h1 := pot_startReserved r.voice u
  have h2 : pot (if r.wasRef then releaseBeats (startReserved r.voice u) else startReserved r.voice u)
      ≤ pot (startReserved r.voice u) := by
    split
    · exact pot_foldl pot_releaseEntry _ _
    · exact Nat.le_refl _
  have h3 := pot_serve 17 (if r.wasRef then releaseBeats (startReserved r.voice u) else startReserved r.voice u)
  omega

/-- With more rounds than the measure, settling takes every return, and further rounds find none. -/
theorem settle_enough {n : Nat} {s : State} (h : pot s < n) :
    (settle n s).returns = [] ∧ ∀ k, settle (n + k) s = settle n s := by
  induction n generalizing s with
  | zero => omega
  | succ n ih =>
    simp only [Nat.succ_add]
    cases hr : s.returns with
    | cons r rest =>
      have := pot_takeReturn hr
      have h := ih (s := takeReturn r { s with returns := rest }) (by omega)
      simpa only [settle, hr] using h
    | nil =>
      simp only [settle, hr]
      cases hs : (serve 17 s).returns with
      | nil => exact ⟨hs, fun _ => rfl⟩
      | cons a l =>
        rcases serve_cases 17 s with e | e
        · rw [e, hr] at hs; cases hs
        · exact ih (by omega)

theorem pot_lt_settleRounds (s : State) : pot s < settleRounds s := by
  have h1 : (activeVoices s).card ≤ 8 := (Finset.card_le_univ _).trans (by simp)
  have h2 : s.returns.countP (·.followOn.isSome) ≤ s.returns.length := List.countP_le_length
  simp only [pot, settleRounds]
  omega

theorem finish_returns (s : State) : (finish s).returns = [] := (settle_enough (pot_lt_settleRounds s)).1

theorem settleReturns_returns (s : State) : (settleReturns s).returns = [] := by
  unfold settleReturns
  split
  · rename_i h; simpa using h
  · exact finish_returns s

end Sys2Proof.Machine
end

