-- ==== Sys2Proof/Laws/Handled.lean ====
section
/-! SUPPORT. What the Group Controller, the Peer Monitor and the Trigger Unit leave as it is: one relation between the state
before and after a handling, which holds of every operation of theirs. -/

namespace Sys2Proof.Machine

/-- What every handling of a group, a peer or a trigger action keeps. Beside what `Sounds` lets change, it can change the show,
the views, the segment and the mask, the peer table and the peers' key set; it leaves no return to take. -/
structure Handled (s t : State) : Prop where
  pending : t.pending = s.pending
  inReset : t.inReset = s.inReset
  station : t.station = s.station
  number : t.number = s.number
  tables : t.tables = s.tables
  preload : t.preload = s.preload
  triggers : t.triggers = s.triggers
  clock : t.clock = s.clock
  pass : t.fetch.pass = s.fetch.pass
  work : t.fetch.work = s.fetch.work
  nextCue : t.fetch.nextCue = s.fetch.nextCue
  alloc : t.fetch.alloc = s.fetch.alloc
  duck : t.mixer.duck = s.mixer.duck
  target : t.mixer.target = s.mixer.target
  phase : t.mixer.phase = s.mixer.phase
  progOut : t.mixer.progOut = s.mixer.progOut
  foldOut : t.mixer.foldOut = s.mixer.foldOut
  linePhase : t.line.phase = s.line.phase
  shift : t.line.shift = s.line.shift
  rx : t.line.rx = s.line.rx
  slot : t.line.slot = s.line.slot
  slotAge : t.line.slotAge = s.line.slotAge
  rest : t.line.rest = s.line.rest
  driveLeft : t.line.driveLeft = s.line.driveLeft
  activity : Calmer s.line.activity t.line.activity
  listenTimer : t.peers.listenTimer = s.peers.listenTimer
  duplicate : t.peers.duplicate = s.peers.duplicate
  counters : CountersOk s → CountersOk t ∧ ∀ c, s.counter c ≤ t.counter c
  lawful : TxQueueOk s → TxQueueOk t
  settled : Settled s → Settled t

theorem Handled.refl (s : State) : Handled s s := by
  constructor <;> first | rfl | exact .refl _ | exact fun h => ⟨h, fun _ => Nat.le_refl _⟩ | exact fun h => h

theorem Handled.trans {s t u : State} (h : Handled s t) (k : Handled t u) : Handled s u := by
  constructor
  case counters =>
    intro hs
    obtain ⟨h1, h2⟩ := h.counters hs
    obtain ⟨k1, k2⟩ := k.counters h1
    exact ⟨k1, fun c => (h2 c).trans (k2 c)⟩
  case lawful => exact fun hs => k.lawful (h.lawful hs)
  case settled => exact fun hs => k.settled (h.settled hs)
  case activity => exact h.activity.trans k.activity
  all_goals first
    | exact k.pending.trans h.pending | exact k.inReset.trans h.inReset | exact k.station.trans h.station
    | exact k.number.trans h.number | exact k.tables.trans h.tables | exact k.preload.trans h.preload
    | exact k.triggers.trans h.triggers | exact k.clock.trans h.clock | exact k.pass.trans h.pass
    | exact k.work.trans h.work | exact k.nextCue.trans h.nextCue | exact k.alloc.trans h.alloc
    | exact k.duck.trans h.duck | exact k.target.trans h.target
    | exact k.phase.trans h.phase | exact k.progOut.trans h.progOut | exact k.foldOut.trans h.foldOut
    | exact k.linePhase.trans h.linePhase | exact k.shift.trans h.shift | exact k.rx.trans h.rx
    | exact k.slot.trans h.slot | exact k.slotAge.trans h.slotAge | exact k.rest.trans h.rest
    | exact k.driveLeft.trans h.driveLeft
    | exact k.listenTimer.trans h.listenTimer | exact k.duplicate.trans h.duplicate

theorem Handled.foldl {α : Type} {f : State → α → State} (h : ∀ s a, Handled s (f s a)) (l : List α) (s : State) :
    Handled s (l.foldl f s) := by
  induction l generalizing s with
  | nil => exact .refl s
  | cons a l ih => exact (h s a).trans (ih _)

/-- What the voices and the starts do is handled when it leaves no return to take. -/
theorem Sounds.handled {s t : State} (h : Sounds s t) (hs : Settled s → Settled t) : Handled s t := by
  constructor
  case settled => exact hs
  case counters => exact h.counters
  case lawful => exact h.lawful
  case activity => exact h.activity
  all_goals first
    | exact h.pending | exact h.inReset | exact h.station | exact h.number | exact h.tables | exact h.preload
    | exact h.triggers | exact h.clock | exact h.pass | exact h.work | exact h.nextCue | exact h.alloc | exact h.duck
    | exact h.target | exact h.phase | exact h.progOut | exact h.foldOut | exact h.linePhase | exact h.shift | exact h.rx
    | exact h.slot | exact h.slotAge | exact h.rest | exact h.driveLeft | exact h.listenTimer | exact h.duplicate

/-! ### Updates of one record -/

/-- A change of nothing but the groups, the peers and the answers. -/
theorem Handled.update (s : State) (groups : Groups) (table : Vector Peer 32) (timer : Option Time)
    (answers : Option Answers) (peerKeys : KeySet) :
    Handled s { s with
      groups := groups, answers := answers, peers := { s.peers with table := table, presenceTimer := timer }
      mixer := { s.mixer with peerKeys := peerKeys } } := by
  constructor <;> first | rfl | exact .refl _ | exact fun h => ⟨h, fun _ => Nat.le_refl _⟩ | exact fun h => h

theorem Handled.setGroups (s : State) (x : Groups) : Handled s { s with groups := x } :=
  Handled.update s x s.peers.table s.peers.presenceTimer s.answers s.mixer.peerKeys
theorem Handled.setView (s : State) (g : GroupId) (w : View) : Handled s (s.setView g w) := .setGroups s _
theorem Handled.setPeer (s : State) (x : Station) (p : Peer) : Handled s (s.setPeer x p) :=
  Handled.update s s.groups _ s.peers.presenceTimer s.answers s.mixer.peerKeys
theorem Handled.setAnswers (s : State) (a : Option Answers) : Handled s { s with answers := a } :=
  Handled.update s s.groups s.peers.table s.peers.presenceTimer a s.mixer.peerKeys
theorem Handled.startPresenceTimer (s : State) : Handled s (startPresenceTimer s) :=
  Handled.update s s.groups s.peers.table _ s.answers s.mixer.peerKeys

theorem Handled.bump (s : State) (c : Counter) : Handled s (s.bump c) := (Sounds.bump s c).handled id
theorem Handled.bumpIf (s : State) (b : Bool) (c : Counter) : Handled s (s.bumpIf b c) := by
  rcases State.bumpIf_cases s b c with h | h <;> rw [h]
  · exact .refl s
  · exact .bump s c

theorem Handled.offer (b : TxBody) (s : State) : Handled s (offer b s) := by
  constructor
  case activity => exact offer_activity b s
  case counters => exact offer_counters b s
  case lawful => exact offer_lawful b
  case settled => intro h; rw [offer_shape]; exact h
  all_goals rw [offer_shape]

theorem Handled.recheck (s : State) (q : List TxEntry)
    (hl : TxQueueOk s → TxQueueOk (recheckHoldoff { s with line := { s.line with queue := q } })) :
    Handled s (recheckHoldoff { s with line := { s.line with queue := q } }) := by
  rcases recheckHoldoff_shape { s with line := { s.line with queue := q } } with h | ⟨hh, h⟩ <;> rw [h] at hl ⊢
  · constructor <;>
      first | rfl | exact hl | exact .inl rfl | exact fun h => ⟨h, fun _ => Nat.le_refl _⟩ | exact fun h => h
  · constructor <;>
      first | rfl | exact hl | exact .inr ⟨hh, rfl⟩ | exact fun h => ⟨h, fun _ => Nat.le_refl _⟩ | exact fun h => h

theorem Handled.removeTx (p : TxBody → Bool) (s : State) : Handled s (removeTx p s) :=
  Handled.recheck s _ (removeTx_lawful p)

theorem offerPresence_returns (s : State) : (offerPresence s).returns = s.returns := by
  unfold Machine.offerPresence
  split
  · rw [offer_shape]
  · rfl

theorem Handled.offerPresence (s : State) : Handled s (offerPresence s) :=
  (Sounds.offerPresence s).handled fun h => by
    unfold Settled; rw [offerPresence_returns]; exact h

theorem Handled.finish (s : State) : Handled s (finish s) := (Sounds.finish s).handled fun _ => finish_returns s
theorem Handled.startRequest (r : Request) (s : State) : Handled s (startRequest r s) :=
  (Sounds.startRequest r s).handled fun _ => finish_returns _
theorem Handled.stop (sel : StopSel LocalCue) (m : StopMode) (s : State) : Handled s (stop sel m s) :=
  (Sounds.stop sel m s).handled fun _ => finish_returns _
theorem Handled.groupCue (c : Option LocalCue) (s : State) : Handled s (groupCue c s) := by
  unfold Machine.groupCue
  split
  · exact .startRequest _ s
  · exact .refl s
theorem Handled.cutWonCue (g : GroupId) (s : State) : Handled s (cutWonCue g s) := by
  unfold Machine.cutWonCue
  split
  · exact .stop _ _ s
  · exact .refl s
theorem Handled.takeFire (b0 b1 b2 b3 : Byte) (s : State) : Handled s (takeFire b0 b1 b2 b3 s) := by
  unfold Machine.takeFire
  split
  · exact .startRequest _ s
  · exact .refl s
theorem Handled.takeStop (b0 b1 b2 b3 : Byte) (s : State) : Handled s (takeStop b0 b1 b2 b3 s) := by
  unfold Machine.takeStop
  split
  · exact .stop _ _ s
  · exact .refl s

/-- Beyond the fields of the voices and the starts, a handling may replace the segment and the mask. -/
theorem Handled.setStarts (s : State) (x : Starts) : Handled s { s with starts := x } := by
  constructor <;> first | rfl | exact .refl _ | exact fun h => ⟨h, fun _ => Nat.le_refl _⟩ | exact fun h => h

/-- A run of the voices' operations that ends with the returns taken. -/
theorem Sounds.finished {s t : State} (h : Sounds s t) : Handled s (Machine.finish t) :=
  (h.trans (Sounds.finish t)).handled fun _ => finish_returns t

theorem Handled.takeSegment (b0 b1 b2 : Byte) (s : State) : Handled s (takeSegment b0 b1 b2 s) := by
  unfold Machine.takeSegment
  dsimp only
  refine (Handled.setStarts s { s.starts with segment := b0, mask := b1 }).trans ?_
  split
  · exact (Sounds.segmentStop _).finished
  · exact .finish _

/-! ### Groups -/

theorem Handled.tidy (g : GroupId) (old : View) (own : Bool) (s : State) : Handled s (tidy g old own s) := by
  unfold Machine.tidy
  dsimp only
  have h := ((Handled.removeTx (staleFrame g old (s.view g)) s).trans
    (Handled.bumpIf _ (old.state == .claiming && (s.view g).state != .claiming && !own) .claimLost)).trans
    (Handled.setView _ g (tidyView old (s.view g)))
  split
  · exact h.trans (.offerPresence _)
  · exact h

theorem Handled.changeView (g : GroupId) (w : View) (s : State) : Handled s (changeView g w s) :=
  (Handled.setView s g w).trans (.tidy g _ _ _)

theorem Handled.implicitRelease (g : GroupId) (e : Byte) (x : Option StationSet) (s : State) :
    Handled s (implicitRelease g e x s) := .changeView g _ s

theorem Handled.showRestart (n : Byte) (s : State) : Handled s (showRestart n s) := by
  unfold Machine.showRestart
  dsimp only
  have h := (((Handled.setGroups s ⟨n, Vector.replicate 16 .reset⟩).trans (Handled.removeTx TxBody.ofGroups _)).trans
    (Handled.setStarts _ { (Machine.removeTx TxBody.ofGroups { s with groups := ⟨n, Vector.replicate 16 .reset⟩ }).starts
      with queue := [], segment := 0, mask := 0xFF })).trans (Sounds.foldl Sounds.cutVoice voiceIds _).finished
  split
  · exact h.trans (.offerPresence _)
  · exact h

theorem Handled.groupFrame {rule : GroupId → State → State} (hr : ∀ g s, Handled s (rule g s))
    (n group epoch : Byte) (s : State) : Handled s (groupFrame n group epoch rule s) := by
  unfold Machine.groupFrame
  have h : ∀ t, showTest n s = some t → Handled s t := by
    intro t ht
    unfold showTest at ht
    split at ht
    · cases ht
    · split at ht
      · cases ht; exact .showRestart n s
      · cases ht; exact .refl s
  split
  · exact .bump s _
  · rename_i t ht
    refine (h t ht).trans ?_
    split
    · dsimp only
      split
      · exact .bump t _
      · split
        · exact (Handled.implicitRelease _ epoch none t).trans (hr _ _)
        · exact hr _ t
    · exact .refl t

theorem Handled.localClaim (g : GroupId) (s : State) : Handled s (localClaim g s) := by
  unfold Machine.localClaim
  dsimp only
  split
  · exact .bump s _
  · split
    · exact .bump s _
    · exact .refl s
    · exact .refl s
    · exact (Handled.setView s g _).trans (.offer _ _)

theorem Handled.ownClaim (g : GroupId) (s : State) : Handled s (ownClaim g s) := by
  unfold Machine.ownClaim
  dsimp only
  split
  · exact ((Handled.setView s g _).trans (.groupCue _ _)).trans (.tidy g _ _ _)
  · exact .refl s

theorem Handled.offerHold (g : GroupId) (s : State) : Handled s (offerHold g s) := .offer _ s

theorem Handled.claimRule (x : Station) (g : GroupId) (s : State) : Handled s (claimRule x g s) := by
  unfold Machine.claimRule
  dsimp only
  split
  · exact .refl s
  · split
    · exact .changeView g _ s
    · exact .changeView g _ s
    · exact .offerHold g s
    · exact .refl s

theorem Handled.yieldTo (x : Station) (age : Nat) (g : GroupId) (s : State) : Handled s (yieldTo x age g s) :=
  (((Handled.setView s g _).trans (.cutWonCue g _)).trans (.bump _ _)).trans (.tidy g _ _ _)

theorem Handled.holdRule (x : Station) (age : Nat) (g : GroupId) (s : State) : Handled s (holdRule x age g s) := by
  unfold Machine.holdRule
  dsimp only
  split
  · exact .refl s
  · split
    · exact .changeView g _ s
    · exact .changeView g _ s
    · split
      · split
        · exact .refl s
        · split
          · exact (Handled.changeView g _ s).trans (.bump _ _)
          · exact .refl s
      · exact .refl s
    · split
      · exact .yieldTo x age g s
      · exact .offerHold g s

theorem Handled.releaseRule (v : Verdict) (g : GroupId) (s : State) : Handled s (releaseRule v g s) := .changeView g _ s

theorem Handled.offerTimeout (g : GroupId) (s : State) : Handled s (offerTimeout g s) := by
  unfold Machine.offerTimeout
  dsimp only
  have h := (Handled.setView s g { s.view g with timeoutQueued := true }).trans
    (Handled.offer (.release g (s.setView g { s.view g with timeoutQueued := true }).groups.showNo
      ((s.setView g { s.view g with timeoutQueued := true }).view g).epoch .timeout) _)
  split
  · exact h.trans (.setView _ g _)
  · exact h

theorem Handled.answerExpiry (g : GroupId) (s : State) : Handled s (answerExpiry g s) :=
  ((Handled.setView s g _).trans (.groupCue _ _)).trans (.offerTimeout g _)

theorem Handled.reofferTimeout (s : State) (g : GroupId) : Handled s (reofferTimeout s g) := by
  unfold Machine.reofferTimeout
  split
  · exact .offerTimeout g s
  · exact .refl s

theorem Handled.enforce (g : GroupId) (s : State) : Handled s (enforce g s) := by
  unfold Machine.enforce
  dsimp only
  split
  · split
    · exact .changeView g _ s
    · exact .refl s
  · split
    · exact ((Handled.setView s g _).trans (.cutWonCue g _)).trans (.tidy g _ _ _)
    · exact .refl s
  · split
    · exact .changeView g _ s
    · exact .refl s
  · exact .refl s

theorem Handled.heldFields (x : Station) (g : GroupId) (entry : Option Nat) (s : State) :
    Handled s (heldFields x g entry s) := by
  unfold Machine.heldFields
  split
  · exact .holdRule x _ g s
  · dsimp only
    split
    · exact .changeView g _ s
    · exact .refl s

theorem Handled.groupField (x : Station) (p : Presence) (s : State) (g : GroupId) : Handled s (groupField x p s g) := by
  unfold Machine.groupField
  dsimp only
  split
  · exact .refl s
  · split
    · have h := (Handled.implicitRelease g (p.epochs.get g) (some (readSet (p.excl.get g))) s).trans (.enforce g _)
      split
      · exact h.trans (.heldFields x g _ _)
      · exact h
    · have h := (Handled.setView s g { s.view g with excl := (s.view g).excl ||| readSet (p.excl.get g) }).trans
        (.enforce g _)
      split
      · exact h.trans (.heldFields x g _ _)
      · exact h

theorem Handled.groupFields (x : Station) (p : Presence) (s : State) : Handled s (groupFields x p s) := by
  unfold Machine.groupFields
  have h : ∀ t, showTest p.showNo s = some t → Handled s t := by
    intro t ht
    unfold showTest at ht
    split at ht
    · cases ht
    · split at ht
      · cases ht; exact .showRestart _ s
      · cases ht; exact .refl s
  split
  · exact .bump s _
  · rename_i t ht
    exact ((h t ht).trans (Handled.foldl (Handled.groupField x p) groupIds t)).trans (.bumpIf _ _ _)

theorem Handled.markStale (x : Station) (b : Bool) (s : State) : Handled s (markStale x b s) := by
  refine Handled.foldl ?_ groupIds s
  intro s g
  dsimp only
  split
  · exact .setView s g _
  · exact .refl s

theorem Handled.freeHeld (x : Station) (s : State) : Handled s (freeHeld x s) := by
  refine Handled.foldl ?_ groupIds s
  intro s g
  dsimp only
  split
  · exact .changeView g _ s
  · exact .refl s

/-! ### Peers -/

theorem Handled.handPeerKeys (s : State) : Handled s (handPeerKeys s) := by
  unfold Machine.handPeerKeys
  dsimp only
  split
  · exact .refl s
  · exact Handled.update s s.groups s.peers.table s.peers.presenceTimer s.answers _

theorem Handled.signOfLife (x : Station) (s : State) : Handled s (signOfLife x s) := by
  unfold Machine.signOfLife
  dsimp only
  split
  · exact ((Handled.setPeer s x _).trans (.markStale x false _)).trans (.handPeerKeys _)
  · exact (Handled.setPeer s x _).trans (.handPeerKeys _)

theorem Handled.turnStale (x : Station) (s : State) : Handled s (turnStale x s) :=
  (Handled.setPeer s x _).trans (.markStale x true _)

theorem Handled.turnGone (x : Station) (s : State) : Handled s (turnGone x s) :=
  ((Handled.setPeer s x _).trans (.handPeerKeys _)).trans (.freeHeld x _)

theorem Handled.takePresence (x : Station) (p : Presence) (s : State) : Handled s (takePresence x p s) := by
  unfold Machine.takePresence
  dsimp only
  split
  · exact ((Handled.setPeer s x _).trans (.handPeerKeys _)).trans (.groupFields x p _)
  · exact (Handled.setPeer s x _).trans (.handPeerKeys _)

theorem Handled.takeQuery (x : Station) (clear : Bool) (s : State) : Handled s (takeQuery x clear s) := by
  unfold Machine.takeQuery
  split
  · exact (Handled.setAnswers s _).trans (.offer _ _)
  · exact .setAnswers s _

theorem Handled.takeRestart (n : Byte) (s : State) : Handled s (takeRestart n s) := by
  unfold Machine.takeRestart
  split
  · exact .bump s _
  · split
    · exact .showRestart n s
    · exact .refl s

/-! ### Trigger actions -/

theorem Handled.lineAction {a : State → State} (ha : ∀ s, Handled s (a s)) (s : State) : Handled s (lineAction s a) := by
  unfold Machine.lineAction
  split
  · exact .bump s _
  · exact ha s

theorem Handled.claimAction (i : InputId) (g : GroupId) (s : State) : Handled s (claimAction i g s) := by
  refine Handled.lineAction ?_ s
  intro s
  split
  · exact .refl s
  · split
    · exact .bump s _
    · exact .localClaim g s

theorem Handled.perform (i : InputId) (a : Action) (s : State) : Handled s (perform i a s) := by
  cases a
  · exact .startRequest _ s
  · exact .lineAction (Handled.offer _) s
  · exact .stop _ _ s
  · exact .lineAction (Handled.offer _) s
  · exact .claimAction i _ s
  · exact .lineAction (fun s => Handled.offer _ s) s
  · exact .lineAction (Handled.offer _) s

end Sys2Proof.Machine
end

