-- ==== Sys2Proof/Laws/LineLevels.lean ====
section
/-! SUPPORT. What a bit time does to the receive state outside a reception and to the REST counted, and what the mark of a beat
boundary leaves as it is. -/

namespace Sys2Proof.Machine

/-! ### Hunting and the gap (R115, R125) -/

/-- Everything a bit time does to a hunting station: outside a byte a start bit begins one, within it the bits are counted, and
its last one ends it or is ACTIVE held beyond it. -/
theorem huntBit_eq (n : Nat) (heard : LineLevel) :
    huntBit n heard =
      if n = 0 then .hunting (if heard = .rest then 0 else 1)
      else if n < 9 then .hunting (n + 1)
      else if heard = .rest then .hunting 0 else .activeHeld := by
  have h (k : Nat) : k + 2 < Config.byteBits ↔ k + 1 < 9 := by simp only [Config.byteBits]; omega
  cases n <;> cases heard <;> simp [huntBit, h] <;> (split <;> simp_all)

@[simp] theorem RxState.inByte_hunting (n : Nat) : (RxState.hunting n).inByte = decide (0 < n) := by cases n <;> rfl
@[simp] theorem RxState.inByte_activeHeld : RxState.activeHeld.inByte = false := rfl
@[simp] theorem RxState.inByte_receiving (l : List Byte) (b : List LineLevel) :
    (RxState.receiving l b).inByte = !b.isEmpty := by cases b <;> rfl

/-- The REST counted at the end of a bit time: none within a byte and after ACTIVE, else one bit time more. -/
theorem restCount_eq (l : Line) :
    restCount l = if l.rx.inByte then 0 else (l.rest.map fun n => min Config.gapBits (n + 1)).getD 0 := by
  unfold restCount; cases l.rest <;> simp

/-! ### The mark of a beat boundary (R80) -/

@[simp] theorem markBeat_clock (v : VoiceId) (s : State) :
    (markBeat v s).clock = { s.clock with hadBeat := upd s.clock.hadBeat v true } := rfl
@[simp] theorem markBeat_starts (v : VoiceId) (s : State) : (markBeat v s).starts = s.starts := rfl
@[simp] theorem markBeat_voices (v : VoiceId) (s : State) : (markBeat v s).voices = s.voices := rfl
@[simp] theorem markBeat_tables (v : VoiceId) (s : State) : (markBeat v s).tables = s.tables := rfl
@[simp] theorem markBeat_fetch (v : VoiceId) (s : State) : (markBeat v s).fetch = s.fetch := rfl
@[simp] theorem markBeat_preload (v : VoiceId) (s : State) : (markBeat v s).preload = s.preload := rfl
@[simp] theorem markBeat_mixer (v : VoiceId) (s : State) : (markBeat v s).mixer = s.mixer := rfl
@[simp] theorem markBeat_line (v : VoiceId) (s : State) : (markBeat v s).line = s.line := rfl
@[simp] theorem markBeat_groups (v : VoiceId) (s : State) : (markBeat v s).groups = s.groups := rfl
@[simp] theorem markBeat_beatRef (v : VoiceId) (s : State) : (markBeat v s).beatRef = s.beatRef := rfl
@[simp] theorem markBeat_returns (v : VoiceId) (s : State) : (markBeat v s).returns = s.returns := rfl
@[simp] theorem markBeat_counters (v : VoiceId) (s : State) : (markBeat v s).counters = s.counters := rfl

end Sys2Proof.Machine
end

