-- ==== Sys2Proof/Laws/Memory.lean ====
section
/-! SUPPORT. The laws of the Preload Memory: a write keeps the canonical form, gives what was written and leaves every other
place alone (R30). -/

namespace Sys2Proof.Machine

theorem memWf_cons {b : Nat} {y : Sample} {m : List (Nat × Sample)} (h : memWf ((b, y) :: m) = true) :
    y ≠ memBlank ∧ (∀ e ∈ m, b < e.1) ∧ memWf m = true := by
  simp only [memWf, Bool.and_eq_true, bne_iff_ne, List.all_eq_true, decide_eq_true_eq] at h
  exact ⟨h.1.1, h.1.2, h.2⟩

theorem memWf_cons_of {b : Nat} {y : Sample} {m : List (Nat × Sample)} (h1 : y ≠ memBlank) (h2 : ∀ e ∈ m, b < e.1)
    (h3 : memWf m = true) : memWf ((b, y) :: m) = true := by
  simp only [memWf, Bool.and_eq_true, bne_iff_ne, List.all_eq_true, decide_eq_true_eq]
  exact ⟨⟨h1, h2⟩, h3⟩

/-- A write lists no address but its own that was not listed. -/
theorem memWrite_mem {m : List (Nat × Sample)} {a : Nat} {x : Sample} {e : Nat × Sample} (h : e ∈ memWrite m a x) :
    e.1 = a ∨ e ∈ m := by
  induction m with
  | nil =>
    simp only [memWrite] at h
    split at h <;> simp at h
    exact .inl (by rw [h])
  | cons c m ih =>
    obtain ⟨b, y⟩ := c
    simp only [memWrite] at h
    split at h
    · split at h
      · exact .inr h
      · rcases List.mem_cons.mp h with rfl | h
        · exact .inl rfl
        · exact .inr h
    · split at h
      · split at h
        · exact .inr (List.mem_cons_of_mem _ h)
        · rcases List.mem_cons.mp h with rfl | h
          · exact .inl rfl
          · exact .inr (List.mem_cons_of_mem _ h)
      · rcases List.mem_cons.mp h with rfl | h
        · exact .inr (List.mem_cons_self ..)
        · exact (ih h).imp_right (List.mem_cons_of_mem _)

/-- A write keeps the canonical form. -/
theorem memWrite_wf {m : List (Nat × Sample)} (h : memWf m = true) (a : Nat) (x : Sample) :
    memWf (memWrite m a x) = true := by
  induction m with
  | nil =>
    simp only [memWrite]
    split
    · rfl
    · rename_i hx; exact memWf_cons_of hx (by simp) rfl
  | cons c m ih =>
    obtain ⟨b, y⟩ := c
    obtain ⟨h1, h2, h3⟩ := memWf_cons h
    simp only [memWrite]
    split
    · rename_i hab
      split
      · exact h
      · rename_i hx
        refine memWf_cons_of hx ?_ h
        intro e he
        rcases List.mem_cons.mp he with rfl | he
        · exact hab
        · exact hab.trans (h2 e he)
    · split
      · rename_i hab
        subst hab
        split
        · exact h3
        · rename_i hx; exact memWf_cons_of hx h2 h3
      · rename_i hab hne
        refine memWf_cons_of h1 ?_ (ih h3)
        intro e he
        rcases memWrite_mem he with e1 | he
        · omega
        · exact h2 e he

theorem memWriteRun_wf {m : List (Nat × Sample)} (h : memWf m = true) (a : Nat) (l : List Sample) :
    memWf (memWriteRun m a l) = true := by
  induction l generalizing m a with
  | nil => exact h
  | cons x l ih => exact ih (memWrite_wf h a x) _

/-- An address below every listed one reads as blank. -/
theorem memRead_below {m : List (Nat × Sample)} {a : Nat} (h : ∀ e ∈ m, a < e.1) : memRead m a = memBlank := by
  induction m with
  | nil => rfl
  | cons c m ih =>
    obtain ⟨b, y⟩ := c
    have := h (b, y) (List.mem_cons_self ..)
    simp only [memRead]
    rw [if_neg (by dsimp only at this; omega)]
    exact ih fun e he => h e (List.mem_cons_of_mem _ he)

/-- A read after a write gives what was written there, and elsewhere what was there before. -/
theorem memRead_memWrite {m : List (Nat × Sample)} (h : memWf m = true) (a b : Nat) (x : Sample) :
    memRead (memWrite m a x) b = if b = a then x else memRead m b := by
  induction m with
  | nil =>
    simp only [memWrite]
    split
    · rename_i hx; subst hx; simp [memRead]
    · rfl
  | cons c m ih =>
    obtain ⟨d, y⟩ := c
    obtain ⟨h1, h2, h3⟩ := memWf_cons h
    simp only [memWrite]
    split
    · rename_i hab
      split
      · rename_i hx
        split
        · rename_i hb
          subst hb; subst hx
          refine memRead_below ?_
          intro e he
          rcases List.mem_cons.mp he with rfl | he
          · exact hab
          · exact hab.trans (h2 e he)
        · rfl
      · rfl
    · split
      · rename_i hab
        subst hab
        split
        · rename_i hx
          subst hx
          simp only [memRead]
          split
          · rename_i hb; subst hb; exact memRead_below h2
          · rfl
        · simp only [memRead]
          split <;> rfl
      · rename_i hab hne
        simp only [memRead, ih h3]
        by_cases hb : b = d
        · rw [if_pos hb, if_neg (by omega), if_pos hb]
        · rw [if_neg hb, if_neg hb]

/-- A run of samples stands at its places, and every other place is as before. -/
theorem memRead_memWriteRun {m : List (Nat × Sample)} (h : memWf m = true) (a b : Nat) (l : List Sample) :
    memRead (memWriteRun m a l) b = if a ≤ b ∧ b < a + l.length then l.getD (b - a) 0 else memRead m b := by
  induction l generalizing m a with
  | nil => simp [memWriteRun]
  | cons x l ih =>
    simp only [memWriteRun, ih (memWrite_wf h a x), memRead_memWrite h, List.length_cons]
    by_cases hb : b = a
    · subst hb; simp
    · rw [if_neg hb]
      by_cases hr : a + 1 ≤ b ∧ b < a + 1 + l.length
      · rw [if_pos hr, if_pos (by omega)]
        obtain ⟨k, hk⟩ : ∃ k, b - a = k + 1 := ⟨b - a - 1, by omega⟩
        rw [hk, show b - (a + 1) = k by omega]
        simp
      · rw [if_neg hr, if_neg (by omega)]

theorem reset_preload_wf : memWf State.reset.preload.mem = true := rfl

end Sys2Proof.Machine
end

