-- ==== Sys2Proof/Tests/Slice0.lean ====
section
/-! SUPPORT. Small tests on states built by the helpers at the top. `test_` theorems compare the model with values the manual
prints or that follow from its rules by hand; `smoke_` theorems show that each check of `Instr.wf` refuses an ill-formed
term; `witness_` theorems give a state and operands that meet the hypotheses of the obligation they are named after. -/

open Sys2Proof Sys2Proof.Machine

namespace Sys2Proof.Tests

/-! ### Helpers -/

/-- A part of the state after a next outcome. -/
def after {α : Type} (r : Result) (f : State → α) : Option α :=
  match r with
  | .next t => some (f t)
  | .fault _ | .refused _ => none

/-- A cue of class 0 at level 22 on PROG, fading in over 4 ms and out over 10, its audio from descriptor 0. -/
def bed : Cue := ⟨0, 0, 22, .prog, 4, 10, .immediate, .restart, 0, 0, none, none⟩

/-- Tables with cue 7, a chain of one segment of 100 samples, one store window, and a listen window for line cues 0..255. -/
def desk : Tables :=
  { Tables.reset with
    cues := upd Tables.reset.cues 7 (some bed)
    segments := upd Tables.reset.segments 0 (some ⟨0, 100, 0, none⟩)
    store := upd Tables.reset.store 0 ⟨true, 0, 65536, 0⟩
    listen := upd Tables.reset.listen 0 ⟨true, 0, 0xF00, false, 0⟩ }

/-- Station 3 in LOADING. -/
def loading : State := { State.reset with inReset := false, number := 3 }

/-- Station 3 in RUNNING with the tables of the desk, hearing a frame. -/
def live : State :=
  { loading with station := .running, tables := desk, line := { loading.line with rx := .receiving [] [] } }

/-- The desk with one cue changed to another. -/
def withCue (c : LocalCue) (q : Cue) (s : State) : State :=
  { s with tables := { s.tables with cues := upd s.tables.cues c (some q) } }

/-- Station time at a count. -/
def atTime (t : Time) (s : State) : State := { s with clock := { s.clock with time := t } }

/-- A voice that plays cue 7 with one sample in its FIFO. -/
def player : Voice :=
  { Voice.reset with
    state := .playing, cue := 7, gen := 1, fetchDone := false, window := some 0, fetchPtr := ⟨0, 10, 0⟩
    fifo := [⟨5, ⟨0, 9, 0⟩⟩] }

/-- Voice 0 plays. -/
def playing : State := live.setVoice 0 player

/-- Every voice fades, cue 0. -/
def busy : State :=
  { live with voices := Vector.replicate 8 { player with state := .fading, cue := 0 } }

/-- A burst of a voice that nobody here owns, still running. -/
def running : Burst := ⟨.voice 7 9, 0, 0, 64, 1⟩

/-- The port works on that burst. -/
def withPort (b : Burst) (s : State) : State := { s with fetch := { s.fetch with burst := some b } }

/-- Voice 0 plays x, its first burst of n samples outstanding, with segment 0 changed, 1 in the store window and 2 outside. -/
def fetching (g : Segment) (n : Nat) (x : Voice) : State :=
  let s := withPort ⟨.voice 0 1, 0, 10, n, 0⟩ (live.setVoice 0 x)
  { s with tables := { s.tables with
      segments := upd (upd (upd s.tables.segments 0 (some g)) 1 (some ⟨5, 30, 0, none⟩)) 2 (some ⟨65530, 30, 0, none⟩) } }

/-- The receive state is x and the REST counted is r, within a running sample frame. -/
def hearing (x : RxState) (r : Option Nat) : State :=
  { live with line := { live.line with rx := x, rest := r }, clock := { live.clock with stage := .running } }

/-- Start entries wait in the pending-start queue. -/
def waiting (l : List Entry) (s : State) : State := { s with starts := { s.starts with queue := l } }

/-- Class 0 with one field of its record changed. -/
def withClass (f : ClassRec → ClassRec) (s : State) : State :=
  { s with tables := { s.tables with classes := upd s.tables.classes 0 (f defaultClass) } }

/-- One frame in the transmit queue. -/
def withTx (b : TxBody) (s : State) : State :=
  { s with line := { s.line with queue := [⟨0, b, 0, 0, false⟩], nextIdent := 1 } }

/-- An attempt at the frame of identity 0 is over or stands in collision. -/
def sending (f : Frame) (s : State) : State := { s with line := { s.line with activity := .sending 0 f } }

/-- The line is IDLE at the beginning of a slot. -/
def idleLine (slot : Nat) (a : Activity) (s : State) : State :=
  { s with line := { s.line with phase := .idle, slot := slot, slotAge := 0, activity := a } }

/-- A view of group 2. -/
def withView (w : View) (s : State) : State := s.setView 2 w

/-- A view held by station 5 since time 0. -/
def theirs : View := { View.reset with state := .heldOther, holder := some 5 }

/-- A view held by the own station since time 0. -/
def mine : View := { View.reset with state := .heldMe, holder := some 3 }

/-- A good image of 62 bytes: cue 7, descriptor 0 and store window 0, P = 250 ms. -/
def image : List Byte :=
  [0x5A, 0xC8, 0, 62, 25, 0, 0, 0, 0, 1, 0, 1, 0, 0, 1, 0, 0, 0]
    ++ [7, 0, 0, 0, 22, 0, 0, 4, 0, 10, 0, 0, 0, 0, 0, 0, 0, 0, 0, 0]
    ++ [0, 0, 0, 0, 0, 0, 0, 0, 0, 100, 0, 0, 0, 0] ++ [0, 1, 0, 0, 0, 0, 16, 0] ++ [2, 28]

/-- An image of bytes, its sum appended. -/
def summed (l : List Byte) : List Byte :=
  let n : BitVec 16 := BitVec.ofNat 16 (l.map (·.toNat)).sum
  l ++ [hiByte n, loByte n]

/-- A good image of 96 bytes: cues 3 and 7 with heads of 50 samples, the first segment of cue 3 outside the store window. -/
def heads : List Byte :=
  summed ([0x5A, 0xC8, 0, 96, 25, 0, 0, 0, 0, 2, 0, 2, 0, 0, 1, 0, 0, 0]
    ++ [3, 0, 0, 1, 22, 0, 0, 0, 0, 0, 0, 0, 0, 0, 50, 0, 0, 0, 0, 0]
    ++ [7, 0, 0, 0, 22, 0, 0, 4, 0, 10, 0, 0, 0, 0, 50, 0, 0, 0, 0, 0]
    ++ [0, 0, 0, 0, 0, 0, 0, 0, 0, 100, 0, 0, 0, 0] ++ [0, 1, 0, 1, 0, 0, 0, 0, 0, 100, 0, 0, 0, 0]
    ++ [0, 1, 0, 0, 0, 0, 16, 0])

/-- A binding of an input that is CLOSED-active and plays cue 7 on a press. -/
def button : Binding := ⟨.closed, 20, some (.play 7), none⟩

/-- Input 1 is bound, its filter timer has just expired. -/
def pressed (b : Binding) (s : State) : State :=
  { s with
    tables := { s.tables with triggers := upd s.tables.triggers 1 (some b) }
    triggers := { s.triggers with raw := upd s.triggers.raw 1 true, timers := upd s.triggers.timers 1 (some 0) } }

/-- An all-zero PRESENCE of a configured station at show 0. -/
def quietPresence : Presence :=
  ⟨1, 0, 0, 0, 0, Vector.replicate 16 0, Vector.replicate 16 0, []⟩

/-! ### Smoke tests of WellFormed and Decode -/

theorem smoke_fire_source : (Instr.fireReceived 0 0 0 0 0 0).wf = false := by decide
theorem smoke_query_source : (Instr.queryReceived 0 3 0).wf = false := by decide
theorem smoke_query_destination : (Instr.queryReceived 5 0 0).wf = false := by decide
theorem smoke_presence_held :
    (Instr.presenceReceived 5 { quietPresence with held := List.replicate 20 (0, 0) }).wf = false := by decide
theorem smoke_presence_source : (Instr.presenceReceived 0 quietPresence).wf = false := by decide
theorem smoke_rxBad_good_frame : (Instr.rxBad ⟨frameBytes ⟨8, 5, 3, [0]⟩, .rest⟩).wf = false := by decide +kernel
theorem smoke_rxProtocol_passing_frame : (Instr.rxProtocol ⟨8, 5, 3, [0]⟩).wf = false := by decide
theorem smoke_rxProtocol_length : (Instr.rxProtocol ⟨99, 5, 3, List.replicate 256 0⟩).wf = false := by decide +kernel
theorem smoke_peer_zero : (Instr.peerStale 0).wf = false := by decide
theorem smoke_period_zero : (Instr.wordClockEdge 0).wf = false := by decide
theorem smoke_decode_no_row_has_bits : decodeTableWord 8 0 = none := by decide

/-! ### Values the manual prints -/

/-- R130: the CRC of the bytes 0x31..0x39. -/
theorem test_crc : crc [0x31, 0x32, 0x33, 0x34, 0x35, 0x36, 0x37, 0x38, 0x39] = 0x29B1 := by decide +kernel
/-- R94: the gains of the table. -/
theorem test_gain_table :
    [0, 6, 12, 22, 24, 60, 92, 120, 125, 126, 127].map gainOf
      = [32768, 23198, 16384, 9213, 8192, 1024, 161, 32, 23, 22, 0] := by decide
/-- R90: the fade-in of length 10. -/
theorem test_fade_in :
    [0, 1, 2, 3, 4, 5].map (fadeAtt ⟨.fadeIn, 0, 10, none⟩) = [127, 114, 101, 88, 76, 63] := by decide
/-- R92: the cut from attenuation 88. -/
theorem test_cut_during_fade_in : [0, 1, 2].map (fadeAtt ⟨.fadeOut, 88, 2, none⟩) = [88, 107, 127] := by decide
/-- The windows of the worked example in 01_cue_records.md. -/
def podium : Tables :=
  { Tables.reset with
    listen := ⟨#[⟨true, 0x140, 0xFC0, true, 32⟩, ⟨true, 0x200, 0xF00, true, 200⟩, ⟨true, 0, 0, false, 0⟩, noListen], rfl⟩ }
/-- 01_cue_records.md, Worked example: mapping line cues. -/
theorem test_window_maps :
    [0x145, 0x17F, 0x237, 0x238, 0x512].map (mapLineCue podium) = [some 37, some 95, some 255, some 0, some 18] := by decide
/-- 08_line_frames_at_the_station.md, Worked example: the two FIRE frames, and the STOP of class 9. -/
theorem test_fire_and_stop_fields :
    fireRequest podium 0x02 0x37 0xE2 0x01 = some ⟨255, -24, true⟩
      ∧ fireRequest podium 0xF1 0x45 0x04 0x00 = some ⟨37, 4, false⟩
      ∧ stopRequest podium 0 0x01 0x45 1 = some (.cue 37, .fade) ∧ stopRequest podium 1 0 9 0 = none := by decide
/-- R182: the image passes its checks, and a wrong sum does not. -/
theorem test_image_checks : imageOk image = true ∧ imageOk (image.set 61 29) = false := by decide +kernel

/-- R3, R4, R7, R18, R134, R135: fields beyond their ranges, and a follow-on and a next that name nothing. -/
theorem test_image_clamps :
    let t := buildTables ([0x5A, 0xC8, 0, 80, 0, 1, 255, 9, 0, 1, 0, 1, 1, 0, 1, 0, 0, 0]
      ++ [7, 200, 0xFE, 0, 255, 3, 255, 255, 255, 255, 2, 3, 200, 255, 255, 3, 9, 0, 0, 1]
      ++ [0xFE, 0, 0xFE, 0, 0, 5, 0, 0, 0, 0, 9, 1, 0, 3]
      ++ [7, 200, 0, 3, 255, 255, 1, 8, 255, 0, 0, 0, 0, 0, 0, 0, 0, 255] ++ [0, 1, 0, 1, 0x23, 0x45, 3, 255])
    t.cues.get 7 = some ⟨7, 0, 126, .prog, 8191, 8191, .immediate, .restart, 15, 1, none, some 480⟩
      ∧ t.segments.get 0 = some ⟨5, 1, 9, none⟩
      ∧ t.classes.get 7 = ⟨7, 1, .none, 2000, none, upd (Vector.replicate 8 0) 0 126, 1, 127⟩
      ∧ t.store.get 0 = ⟨true, 65536, 65536, 3⟩ ∧ (t.trimProg, t.trimFold, t.periodMs) = (126, 0, 100) := by decide +kernel

/-! ### One step of each command -/

theorem test_hardReset : after (exec .hardReset live) (·.inReset) = some true := by decide
theorem test_hardResetRelease :
    after (exec (.hardResetRelease 9) State.reset) (fun t => (t.station, t.number, t.line.shift))
      = some (.loading, 9, 2305) := by decide
theorem test_loadEnd :
    after (exec (.loadEnd image) loading) (fun t => (t.station, t.peers.listenTimer)) = some (.listening, some 24000) := by
  decide +kernel
theorem test_loadEnd_no_answer :
    after (exec (.loadEnd []) loading) (fun t => (t.station, t.line.queue.map (·.body)))
      = some (.unconfigured, [.presence]) := by decide +kernel
theorem test_listenTimerExpiry :
    after (exec .listenTimerExpiry
      { live with station := .listening, peers := { live.peers with listenTimer := some 0 } }) (·.station)
      = some .running := by decide
theorem test_wordClockEdge :
    after (exec (.wordClockEdge 20833) live) (fun t => (t.clock.clock, t.clock.acq)) = some (.acquiring, 1) := by decide
theorem test_wordClockTimeout :
    after (exec .wordClockTimeout { live with clock := { live.clock with clock := .locked, acq := 4800, quiet := 84 } })
      (fun t => (t.clock.clock, t.clock.acq)) = some (.holdover, 0) := by decide
theorem test_voiceSampleNeed_fifo :
    after (exec (.voiceSampleNeed 0) playing) (fun t => ((t.voice 0).fifo, t.mixer.given.get 0))
      = some ([], some 5) := by decide
theorem test_voiceSampleNeed_missing :
    after (exec (.voiceSampleNeed 0) (live.setVoice 0 { player with fifo := [] }))
      (fun t => ((t.voice 0).debt, t.mixer.given.get 0, t.counter .underrun)) = some (1, some 0, 1) := by decide
/-- R95: (1000 × 9213 + 16384) / 32768, taken down, is 281. -/
theorem test_busSampleOutput :
    after (exec .busSampleOutput ((playing.setGiven 0 (some 1000)).setMix 0 ⟨0, some ⟨22, 9213⟩, none⟩))
      (fun t => (t.mixer.progOut, t.mixer.foldOut)) = some (281, 0) := by decide
/-- R90, T = 4: at the boundary that counts k = 1 the fade attenuation is 95, and the level 22 makes the total 117. -/
theorem test_controlFrameBoundary :
    after (exec .controlFrameBoundary (live.setVoice 0 { player with fade := some ⟨.fadeIn, 0, 4, some 0⟩ }))
      (fun t => ((t.mix 0).fade, (t.mix 0).prog.map (·.att))) = some (95, some 117) := by decide
theorem test_fadeEnd :
    after (exec (.fadeEnd 0) (live.setVoice 0 { player with state := .fading, fade := some ⟨.fadeOut, 0, 2, some 2⟩ }))
      (fun t => ((t.voice 0).state, (t.voice 0).fifo)) = some (.idle, []) := by decide
theorem test_primeDeadline :
    after (exec (.primeDeadline 0)
      (atTime 480 (live.setVoice 0 { player with state := .priming, deadline := some 480 })))
      (fun t => ((t.voice 0).state, (t.voice 0).playTime, (t.mix 0).fade)) = some (.playing, 480, 127) := by decide
theorem test_beatBoundary :
    after (exec .beatBoundary (atTime 480 (withCue 7 { bed with beat := some 480 }
      { playing with beatRef := some 0, starts := { live.starts with queue := [⟨7, 0, 0, .beat, none⟩] } })))
      (fun t => (t.starts.queue, (t.voice 1).state)) = some ([], .priming) := by decide
theorem test_pendingExpiry :
    after (exec (.pendingExpiry 7) { busy with starts := { live.starts with queue := [⟨7, 0, 0, .voice, none⟩] } })
      (fun t => (t.starts.queue, t.counter .startLost)) = some ([], 1) := by decide
theorem test_burstComplete :
    after (exec (.burstComplete (Vector.replicate 64 3)) (withPort ⟨.voice 0 1, 0, 10, 64, 0⟩ playing))
      (fun t => ((t.voice 0).fifo.length, (t.voice 0).fetchPtr.off)) = some (65, 74) := by decide +kernel
theorem test_preloadBurstComplete :
    after (exec (.preloadBurstComplete (Vector.replicate 64 3))
      { live with fetch := { live.fetch with burst := some ⟨.preload, 0, 0, 2, 0⟩, pass := .running,
                                             work := some ⟨7, 40, 2, 0, 0, 0⟩ } })
      (fun t => (t.preload.mem, t.preload.heads.get 7)) = some ([(40, 3), (41, 3)], some ⟨40, 2⟩) := by decide +kernel
theorem test_triggerInputChange :
    after (exec (.triggerInputChange 1 true) (pressed button live))
      (fun t => (t.triggers.raw.get 1, t.triggers.timers.get 1)) = some (true, some 960) := by decide
theorem test_triggerFilterExpiry :
    after (exec (.triggerFilterExpiry 1) (pressed button live))
      (fun t => (t.triggers.recognized.get 1, (t.voice 0).state)) = some (true, .priming) := by decide
theorem test_interframeGapComplete :
    after (exec .interframeGapComplete { live with line := { live.line with rest := some 16 } })
      (fun t => (t.line.phase, t.line.activity)) = some (.idle, .none) := by decide
theorem test_referenceSlot :
    after (exec .referenceSlot (idleLine 5 .none (withTx (.fire 1 0) { live with line := { live.line with shift := 0x12F } })))
      (·.line.activity) = some (.holdoff 0 (5 + 2 * 16 + 15)) := by decide
theorem test_lineBusy :
    after (exec .lineBusy (idleLine 5 (.holdoff 0 40) (withTx (.fire 1 0) live)))
      (fun t => (t.line.phase, t.line.activity, t.line.queue.length)) = some (.busy, .none, 1) := by decide
/-- R114: a CLAIM is 10 bytes of 10 bit times on the line. -/
theorem test_sendSlot :
    after (exec .sendSlot (idleLine 40 (.holdoff 0 40) (withTx (.claim 2 0 0) live))) (·.line.driveLeft) = some 100 := by
  decide
theorem test_transmitComplete :
    after (exec .transmitComplete (sending ⟨3, 3, 0, [0, 2, 0]⟩ (withTx (.claim 2 0 0)
      (withView { View.reset with state := .claiming } live))))
      (fun t => ((t.view 2).state, (t.view 2).holder, t.line.queue.map (·.body))) = some (.heldMe, some 3, [.presence]) := by
  decide
theorem test_collision :
    after (exec .collision (sending ⟨3, 3, 0, [0, 2, 0]⟩ (withTx (.claim 2 0 0) live)))
      (fun t => (t.line.queue.map (·.attempts), t.line.driveLeft, t.counter .txCollision)) = some ([1], 20, 1) := by decide
theorem test_jamEnd :
    after (exec .jamEnd { live with line := { live.line with activity := .jamming } })
      (fun t => (t.line.activity, t.line.rest)) = some (.none, some 0) := by decide
theorem test_rxBad :
    after (exec (.rxBad ⟨[0xD3], .active 5⟩) live) (·.counter .rxBad) = some 1 := by decide
theorem test_rxBad_jammed :
    after (exec (.rxBad ⟨[0xD3], .active 12⟩) live) (·.counter .rxBad) = some 0 := by decide
theorem test_rxProtocol :
    after (exec (.rxProtocol ⟨11, 5, 0, []⟩) live) (·.counter .rxProtocol) = some 1 := by decide
theorem test_fireReceived :
    after (exec (.fireReceived 5 0 0 7 30 0) live)
      (fun t => ((t.voice 0).state, (t.voice 0).offset, (t.voice 0).inFlight, t.fetch.burst.map (·.left)))
      = some (.priming, 24, 64, some 40) := by decide
theorem test_fireReceived_masked :
    after (exec (.fireReceived 5 0 0 7 0 0) { live with starts := { live.starts with mask := 0xFE } })
      (fun t => ((t.voice 0).state, t.counter .startMasked)) = some (.idle, 1) := by decide
theorem test_stopReceived :
    after (exec (.stopReceived 5 0 2 0 0 1) playing) (fun t => ((t.voice 0).state, (t.voice 0).fade.map (·.length)))
      = some (.fading, some 10) := by decide
theorem test_segmentReceived :
    after (exec (.segmentReceived 5 4 0xFE 1) playing)
      (fun t => (t.starts.segment, t.starts.mask, (t.voice 0).state)) = some (4, 0xFE, .fading) := by decide
theorem test_claimReceived :
    after (exec (.claimReceived 5 0 2 0) live) (fun t => ((t.view 2).state, (t.view 2).holder))
      = some (.heldOther, some 5) := by decide
theorem test_claimReceived_stale :
    after (exec (.claimReceived 5 0 2 0xFF) live) (fun t => ((t.view 2).state, t.counter .staleFrame))
      = some (.free, 1) := by decide
/-- R149: of equal ages the holding of the lower-numbered station is the older. -/
theorem test_holdReceived :
    after (exec (.holdReceived 2 0 2 0 0) (withView mine live)) (fun t => ((t.view 2).holder, t.counter .conflict))
      = some (some 2, 1) := by decide
theorem test_releaseReceived :
    after (exec (.releaseReceived 5 0 2 0 4) (withView { theirs with excl := 0xF0 } live))
      (fun t => ((t.view 2).state, (t.view 2).epoch, (t.view 2).excl)) = some (.free, 1, 0) := by decide
theorem test_presenceReceived :
    after (exec (.presenceReceived 5 { quietPresence with keys := 4, held := [(2, 10)] }) (atTime 1000 live))
      (fun t => ((t.peer 5).keys, t.mixer.peerKeys, (t.view 2).holder, (t.view 2).claimTime))
      = some (4, 4, some 5, 520) := by decide +kernel
theorem test_queryReceived :
    after (exec (.queryReceived 5 3 1) live) (fun t => (t.answers, t.line.queue.map (·.body)))
      = some (some ⟨0x20, true⟩, [.status]) := by decide
theorem test_statusReceived :
    after (exec (.statusReceived 5 0 (Vector.replicate 76 0)) live) (fun t => (t.peer 5).state) = some .present := by decide
theorem test_restartReceived :
    after (exec (.restartReceived 5 0 9) (withView theirs playing))
      (fun t => (t.groups.showNo, (t.view 2).state, (t.voice 0).state)) = some (9, .free, .fading) := by decide
theorem test_answerTimerExpiry :
    after (exec (.answerTimerExpiry 2) (withView { mine with timer := .running 0 } live))
      (fun t => ((t.view 2).timer, t.line.queue.map (·.body))) = some (.expired, [.release 2 0 0 .timeout]) := by decide
theorem test_presenceTimerExpiry :
    after (exec .presenceTimerExpiry { live with peers := { live.peers with presenceTimer := some 0 } })
      (fun t => (t.peers.presenceTimer, t.line.queue.map (·.body))) = some (none, [.presence]) := by decide
theorem test_peerStale :
    after (exec (.peerStale 5) (atTime 24000 (withView theirs (live.setPeer 5 { Peer.reset with state := .present }))))
      (fun t => ((t.peer 5).state, (t.view 2).stale)) = some (.stale, true) := by decide +kernel
theorem test_peerGone :
    after (exec (.peerGone 5) (atTime 48000 (withView theirs (live.setPeer 5 { Peer.reset with state := .stale, keys := 1 }))))
      (fun t => ((t.peer 5).state, (t.peer 5).keys, (t.view 2).state, (t.view 2).epoch)) = some (.gone, 0, .free, 1) := by
  decide +kernel
/-- The first bit time of a sample frame turns the first half of the microsecond into the second (R186). -/
theorem test_bit_time_turns_the_half_microsecond :
    after (step { live with clock := { live.clock with stage := .running } }) (·.clock.half) = some true := by decide

/-- R114, R125: the start bit, the second data bit, the last data bit, and the stop bit of the byte 0xD3; 0x53 ends the
reception at its stop bit, and so does REST in place of a start bit. -/
theorem test_bits_make_bytes :
    let byte : List LineLevel := [.active, .rest, .rest, .active, .rest, .active, .active, .rest]
    let whole : List LineLevel := byte ++ [.rest]
    after (step (hearing (.receiving [] []) none)) (·.line.rx) = some (.receiving [] [.active])
      ∧ after (step (hearing (.receiving [] [.active]) (some 0))) (·.line.rx) = some (.receiving [] [.active, .rest])
      ∧ after (step (hearing (.receiving [] byte) (some 0))) (·.line.rx) = some (.receiving [] whole)
      ∧ after (step (hearing (.receiving [] whole) (some 0))) (fun t => (t.line.rx, t.pending))
          = some (.receiving [0xD3] [], [])
      ∧ after (step (hearing (.receiving [] ([.active, .active] ++ whole.drop 2)) (some 0))) (·.pending)
          = some [.rxBad ⟨[0x53], .rest⟩]
      ∧ after (step (hearing (.receiving [0xD3] []) (some 1))) (·.pending) = some [.rxBad ⟨[0xD3], .rest⟩] := by
  decide +kernel

/-- R115 and the worked example of 07_the_studio_line.md: after a byte the gap counts from the end of its stop bit, for a station
that is hunting as for one that receives, and is complete 8 µs later. -/
theorem test_every_station_counts_the_same_gap :
    let hear (x : RxState) (n : Nat) : Option Nat :=
      ((byteLevels 0xF0 ++ List.replicate n LineLevel.rest).foldl (fun l y =>
        bitTimeLine false { l with rest := if y = .active then none else some (l.rest.getD 0) })
        { Line.reset 3 with rx := x }).rest
    [0, 15, 16].map (hear (.hunting 0)) = [some 0, some 15, some 16]
      ∧ [0, 15, 16].map (hear (.receiving [0xD3] [])) = [some 0, some 15, some 16]
      ∧ after (step (hearing (.hunting 0) (some 15))) (·.pending) = some [.interframeGapComplete, .sendSlot] := by
  decide +kernel

/-- R79, R80: the boundary of voice 0 has been reported; its successor has its own in the same sample frame, and once. -/
theorem test_successor_has_its_own_boundary :
    let s : State := atTime 480 (withCue 7 { bed with beat := some 480 } { playing.setVoice 1 player with beatRef := some 1 })
    let after0 : State := { s with clock := { s.clock with hadBeat := upd s.clock.hadBeat 0 true } }
    after (exec .beatBoundary after0) (·.clock.hadBeat.toList.take 3) = some [true, true, false]
      ∧ beatDue { s with clock := { s.clock with hadBeat := upd s.clock.hadBeat 1 true } } = false := by decide +kernel

/-- R31, R32: cue 3 counts STORE_FAULT, and the head of cue 7 is taken up at place 0 and granted. -/
theorem test_preload_pass_begins :
    after (exec (.loadEnd heads) loading) (fun t => (t.fetch.work, t.fetch.nextCue, t.fetch.alloc, t.fetch.burst))
        = some (some ⟨7, 0, 50, 0, 0, 0⟩, 8, 50, some ⟨.preload, 0, 0, 50, 40⟩)
      ∧ after (exec (.loadEnd heads) loading) (·.counter .storeFault) = some 1 := by decide +kernel

/-- R109, R111: a group lamp of the holder, steady until 5 s before the answer timer's expiry and FAST from then on. -/
theorem test_group_lamp :
    let s (t : Time) : State := atTime 3000 (withView { mine with timer := .running t }
      { live with tables := { desk with lamps := upd desk.lamps 0 (.group 2 false) } })
    lampOn (s 243001) 0 = true ∧ lampOn (s 243000) 0 = false := by decide +kernel

/-- R19, R26: the chip select reads at the sample offset from the window's base. -/
theorem test_device_sample_offsets :
    portReads (withPort ⟨.preload, 1, 65541, 2, 0⟩
      { live with tables := { desk with store := upd desk.store 1 ⟨true, 65536, 65536, 0⟩ } }) = [(1, 5), (1, 6)] := by
  decide +kernel

/-! ### Witnesses of the obligations' hypotheses, each clause at a boundary of its range -/

theorem witness_ReleaseSamplesTheStrapsAndBeginsLoading : State.reset.inReset = true := by decide

theorem witness_LoadEndDecidesByTheImage :
    loading.inReset = false ∧ loading.station = .loading ∧ imageOk [] = false ∧ imageOk image = true ∧ Settled loading
      ∧ loading.fetch.burst = none ∧ (∀ v : VoiceId, loading.fetch.requests.get v = none)
      ∧ (buildTables image).triggers.get 1 = none ∧ imageOk heads = true ∧ CountersOk loading
      ∧ ((buildTables heads).cues.get 3).map (·.headLen) = some 50 ∧ ((buildTables heads).cues.get 7).map (·.headLen) = some 50
      ∧ ((buildTables image).cues.get 7).map (·.headLen) = some 0 := by
  unfold Settled CountersOk; decide +kernel

theorem witness_ListenTimerExpiryBeginsRunning :
    let s : State := { live with station := .listening, peers := { live.peers with listenTimer := some 0 } }
    s.inReset = false ∧ s.station = .listening ∧ s.peers.listenTimer = some 0 ∧ reached s.now 0 = true := by decide

/-- The four edges of the tolerance, and the acquisition counts either side of 4,800. -/
theorem witness_WordClockEdgeMovesTheClockState :
    live.inReset = false ∧ (0 : Nat) < 20729 ∧ (20729 ≤ 20729 ∧ 20729 ≤ 20938) ∧ (20729 ≤ 20938 ∧ 20938 ≤ 20938)
      ∧ (20728 < 20729 ∨ 20938 < 20728) ∧ (20939 < 20729 ∨ 20938 < 20939) ∧ live.clock.clock = .free
      ∧ 4798 + 1 < 4800 ∧ 4800 ≤ 4799 + 1 := by decide

theorem witness_WordClockTimeoutLosesTheClock :
    let s : State := { live with clock := { live.clock with clock := .acquiring, acq := 1, quiet := 84 } }
    s.inReset = false ∧ 84 ≤ s.clock.quiet ∧ s.clock.clock = .acquiring := by decide

theorem witness_BitTimeStepsTheClocks :
    let s : State := { live with clock := { live.clock with stage := .running } }
    s.inReset = false ∧ s.pending = [] ∧ s.clock.stage = .running := by decide

/-- Driving; hunting outside a byte, in its first, last but one and last bit; after a jam; a start bit; the last data bit but one; a
stop bit; at REST one bit time short of the gap and at ACTIVE. -/
theorem witness_BitTimeStepsTheClocks_line :
    let bits (n : Nat) : List LineLevel := .active :: List.replicate n .rest
    (sending ⟨3, 3, 0, [0, 2, 0]⟩ (hearing (.hunting 0) none)).driving = true
      ∧ (∀ x ∈ [RxState.hunting 0, .hunting 1, .hunting 8, .hunting 9, .activeHeld, .receiving [] [],
            .receiving [] (bits 7), .receiving [] (bits 8)],
        (hearing x (some 15)).driving = false ∧ (hearing x none).driving = false ∧ (hearing x none).inReset = false
          ∧ (hearing x none).pending = [] ∧ (hearing x none).clock.stage = .running)
      ∧ (bits 7).tail.length < 8 ∧ (bits 8).tail.length = 8
      ∧ (rxBit (.receiving [] (bits 8)) .rest).2 = some ⟨[0xFF], .rest⟩ := by decide +kernel

/-- The bit times either side of a nominal and of a held length; LOCKED without an edge and with one; the turn of the frame at the
last phase and the last station time, and a voice that has its sample yet to give. -/
theorem witness_BitTimeStepsTheClocks_frames :
    let s (g : FrameStage) (c : ClockState) (age edges : Nat) : State := { live with
      clock := { live.clock with
        stage := g, clock := c, frameAge := age, edges := edges, heldNs := 20800, time := 0xFFFFFFFF }
      mixer := { live.mixer with phase := 47 } }
    let got (g : FrameStage) (c : ClockState) (age edges : Nat) := after (step (s g c age edges)) fun t =>
      (t.clock.stage, t.clock.frameAge, t.clock.edges)
    [got .running .free 60999 0, got .running .free 61000 0, got .running .holdover 60900 0, got .running .locked 9 0,
        got .running .locked 9 1]
      = [some (.running, 62499, 0), some (.closing, 0, 0), some (.closing, 0, 0), some (.running, 1509, 0), some (.closing, 0, 0)]
      ∧ after (step (s .over .free 0 0)) (fun t => (t.clock.time, t.mixer.phase, t.clock.stage)) = some (0, 0, .opening)
      ∧ (s .over .free 0 0).inReset = false ∧ (s .over .free 0 0).pending = []
      ∧ (∀ v : VoiceId, ((s .over .free 0 0).voice v).state = .idle)
      ∧ after (step ((s .over .free 0 0).setVoice 0 player)) (fun t => (t.clock.time, t.pending))
          = some (0xFFFFFFFF, [.voiceSampleNeed 0]) := by decide +kernel

theorem witness_CommandsKeepTimeNumberAndTables :
    Instr.jamEnd ≠ .hardReset ∧ (∀ n, Instr.jamEnd ≠ .hardResetRelease n) ∧ (∀ image, Instr.jamEnd ≠ .loadEnd image)
      ∧ exec .jamEnd live = .next live := ⟨by decide, by simp, by simp, rfl⟩

theorem witness_SampleNeedTakesOneSample :
    Settled playing ∧ playing.inReset = false ∧ (playing.voice 0).state = .playing ∧ playing.mixer.given.get 0 = none
      ∧ (playing.voice 0).headLen ≤ (playing.voice 0).headPos ∧ (playing.voice 0).fifo = [⟨5, ⟨0, 9, 0⟩⟩]
      ∧ (withPort running playing).fetch.burst.isSome = true := by
  unfold Settled; decide

theorem witness_SampleNeedTakesOneSample_other_cases :
    let head := live.setVoice 0 { player with headLen := 1 }
    let empty := live.setVoice 0 { player with fifo := [] }
    let spent := live.setVoice 0 { player with state := .fading, fifo := [], fetchDone := true }
    Settled head ∧ (head.voice 0).headPos < (head.voice 0).headLen ∧ Settled empty ∧ (empty.voice 0).fifo = []
      ∧ (empty.voice 0).fetchDone = false ∧ Settled spent ∧ (spent.voice 0).fetchDone = true
      ∧ (spent.voice 0).state = .fading := by
  unfold Settled; decide

/-- A natural end of the beat reference, and a fade-out at its last count. -/
theorem witness_NaturalEndAndFadeEndReturnTheVoice :
    let s := { live.setVoice 0 { player with fifo := [], fetchDone := true } with beatRef := some 0 }
    let t := live.setVoice 0 { player with state := .fading, fade := some ⟨.fadeOut, 0, 2, some 2⟩ }
    NoStartWaits s ∧ s.inReset = false ∧ s.mixer.given.get 0 = none ∧ (s.voice 0).state = .playing
      ∧ (s.voice 0).headLen ≤ (s.voice 0).headPos ∧ (s.voice 0).fetchDone = true
      ∧ (s.cue (s.voice 0).cue).bind (·.followOn) = none ∧ s.beatRef = some 0
      ∧ NoStartWaits t ∧ (t.voice 0).fade = some ⟨.fadeOut, 0, 2, some 2⟩ ∧ 2 ≤ 2 := by
  unfold NoStartWaits Settled; decide

/-- A follow-on that finds no other voice IDLE, and an entry that reserves the voice: cue 8 starts on voice 0. -/
theorem witness_NaturalEndAndFadeEndReturnTheVoice_starts :
    let ends : Voice := { player with fifo := [], fetchDone := true }
    let s := withPort running (withCue 8 bed (withCue 7 { bed with followOn := some 8 } (busy.setVoice 0 ends)))
    let t := withPort running (withCue 8 bed (waiting [⟨8, 5, 0, .voice, some 0⟩] (live.setVoice 0 ends)))
    Settled s ∧ s.inReset = false ∧ (s.voice 0).state = .playing ∧ s.mixer.given.get 0 = none
      ∧ (s.cue (s.voice 0).cue).bind (·.followOn) = some 8 ∧ s.cue 8 = some bed ∧ s.preload.heads.get 8 = none
      ∧ (s.segment bed.first).bind (resolve s.tables) = some 0 ∧ s.fetch.burst.isSome = true ∧ s.starts.queue = []
      ∧ bed.choke = 0 ∧ s.starts.mask.getLsbD bed.cls.val = true ∧ bed.mode = .immediate
      ∧ (∀ u : VoiceId, u ≠ 0 → (s.voice u).state ≠ .idle) ∧ s.station ≠ .loading
      ∧ after (exec (.voiceSampleNeed 0) s) (fun u => ((u.voice 0).state, (u.voice 0).cue)) = some (.priming, 8)
      ∧ Settled t ∧ t.cue 8 = some bed ∧ t.starts.queue = [⟨8, 5, 0, .voice, some 0⟩]
      ∧ (t.cue (t.voice 0).cue).bind (·.followOn) = none
      ∧ after (exec (.voiceSampleNeed 0) t) (fun u => ((u.voice 0).state, (u.voice 0).offset)) = some (.priming, 5) := by
  unfold Settled; decide +kernel

/-- A sum just inside the range and one just beyond it. -/
theorem witness_OutputIsTheClampedSum :
    let s (x : Sample) := (playing.setGiven 0 (some x)).setMix 0 ⟨0, some ⟨0, 32768⟩, none⟩
    let t := (s 32767).setGiven 1 (some 1) |>.setMix 1 ⟨0, some ⟨0, 32768⟩, none⟩
    (s 32767).inReset = false ∧ (s 32767).clock.hadOutput = false ∧ (s 32767).station = .running
      ∧ progSum (s 32767) = 32767 ∧ progSum t = 32768 ∧ loading.station = .loading := by decide

theorem witness_BoundaryDucksEveryClass :
    playing.inReset = false ∧ playing.mixer.phase = 0 ∧ playing.clock.hadBoundary = false := by decide

theorem witness_BoundaryCountsEveryFade :
    let s := live.setVoice 0 { player with fade := some ⟨.fadeIn, 0, 4, some 3⟩ }
    s.inReset = false ∧ s.mixer.phase = 0 ∧ s.clock.hadBoundary = false ∧ (s.voice 0).state = .playing
      ∧ (s.voice 0).fade = some ⟨.fadeIn, 0, 4, some 3⟩ ∧ (s.voice 1).state = .idle := by decide

/-- A fade-in, and a fade-out whose next count is its last. -/
theorem witness_BoundaryFixesEveryGain :
    let s := live.setVoice 0 { player with fade := some ⟨.fadeIn, 0, 4, some 3⟩ }
    let t := live.setVoice 0 { player with state := .fading, fade := some ⟨.fadeOut, 0, 2, some 1⟩ }
    s.inReset = false ∧ s.mixer.phase = 0 ∧ s.clock.hadBoundary = false ∧ (s.voice 0).state = .playing
      ∧ s.cue (s.voice 0).cue = some bed ∧ (s.voice 0).bus = .prog
      ∧ after (exec .controlFrameBoundary t) (fun u => (u.voice 0).fade) = some (some ⟨.fadeOut, 0, 2, some 2⟩) := by
  decide

theorem witness_PrimeDeadlineBeginsPlaying :
    let s := atTime 480 (live.setVoice 0 { player with state := .priming, deadline := some 480 })
    s.inReset = false ∧ (s.voice 0).state = .priming ∧ (s.voice 0).deadline = some 480 ∧ reached s.now 480 = true
      ∧ s.cue (s.voice 0).cue = some bed := by decide

/-- A burst of 64 samples that leaves 192 in the FIFO, and one that leaves 193; a debt equal to the burst. -/
theorem witness_BurstCompletionFillsTheFifo :
    let fill (k d : Nat) := withPort ⟨.voice 0 1, 0, 10, 64, 0⟩
      (live.setVoice 0 { player with fifo := List.replicate k ⟨5, ⟨0, 9, 0⟩⟩, debt := d })
    let s := fill 128 0
    s.inReset = false ∧ Settled s ∧ (∀ u : VoiceId, s.fetch.requests.get u = none) ∧ s.fetch.pass ≠ .running
      ∧ s.fetch.burst = some ⟨.voice 0 (s.voice 0).gen, 0, 10, 64, 0⟩ ∧ (s.voice 0).state = .playing
      ∧ (s.voice 0).fetchDone = false ∧ (s.voice 0).window = some 0
      ∧ s.segment (s.voice 0).fetchPtr.desc = some ⟨0, 100, 0, none⟩ ∧ (s.voice 0).fetchPtr.off + 64 < 100
      ∧ (s.voice 0).debt ≤ 64 ∧ (s.voice 0).fifo.length + 64 = 192 ∧ ((fill 129 0).voice 0).fifo.length + 64 = 193
      ∧ ((fill 128 64).voice 0).debt ≤ 64 := by
  unfold Settled; decide +kernel

/-- A burst to the last sample but one of a pass and to the last; the pass before the last and the last; endless, without and
with tail exit; a next descriptor in the store window, outside it, and none. -/
theorem witness_BurstCompletionFillsTheFifo_pass_ends :
    let common (s : State) (n : Nat) : Prop := s.inReset = false ∧ Settled s
      ∧ (∀ u : VoiceId, s.fetch.requests.get u = none) ∧ s.fetch.pass ≠ .running
      ∧ s.fetch.burst = some ⟨.voice 0 (s.voice 0).gen, 0, 10, n, 0⟩ ∧ (s.voice 0).state = .playing
      ∧ (s.voice 0).fetchDone = false ∧ (s.voice 0).window = some 0 ∧ (s.voice 0).debt ≤ n
      ∧ (s.voice 0).fetchPtr = ⟨0, 10, 0⟩
    common (fetching ⟨0, 75, 0, none⟩ 64 player) 64 ∧ 10 + 64 < 75
      ∧ (∀ r ∈ [0, 1, 255], ∀ d ∈ [none, some 1, some 2], common (fetching ⟨0, 74, r, d⟩ 64 player) 64
          ∧ common (fetching ⟨0, 74, r, d⟩ 64 { player with tail := true }) 64
          ∧ (fetching ⟨0, 74, r, d⟩ 64 player).segment 0 = some ⟨0, 74, r, d⟩)
      ∧ 74 ≤ 10 + 64 ∧ player.fetchPtr.pass < 1 ∧ 0 ≤ player.fetchPtr.pass
      ∧ (let s := fetching ⟨0, 74, 0, some 1⟩ 64 player
        s.segment 1 = some ⟨5, 30, 0, none⟩ ∧ resolve s.tables ⟨5, 30, 0, none⟩ = some 0
          ∧ (s.segment 2).bind (resolve s.tables) = none) := by
  unfold Settled; decide +kernel

theorem witness_FirstBurstEndsPriming :
    let s := withPort ⟨.voice 0 1, 0, 10, 64, 0⟩ (live.setVoice 0 { player with state := .priming, fifo := [] })
    s.inReset = false ∧ Settled s ∧ (∀ u : VoiceId, s.fetch.requests.get u = none)
      ∧ s.fetch.burst = some ⟨.voice 0 (s.voice 0).gen, 0, 10, 64, 0⟩ ∧ (s.voice 0).state = .priming
      ∧ (s.voice 0).fetchDone = false ∧ (s.voice 0).window.isSome = true ∧ (s.voice 0).fifo = [] ∧ (s.voice 0).debt = 0
      ∧ s.cue (s.voice 0).cue = some bed ∧ s.segment (s.voice 0).fetchPtr.desc = some ⟨0, 100, 0, none⟩
      ∧ (s.voice 0).fetchPtr.off + 64 < 100 ∧ 64 ≤ 64 := by
  unfold Settled; decide

/-- A voice restarted since, and a voice that is IDLE. -/
theorem witness_StaleBurstIsDiscardedWhole :
    let s := withPort ⟨.voice 0 0, 0, 10, 64, 0⟩ playing
    s.inReset = false ∧ Settled s ∧ (∀ u : VoiceId, s.fetch.requests.get u = none) ∧ s.fetch.pass ≠ .running
      ∧ s.fetch.burst = some ⟨.voice 0 0, 0, 10, 64, 0⟩ ∧ (s.voice 0).gen ≠ 0 ∧ (s.voice 1).state = .idle := by
  unfold Settled; decide

/-- The preload pass running; two requests of equal priority, the longer wait first; a debt that a pass end comes amid; one
that a chain end comes amid. -/
theorem witness_StaleBurstIsDiscardedWhole_grants :
    let stale (s : State) : State := withPort ⟨.voice 0 0, 0, 10, 64, 0⟩ s
    let pre : State := stale { playing with
      fetch := { live.fetch with pass := .running, work := some ⟨7, 40, 70, 64, 0, 0⟩ } }
    let asking (r d : Nat) : State :=
      let s := fetching ⟨0, 12, r, none⟩ 64 { player with debt := d }
      stale { s.setVoice 1 player with
        fetch := { s.fetch with requests := upd (upd s.fetch.requests 0 (some 750)) 1 (some 751) }
        clock := { s.clock with micros := 1000 } }
    pre.fetch.pass = .running ∧ pre.fetch.work = some ⟨7, 40, 70, 64, 0, 0⟩
      ∧ (∀ u : VoiceId, pre.fetch.requests.get u = none)
      ∧ (∀ r ∈ [0, 1], Settled (asking r 3) ∧ (asking r 3).fetch.requests.get 0 = some 750
        ∧ (asking r 3).fetch.requests.get 1 = some 751 ∧ (asking r 3).voice 0 = { player with debt := 3 }
        ∧ (asking r 3).tables.segments.toList.all (fun x => x.all fun k => decide (1 ≤ k.length)) = true
        ∧ ((asking r 3).segment 0).all (fun k => decide (10 < k.length)) = true)
      ∧ after (exec (.burstComplete (Vector.replicate 64 3)) (asking 1 3)) (fun t => ((t.voice 0).fetchPtr, t.fetch.burst))
          = some (⟨0, 1, 1⟩, some ⟨.voice 0 1, 0, 1, 11, 40⟩)
      ∧ after (exec (.burstComplete (Vector.replicate 64 3)) (asking 0 3))
          (fun t => ((t.voice 0).fetchDone, (t.voice 0).debt, t.fetch.burst.map (·.req))) = some (true, 0, some (.voice 1 1)) := by
  unfold Settled; decide +kernel

/-- A burst that ends a head and one that does not. -/
theorem witness_PreloadBurstWritesTheHead :
    let work (k : Nat) : State :=
      { live with fetch := { live.fetch with
          burst := some ⟨.preload, 0, 0, 64, 0⟩, pass := .running, work := some ⟨7, 40, k, 0, 0, 0⟩ } }
    let s := work 64
    s.inReset = false ∧ Settled s ∧ (∀ u : VoiceId, s.fetch.requests.get u = none) ∧ 64 ≤ 64
      ∧ s.fetch.burst = some ⟨.preload, 0, 0, 64, 0⟩ ∧ s.fetch.work = some ⟨7, 40, 64, 0, 0, 0⟩ ∧ s.fetch.pass = .running
      ∧ PreloadOk s ∧ 64 ≤ 0 + 64 ∧ (work 65).fetch.work = some ⟨7, 40, 65, 0, 0, 0⟩ ∧ 0 + 64 < 65 := by
  unfold Settled PreloadOk; decide

/-- After the head's last burst: cue 8's first segment is outside the window, the head of cue 9 is one sample too long or fits. -/
theorem witness_PreloadBurstWritesTheHead_pass :
    let s (k : Nat) : State :=
      let d := fetching ⟨0, 12, 0, none⟩ 0 Voice.reset
      withCue 9 { bed with headLen := k } (withCue 8 { bed with first := 2, headLen := 5 } { d with fetch := { d.fetch with
        burst := some ⟨.preload, 0, 0, 64, 0⟩, pass := .running, work := some ⟨7, 40, 64, 0, 0, 0⟩
        nextCue := 8, alloc := 32758 } })
    let got (k : Nat) := after (exec (.preloadBurstComplete (Vector.replicate 64 0)) (s k)) fun t =>
      (t.fetch.pass, t.fetch.work, t.fetch.nextCue, t.counter .storeFault)
    (∀ k ∈ [10, 11], Settled (s k) ∧ PreloadOk (s k) ∧ CountersOk (s k) ∧ (∀ u : VoiceId, (s k).fetch.requests.get u = none))
      ∧ got 10 = some (.running, some ⟨9, 32758, 10, 0, 0, 0⟩, 10, 1) ∧ got 11 = some (.done, none, 256, 1) := by
  unfold Settled PreloadOk CountersOk; decide +kernel

theorem witness_BeatBoundaryReleasesEveryBeatEntry :
    let s := atTime 480 (withCue 7 { bed with beat := some 480 }
      { playing with beatRef := some 0, starts := { live.starts with queue := [⟨7, 0, 0, .beat, none⟩] } })
    s.inReset = false ∧ Settled s ∧ s.beatRef = some 0 ∧ s.bedBeat 0 = some 480 ∧ 0 < 1 ∧ 0 < 480
      ∧ since s.now (s.voice 0).playTime = 1 * 480 ∧ s.clock.hadBeat.get 0 = false := by
  unfold Settled; decide

/-- A reference voice whose chain is spent at the boundary; an entry that reserves an IDLE voice, a FADING one or none; a victim
at the limit of one voice; and a class that is full, steals none and never waits. -/
theorem witness_BeatBoundaryReleasesEveryBeatEntry_releases :
    let e (r : Option VoiceId) : Entry := ⟨7, 0, 0, .beat, r⟩
    let s (r : Option VoiceId) : State := waiting [e r] playing
    let t := withClass (fun k => { k with polyphony := 1, steal := .oldest }) (s none)
    let u := withClass (fun k => { k with polyphony := 1 }) (s none)
    let spent := atTime 480 (withCue 7 { bed with beat := some 480 }
      { live.setVoice 0 { player with fifo := [], fetchDone := true } with beatRef := some 0 })
    (spent.voice 0).state = .playing ∧ spent.mixer.given.get 0 = none ∧ (spent.voice 0).headLen ≤ (spent.voice 0).headPos
      ∧ (spent.voice 0).fifo = [] ∧ (spent.voice 0).fetchDone = true ∧ spent.bedBeat 0 = some 480
      ∧ since spent.now (spent.voice 0).playTime = 1 * 480 ∧ spent.clock.hadBeat.get 0 = false
      ∧ (s (some 1)).voice 1 = Voice.reset ∧ ((s (some 0)).voice 0).state ≠ .idle
      ∧ (s none).occupancy 0 < ((s none).cls 0).polyphony ∧ (s none).lowestFree = some 1
      ∧ (∀ x ∈ [t, u], e none ∈ x.starts.queue ∧ x.classOf 7 = 0 ∧ (x.cls 0).polyphony ≤ x.occupancy 0)
      ∧ Victim t 0 0 ∧ (∀ v : VoiceId, ¬ Victim u 0 v) ∧ (u.cls 0).maxWait = 0
      ∧ (withClass (fun k => { k with polyphony := 1, maxWait := 1 }) (s none)).cls 0
          = { defaultClass with polyphony := 1, maxWait := 1 } := by
  refine ⟨by decide, by decide, by decide, by decide, by decide, by decide, by decide, by decide, by decide, by decide,
    by decide, by decide, by decide, ?_, ?_, by decide, by decide⟩
  · unfold Victim; rw [if_pos (by decide)]; decide
  · intro v h; unfold Victim at h; rw [if_pos (by decide)] at h; exact h.1 (by decide)

/-- An entry that has waited its class's max wait to the sample frame, one a sample frame short, and one of reason BEAT. -/
theorem witness_PendingExpiryRemovesTheEntry :
    let e : Entry := ⟨7, 0, 0, .voice, none⟩
    let s (t : Time) (e : Entry) := atTime t
      { busy with
        tables := { desk with classes := upd desk.classes 0 { defaultClass with maxWait := 1 } }
        starts := { live.starts with queue := [e] } }
    (s 48 e).inReset = false ∧ Settled (s 48 e) ∧ StartQueueOk (s 48 e) ∧ e ∈ (s 48 e).starts.queue
      ∧ ((s 48 e).cls ((s 48 e).classOf 7)).maxWait * 48 ≤ since (s 48 e).now e.enq ∧ (s 48 e).lowestFree = none
      ∧ since (s 47 e).now e.enq < ((s 47 e).cls ((s 47 e).classOf 7)).maxWait * 48
      ∧ StartQueueOk (s 48 { e with reason := .beat }) := by
  unfold Settled StartQueueOk; decide

theorem witness_ServingLeavesNoFreeVoiceBesideAnEntry :
    ({ live with starts := { live.starts with queue := List.replicate 16 ⟨7, 0, 0, .voice, none⟩ } } : State).starts.queue.length
      ≤ 16 := by decide

/-- A bound input whose contact closes, one that is not bound, and a contact that is as it was. -/
theorem witness_ContactChangeRestartsTheFilter :
    let s := pressed button live
    s.inReset = false ∧ s.station ≠ .loading ∧ s.triggers.contacts.get 1 ≠ true ∧ s.tables.triggers.get 1 = some button
      ∧ s.tables.triggers.get 0 = none ∧ s.triggers.contacts.get 0 = false := by decide

/-- A level as recognized, and each kind of action on a press. -/
theorem witness_FilterExpiryRecognizesAndActs :
    let s := pressed button live
    let known := { s with triggers := { s.triggers with recognized := upd s.triggers.recognized 1 true } }
    s.inReset = false ∧ s.tables.triggers.get 1 = some button ∧ s.triggers.timers.get 1 = some 0 ∧ reached s.now 0 = true
      ∧ s.triggers.recognized.get 1 ≠ s.triggers.raw.get 1 ∧ button.press = some (.play 7)
      ∧ known.triggers.recognized.get 1 = known.triggers.raw.get 1 ∧ known.tables.triggers.get 1 = some button
      ∧ known.triggers.timers.get 1 = some 0
      ∧ (∀ a ∈ [none, some (.stopLocal .all .cut), some (.send 1 0), some (.stopLine .all .cut), some (.release 2 .wrong),
            some (.segment 1 1 true)],
          (pressed { button with press := a } live).tables.triggers.get 1 = some { button with press := a }) := by decide

/-- Every branch of R107: LISTENING, not enabled, duplicate, excluded, and the four view states. -/
theorem witness_ClaimPressIsCheckedInOrder :
    let b : Binding := ⟨.closed, 20, some (.claim 2), none⟩
    let s := pressed b live
    s.inReset = false ∧ s.tables.triggers.get 1 = some b ∧ s.triggers.timers.get 1 = some 0 ∧ reached s.now 0 = true
      ∧ s.triggers.raw.get 1 = true ∧ s.triggers.recognized.get 1 = false ∧ b.press = some (.claim 2)
      ∧ (s.tables.groups.get 2).enabled = false := by decide

/-- A CLAIM as the action of a release, and what it does in FREE. -/
theorem witness_ClaimPressIsCheckedInOrder_release :
    let b : Binding := ⟨.closed, 20, none, some (.claim 2)⟩
    let d := pressed b { live with tables := { desk with groups := upd desk.groups 2 { noGroup with enabled := true } } }
    let s : State := { d with triggers := { d.triggers with
      raw := upd d.triggers.raw 1 false, recognized := upd d.triggers.recognized 1 true } }
    s.tables.triggers.get 1 = some b ∧ s.triggers.timers.get 1 = some 0 ∧ s.triggers.raw.get 1 = false
      ∧ s.triggers.recognized.get 1 ≠ false ∧ (if false then b.press else b.release) = some (.claim 2)
      ∧ after (exec (.triggerFilterExpiry 1) s) (fun t => ((t.view 2).state, t.line.queue.map (·.body)))
          = some (.claiming, [.claim 2 0 0]) := by decide

/-- A station in LOADING, and one whose strap number is 0. -/
theorem witness_OfferJoinsMergesEvictsOrIsDropped_silent :
    loading.station = .loading ∧ ({ live with number := 0 } : State).number = 0
      ∧ (offer .presence loading).line.queue = [] ∧ (offer .presence { live with number := 0 }).line.queue = [] := by decide

/-- Queues of 0, 7 and 8 frames, and one that holds a PRESENCE. -/
theorem witness_OfferJoinsMergesEvictsOrIsDropped :
    let full (n : Nat) : State :=
      { live with line := { live.line with
          queue := (List.range n).map fun i => ⟨i, .fire 1 0, 0, 0, false⟩, nextIdent := 9 } }
    live.station ≠ .loading ∧ live.number ≠ 0 ∧ TxQueueOk live ∧ TxQueueOk (full 7) ∧ (full 7).line.queue.length < 8
      ∧ TxQueueOk (full 8) ∧ (full 8).line.queue.length = 8
      ∧ (full 8).line.queue = (full 7).line.queue ++ ⟨7, .fire 1 0, 0, 0, false⟩ :: []
      ∧ (full 8).inFlight ≠ some 7 ∧ ((full 8).line.queue.Pairwise fun x y => x.ident ≠ y.ident)
      ∧ TxQueueOk (withTx .presence live) ∧ (∃ e ∈ (withTx .presence live).line.queue, e.body = .presence) := by
  unfold TxQueueOk; decide +kernel

/-- The owner of each evicted or dropped frame, and a holdoff whose frame stays the head or does not. -/
theorem witness_OfferJoinsMergesEvictsOrIsDropped_owners :
    let full (b : TxBody) (s : State) : State := { s with line := { s.line with
      queue := ((List.range 7).map fun i => ⟨i, .claim (Fin.ofNat 16 (3 + i)) 0 0, 0, 0, false⟩) ++ [⟨7, b, 0, 0, false⟩] } }
    let view (w : View) (f : View → Bool) (off : TxBody) (q : TxBody) : Bool := f ((offer off (full q (withView w live))).view 2)
    (∀ b ∈ [TxBody.presence, .status, .release 2 0 0 .timeout], TxQueueOk (full b live) ∧ (full b live).inFlight ≠ some 7
        ∧ ((full b live).line.queue.Pairwise fun x y => x.ident ≠ y.ident))
      ∧ (offer (.fire 1 0) (full .presence live)).peers.presenceTimer = some 12000
      ∧ (offer (.fire 1 0) { full .status live with answers := some ⟨0x20, true⟩ }).answers = none
      ∧ (offer .status { full .presence live with answers := some ⟨0x20, true⟩ }).answers = none
      ∧ view { mine with timer := .expired, timeoutQueued := true } (! ·.timeoutQueued) (.hold 2 0 0) (.release 2 0 0 .timeout)
      ∧ view { View.reset with state := .claiming } (·.state == .free) (.claim 2 0 0) (.claim 10 0 0)
      ∧ [TxBody.hold 2 0 0, .fire 2 0].map (fun b => (offer b (idleLine 5 (.holdoff 0 40) (withTx (.fire 1 0) live))).line.activity)
          = [.none, .holdoff 0 40] := by
  unfold TxQueueOk; decide +kernel

theorem witness_HoldoffBeginsAtTheReferenceSlot :
    let s : State := { live with line := { live.line with rest := some 16 } }
    let t := withTx (.fire 1 0) s
    let u := idleLine 5 .none t
    s.inReset = false ∧ s.line.phase = .busy ∧ s.driving = false ∧ s.line.rest = some 16 ∧ 16 ≤ 16 ∧ s.candidate = none
      ∧ t.candidate = some ⟨0, .fire 1 0, 0, 0, false⟩ ∧ u.line.phase = .idle ∧ u.line.slotAge = 0
      ∧ u.line.activity = .none ∧ u.candidate = some ⟨0, .fire 1 0, 0, 0, false⟩ := by decide

theorem witness_LineBusyDefersTheHoldoff :
    let s := idleLine 5 (.holdoff 0 40) (withTx (.fire 1 0) live)
    s.inReset = false ∧ s.driving = false := by decide

theorem witness_SendSlotFixesTheFrame :
    let s := idleLine 40 (.holdoff 0 40) (withTx (.claim 2 0 0) live)
    s.inReset = false ∧ s.line.phase = .idle ∧ s.line.slotAge = 0 ∧ s.line.activity = .holdoff 0 s.line.slot
      ∧ s.line.queue.find? (fun x => x.ident == 0) = some ⟨0, .claim 2 0 0, 0, 0, false⟩ := by decide

/-- A STATUS to its one querier, and one to two. -/
theorem witness_SendSlotFixesTheFrame_status :
    let s (q : StationSet) : State := { idleLine 40 (.holdoff 0 40) (withTx .status live) with answers := some ⟨q, false⟩ }
    let dst (q : StationSet) := after (exec .sendSlot (s q)) fun t =>
      match t.line.activity with
      | .sending _ f => some f.dst
      | .none | .holdoff _ _ | .jamming => none
    (s 0x20).answers = some ⟨0x20, false⟩ ∧ inSet 5 0x20 = true ∧ (∀ y : Station, y ≠ 0 → y ≠ 5 → inSet y 0x20 = false)
      ∧ inSet 5 0x60 = true ∧ inSet 6 0x60 = true ∧ dst 0x20 = some (some 5) ∧ dst 0x60 = some (some 0) := by decide +kernel

/-- An own frame of each kind at its completion; a group whose timeout release is to be offered again. -/
theorem witness_OwnFrameActsAtItsCompletion :
    let s (b : TxBody) := sending ⟨1, 3, 0, [0, 7, 0, 0]⟩ (withTx b live)
    (∀ b ∈ [.fire 7 0, .stop .all .cut, .segment 1 1 true, .hold 2 0 0, .presence, .status],
      (s b).inReset = false ∧ (s b).line.activity = .sending 0 ⟨1, 3, 0, [0, 7, 0, 0]⟩ ∧ (s b).line.driveLeft = 0
        ∧ (s b).line.queue.find? (fun x => x.ident == 0) = some ⟨0, b, 0, 0, false⟩)
      ∧ (∀ g : GroupId, ((s .presence).view g).state ≠ .heldMe)
      ∧ (let t := withView { mine with timer := .expired } (s .presence)
        (t.view 2).state = .heldMe ∧ (t.view 2).timer = .expired ∧ t.releaseQueued 2 = false
          ∧ ∀ h : GroupId, h ≠ 2 → (t.view h).state ≠ .heldMe)
      ∧ ({ s .status with answers := some ⟨0x20, true⟩ } : State).answers = some ⟨0x20, true⟩ := by decide

theorem witness_OwnClaimAndReleaseActAtCompletion :
    let s := sending ⟨3, 3, 0, [0, 2, 0]⟩ (withTx (.claim 2 0 0) (withView { View.reset with state := .claiming } live))
    let t := sending ⟨5, 3, 0, [0, 2, 0, 2]⟩ (withTx (.release 2 0 0 .wrong) (withView mine live))
    s.inReset = false ∧ s.line.activity = .sending 0 ⟨3, 3, 0, [0, 2, 0]⟩ ∧ s.line.driveLeft = 0
      ∧ s.line.queue.find? (fun x => x.ident == 0) = some ⟨0, .claim 2 s.groups.showNo (s.view 2).epoch, 0, 0, false⟩
      ∧ (s.view 2).state = .claiming ∧ (s.groupCfg 2).wonCue = none
      ∧ t.line.queue.find? (fun x => x.ident == 0)
          = some ⟨0, .release 2 t.groups.showNo (t.view 2).epoch .wrong, 0, 0, false⟩ := by decide

/-- A group with a won cue and an answer time; a wrong and a clearing verdict on a view held here, with the holder to be excluded,
and on one still CLAIMING. -/
theorem witness_OwnClaimAndReleaseActAtCompletion_verdicts :
    let cfg : GroupCfg := { noGroup with excludeOnWrong := true, wonCue := some 7, answerTime := 1 }
    let at2 (w : View) (b : TxBody) : State :=
      sending ⟨5, 3, 0, [0, 2, 0, 2]⟩ (withTx b (withView w
        { live with tables := { desk with groups := upd desk.groups 2 cfg } }))
    let s := at2 { View.reset with state := .claiming } (.claim 2 0 0)
    (s.groupCfg 2).wonCue = some 7 ∧ (s.view 2).state = .claiming
      ∧ after (exec .transmitComplete s) (fun t => ((t.view 2).timer, (t.voice 0).state)) = some (.running 4800, .priming)
      ∧ (∀ v ∈ [Verdict.wrong, .clear], (at2 mine (.release 2 0 0 v)).line.queue.find? (fun x => x.ident == 0)
          = some ⟨0, .release 2 0 0 v, 0, 0, false⟩ ∧ ((at2 mine (.release 2 0 0 v)).groupCfg 2).excludeOnWrong = true)
      ∧ after (exec .transmitComplete (at2 { mine with timer := .expired } (.release 2 0 0 .wrong)))
          (fun t => ((t.view 2).excl, (t.view 2).timer)) = some (8, .stopped)
      ∧ after (exec .transmitComplete (at2 { View.reset with state := .claiming, excl := 4 } (.release 2 0 0 .clear)))
          (fun t => ((t.view 2).excl, t.counter .claimLost)) = some (0, 1) := by decide +kernel

/-- A first attempt, the last one, and a frame whose removal is held. -/
theorem witness_CollisionJamsAndRetriesOrDrops :
    let s (k : Nat) (r : Bool) : State := sending ⟨3, 3, 0, [0, 2, 0]⟩
      { live with line := { live.line with queue := [⟨0, .claim 2 0 0, 0, k, r⟩] } }
    (s 0 false).inReset = false ∧ (s 0 false).line.activity = .sending 0 ⟨3, 3, 0, [0, 2, 0]⟩
      ∧ (s 14 false).line.queue.find? (fun x => x.ident == 0) = some ⟨0, .claim 2 0 0, 0, 14, false⟩ ∧ 14 < 15
      ∧ (s 15 false).line.queue.find? (fun x => x.ident == 0) = some ⟨0, .claim 2 0 0, 0, 15, false⟩ ∧ 15 ≤ 15
      ∧ (s 0 true).line.queue.find? (fun x => x.ident == 0) = some ⟨0, .claim 2 0 0, 0, 0, true⟩ := by decide

/-- Eleven and twelve bit times of ACTIVE at a broken stop bit. -/
theorem witness_JamsAndFailedReceptionsEnd :
    let s : State := { live with line := { live.line with activity := .jamming } }
    s.inReset = false ∧ s.line.activity = .jamming ∧ s.line.driveLeft = 0 ∧ live.driving = false
      ∧ rxOutcome ⟨[0xD3], .active 11⟩ = .bad ∧ rxOutcome ⟨[0xD3], .active 12⟩ = .jammed
      ∧ (protocolFault ⟨11, 5, 0, []⟩).isSome = true
      ∧ live.receiving = true ∧ loading.receiving = false ∧ loading.driving = false
      ∧ rxOutcome ⟨[0x53], .rest⟩ = .bad ∧ rxOutcome ⟨[0], .trailing⟩ = .bad
      ∧ after (exec (.rxBad ⟨[0], .trailing⟩) (hearing .frameEnded none)) (·.line.rx) = some (.hunting 1)
      ∧ after (exec .jamEnd s) (·.line.rx) = some .activeHeld
      ∧ (hearing (.broken [0xD3] 12) none).line.rx = .broken [0xD3] 12
      ∧ (hearing .frameEnded none).line.rx = .frameEnded ∧ live.line.rx ≠ .frameEnded := by decide +kernel

/-- A frame in LOADING, one with the own number, one addressed elsewhere; a STALE source that holds a group. -/
theorem witness_GoodFramesAreHandedOnByAddress :
    let i := Instr.fireReceived 5 4 0 7 0 0
    let s := withView { theirs with stale := true } (live.setPeer 5 { Peer.reset with state := .stale })
    loading.inReset = false ∧ loading.driving = false ∧ loading.station = .loading ∧ (5 : Station) ≠ 0
      ∧ (∃ a b c d, i = .fireReceived 5 4 a b c d) ∧ s.inReset = false ∧ s.driving = false ∧ s.station ≠ .loading
      ∧ (3 : Station) = s.number ∧ (5 : Station) ≠ s.number ∧ (4 : Byte) ≠ 0 ∧ (4 : Byte) ≠ BitVec.ofNat 8 s.number.val
      ∧ (s.peer 5).state = .stale ∧ (s.view 2).state = .heldOther ∧ (s.view 2).holder = some 5
      ∧ s.receiving = true ∧ loading.receiving = false :=
  ⟨by decide, by decide, by decide, by decide, ⟨_, _, _, _, rfl⟩, by decide, by decide, by decide, by decide, by decide,
    by decide, by decide, by decide, by decide, by decide, by decide, by decide⟩

theorem witness_FireStartsAStreamingVoice :
    let s := withPort running live
    HandsOn s 5 0 ∧ NoStartWaits s ∧ mapLineCue s.tables (fireLineCue 0 7) = some 7 ∧ s.cue 7 = some bed
      ∧ s.starts.mask.getLsbD bed.cls.val = true ∧ s.cueLive 7 = false ∧ bed.choke = 0 ∧ bed.mode = .immediate
      ∧ s.occupancy bed.cls < (s.cls bed.cls).polyphony ∧ s.lowestFree = some 0 ∧ s.preload.heads.get 7 = none
      ∧ s.segment bed.first = some ⟨0, 100, 0, none⟩ ∧ resolve s.tables ⟨0, 100, 0, none⟩ = some 0
      ∧ s.fetch.burst = some running ∧ running.req ≠ .voice 0 ((s.voice 0).gen + 1) ∧ s.fetch.requests.get 0 = none := by
  unfold HandsOn NoStartWaits Settled; decide

/-- An idle port that nothing requests, and a first segment outside the store window. -/
theorem witness_FireStartsAStreamingVoice_idle_port_and_fault :
    let u : State := withCue 7 { bed with first := 2 } (fetching ⟨0, 100, 0, none⟩ 0 Voice.reset)
    live.fetch.burst = none ∧ (∀ y : VoiceId, live.fetch.requests.get y = none) ∧ HandsOn u 5 0 ∧ NoStartWaits u
      ∧ (u.segment 2).bind (resolve u.tables) = none ∧ u.beatRef ≠ some 0 ∧ u.lowestFree = some 0
      ∧ after (exec (.fireReceived 5 0 0 7 0 0) u) (fun t => (t.voice 0).state) = some .idle
      ∧ after (exec (.fireReceived 5 0 0 7 0 0) u) (fun t => ((t.voice 0).gen, t.counter .storeFault))
          = some ((u.voice 0).gen + 1, 1) := by
  unfold HandsOn NoStartWaits Settled; decide +kernel

/-- A head of one sample and one of all the first segment but a sample. -/
theorem witness_FireStartsAHeadLoadedVoice :
    let s (n : Nat) : State :=
      { withPort running live with preload := { live.preload with heads := upd live.preload.heads 7 (some ⟨0, n⟩) } }
    HandsOn (s 99) 5 0 ∧ NoStartWaits (s 99) ∧ mapLineCue (s 99).tables (fireLineCue 0 7) = some 7 ∧ (s 99).cue 7 = some bed
      ∧ (s 99).starts.mask.getLsbD bed.cls.val = true ∧ (s 99).cueLive 7 = false
      ∧ (s 99).occupancy bed.cls < ((s 99).cls bed.cls).polyphony ∧ (s 99).lowestFree = some 0
      ∧ (s 99).preload.heads.get 7 = some ⟨0, 99⟩ ∧ (s 99).segment bed.first = some ⟨0, 100, 0, none⟩ ∧ 99 < 100
      ∧ resolve (s 99).tables ⟨0, 100, 0, none⟩ = some 0 ∧ (s 99).fetch.burst = some running
      ∧ (s 99).fetch.requests.get 0 = none ∧ (s 1).preload.heads.get 7 = some ⟨0, 1⟩ := by
  unfold HandsOn NoStartWaits Settled; decide

/-- A head as long as the first segment: another pass, endless, a next in the window, one outside it, and none. -/
theorem witness_FireStartsAHeadLoadedVoice_whole_segment :
    let s (r : Nat) (d : Option SegIdx) : State :=
      let f := fetching ⟨0, 12, r, d⟩ 0 Voice.reset
      { f with preload := { f.preload with heads := upd f.preload.heads 7 (some ⟨0, 12⟩) }, fetch := Fetch.reset }
    let got (r : Nat) (d : Option SegIdx) := after (exec (.fireReceived 5 0 0 7 0 0) (s r d)) fun t =>
      ((t.voice 0).state, (t.voice 0).fetchPtr, (t.voice 0).inFlight, t.counter .storeFault)
    (∀ r ∈ [0, 1, 255], ∀ d ∈ [none, some 1, some 2], HandsOn (s r d) 5 0 ∧ NoStartWaits (s r d)
        ∧ (s r d).lowestFree = some 0 ∧ (s r d).segment bed.first = some ⟨0, 12, r, d⟩ ∧ (s r d).fetch.burst = none
        ∧ resolve (s r d).tables ⟨0, 12, r, d⟩ = some 0)
      ∧ [got 1 none, got 255 (some 2), got 0 (some 1), got 0 (some 2), got 0 none]
        = [some (.playing, ⟨0, 0, 1⟩, 12, 0), some (.playing, ⟨0, 0, 1⟩, 12, 0), some (.playing, ⟨1, 0, 0⟩, 30, 0),
          some (.fading, ⟨2, 0, 0⟩, 0, 1), some (.playing, ⟨0, 12, 0⟩, 0, 0)] := by
  unfold HandsOn NoStartWaits Settled
  exact ⟨by decide +kernel, by decide +kernel⟩

/-- A line cue beyond the window, an invalid cue, a masked class, a cue already pending with no voice free. -/
theorem witness_FireIsRefusedWithoutEffect :
    let masked : State := { live with starts := { live.starts with mask := 0xFE } }
    let waits : State := { busy with starts := { live.starts with queue := [⟨7, 0, 0, .voice, none⟩] } }
    HandsOn live 5 0 ∧ Settled live ∧ live.starts.queue = [] ∧ mapLineCue live.tables (fireLineCue 1 0) = none
      ∧ mapLineCue live.tables (fireLineCue 0 8) = some 8 ∧ live.cue 8 = none
      ∧ HandsOn masked 5 0 ∧ Settled masked ∧ masked.cue 7 = some bed ∧ masked.starts.mask.getLsbD bed.cls.val = false
      ∧ HandsOn waits 5 0 ∧ Settled waits ∧ waits.lowestFree = none ∧ (∃ e ∈ waits.starts.queue, e.cue = 7)
      ∧ waits.starts.mask.getLsbD bed.cls.val = true := by
  unfold HandsOn Settled; decide

/-- All voices taken, and RESTART of the one that plays cue 7. -/
theorem witness_FireRetriggersWaitsOrIsLost :
    let s := busy.setVoice 0 player
    HandsOn s 5 0 ∧ NoStartWaits s ∧ mapLineCue s.tables (fireLineCue 0 7) = some 7 ∧ s.cue 7 = some bed
      ∧ s.starts.mask.getLsbD bed.cls.val = true ∧ bed.choke = 0 ∧ bed.mode = .immediate ∧ s.lowestFree = none
      ∧ bed.retrigger = .restart ∧ (s.voice 0).state = .playing ∧ (s.voice 0).cue = 7
      ∧ (∀ v : VoiceId, v ≠ 0 → (s.voice v).cue = 7 → (s.voice v).state = .idle ∨ (s.voice v).state = .fading) := by
  unfold HandsOn NoStartWaits Settled; decide

/-- All voices taken: IGNORE, and a class that never waits or waits. -/
theorem witness_FireRetriggersWaitsOrIsLost_other_cases :
    let t := withCue 7 { bed with retrigger := .ignore } (busy.setVoice 0 player)
    let u : State := { busy with tables := { desk with classes := upd desk.classes 0 { defaultClass with maxWait := 1 } } }
    HandsOn t 5 0 ∧ NoStartWaits t ∧ t.cueLive 7 = true ∧ t.lowestFree = none
      ∧ HandsOn busy 5 0 ∧ NoStartWaits busy ∧ busy.lowestFree = none ∧ busy.cueLive 7 = false
      ∧ (busy.cls bed.cls).steal = .none ∧ (busy.cls bed.cls).maxWait = 0
      ∧ HandsOn u 5 0 ∧ NoStartWaits u ∧ u.lowestFree = none ∧ 0 < (u.cls bed.cls).maxWait := by
  unfold HandsOn NoStartWaits Settled; decide

/-- Voices of another cue of the choke set, PLAYING and PRIMING; a NEXT_BEAT cue beside a reference; victims at the limit of the
class and of the worst class beyond it, of two that are equally old; and 16 entries beside a better entry and an equal one. -/
theorem witness_FireRetriggersWaitsOrIsLost_choke_beat_steal :
    let k := withCue 8 { bed with choke := 1 } (withCue 7 { bed with choke := 1 }
      ((live.setVoice 0 { player with cue := 8 }).setVoice 1 { player with cue := 8, state := .priming }))
    let b := withCue 7 { bed with mode := .nextBeat, retrigger := .layer } { playing with beatRef := some 0 }
    let l := withClass (fun r => { r with polyphony := 2, steal := .oldest }) (playing.setVoice 1 { player with cue := 8 })
    let w := withClass (fun r => { r with priority := 3, steal := .lowest })
      { live with voices := Vector.replicate 8 { player with cue := 8, cls := 1 } }
    let full := waiting ((List.range 16).map fun i => ⟨Fin.ofNat 256 (20 + i), 0, 0, .beat, none⟩) live
    (HandsOn k 5 0 ∧ Settled k ∧ k.cue 7 = some { bed with choke := 1 } ∧ k.cue 8 = some { bed with choke := 1 }
        ∧ (k.voice 0).state = .playing ∧ (k.voice 1).state = .priming ∧ k.starts.queue = [])
      ∧ (HandsOn b 5 0 ∧ Settled b ∧ b.beatRef ≠ none ∧ (0 : Byte).getLsbD 0 = false)
      ∧ (HandsOn l 5 0 ∧ Settled l ∧ Victim (choke 7 bed (heard 5 l)) 0 0)
      ∧ (HandsOn w 5 0 ∧ Settled w ∧ w.lowestFree = none ∧ Victim (choke 7 bed (heard 5 w)) 0 0)
      ∧ full.starts.queue.length = 16
      ∧ (∀ a ∈ full.starts.queue, a = ⟨35, 0, 0, .beat, none⟩ ∨ full.entryBefore a ⟨35, 0, 0, .beat, none⟩ = true)
      ∧ full.entryPriority ⟨7, 0, 0, .voice, none⟩ = full.entryPriority ⟨35, 0, 0, .beat, none⟩
      ∧ (withClass (fun r => { r with priority := 6 }) (waiting [⟨35, 0, 0, .beat, none⟩]
          (withCue 35 { bed with cls := 1 } live))).entryPriority ⟨7, 0, 0, .voice, none⟩ = 6 := by
  unfold HandsOn Settled
  refine ⟨by decide +kernel, by decide +kernel, ⟨by decide +kernel, by decide +kernel, ?_⟩,
    ⟨by decide +kernel, by decide +kernel, by decide +kernel, ?_⟩, by decide +kernel⟩
  · unfold Victim; rw [if_pos (by decide +kernel)]; decide +kernel
  · unfold Victim; rw [if_neg (by decide +kernel)]
    exact ⟨by decide +kernel, by decide +kernel, by
      show ∀ x : VoiceId, x ≠ 0 → (_ ∧ _) → (_ ∨ _)
      decide +kernel⟩

/-- The codes either side of each range, and the last class. -/
theorem witness_StopActsOnEveryMatchingVoice :
    HandsOn playing 5 0 ∧ NoStartWaits playing ∧ 3 ≤ (3 : Byte).toNat ∧ (2 : Byte).toNat < 3
      ∧ (word16 0 8).toNat = 8 ∧ (word16 0 7).toNat = 7 ∧ mapLineCue playing.tables (BitVec.ofNat 12 (word16 1 0).toNat) = none
      ∧ mapLineCue playing.tables (BitVec.ofNat 12 (word16 0 7).toNat) = some (playing.voice 0).cue
      ∧ (playing.voice 0).state = .playing ∧ (playing.voice 1).state = .idle := by
  unfold HandsOn NoStartWaits Settled; decide

/-- An entry of the stopped cue and one of another, and a segment that excludes a waiting entry's class. -/
theorem witness_StopsAndSegments_with_entries :
    let s := waiting [⟨7, 0, 0, .voice, none⟩, ⟨8, 0, 0, .voice, none⟩] (withCue 8 { bed with cls := 1 } busy)
    HandsOn s 5 0 ∧ Settled s ∧ mapLineCue s.tables (BitVec.ofNat 12 (word16 0 7).toNat) = some 7
      ∧ s.classOf 7 = 0 ∧ s.classOf 8 = 1
      ∧ after (exec (.stopReceived 5 0 0 0 7 0) s) (fun t => t.starts.queue.map (·.cue)) = some [8]
      ∧ after (exec (.stopReceived 5 0 1 0 1 0) s) (fun t => t.starts.queue.map (·.cue)) = some [7]
      ∧ after (exec (.segmentReceived 5 4 0xFD 1) s) (fun t => t.starts.queue.map (·.cue)) = some [7] := by
  unfold HandsOn Settled; decide +kernel

theorem witness_SegmentReplacesTheMask :
    HandsOn playing 5 0 ∧ NoStartWaits playing ∧ (0 : Byte).getLsbD 0 = false ∧ (1 : Byte).getLsbD 0 = true
      ∧ (0xFE : Byte).getLsbD (playing.voice 0).cls.val = false ∧ (playing.voice 0).state = .playing
      ∧ playing.cue (playing.voice 0).cue = some bed := by
  unfold HandsOn NoStartWaits Settled; decide

/-- An excluded station, and a view in each state. -/
theorem witness_ClaimIsTakenByTheViewsState :
    let s (w : View) := withView w live
    (∀ w ∈ [View.reset, { View.reset with state := .claiming }, mine, theirs],
      HandsOn (s w) 5 0 ∧ ((heard 5 (s w)).view 2).state = w.state ∧ inSet 5 ((heard 5 (s w)).view 2).excl = false)
      ∧ inSet 5 ((heard 5 (s { View.reset with excl := 0x20 })).view 2).excl = true := by
  unfold HandsOn; decide +kernel

/-- The own age of 10 ms beside ages of 9, 10 and 11 ms, and stations either side of the own number. -/
theorem witness_HoldKeepsTheOlderHolding :
    let s := atTime 480 (withView mine live)
    HandsOn s 5 0 ∧ HandsOn s 2 0 ∧ (s.groupCfg 2).wonCue = none ∧ ((heard 5 s).view 2).state = .heldMe
      ∧ min 65535 (since s.now ((heard 5 s).view 2).claimTime / 48) = 10 ∧ inSet 5 ((heard 5 s).view 2).excl = false
      ∧ (10 < (11 : BitVec 16).toNat) ∧ (10 = (10 : BitVec 16).toNat ∧ (2 : Station) < s.number)
      ∧ ¬ (10 < (10 : BitVec 16).toNat ∨ 10 = (10 : BitVec 16).toNat ∧ (5 : Station) < s.number)
      ∧ ((heard 5 (withView theirs live)).view 2).holder = some 5 := by
  unfold HandsOn; decide +kernel

/-- A group with won cue 7 that yields by a HOLD, and that a PRESENCE excludes or makes yield, or neither. -/
theorem witness_WonCueIsCut :
    let s := atTime 480 (withView mine { playing with
      tables := { desk with groups := upd desk.groups 2 { noGroup with wonCue := some 7 } } })
    let p (set : StationSet) (age : BitVec 16) : Presence :=
      { quietPresence with excl := upd quietPresence.excl 2 set, held := [(2, age)] }
    let got (i : Instr) := after (exec i s) fun t => ((t.voice 0).state, (t.view 2).state)
    HandsOn s 5 0 ∧ NoStartWaits s ∧ (s.groupCfg 2).wonCue = some 7 ∧ (s.voice 0).cue = 7
      ∧ (∀ k : GroupId, k ≠ 2 → (s.view k).state ≠ .heldMe) ∧ (p 8 0).epochs.get 2 = (s.view 2).epoch
      ∧ [got (.holdReceived 5 0 2 0 11), got (.presenceReceived 5 (p 8 0)), got (.presenceReceived 5 (p 0 11)),
          got (.presenceReceived 5 (p 0 10))]
        = [some (.fading, .heldOther), some (.fading, .free), some (.fading, .heldOther), some (.playing, .heldMe)] := by
  unfold HandsOn NoStartWaits Settled; decide +kernel

theorem witness_ReleaseFreesTheView : HandsOn (withView theirs live) 5 0 := by
  unfold HandsOn; decide

/-- Differences of 0, 1, 127 and 128 of show and epoch, and group bytes 15 and 16. -/
theorem witness_GroupFramesMeetTheShowAndEpochTests :
    HandsOn live 5 0 ∧ Instr.claimReceived 5 1 2 0 = .claimReceived 5 1 2 0
      ∧ 128 ≤ ((0x80 : Byte) - live.groups.showNo).toNat ∧ 1 ≤ ((1 : Byte) - live.groups.showNo).toNat
      ∧ ((0x7F : Byte) - live.groups.showNo).toNat < 128 ∧ (0 : Byte) = live.groups.showNo ∧ 16 ≤ (16 : Byte).toNat
      ∧ (15 : Byte).toNat = (15 : GroupId).val ∧ 128 ≤ ((0x80 : Byte) - ((heard 5 live).view 15).epoch).toNat
      ∧ 1 ≤ ((1 : Byte) - ((heard 5 live).view 15).epoch).toNat
      ∧ ((0x7F : Byte) - ((heard 5 live).view 15).epoch).toNat < 128 := by
  unfold HandsOn; decide +kernel

/-- The implicit release by a CLAIM one epoch ahead, of a view CLAIMING and of one HELD_ME with a timeout release queued; and a
CLAIM of a newer show, at its epoch 0 and at 127 and 128. -/
theorem witness_GroupFramesMeetTheShowAndEpochTests_implicit_release :
    let s (w : View) (b : TxBody) : State := withTx b (withView w live)
    let got (w : View) (b : TxBody) := after (exec (.claimReceived 5 0 2 1) (s w b)) fun t =>
      ((t.view 2).epoch, (t.view 2).excl, t.line.queue.map (·.body), [t.counter .claimLost, t.counter .conflict])
    let newer (epoch : Byte) := after (exec (.claimReceived 5 1 2 epoch) (s mine (.fire 1 0))) fun t =>
      (t.groups.showNo, (t.view 2).holder, (t.view 2).epoch, t.counter .staleFrame)
    (∀ w ∈ [View.reset, mine, theirs, { View.reset with state := .claiming }], HandsOn (s w (.claim 2 0 0)) 5 0)
      ∧ [got { View.reset with state := .claiming, excl := 16 } (.claim 2 0 0),
          got { mine with timer := .expired, timeoutQueued := true } (.release 2 0 0 .timeout)]
        = [some (1, 16, [], [1, 0]), some (1, 0, [.presence], [0, 0])]
      ∧ [newer 0, newer 127, newer 128] = [some (1, some 5, 0, 0), some (1, some 5, 127, 0), some (1, none, 0, 1)] := by
  unfold HandsOn
  exact ⟨by decide +kernel, by decide +kernel, by decide +kernel⟩

/-- A PRESENCE at the three epochs, listing group 2 or not, and the two limits of its held list. -/
theorem witness_PresenceUpdatesPeerAndViews :
    let p := { quietPresence with held := [(2, 10)] }
    let w := (heard 5 live).view 2
    HandsOn live 5 0 ∧ p.showNo = live.groups.showNo ∧ p.held.length ≤ 19 ∧ p.flags.getLsbD 0 = true
      ∧ p.flags.getLsbD 1 = false ∧ p.flags.getLsbD 2 = false ∧ p.held.length ≤ 16 ∧ (p.epochs.get 2 - w.epoch).toNat = 0
      ∧ w.state = .free ∧ heldEntry p.held 2 = some 10 ∧ inSet 5 (w.excl ||| readSet (p.excl.get 2)) = false
      ∧ (let v := (heard 5 (withView theirs live)).view 2
        v.state = .heldOther ∧ v.holder = some 5 ∧ heldEntry quietPresence.held 2 = none)
      ∧ ((0x80 : Byte) - w.epoch).toNat = 128 ∧ ((1 : Byte) - w.epoch).toNat = 1 ∧ ((0x7F : Byte) - w.epoch).toNat = 127 := by
  unfold HandsOn; decide +kernel

/-- Shows one behind and one ahead; a set that forbids the holder, the own holding and the own claim; a listed holding of the
own age and of one ms more beside HELD_ME, and beside a third station's. -/
theorem witness_PresenceUpdatesPeerAndViews_rules :
    let p (showNo : Byte) (set : StationSet) (held : List (Byte × BitVec 16)) : Presence :=
      { quietPresence with showNo := showNo, excl := upd quietPresence.excl 2 set, held := held }
    let s (w : View) : State := atTime 480 (withView w live)
    let state (w : View) (q : Presence) := after (exec (.presenceReceived 6 q) (s w)) fun t =>
      ((t.view 2).state, (t.view 2).holder, (t.view 2).epoch, t.groups.showNo)
    (∀ w ∈ [View.reset, mine, theirs, { View.reset with state := .claiming }], HandsOn (s w) 6 0)
      ∧ [state theirs (p 0xFF 0 []), state theirs (p 1 0 []), state theirs (p 0 0x20 []), state mine (p 0 8 []),
          state { View.reset with state := .claiming } (p 0 8 []), state mine (p 0 0 [(2, 10)]), state mine (p 0 0 [(2, 11)]),
          state theirs (p 0 0 [(2, 10)]), state theirs (p 0 0 [(2, 11)])]
        = [some (.heldOther, some 5, 0, 0), some (.free, none, 0, 1), some (.free, none, 1, 0), some (.free, none, 1, 0),
          some (.free, none, 0, 0), some (.heldMe, some 3, 0, 0), some (.heldOther, some 6, 0, 0),
          some (.heldOther, some 5, 0, 0), some (.heldOther, some 6, 0, 0)] := by
  unfold HandsOn; decide +kernel

theorem witness_QueryJoinsTheAnswerList :
    let s : State := { live with answers := some ⟨0x40, false⟩ }
    HandsOn live 5 (BitVec.ofNat 8 live.number.val) ∧ live.number ≠ 0 ∧ live.answers = none
      ∧ HandsOn s 5 (BitVec.ofNat 8 s.number.val) ∧ s.answers = some ⟨0x40, false⟩ := by
  unfold HandsOn; decide

/-- Differences of 0, 1, 127 and 128, and a transmit queue of seven frames. -/
theorem witness_RestartReturnsTheShowToItsStart :
    let s : State := { playing with line := { live.line with
      queue := (List.range 7).map fun i => ⟨i, .fire 1 0, 0, 0, false⟩, nextIdent := 9 } }
    HandsOn s 5 0 ∧ Settled s ∧ s.line.queue.length < 8 ∧ ((0 : Byte) - s.groups.showNo).toNat = 0
      ∧ ((1 : Byte) - s.groups.showNo).toNat = 1 ∧ ((0x7F : Byte) - s.groups.showNo).toNat = 127
      ∧ ((0x80 : Byte) - s.groups.showNo).toNat = 128 ∧ (s.voice 0).state = .playing ∧ (s.voice 1).state = .idle := by
  unfold HandsOn Settled; decide

theorem witness_AnswerExpiryOffersTheTimeoutRelease :
    let s := withView { mine with timer := .running 0 } live
    let t := withTx (.release 2 0 0 .wrong) s
    s.inReset = false ∧ (s.view 2).state = .heldMe ∧ (s.view 2).timer = .running 0 ∧ reached s.now 0 = true
      ∧ (s.groupCfg 2).timeoutCue = none ∧ s.releaseQueued 2 = false ∧ (t.view 2).state = .heldMe
      ∧ t.releaseQueued 2 = true ∧ t.station ≠ .loading ∧ t.number ≠ 0
      ∧ (let u : State := { s with tables := { desk with groups := upd desk.groups 2 { noGroup with timeoutCue := some 7 } } }
        (u.groupCfg 2).timeoutCue = some 7
          ∧ after (exec (.answerTimerExpiry 2) u) (fun t => ((t.voice 0).state, (t.view 2).timer)) = some (.priming, .expired)) := by
  decide

/-- P = 250 ms: STALE at 24,000 sample frames of silence and GONE at 48,000. -/
theorem witness_PresenceAndPeerTimersExpire :
    let s : State := { live with peers := { live.peers with presenceTimer := some 0 } }
    let t := atTime 24000 (live.setPeer 5 { Peer.reset with state := .present })
    let u := atTime 48000 (withView theirs (live.setPeer 5 { Peer.reset with state := .stale }))
    s.inReset = false ∧ s.peers.presenceTimer = some 0 ∧ reached s.now 0 = true ∧ s.station = .running
      ∧ (5 : Station) ≠ 0 ∧ (5 : Station) ≠ t.number ∧ (t.peer 5).state = .present
      ∧ 96 * t.tables.periodMs ≤ since t.now (t.peer 5).lastHeard ∧ (u.peer 5).state = .stale
      ∧ 192 * u.tables.periodMs ≤ since u.now (u.peer 5).lastHeard ∧ (u.view 2).holder = some 5 := by decide

/-- A safe state that a step leaves for a next state: LINE_BUSY from the hard-reset state. -/
theorem witness_EveryStepKeeps :
    (∃ t, step { State.reset with pending := [.lineBusy] } = .next t) ∧ Settled State.reset
      ∧ CountersOk State.reset ∧ PreloadOk State.reset ∧ StartQueueOk State.reset ∧ TxQueueOk State.reset
      ∧ ClaimsOk State.reset := by
  unfold Settled CountersOk PreloadOk StartQueueOk TxQueueOk ClaimsOk
  exact ⟨⟨_, rfl⟩, by decide⟩

theorem witness_EveryStepKeepsTheGroupViews : ViewsOk (withView mine live) ∧ FifoOk State.reset := by
  constructor
  · intro g
    by_cases hg : g = 2
    · subst hg; exact ⟨⟨rfl, by decide⟩, by decide, by decide, by decide⟩
    · have h : (withView mine live).view g = View.reset := by revert g; decide
      rw [h]; exact ⟨rfl, by decide, by decide, by decide⟩
  · unfold FifoOk; refine ⟨by simp [State.reset, Fetch.reset], by decide⟩

/-- A clearing STATUS at its completion lets a counter fall. -/
theorem witness_CountersFallOnlyAtAClearingStatus :
    let s : State := { sending ⟨9, 3, 5, List.replicate 43 0 ++ [0, 1] ++ List.replicate 31 0⟩ (withTx .status live) with
      answers := some ⟨0x20, true⟩, counters := upd live.counters 0 1 }
    CountersOk s ∧ after (step { s with pending := [.transmitComplete] }) (·.counter .rxBad) = some 0 ∧ s.counter .rxBad = 1 := by
  unfold CountersOk; decide +kernel

/-- Good frames of both limits of length: a QUERY and a PRESENCE that lists 19 holdings. -/
theorem witness_ReceptionReadsWhatTheLayoutWrites :
    (Instr.queryReceived 5 3 0).wf = true ∧ frameOfCommand (.queryReceived 5 3 0) = some ⟨8, 5, 3, [0]⟩
      ∧ (Instr.presenceReceived 31 { quietPresence with held := List.replicate 19 (0, 0) }).wf = true ∧ live.number ≠ 0 := by
  decide +kernel

end Sys2Proof.Tests
end

