-- ==== Sys2Proof/Proofs/Ducking.lean ====
section
/-! PROOFS. Ducking: the duck target as a greatest depth, the step of the duck attenuation, and what a control frame boundary
gives each class and leaves as it was (R86, R88, R89). -/

namespace Sys2Proof.Machine

/-! ### The duck target (R88) -/

/-- The keys of a key set, as the indices of a depth row. -/
def keysOf (k : KeySet) : Finset KeyId := Finset.univ.filter fun j => k.getLsbD j.val = true

@[simp] theorem mem_keysOf {k : KeySet} {j : KeyId} : j ∈ keysOf k ↔ k.getLsbD j.val = true := by simp [keysOf]

@[simp] theorem keysOf_zero : keysOf 0 = ∅ := by simp [keysOf]

/-- A running maximum over the entries of a list that pass a test is the supremum of the entries that pass. -/
theorem foldl_max_eq_sup {α : Type} [DecidableEq α] (p : α → Bool) (f : α → Nat) (l : List α) (a : Nat) :
    l.foldl (fun m j => if p j then max m (f j) else m) a = max a ((l.toFinset.filter fun j => p j = true).sup f) := by
  induction l generalizing a with
  | nil => simp
  | cons j l ih =>
    rw [List.foldl_cons, ih, List.toFinset_cons, Finset.filter_insert]
    by_cases h : p j = true
    · simp [h, max_assoc]
    · simp [h]

theorem duckTarget_eq_sup (r : ClassRec) (k : KeySet) : duckTarget r k = (keysOf k).sup r.depth.get := by
  rw [duckTarget, foldl_max_eq_sup fun j : KeyId => k.getLsbD j.val, List.toFinset_finRange, keysOf]
  exact Nat.zero_max _

theorem depth_le_duckTarget (r : ClassRec) {k : KeySet} {j : KeyId} (h : k.getLsbD j.val = true) :
    r.depth.get j ≤ duckTarget r k :=
  duckTarget_eq_sup r k ▸ Finset.le_sup (mem_keysOf.2 h)

theorem duckTarget_le {r : ClassRec} {k : KeySet} {b : Nat} (h : ∀ j : KeyId, r.depth.get j ≤ b) : duckTarget r k ≤ b :=
  duckTarget_eq_sup r k ▸ Finset.sup_le fun j _ => h j

@[simp] theorem duckTarget_no_keys (r : ClassRec) : duckTarget r 0 = 0 := by simp [duckTarget_eq_sup]

/-- The duck target is 0 or the depth of an active key. -/
theorem duckTarget_attained (r : ClassRec) (k : KeySet) :
    duckTarget r k = 0 ∨ ∃ j : KeyId, k.getLsbD j.val = true ∧ r.depth.get j = duckTarget r k := by
  rw [duckTarget_eq_sup]
  rcases (keysOf k).eq_empty_or_nonempty with he | hne
  · left; simp [he]
  · obtain ⟨j, hj, hsup⟩ := Finset.exists_mem_eq_sup _ hne r.depth.get
    exact .inr ⟨j, mem_keysOf.1 hj, hsup.symm⟩

/-! ### The duck attenuation (R89) -/

theorem duckStep_of_lt (r : ClassRec) {t D : Nat} (h : D < t) : duckStep r t D = min t (D + r.attack) := if_pos h

theorem duckStep_of_gt (r : ClassRec) {t D : Nat} (h : t < D) : duckStep r t D = max t (D - r.release) := by
  rw [duckStep, if_neg h.asymm, if_pos h]

@[simp] theorem duckStep_self (r : ClassRec) (D : Nat) : duckStep r D D = D := by simp [duckStep]

theorem duckStep_le (r : ClassRec) {t D b : Nat} (ht : t ≤ b) (hD : D ≤ b) : duckStep r t D ≤ b := by
  rcases lt_trichotomy D t with h | rfl | h
  · rw [duckStep_of_lt r h]; omega
  · rwa [duckStep_self]
  · rw [duckStep_of_gt r h]; omega

/-! ### The control frame boundary (R86) -/

/-- Step 2 of a boundary changes nothing but the voices and their levels. -/
theorem boundaryVoice_frame (s : State) (v : VoiceId) :
    ∃ (vs : Vector Voice 8) (m : Vector VoiceMix 8),
      boundaryVoice s v = { s with voices := vs, mixer := { s.mixer with mix := m } } := by
  unfold boundaryVoice
  dsimp only
  split
  · split
    · exact ⟨_, _, rfl⟩
    · split <;> exact ⟨_, _, rfl⟩
  · exact ⟨_, _, rfl⟩

theorem foldl_boundaryVoice_frame (l : List VoiceId) (s : State) :
    ∃ (vs : Vector Voice 8) (m : Vector VoiceMix 8),
      l.foldl boundaryVoice s = { s with voices := vs, mixer := { s.mixer with mix := m } } := by
  induction l generalizing s with
  | nil => exact ⟨_, _, rfl⟩
  | cons v l ih =>
    obtain ⟨vs, m, hv⟩ := boundaryVoice_frame s v
    obtain ⟨vs', m', hl⟩ := ih (boundaryVoice s v)
    exact ⟨vs', m', by rw [List.foldl_cons, hl, hv]⟩

/-- All that a boundary changes: the voices, their levels, the duck rows, and the mark that it was taken. -/
theorem controlBoundary_frame (s : State) :
    ∃ (vs : Vector Voice 8) (m : Vector VoiceMix 8), controlBoundary s = { s with
      voices := vs, clock := { s.clock with hadBoundary := true }
      mixer := { s.mixer with duck := (duckAll s).mixer.duck, target := (duckAll s).mixer.target, mix := m } } := by
  obtain ⟨vs, m, h⟩ := foldl_boundaryVoice_frame voiceIds (duckAll s)
  exact ⟨vs, m, by rw [controlBoundary, h]; rfl⟩

@[simp] theorem controlBoundary_target (s : State) (c : ClassId) :
    (controlBoundary s).mixer.target.get c = duckTarget (s.cls c) s.activeKeys := by
  obtain ⟨vs, m, h⟩ := controlBoundary_frame s
  rw [h]; simp [duckAll]

@[simp] theorem controlBoundary_duck (s : State) (c : ClassId) :
    (controlBoundary s).mixer.duck.get c
      = duckStep (s.cls c) (duckTarget (s.cls c) s.activeKeys) (s.mixer.duck.get c) := by
  obtain ⟨vs, m, h⟩ := controlBoundary_frame s
  rw [h]; simp [duckAll]

theorem exec_controlFrameBoundary_due {s : State} (hr : s.inReset = false) (hp : s.mixer.phase = 0)
    (hb : s.clock.hadBoundary = false) : exec .controlFrameBoundary s = .next (controlBoundary s) := by
  show event s (boundaryDue s) controlBoundary = _
  simp [event, boundaryDue, hr, hp, hb]

/-- Settles O13: the frame comes from `controlBoundary_frame`, the target is the supremum of the active keys' depths, and the
attenuation follows the three cases of `duckStep`. -/
theorem boundaryDucksEveryClass : Obligations.BoundaryDucksEveryClass := by
  intro s hr hp hb
  refine ⟨controlBoundary s, exec_controlFrameBoundary_due hr hp hb, ?_, fun c => ?_⟩
  · obtain ⟨vs, m, h⟩ := controlBoundary_frame s
    rw [h]
  · simp only [controlBoundary_target, controlBoundary_duck]
    refine ⟨fun k => depth_le_duckTarget _, duckTarget_attained _ _, duckStep_of_lt _, duckStep_of_gt _, ?_, ?_, ?_⟩
    · intro h; rw [← h, duckStep_self]
    · intro h; rw [h, duckTarget_no_keys]
    · intro h; exact ⟨duckTarget_le h, duckStep_le _ (duckTarget_le h)⟩

end Sys2Proof.Machine
end

