-- ==== Sys2Proof/Proofs/ClaimReceived.lean ====
section
/-! PROOFS. A good frame handed on by a station that receives it, a group frame of equal show and epoch, and a CLAIM as the
view's state takes it (R125, R127, R150 to R152, R155). -/

namespace Sys2Proof.Machine

/-! ### The station once a good frame is heard (R125, R127, R172) -/

theorem markStale_showNo (x : Station) (b : Bool) (s : State) : (markStale x b s).groups.showNo = s.groups.showNo := by
  unfold markStale
  induction groupIds generalizing s with
  | nil => rfl
  | cons g l ih =>
    rw [List.foldl_cons, ih]
    dsimp only
    split
    · exact State.setView_groups_showNo s g _
    · rfl

theorem handPeerKeys_groups (s : State) : (handPeerKeys s).groups = s.groups := by
  unfold handPeerKeys
  dsimp only
  split <;> rfl

theorem signOfLife_showNo (x : Station) (s : State) : (signOfLife x s).groups.showNo = s.groups.showNo := by
  unfold signOfLife
  dsimp only
  rw [handPeerKeys_groups]
  split
  · rw [markStale_showNo, State.setPeer_groups]
  · rfl

@[simp] theorem heard_showNo (src : Station) (s : State) : (heard src s).groups.showNo = s.groups.showNo :=
  signOfLife_showNo src _

@[simp] theorem heard_now (src : Station) (s : State) : (heard src s).now = s.now :=
  congrArg Timebase.time (Handled.signOfLife src (endReception .frameEnded s)).clock

@[simp] theorem heard_number (src : Station) (s : State) : (heard src s).number = s.number :=
  (Handled.signOfLife src (endReception .frameEnded s)).number

theorem Calmer.of_none {a : Activity} (h : Calmer .none a) : a = .none := by
  rcases h with h | ⟨⟨n, k, h⟩, -⟩
  · exact h
  · cases h

/-- A station that does not drive the line has no activity, or a holdoff, which a BUSY line ends (R116). -/
theorem deferred_of_not_driving {s : State} (h : s.driving = false) : deferred s.line.activity = .none := by
  cases ha : s.line.activity with
  | none => rfl
  | holdoff n k => rfl
  | sending n f => simp [State.driving, ha] at h
  | jamming => simp [State.driving, ha] at h

theorem heard_activity {src : Station} {s : State} (h : s.driving = false) : (heard src s).line.activity = .none := by
  have hend : (endReception .frameEnded s).line.activity = .none := deferred_of_not_driving h
  have hcalm := (Handled.signOfLife src (endReception .frameEnded s)).activity
  rw [hend] at hcalm
  exact hcalm.of_none

/-- A good frame that a station hands on is its owner's, after the end of the reception and the sign of life (R127). -/
theorem event_receive_of_handsOn {s : State} {src : Station} {dst : Byte} (h : HandsOn s src dst) (owner : State → State) :
    event s (canReceive s src) (receive src dst owner) = .next (owner (heard src s)) := by
  obtain ⟨hreset, hup, hdrive, hrecv, hsrc, hown, hdst⟩ := h
  have hcan : canReceive s src = true := by simp [canReceive, hdrive, hrecv, hsrc]
  have hto : dst = 0 ∨ dst = BitVec.ofNat 8 (heard src s).number.val := by rwa [heard_number]
  have hrec : receive src dst owner s = owner (heard src s) :=
    calc receive src dst owner s
      _ = (if dst = 0 ∨ dst = BitVec.ofNat 8 (heard src s).number.val then owner (heard src s) else heard src s) :=
        (if_neg hup).trans (if_neg hown)
      _ = owner (heard src s) := if_pos hto
  simp [event, hreset, hcan, hrec]

/-! ### A group frame of equal show and epoch (R150, R151) -/

@[simp] theorem behind_self (a : Byte) : behind a a = false := by simp [behind]

@[simp] theorem ahead_self (a : Byte) : ahead a a = false := by simp [ahead]

@[simp] theorem showTest_self (s : State) : showTest s.groups.showNo s = some s := by simp [showTest]

theorem groupFrame_of_equal (g : GroupId) (rule : GroupId → State → State) (s : State) :
    groupFrame s.groups.showNo (BitVec.ofNat 8 g.val) (s.view g).epoch rule s = rule g s := by
  have hg : (BitVec.ofNat 8 g.val).toNat = g.val := by
    rw [BitVec.toNat_ofNat]
    exact Nat.mod_eq_of_lt (by omega)
  simp [groupFrame, hg]

/-! ### A view passes to another station (R152, R155) -/

/-- A view replaced by itself. -/
theorem State.setView_of_view {s : State} {g : GroupId} {w : View} (h : s.view g = w) : s.setView g w = s := by
  have hupd : upd s.groups.views g (s.groups.views.get g) = s.groups.views := Vector.set_getElem_self g.isLt
  rw [← h, State.setView, State.view, hupd]

@[simp] theorem State.view_bumpIf (s : State) (b : Bool) (c : Counter) (g : GroupId) : (s.bumpIf b c).view g = s.view g := by
  cases b <;> rfl

@[simp] theorem removeTx_groups (p : TxBody → Bool) (s : State) : (removeTx p s).groups = s.groups := by
  unfold removeTx
  rcases recheckHoldoff_shape { s with line := { s.line with queue := _ } } with h | ⟨-, h⟩ <;> rw [h]

/-- With no frame in flight and no holdoff to abandon, a removal takes its frames from the queue at once (R124). -/
theorem removeTx_of_activity_none {s : State} (h : s.line.activity = .none) (p : TxBody → Bool) :
    removeTx p s = { s with line := { s.line with queue := s.line.queue.filter fun e => !p e.body } } := by
  have hq : (s.line.queue.filterMap fun e =>
      if p e.body then (if s.inFlight = some e.ident then some { e with removal := true } else none) else some e)
      = s.line.queue.filter fun e => !p e.body := by
    rw [← List.filterMap_eq_filter]
    congr 1
    funext e
    cases hp : p e.body <;> simp [Option.guard, State.inFlight, h, hp]
  simp only [removeTx, hq, recheckHoldoff, h]

/-- A holding of another station makes the own CLAIM stale and nothing else, unless the station held the group
itself (R152). -/
theorem staleFrame_heldBy {w : View} (h : w.state ≠ .heldMe) (g : GroupId) (x : Station) (t : Time) :
    staleFrame g w (heldBy x t w) = fun b => w.state == .claiming && b.claims g := by
  have hme : (w.state == .heldMe) = false := by simpa using h
  funext b
  simp [staleFrame, heldBy, hme, show (ViewState.heldOther != .claiming) = true from rfl]

theorem tidyView_heldBy {w : View} (h : w.state ≠ .heldMe) (x : Station) (t : Time) :
    tidyView w (heldBy x t w) = heldBy x t w := by
  simp [tidyView, heldBy, h]

/-- A view that the station does not hold passes to x: the own CLAIM, where the view was CLAIMING, is withdrawn and counted
as lost (R152). -/
theorem changeView_heldBy {s : State} {g : GroupId} (h : (s.view g).state ≠ .heldMe) (x : Station) (t : Time) :
    changeView g (heldBy x t (s.view g)) s
      = (removeTx (fun b => (s.view g).state == .claiming && b.claims g) (s.setView g (heldBy x t (s.view g)))).bumpIf
          ((s.view g).state == .claiming) .claimLost := by
  have hme : ((s.view g).state == .heldMe) = false := by simpa using h
  have hlost : ((heldBy x t (s.view g)).state != .claiming) = true := rfl
  have hother : ((heldBy x t (s.view g)).state == .heldMe) = false := rfl
  have hview (p : TxBody → Bool) (b : Bool) :
      ((removeTx p (s.setView g (heldBy x t (s.view g)))).bumpIf b .claimLost).view g = heldBy x t (s.view g) := by
    rw [State.view_bumpIf, State.view_eq _ _ (removeTx_groups p _), State.view_setView]
  simp only [changeView, tidy, State.view_setView, staleFrame_heldBy h, tidyView_heldBy h, hlost, hme, hother,
    State.setView_of_view (hview _ _), Bool.and_true, Bool.not_false, bne_self_eq_false, Bool.false_eq_true, if_false]

theorem changeView_heldBy_of_free {s : State} {g : GroupId} (hidle : s.line.activity = .none)
    (h : (s.view g).state = .free) (x : Station) (t : Time) :
    changeView g (heldBy x t (s.view g)) s = s.setView g (heldBy x t (s.view g)) := by
  have hclaim : ((s.view g).state == .claiming) = false := by rw [h]; rfl
  rw [changeView_heldBy (by simp [h]), hclaim, removeTx_of_activity_none (s := s.setView g _) hidle]
  simp only [Bool.false_and, Bool.not_false, List.filter_true]
  rfl

theorem changeView_heldBy_of_claiming {s : State} {g : GroupId} (hidle : s.line.activity = .none)
    (h : (s.view g).state = .claiming) (x : Station) (t : Time) :
    changeView g (heldBy x t (s.view g)) s
      = State.bump { s.setView g (heldBy x t (s.view g)) with
          line := { s.line with queue := s.line.queue.filter fun e => !e.body.claims g } } .claimLost := by
  have hclaim : ((s.view g).state == .claiming) = true := by rw [h]; rfl
  rw [changeView_heldBy (by simp [h]), hclaim, removeTx_of_activity_none (s := s.setView g _) hidle]
  simp only [Bool.true_and]
  rfl

/-! ### A CLAIM of equal show and epoch (R155) -/

theorem claimRule_of_excluded {x : Station} {g : GroupId} {s : State} (h : inSet x (s.view g).excl = true) :
    claimRule x g s = s := by
  simp [claimRule, h]

section
variable {x : Station} {g : GroupId} {s : State} (hx : inSet x (s.view g).excl = false)
include hx

theorem claimRule_of_free_or_claiming (h : (s.view g).state = .free ∨ (s.view g).state = .claiming) :
    claimRule x g s = changeView g (heldBy x s.now (s.view g)) s := by
  rcases h with h | h <;> simp [claimRule, hx, h]

theorem claimRule_of_heldMe (h : (s.view g).state = .heldMe) : claimRule x g s = offerHold g s := by
  simp [claimRule, hx, h]

theorem claimRule_of_heldOther (h : (s.view g).state = .heldOther) : claimRule x g s = s := by
  simp [claimRule, hx, h]

end

theorem exec_claimReceived_of_equal {s : State} {src : Station} (h : HandsOn s src 0) (g : GroupId) :
    exec (.claimReceived src s.groups.showNo (BitVec.ofNat 8 g.val) ((heard src s).view g).epoch) s
      = .next (claimRule src g (heard src s)) := by
  show event s (canReceive s src) (receive src 0 _) = _
  rw [event_receive_of_handsOn h, ← heard_showNo src s, groupFrame_of_equal]

/-- Settles O43: the frame comes to `claimRule` by `exec_claimReceived_of_equal`, and the line of a station that has heard a
frame is idle, so the tidying of the view withdraws the own CLAIM at once and does nothing else. -/
theorem claimIsTakenByTheViewsState : Obligations.ClaimIsTakenByTheViewsState := by
  intro src g s hs
  have hidle : (heard src s).line.activity = .none := by
    obtain ⟨-, -, hdrive, -⟩ := hs
    exact heard_activity hdrive
  dsimp only
  rw [exec_claimReceived_of_equal hs]
  refine ⟨fun hx => ?excluded, fun hx => ⟨fun hw => ?free, fun hw => ?claiming, fun hw => ?heldMe, fun hw => ?other⟩⟩
  case excluded => rw [claimRule_of_excluded hx]
  case free => rw [claimRule_of_free_or_claiming hx (.inl hw), changeView_heldBy_of_free hidle hw, heard_now]; rfl
  case claiming => rw [claimRule_of_free_or_claiming hx (.inr hw), changeView_heldBy_of_claiming hidle hw, heard_now]; rfl
  case heldMe => rw [claimRule_of_heldMe hx hw, offerHold, heard_showNo]
  case other => rw [claimRule_of_heldOther hx hw]

end Sys2Proof.Machine
end

