-- ==== Sys2Proof/Proofs/Commands.lean ====
section
/-! PROOFS. What a command can do, said once: the condition and the effect of each, the three commands of another form, and
the statements about start-up, the clock, the contacts and the line that follow at once (R103, R115, R125, R181, R186). -/

namespace Sys2Proof.Machine

/-! ### The condition and the effect of a command -/

/-- The condition under which the event of a command happens (notes/assumptions/1.md). -/
def happens (c : Instr) (s : State) : Bool :=
  match c with
  | .hardReset | .hardResetRelease _ | .triggerInputChange _ _ => true
  | .loadEnd _ => s.station == .loading
  | .listenTimerExpiry => listenDue s
  | .wordClockEdge ns => ns != 0
  | .wordClockTimeout => quietDue s
  | .voiceSampleNeed v => needDue s v
  | .busSampleOutput => !s.clock.hadOutput
  | .controlFrameBoundary => boundaryDue s
  | .fadeEnd v => fadeDue s v
  | .primeDeadline v => primeDue s v
  | .beatBoundary => beatDue s
  | .pendingExpiry cue => entryExpired s cue
  | .burstComplete _ => (voiceBurstDue s).isSome
  | .preloadBurstComplete _ => (preloadBurstDue s).isSome
  | .triggerFilterExpiry i => filterDue s i
  | .interframeGapComplete => gapDue s
  | .lineBusy => !s.driving
  | .sendSlot => sendDue s
  | .transmitComplete => transmitDue s
  | .collision => (sentFrame s).isSome
  | .jamEnd => jamDue s
  | .rxBad r => rxBadDue r s
  | .rxProtocol f => !s.driving && s.receiving && (protocolFault f).isSome
  | .fireReceived src _ _ _ _ _ | .stopReceived src _ _ _ _ _ | .segmentReceived src _ _ _ | .claimReceived src _ _ _
  | .holdReceived src _ _ _ _ | .releaseReceived src _ _ _ _ | .presenceReceived src _ | .statusReceived src _ _
  | .restartReceived src _ _ => canReceive s src
  | .queryReceived src dst _ => canReceive s src && dst != 0
  | .answerTimerExpiry g => answerDue s g
  | .presenceTimerExpiry => presenceDue s
  | .peerStale x => peerDue s x .present 2
  | .peerGone x => peerDue s x .stale 4
  | .referenceSlot => referenceDue s

/-- The effect of a command whose event happens; a hard reset and its release have a form of their own. -/
def effect (c : Instr) (s : State) : State :=
  match c with
  | .loadEnd image => endLoad image s
  | .listenTimerExpiry => enterRunning s
  | .wordClockEdge ns => { s with clock := clockEdge ns s.clock }
  | .wordClockTimeout => { s with clock := clockFailure s.clock }
  | .voiceSampleNeed v => settleReturns (takeSample v s)
  | .busSampleOutput => deliver s
  | .controlFrameBoundary => controlBoundary s
  | .fadeEnd v => finish (returnIdle v false s)
  | .primeDeadline v => primeExpiry v s
  | .beatBoundary => takeBeat s
  | .pendingExpiry cue => expireEntry cue s
  | .burstComplete data => takeVoiceBurst data.toList s
  | .preloadBurstComplete data => takePreloadBurst data.toList s
  | .triggerInputChange i b => contactChange i b s
  | .triggerFilterExpiry i => takeFilter i s
  | .interframeGapComplete => gapComplete s
  | .lineBusy => hearActive s
  | .sendSlot => takeSendSlot s
  | .transmitComplete => takeTransmit s
  | .collision => takeCollision s
  | .jamEnd => endJam s
  | .rxBad r => badReception r s
  | .rxProtocol _ => faultyFrame s
  | .answerTimerExpiry g => answerExpiry g s
  | .presenceTimerExpiry => presenceExpiry s
  | .peerStale x => turnStale x s
  | .peerGone x => turnGone x s
  | .referenceSlot => takeReference s
  | .fireReceived src dst b0 b1 b2 b3 => receive src dst (takeFire b0 b1 b2 b3) s
  | .stopReceived src dst b0 b1 b2 b3 => receive src dst (takeStop b0 b1 b2 b3) s
  | .segmentReceived src b0 b1 b2 => receive src 0 (takeSegment b0 b1 b2) s
  | .claimReceived src n g e => receive src 0 (groupFrame n g e (claimRule src)) s
  | .holdReceived src n g e age => receive src 0 (groupFrame n g e (holdRule src age.toNat)) s
  | .releaseReceived src n g e v => receive src 0 (groupFrame n g e (releaseRule (verdictOfCode v))) s
  | .presenceReceived src p => receive src 0 (takePresence src p) s
  | .queryReceived src dst b0 => receive src dst (takeQuery src (b0.getLsbD 0)) s
  | .statusReceived src dst _ => receive src dst id s
  | .restartReceived src dst n => receive src dst (takeRestart n) s
  | .hardReset | .hardResetRelease _ => s

/-- Every command but a hard reset, its release and a contact's change has the common form of a meaning. -/
theorem exec_eq_event {c : Instr} (hc : c ≠ .hardReset) (hr : ∀ n, c ≠ .hardResetRelease n)
    (ht : ∀ i b, c ≠ .triggerInputChange i b) (s : State) : exec c s = event s (happens c s) (effect c) := by
  cases c with
  | hardReset => exact absurd rfl hc
  | hardResetRelease n => exact absurd rfl (hr n)
  | triggerInputChange i b => exact absurd rfl (ht i b)
  | _ => rfl

theorem event_of_inReset {s : State} (h : s.inReset = true) (b : Bool) (f : State → State) : event s b f = .next s := by
  simp [event, h]

theorem event_of_happens {s : State} (h : s.inReset = false) {b : Bool} (hb : b = true) (f : State → State) :
    event s b f = .next (f s) := by
  simp [event, h, hb]

theorem event_of_not {s : State} {b : Bool} (hb : b = false) (f : State → State) : event s b f = .next s := by
  simp [event, hb]

theorem event_cases {s t : State} {b : Bool} {f : State → State} (h : event s b f = .next t) :
    t = s ∨ s.inReset = false ∧ b = true ∧ t = f s := by
  unfold event at h
  split at h
  · exact .inl (Host.Outcome.next.inj h).symm
  · rename_i hr
    split at h
    · rename_i hb
      exact .inr ⟨by simpa using hr, hb, (Host.Outcome.next.inj h).symm⟩
    · exact .inl (Host.Outcome.next.inj h).symm

/-- The command resets the part (R181). -/
def Resets (c : Instr) : Prop :=
  match c with
  | .hardReset | .hardResetRelease _ => True
  | _ => False

theorem resets_iff (c : Instr) : Resets c ↔ c = .hardReset ∨ ∃ n, c = .hardResetRelease n := by
  cases c <;> simp [Resets]

/-- All that a command can do: nothing, a hard reset, a contact's change while the pin is held, or its effect. -/
theorem exec_cases {c : Instr} {s t : State} (h : exec c s = .next t) :
    t = s ∨ (Resets c ∧ ∃ held n, t = hardResetState held n s) ∨ (∃ i b, t = setContact i b s)
      ∨ s.inReset = false ∧ happens c s = true ∧ ¬ Resets c ∧ t = effect c s := by
  by_cases hc : c = .hardReset
  · subst hc
    exact .inr (.inl ⟨trivial, _, _, (Host.Outcome.next.inj h).symm⟩)
  by_cases hr : ∃ n, c = .hardResetRelease n
  · obtain ⟨n, rfl⟩ := hr
    change (if s.inReset then _ else _) = _ at h
    split at h
    · exact .inr (.inl ⟨trivial, _, _, (Host.Outcome.next.inj h).symm⟩)
    · exact .inl (Host.Outcome.next.inj h).symm
  have hn : ¬ Resets c := fun k => ((resets_iff c).1 k).elim hc hr
  by_cases ht : ∃ i b, c = .triggerInputChange i b
  · obtain ⟨i, b, rfl⟩ := ht
    change (if s.inReset then _ else _) = _ at h
    split at h
    · exact .inr (.inr (.inl ⟨i, b, (Host.Outcome.next.inj h).symm⟩))
    · rename_i hs
      exact .inr (.inr (.inr ⟨by simpa using hs, rfl, hn, (Host.Outcome.next.inj h).symm⟩))
  rw [exec_eq_event hc (fun n e => hr ⟨n, e⟩) (fun i b e => ht ⟨i, b, e⟩)] at h
  rcases event_cases h with e | ⟨h1, h2, h3⟩
  · exact .inl e
  · exact .inr (.inr (.inr ⟨h1, h2, hn, h3⟩))

theorem exec_of_happens {c : Instr} {s : State} (hr : s.inReset = false) (hc : happens c s = true) (hn : ¬ Resets c) :
    exec c s = .next (effect c s) := by
  have hreset : c ≠ .hardReset ∧ ∀ n, c ≠ .hardResetRelease n := by
    constructor <;> (intros; rintro rfl; exact hn trivial)
  by_cases ht : ∃ i b, c = .triggerInputChange i b
  · obtain ⟨i, b, rfl⟩ := ht
    exact if_neg (by simp [hr])
  · rw [exec_eq_event hreset.1 hreset.2 fun i b e => ht ⟨i, b, e⟩, event_of_happens hr hc]

theorem exec_of_not {c : Instr} {s : State} (hc : happens c s = false) : exec c s = .next s := by
  have hform : c ≠ .hardReset ∧ (∀ n, c ≠ .hardResetRelease n) ∧ ∀ i b, c ≠ .triggerInputChange i b := by
    refine ⟨?_, ?_, ?_⟩ <;> (intros; rintro rfl; cases hc)
  rw [exec_eq_event hform.1 hform.2.1 hform.2.2, event_of_not hc]

/-- Settles O1. -/
theorem stepTakesTheFrontCommand : Obligations.StepTakesTheFrontCommand := fun _ _ => rfl

/-- A step takes the command at the front, or lets time pass. -/
theorem step_cases {s t : State} (h : step s = .next t) :
    (∃ c rest, s.pending = c :: rest ∧ exec c { s with pending := rest } = .next t) ∨ s.pending = [] ∧ t = tick s := by
  unfold step at h
  split at h
  · rename_i c rest hp
    exact .inl ⟨c, rest, hp, h⟩
  · rename_i hp
    exact .inr ⟨hp, (Host.Outcome.next.inj h).symm⟩

/-! ### Hard reset (R181) -/

theorem lampOn_of_inReset {s : State} (h : s.inReset = true) (l : LampId) : lampOn s l = false := by simp [lampOn, h]

/-- Settles O2: the state is written out by `hardResetState`, and while the pin is held every meaning of the common form
leaves the state. -/
theorem hardResetHoldsThePart : Obligations.HardResetHoldsThePart := by
  intro s
  have hheld : (hardResetState true 0 s).inReset = true := rfl
  refine ⟨_, rfl, rfl, rfl, rfl, lampOn_of_inReset hheld, rfl, fun c hc hr ht => ?_⟩
  rw [exec_eq_event hc hr ht, event_of_inReset hheld]

/-- Settles O3. -/
theorem releaseSamplesTheStrapsAndBeginsLoading : Obligations.ReleaseSamplesTheStrapsAndBeginsLoading := by
  intro straps s h
  exact ⟨hardResetState false straps s, if_pos h, rfl, rfl, rfl⟩

/-! ### Start-up and the clock (R179, R186) -/

/-- In RUNNING and UNCONFIGURED the own PRESENCE is offered, and a line-silent station's is discarded (R177, R117). -/
theorem offer_of_silent {s : State} (h : s.silent = true) (b : TxBody) : offer b s = s := by
  simp [offer, offerWith, h]

theorem offer_of_loading {s : State} (h : s.station = .loading) (b : TxBody) : offer b s = s := by
  simp [offer, offerWith, h]

theorem offerPresence_of_up {s : State} (h : s.station = .running ∨ s.station = .unconfigured) :
    offerPresence s = offer .presence s := by
  unfold offerPresence
  by_cases hs : s.silent = true
  · rw [offer_of_silent hs, if_neg fun k => k.2 hs]
  · rw [if_pos ⟨h, hs⟩]

theorem offerPresence_of_not_up {s : State} (h : s.station = .loading ∨ s.station = .listening) : offerPresence s = s := by
  unfold offerPresence
  rcases h with h | h <;> simp [h]

/-- Settles O5. -/
theorem listenTimerExpiryBeginsRunning : Obligations.ListenTimerExpiryBeginsRunning := by
  intro s e hr hl ht he
  have hdue : listenDue s = true := by simp [listenDue, hl, ht, expired, he]
  show event s (listenDue s) enterRunning = _
  rw [event_of_happens hr hdue, enterRunning, offerPresence_of_up (.inl rfl)]

theorem clockEdge_keeps (ns : Nat) (t : Timebase) :
    (clockEdge ns t).time = t.time ∧ (clockEdge ns t).micros = t.micros ∧ (clockEdge ns t).half = t.half := by
  unfold clockEdge goodPeriod clockFailure
  cases t.clock <;> dsimp only <;> split <;> (try split) <;> exact ⟨rfl, rfl, rfl⟩

theorem clockEdge_good {ns : Nat} (h : 20729 ≤ ns ∧ ns ≤ 20938) (t : Timebase) :
    clockEdge ns t = { goodPeriod ns t with quiet := 0 } := by
  simp [clockEdge, inTolerance, Config.periodMin, Config.periodMax, h]

theorem clockEdge_bad {ns : Nat} (h : ns < 20729 ∨ 20938 < ns) (t : Timebase) :
    clockEdge ns t = { clockFailure t with quiet := 0 } := by
  have : ¬ (20729 ≤ ns ∧ ns ≤ 20938) := by omega
  simp [clockEdge, inTolerance, Config.periodMin, Config.periodMax, this]

/-- Settles O6: the row of R186's table is a case of `goodPeriod` for a period in tolerance, of `clockFailure` for another. -/
theorem wordClockEdgeMovesTheClockState : Obligations.WordClockEdgeMovesTheClockState := by
  intro ns s hr hns
  have hdue : (ns != 0) = true := by simp; omega
  obtain ⟨htime, hmicros, hhalf⟩ := clockEdge_keeps ns s.clock
  have hexec : exec (.wordClockEdge ns) s = .next { s with clock := clockEdge ns s.clock } :=
    exec_of_happens hr (c := .wordClockEdge ns) hdue id
  refine ⟨_, hexec, rfl, htime, hmicros, hhalf, ?good, ?bad⟩
  case good =>
    intro h
    simp only [clockEdge_good h, goodPeriod, Config.acquirePeriods]
    refine ⟨?_, ?_, ?_, ?_⟩
    · rintro (hc | hc) <;> simp [hc]
    · intro hc ha; simp [hc, ha]
    · intro hc ha; simp [hc, Nat.not_lt.2 ha]
    · intro hc; simp [hc]
  case bad =>
    intro h
    simp only [clockEdge_bad h, clockFailure]
    refine ⟨?_, ?_, ?_⟩
    · rintro (hc | hc) <;> simp [hc]
    · intro hc; simp [hc]
    · intro hc; simp [hc]

/-- Settles O7. -/
theorem wordClockTimeoutLosesTheClock : Obligations.WordClockTimeoutLosesTheClock := by
  intro s hr hq
  have hdue : quietDue s = true := decide_eq_true hq
  have hexec : exec .wordClockTimeout s = .next { s with clock := clockFailure s.clock } :=
    exec_of_happens hr (c := .wordClockTimeout) hdue id
  rw [hexec]
  refine ⟨fun h => ?_, fun h => ?_, ?_⟩
  · simp [clockFailure, h]
  · simp [clockFailure, h]
  · rintro (h | h) <;> simp [clockFailure, h]

/-! ### Contacts (R103) -/

theorem upd_get_eq {α : Type} {n : Nat} {t : Vector α n} {i : Fin n} {a : α} (h : t.get i = a) : upd t i a = t := by
  subst h
  exact Vector.set_getElem_self i.isLt

/-- Settles O24. -/
theorem contactChangeRestartsTheFilter : Obligations.ContactChangeRestartsTheFilter := by
  intro i closed s hr
  have hexec : exec (.triggerInputChange i closed) s = .next (contactChange i closed s) := by
    show (if s.inReset then _ else _) = _
    simp [hr]
  rw [hexec]
  refine ⟨fun b hl hc hb => ?_, ?_, fun hc => ?_⟩
  · have hb' : s.binding i = some b := hb
    have hchange : contactChange i closed s = { s with
        triggers := { s.triggers with
          contacts := upd s.triggers.contacts i closed
          raw := upd s.triggers.raw i (rawLevel b.polarity closed)
          timers := upd s.triggers.timers i (some (later s.now (48 * b.filterMs))) } } := by
      simp only [contactChange, hl, hc, or_self, if_false, hb', Config.framesPerMs]
    exact congrArg _ hchange
  · rintro (h | h)
    · simp [contactChange, h]
    · have hb' : s.binding i = none := h
      simp [contactChange, hb']
  · simp [contactChange, hc, upd_get_eq hc]

/-! ### The line: busy, jams, failed receptions (R115, R116, R119, R125, R126) -/

/-- Settles O29. -/
theorem lineBusyDefersTheHoldoff : Obligations.LineBusyDefersTheHoldoff := by
  intro s hr hd
  show event s (!s.driving) hearActive = _
  rw [event_of_happens hr (by simp [hd]), hearActive, deferred_of_not_driving hd]

theorem receiving_iff {s : State} : s.receiving = true ↔ ∃ bytes bits, s.line.rx = .receiving bytes bits := by
  unfold State.receiving
  cases s.line.rx <;> simp

/-- The receive states in which a reception can end so (R125). -/
theorem rxEnds_iff (x : RxState) (e : RxEnd) : rxEnds x e = true ↔
    match e with
    | .rest => ∃ bytes bits, x = .receiving bytes bits
    | .active _ => (∃ bytes bits, x = .receiving bytes bits) ∨ ∃ bytes n, x = .broken bytes n
    | .trailing => x = .frameEnded := by
  cases e <;> cases x <;> simp [rxEnds]

/-- Settles O35: what ends a reception is `endReception`, and `rxEnds` says where one can end so. -/
theorem jamsAndFailedReceptionsEnd : Obligations.JamsAndFailedReceptionsEnd := by
  intro s hr
  refine ⟨fun hj hd => ?_, fun hd => ?_⟩
  · have hdue : jamDue s = true := by simp [jamDue, hj, hd]
    exact exec_of_happens hr (c := .jamEnd) hdue id
  intro ended ends after
  have hends : ∀ r : Reception, rxEnds s.line.rx r.ending = true ↔ ends r := by
    intro r
    rw [rxEnds_iff]
    simp only [ends, receiving_iff] <;> cases r.ending <;> rfl
  have hended : ∀ x, endReception x s = ended x := by
    intro x
    simp only [endReception, deferred_of_not_driving hd, ended]
  have hafter : ∀ r : Reception, afterBad r.ending = after r := by
    intro r
    simp only [after]
    cases r.ending <;> rfl
  have hbad : ∀ r : Reception, ends r → (rxOutcome r = .bad ∨ rxOutcome r = .jammed) →
      exec (.rxBad r) s = .next ((ended (after r)).bumpIf (rxOutcome r == .bad) .rxBad) := by
    intro r he ho
    have hdue : rxBadDue r s = true := by
      rcases ho with ho | ho <;> simp [rxBadDue, hd, (hends r).2 he, ho]
    show event s _ _ = _
    rw [event_of_happens hr hdue, badReception, hended, hafter]
  refine ⟨fun r he ho => ?_, fun r he ho => ?_, fun r he => ?_, fun f hf => ⟨fun hv => ?_, fun hv => ?_⟩⟩
  · rw [hbad r he (.inl ho), ho]; rfl
  · rw [hbad r he (.inr ho), ho]; rfl
  · refine event_of_not ?_ _
    have : rxEnds s.line.rx r.ending = false := by
      rw [Bool.eq_false_iff]
      exact fun k => he ((hends r).1 k)
    simp [rxBadDue, this]
  · show event s _ _ = _
    rw [event_of_happens hr (by simp [hd, hv, hf]), faultyFrame, hended]
  · exact event_of_not (by simp [hv]) _

/-! ### The answer list (R141) -/

@[simp] theorem heard_answers (src : Station) (s : State) : (heard src s).answers = s.answers := by
  have hp : ∀ t : State, (handPeerKeys t).answers = t.answers := by
    intro t; unfold handPeerKeys; dsimp only; split <;> rfl
  have hm : ∀ (x : Station) (b : Bool) (t : State), (markStale x b t).answers = t.answers := by
    intro x b t
    unfold markStale
    induction groupIds generalizing t with
    | nil => rfl
    | cons g l ih =>
      rw [List.foldl_cons, ih]
      dsimp only
      split <;> rfl
  unfold heard signOfLife
  dsimp only
  rw [hp]
  split
  · rw [hm]; rfl
  · rfl

/-- Settles O48. -/
theorem queryJoinsTheAnswerList : Obligations.QueryJoinsTheAnswerList := by
  intro src b0 s hs hn
  have hdst : (BitVec.ofNat 8 s.number.val : Byte) ≠ 0 := by
    intro h
    have h' := congrArg BitVec.toNat h
    rw [BitVec.toNat_ofNat, Nat.mod_eq_of_lt (by omega)] at h'
    exact hn (Fin.ext h')
  have hexec : exec (.queryReceived src (BitVec.ofNat 8 s.number.val) b0) s
      = .next (takeQuery src (b0.getLsbD 0) (heard src s)) := by
    show event s (canReceive s src && _) _ = _
    rw [bne_iff_ne.2 hdst, Bool.and_true, event_receive_of_handsOn hs]
  dsimp only
  rw [hexec]
  refine ⟨fun ha => ?_, fun a ha => ?_⟩
  · simp [takeQuery, ha, addTo]
  · simp [takeQuery, ha, addTo]

end Sys2Proof.Machine
end

