-- ==== Sys2Proof/Proofs/Keeps.lean ====
section
/-! PROOFS. What every command and every moment of time keeps: station time, number, phase, slot source and tables; counters
in range and never falling; the Preload Memory's form; the transmit queue's order; no return left to take. One relation, shown
once of every effect, from which the statements about every step follow (R15, R54, R86, R116, R121, R145, R186). -/

namespace Sys2Proof.Machine

/-! ### The relation -/

/-- What every effect keeps, a load's tables and a STATUS's reduction of the counters aside. -/
structure Keeps (s t : State) : Prop where
  time : t.clock.time = s.clock.time
  micros : t.clock.micros = s.clock.micros
  number : t.number = s.number
  inReset : t.inReset = s.inReset
  phase : t.mixer.phase = s.mixer.phase
  shift : t.line.shift = s.line.shift
  tables : t.tables = s.tables
  duplicate : s.peers.duplicate = true → t.peers.duplicate = true
  preload : PreloadOk s → PreloadOk t
  counters : CountersOk s → CountersOk t ∧ ∀ c, s.counter c ≤ t.counter c
  lawful : TxQueueOk s → TxQueueOk t
  settled : Settled s → Settled t

theorem Keeps.refl (s : State) : Keeps s s := by
  constructor <;> first | rfl | exact id | exact fun h => ⟨h, fun _ => Nat.le_refl _⟩

theorem Keeps.trans {s t u : State} (h : Keeps s t) (k : Keeps t u) : Keeps s u where
  time := k.time.trans h.time
  micros := k.micros.trans h.micros
  number := k.number.trans h.number
  inReset := k.inReset.trans h.inReset
  phase := k.phase.trans h.phase
  shift := k.shift.trans h.shift
  tables := k.tables.trans h.tables
  duplicate hs := k.duplicate (h.duplicate hs)
  preload hs := k.preload (h.preload hs)
  counters hs :=
    have h' := h.counters hs
    have k' := k.counters h'.1
    ⟨k'.1, fun c => (h'.2 c).trans (k'.2 c)⟩
  lawful hs := k.lawful (h.lawful hs)
  settled hs := k.settled (h.settled hs)

theorem Handled.keeps {s t : State} (h : Handled s t) : Keeps s t where
  time := congrArg Timebase.time h.clock
  micros := congrArg Timebase.micros h.clock
  number := h.number
  inReset := h.inReset
  phase := h.phase
  shift := h.shift
  tables := h.tables
  duplicate hs := h.duplicate.trans hs
  preload hs := by unfold PreloadOk; rw [h.preload]; exact hs
  counters := h.counters
  lawful := h.lawful
  settled := h.settled

/-- A change of nothing that the relation speaks of. -/
theorem Keeps.of_eq {s t : State} (time : t.clock.time = s.clock.time := by rfl)
    (micros : t.clock.micros = s.clock.micros := by rfl) (number : t.number = s.number := by rfl)
    (inReset : t.inReset = s.inReset := by rfl) (phase : t.mixer.phase = s.mixer.phase := by rfl)
    (shift : t.line.shift = s.line.shift := by rfl) (tables : t.tables = s.tables := by rfl)
    (duplicate : s.peers.duplicate = true → t.peers.duplicate = true := by exact id)
    (preload : PreloadOk s → PreloadOk t := by exact id) (counters : t.counters = s.counters := by rfl)
    (queue : (t.line.queue.map (·.body)).Sublist (s.line.queue.map (·.body)) := by exact List.Sublist.refl _)
    (returns : t.returns = s.returns := by rfl) : Keeps s t where
  time := time
  micros := micros
  number := number
  inReset := inReset
  phase := phase
  shift := shift
  tables := tables
  duplicate := duplicate
  preload := preload
  counters h := by
    simp only [CountersOk, State.counter, counters]
    exact ⟨h, fun _ => Nat.le_refl _⟩
  lawful h := h.sublist queue
  settled h := returns.trans h

theorem Keeps.bump (s : State) (c : Counter) : Keeps s (s.bump c) := (Handled.bump s c).keeps
theorem Keeps.bumpIf (s : State) (b : Bool) (c : Counter) : Keeps s (s.bumpIf b c) := (Handled.bumpIf s b c).keeps

/-! ### What leaves no return -/

theorem settleReturns_keeps {s t : State} (h : Sounds s t) : Keeps s (settleReturns t) :=
  ((h.trans (.settleReturns t)).handled fun _ => settleReturns_returns t).keeps

theorem handLocalKeys_returns (s : State) : (handLocalKeys s).returns = s.returns := by
  unfold handLocalKeys
  dsimp only
  split
  · rfl
  · rw [offerPresence_returns]

theorem enterPlaying_returns (v : VoiceId) (s : State) : (enterPlaying v s).returns = s.returns := by
  unfold enterPlaying
  dsimp only
  split
  · rfl
  · rw [handLocalKeys_returns]
    split <;> rfl

theorem bumpIf_returns (s : State) (b : Bool) (c : Counter) : (s.bumpIf b c).returns = s.returns := by
  rcases State.bumpIf_cases s b c with h | h <;> rw [h] <;> rfl

theorem missSample_returns (v : VoiceId) (s : State) : (missSample v s).returns = s.returns := bumpIf_returns _ _ _

theorem primeExpiry_keeps (v : VoiceId) (s : State) : Keeps s (primeExpiry v s) := by
  refine (((Sounds.enterPlaying v s).trans (Sounds.missSample v _)).handled fun hs => ?_).keeps
  exact (missSample_returns v _).trans ((enterPlaying_returns v s).trans hs)

/-! ### The line -/

theorem recheckHoldoff_keeps (s : State) : Keeps s (recheckHoldoff s) := by
  rcases recheckHoldoff_shape s with h | ⟨-, h⟩ <;> rw [h]
  · exact .refl s
  · exact .of_eq

theorem beginHoldoff_keeps (n : Nat) (s : State) : Keeps s (beginHoldoff n s) := by
  unfold beginHoldoff
  split
  · exact .of_eq
  · exact .refl s

theorem endReception_keeps (x : RxState) (s : State) : Keeps s (endReception x s) := .of_eq

theorem leaveTx_keeps (n : Nat) (s : State) : Keeps s (leaveTx n s) := .of_eq (queue := List.filter_sublist.map _)

theorem countAttempt_bodies (n : Nat) (s : State) :
    (countAttempt n s).line.queue.map (·.body) = s.line.queue.map (·.body) := by
  show (s.line.queue.map _).map _ = _
  rw [List.map_map]
  refine List.map_congr_left fun e _ => ?_
  show TxEntry.body (if e.ident = n then _ else _) = _
  split <;> rfl

theorem frameDropped_keeps (b : TxBody) (s : State) : Keeps s (frameDropped b s) := by
  unfold frameDropped
  split
  · dsimp only
    split
    · exact ((Handled.setView s _ _).trans (.bump _ _)).keeps
    · exact .refl s
  · dsimp only
    split
    · exact (Handled.setView s _ _).keeps
    · exact .refl s
  · exact (Handled.startPresenceTimer s).keeps
  · exact (Handled.setAnswers s none).keeps
  all_goals exact .refl s

theorem countAttempt_keeps (n : Nat) (s : State) : Keeps s (countAttempt n s) :=
  .of_eq (queue := by rw [countAttempt_bodies])

theorem afterCollision_keeps (n : Nat) (s : State) : Keeps s (afterCollision n s) := by
  unfold afterCollision
  split
  · exact .refl s
  · split
    · exact leaveTx_keeps n s
    · split
      · exact countAttempt_keeps n s
      · exact ((leaveTx_keeps n s).trans (.bump _ _)).trans (frameDropped_keeps _ _)

theorem takeCollision_keeps (s : State) : Keeps s (takeCollision s) := by
  unfold takeCollision
  split
  · refine Keeps.trans ?_ (afterCollision_keeps _ _)
    exact Keeps.trans .of_eq (.bump { s with line := _ } _)
  · exact .refl s

theorem takeSendSlot_keeps (s : State) : Keeps s (takeSendSlot s) := by
  unfold takeSendSlot
  split
  · exact .of_eq
  · exact .refl s

theorem badReception_keeps (r : Reception) (s : State) : Keeps s (badReception r s) :=
  (endReception_keeps _ s).trans (.bumpIf _ _ _)

theorem receive_keeps {owner : State → State} (h : ∀ s, Handled s (owner s)) (src : Station) (dst : Byte) (s : State) :
    Keeps s (receive src dst owner s) := by
  refine (endReception_keeps .frameEnded s).trans ?_
  show Keeps _ (handOn src dst owner (endReception .frameEnded s))
  generalize endReception .frameEnded s = s
  unfold handOn
  split
  · exact .refl s
  · split
    · exact .of_eq (duplicate := fun _ => rfl)
    · dsimp only
      split
      · exact ((Handled.signOfLife src s).trans (h _)).keeps
      · exact (Handled.signOfLife src s).keeps

/-! ### An own frame's completion -/

/-- A STATUS completes while its answer list's clear mark is yes (R143). -/
def Clearing (c : Instr) (s : State) : Prop :=
  c = .transmitComplete ∧ (∃ a, s.answers = some a ∧ a.clear = true)
    ∧ ∃ n f e, s.line.activity = .sending n f ∧ s.line.queue.find? (fun x => x.ident == n) = some e ∧ e.body = .status

theorem ownCompletion_handled {b : TxBody} (h : b ≠ .status) (p : List Byte) (s : State) :
    Handled s (ownCompletion b p s) := by
  cases b with
  | fire _ _ => exact .takeFire _ _ _ _ s
  | stop _ _ => exact .takeStop _ _ _ _ s
  | segment _ _ _ => exact .takeSegment _ _ _ s
  | claim g n e => exact .groupFrame Handled.ownClaim _ _ _ s
  | hold _ _ _ => exact .refl s
  | release g n e v => exact .groupFrame (Handled.releaseRule v) _ _ _ s
  | presence => exact (Handled.startPresenceTimer s).trans (.foldl Handled.reofferTimeout _ _)
  | status => exact absurd rfl h

theorem reduceCounters_ok (p : List Byte) {s : State} (h : CountersOk s) : CountersOk (reduceCounters p s) := by
  intro c
  simp only [reduceCounters, tabulate_get]
  exact (Nat.sub_le _ _).trans (h c)

/-- The counters as they stand once the reduction by a completing STATUS is made. -/
theorem statusDone_keeps (p : List Byte) (s : State) : ∃ x : Vector Nat 16,
    Keeps { s with counters := x } (statusDone p s) ∧ (CountersOk s → ∀ c : Fin 16, x.get c ≤ 65535)
      ∧ (s.answers.any (·.clear) = false → x = s.counters) := by
  unfold statusDone
  dsimp only
  split
  · rename_i hc
    exact ⟨(reduceCounters p s).counters, (Handled.setAnswers _ none).keeps, fun h => reduceCounters_ok p h,
      fun h => absurd h (by simp [hc])⟩
  · exact ⟨s.counters, (Handled.setAnswers s none).keeps, id, fun _ => rfl⟩

theorem completeAttempt_keeps {n : Nat} {f : Frame} {s : State} (hs : s.line.activity = .sending n f) :
    ∃ x : Vector Nat 16, Keeps { s with counters := x } (completeAttempt n f s)
      ∧ (CountersOk s → ∀ c : Fin 16, x.get c ≤ 65535) ∧ (x = s.counters ∨ Clearing .transmitComplete s) := by
  have hline : ∀ t : State, Keeps t (releaseLine (leaveTx n t)) := fun t =>
    (leaveTx_keeps n t).trans .of_eq
  unfold completeAttempt
  dsimp only
  split
  · rename_i e he
    by_cases hb : e.body = .status
    · obtain ⟨x, hk, hx, hc⟩ := statusDone_keeps f.payload (releaseLine (leaveTx n s))
      refine ⟨x, ?_, hx, ?_⟩
      · rw [hb]
        exact (hline { s with counters := x }).trans hk
      · cases ha : s.answers.any (·.clear) with
        | false => exact .inl (hc ha)
        | true =>
          rw [Option.any_eq_true] at ha
          exact .inr ⟨rfl, ha, n, f, e, hs, he, hb⟩
    · exact ⟨s.counters, (hline s).trans (ownCompletion_handled hb _ _).keeps, id, .inl rfl⟩
  · exact ⟨s.counters, hline s, id, .inl rfl⟩

/-! ### The preload pass, samples and outputs -/

theorem takeUp_keeps (rounds c : Nat) (s : State) : Keeps s (takeUp rounds c s) := by
  induction rounds generalizing c s with
  | zero => exact .of_eq
  | succ rounds ih =>
    unfold takeUp
    split
    · split
      · exact ih _ s
      · split
        · exact ih _ s
        · split
          · exact (Keeps.bump s _).trans (ih _ _)
          · split
            · exact (Keeps.bump s _).trans (ih _ _)
            · split
              · exact .of_eq
              · exact ih _ s
    · exact .of_eq

theorem startPass_keeps (s : State) : Keeps s (startPass s) := by
  refine Keeps.trans ?_ (takeUp_keeps _ _ _)
  exact .of_eq

theorem applyPreload_keeps (h : HeadWork) (n : Nat) (data : List Sample) (s : State) : Keeps s (applyPreload h n data s) := by
  have hmem : Keeps s { s with preload := { s.preload with mem := memWriteRun s.preload.mem (h.place + h.read) (data.take n) } } :=
    .of_eq (preload := fun hs => memWriteRun_wf hs _ _)
  unfold applyPreload
  dsimp only
  split
  · exact (hmem.trans .of_eq).trans (takeUp_keeps _ _ _)
  · exact hmem.trans .of_eq

theorem completePreload_keeps (n : Nat) (data : List Sample) (s : State) :
    Keeps s (settleReturns (completePreload n data s)) := by
  unfold completePreload
  split
  · exact (applyPreload_keeps _ n data s).trans
      (settleReturns_keeps ((Sounds.freePort _).trans (.grantIfIdle _)))
  · exact settleReturns_keeps ((Sounds.freePort s).trans (.grantIfIdle _))

theorem deliver_keeps (s : State) : Keeps s (deliver s) := by
  unfold deliver
  dsimp only
  split
  · exact ((Keeps.bumpIf s _ _).trans (.bumpIf _ _ _)).trans .of_eq
  · exact .of_eq

theorem controlBoundary_keeps (s : State) : Keeps s (controlBoundary s) := by
  obtain ⟨vs, m, h⟩ := controlBoundary_frame s
  rw [h]
  exact .of_eq

/-! ### Triggers -/

theorem contactChange_keeps (i : InputId) (b : Bool) (s : State) : Keeps s (contactChange i b s) := by
  unfold contactChange
  dsimp only
  split
  · exact .of_eq
  · split
    · exact .of_eq
    · exact .of_eq

theorem takeFilter_keeps (i : InputId) (s : State) : Keeps s (takeFilter i s) := by
  unfold takeFilter
  split
  · unfold filterExpiry
    dsimp only
    split
    · exact .of_eq
    · split
      · refine Keeps.trans ?_ (Handled.perform _ _ _).keeps
        exact .of_eq
      · exact .of_eq
  · exact .refl s

/-! ### Start-up -/

/-- The entry to LISTENING keeps everything once the tables are those of the image. -/
theorem enterListening_keeps (t : Tables) (s : State) : Keeps { s with tables := t } (enterListening t s) := by
  refine Keeps.trans ?_ (settleReturns_keeps (.grantIfIdle _))
  refine Keeps.trans ?_ (startPass_keeps _)
  exact .of_eq

theorem endLoad_keeps (image : List Byte) (s : State) : ∃ t : Tables, Keeps { s with tables := t } (endLoad image s)
    ∧ (t = s.tables ∨ t = buildTables image) := by
  unfold endLoad
  split
  · exact ⟨_, enterListening_keeps _ s, .inr rfl⟩
  · refine ⟨s.tables, Keeps.trans ?_ (Handled.offerPresence _).keeps, .inl rfl⟩
    exact .of_eq

/-! ### Every effect, every step -/

/-- Every effect keeps all of this, from a state whose tables a load may have replaced and whose counters a STATUS's
completion may have reduced. -/
theorem effect_keeps {c : Instr} (hc : ¬ Resets c) (s : State) : ∃ (tables : Tables) (x : Vector Nat 16),
    Keeps { s with tables := tables, counters := x } (effect c s)
      ∧ (tables = s.tables ∨ ∃ image, c = .loadEnd image ∧ tables = buildTables image)
      ∧ (CountersOk s → ∀ i : Fin 16, x.get i ≤ 65535) ∧ (x = s.counters ∨ Clearing c s) := by
  have keep {t : State} (h : Keeps s t) : ∃ (tables : Tables) (x : Vector Nat 16),
      Keeps { s with tables := tables, counters := x } t
        ∧ (tables = s.tables ∨ ∃ image, c = .loadEnd image ∧ tables = buildTables image)
        ∧ (CountersOk s → ∀ i : Fin 16, x.get i ≤ 65535) ∧ (x = s.counters ∨ Clearing c s) :=
    ⟨s.tables, s.counters, h, .inl rfl, id, .inl rfl⟩
  cases c with
  | hardReset | hardResetRelease => exact absurd trivial hc
  | loadEnd image =>
    obtain ⟨t, hk, ht⟩ := endLoad_keeps image s
    exact ⟨t, s.counters, hk, ht.imp_right fun h => ⟨image, rfl, h⟩, id, .inl rfl⟩
  | listenTimerExpiry =>
    refine keep (Keeps.trans (Keeps.trans ?_ (Handled.offerPresence _).keeps) (recheckHoldoff_keeps _))
    exact .of_eq
  | wordClockEdge ns =>
    obtain ⟨ht, hm, -⟩ := clockEdge_keeps ns s.clock
    exact keep (.of_eq ht hm)
  | wordClockTimeout =>
    have hclock : (clockFailure s.clock).time = s.clock.time ∧ (clockFailure s.clock).micros = s.clock.micros := by
      unfold clockFailure
      cases s.clock.clock <;> exact ⟨rfl, rfl⟩
    exact keep (.of_eq hclock.1 hclock.2)
  | voiceSampleNeed v => exact keep (settleReturns_keeps (.takeSample v s))
  | busSampleOutput => exact keep (deliver_keeps s)
  | controlFrameBoundary => exact keep (controlBoundary_keeps s)
  | fadeEnd v => exact keep (Sounds.finished (.returnIdle v false s)).keeps
  | primeDeadline v => exact keep (primeExpiry_keeps v s)
  | beatBoundary =>
    refine keep ?_
    show Keeps s (takeBeat s)
    unfold takeBeat
    split
    · refine Keeps.trans ?_ (Sounds.finished (.releaseBeats _)).keeps
      exact .of_eq
    · exact .refl s
  | pendingExpiry cue => exact keep (Sounds.finished ((Sounds.withoutEntry cue s).trans (.bump _ _))).keeps
  | burstComplete data =>
    refine keep ?_
    show Keeps s (takeVoiceBurst data.toList s)
    unfold takeVoiceBurst
    split
    · exact settleReturns_keeps (.completeBurst _ _ _ _ s)
    · exact .refl s
  | preloadBurstComplete data =>
    refine keep ?_
    show Keeps s (takePreloadBurst data.toList s)
    unfold takePreloadBurst
    split
    · exact completePreload_keeps _ _ s
    · exact .refl s
  | triggerInputChange i b => exact keep (contactChange_keeps i b s)
  | triggerFilterExpiry i => exact keep (takeFilter_keeps i s)
  | interframeGapComplete => 
    refine keep (Keeps.trans ?_ (beginHoldoff_keeps 0 _))
    exact .of_eq
  | lineBusy => exact keep (.of_eq)
  | sendSlot => exact keep (takeSendSlot_keeps s)
  | transmitComplete =>
    show ∃ tables x, Keeps _ (takeTransmit s) ∧ _
    unfold takeTransmit sentFrame
    cases ha : s.line.activity with
    | sending n f =>
      obtain ⟨x, hk, hx, hc⟩ := completeAttempt_keeps ha
      exact ⟨s.tables, x, hk, .inl rfl, hx, hc⟩
    | none | holdoff | jamming => exact keep (.refl s)
  | collision => exact keep (takeCollision_keeps s)
  | jamEnd => exact keep .of_eq
  | rxBad r => exact keep (badReception_keeps r s)
  | rxProtocol f => exact keep ((endReception_keeps _ s).trans (.bump _ _))
  | fireReceived => exact keep (receive_keeps (Handled.takeFire _ _ _ _) _ _ s)
  | stopReceived => exact keep (receive_keeps (Handled.takeStop _ _ _ _) _ _ s)
  | segmentReceived => exact keep (receive_keeps (Handled.takeSegment _ _ _) _ _ s)
  | claimReceived => exact keep (receive_keeps (Handled.groupFrame (Handled.claimRule _) _ _ _) _ _ s)
  | holdReceived => exact keep (receive_keeps (Handled.groupFrame (Handled.holdRule _ _) _ _ _) _ _ s)
  | releaseReceived => exact keep (receive_keeps (Handled.groupFrame (Handled.releaseRule _) _ _ _) _ _ s)
  | presenceReceived => exact keep (receive_keeps (Handled.takePresence _ _) _ _ s)
  | queryReceived => exact keep (receive_keeps (Handled.takeQuery _ _) _ _ s)
  | statusReceived => exact keep (receive_keeps Handled.refl _ _ s)
  | restartReceived => exact keep (receive_keeps (Handled.takeRestart _) _ _ s)
  | answerTimerExpiry g => exact keep (Handled.answerExpiry g s).keeps
  | presenceTimerExpiry =>
    exact keep ((Handled.update s s.groups s.peers.table none s.answers s.mixer.peerKeys).trans
      (.offerPresence _)).keeps
  | peerStale x => exact keep (Handled.turnStale x s).keeps
  | peerGone x => exact keep (Handled.turnGone x s).keeps
  | referenceSlot => exact keep (beginHoldoff_keeps _ s)

theorem setContact_keeps (i : InputId) (b : Bool) (s : State) : Keeps s (setContact i b s) := .of_eq

/-- The form of `effect_keeps` for a command that is no hard reset. -/
theorem exec_keeps {c : Instr} {s t : State} (hc : ¬ Resets c) (h : exec c s = .next t) :
    ∃ (tables : Tables) (x : Vector Nat 16), Keeps { s with tables := tables, counters := x } t
      ∧ (tables = s.tables ∨ ∃ image, c = .loadEnd image ∧ tables = buildTables image)
      ∧ (CountersOk s → ∀ i : Fin 16, x.get i ≤ 65535) ∧ (x = s.counters ∨ Clearing c s) := by
  rcases exec_cases h with rfl | ⟨hr, -⟩ | ⟨i, b, rfl⟩ | ⟨-, -, -, rfl⟩
  · exact ⟨_, _, .refl t, .inl rfl, id, .inl rfl⟩
  · exact absurd hr hc
  · exact ⟨s.tables, s.counters, setContact_keeps i b s, .inl rfl, id, .inl rfl⟩
  · exact effect_keeps hc s

/-! ### Time -/

/-- All that a moment of time does: nothing while the pin is held, a bit time, the turn of a sample frame, or a stage of
one with the events it schedules. -/
theorem tick_cases (s : State) :
    tick s = s
      ∨ s.clock.stage = .running ∧ tick s = tickBit s
      ∨ s.clock.stage = .over ∧ tick s = nextFrame s
      ∨ ∃ (stage : FrameStage) (l : List Instr),
          tick s = { s with clock := { s.clock with stage := stage }, pending := l } := by
  unfold tick
  split
  · exact .inl rfl
  · split
    · exact .inr (.inr (.inr ⟨_, _, rfl⟩))
    · rename_i h
      exact .inr (.inl ⟨h, rfl⟩)
    · exact .inr (.inr (.inr ⟨_, _, rfl⟩))
    · rename_i h
      split
      · exact .inr (.inr (.inl ⟨h, rfl⟩))
      · exact .inr (.inr (.inr ⟨.over, _, by rw [← h]⟩))

/-- A bit time changes the queue of commands, the line's clocks, the burst's time left and the clock, but not the count of
sample frames. -/
theorem tickBit_shape (s : State) : ∃ (l : List Instr) (x : Timebase), x.time = s.clock.time
    ∧ tickBit s = { s with
        pending := l, line := bitTimeLine s.driving s.line, clock := x
        fetch := { s.fetch with burst := s.fetch.burst.map fun b => { b with left := b.left - 1 } } } := by
  unfold tickBit
  dsimp only
  split
  · refine ⟨_, closeFrame (bitTimeClock s.clock), ?_, rfl⟩
    unfold closeFrame
    split <;> rfl
  · exact ⟨_, bitTimeClock s.clock, rfl, rfl⟩

/-- What time leaves as it is. -/
theorem tick_frame (s : State) : (tick s).number = s.number ∧ (tick s).tables = s.tables ∧ (tick s).inReset = s.inReset
    ∧ (tick s).peers = s.peers ∧ (tick s).counters = s.counters ∧ (tick s).preload = s.preload ∧ (tick s).groups = s.groups
    ∧ (tick s).starts = s.starts ∧ (tick s).voices = s.voices ∧ (tick s).returns = s.returns
    ∧ (tick s).line.queue = s.line.queue := by
  rcases tick_cases s with h | ⟨-, h⟩ | ⟨-, h⟩ | ⟨_, _, h⟩
  · rw [h]; exact ⟨rfl, rfl, rfl, rfl, rfl, rfl, rfl, rfl, rfl, rfl, rfl⟩
  · obtain ⟨l, x, -, e⟩ := tickBit_shape s
    rw [h, e]; exact ⟨rfl, rfl, rfl, rfl, rfl, rfl, rfl, rfl, rfl, rfl, rfl⟩
  · rw [h]; exact ⟨rfl, rfl, rfl, rfl, rfl, rfl, rfl, rfl, rfl, rfl, rfl⟩
  · rw [h]; exact ⟨rfl, rfl, rfl, rfl, rfl, rfl, rfl, rfl, rfl, rfl, rfl⟩

/-- Time advances station time and the phase together, as a sample frame turns, or neither. -/
theorem tick_time (s : State) : ((tick s).clock.time = s.clock.time ∧ (tick s).mixer = s.mixer)
    ∨ s.clock.stage = .over ∧ (tick s).clock.stage = .opening ∧ (tick s).clock.time = s.clock.time + 1
      ∧ (tick s).mixer.phase = (s.mixer.phase + 1) % 48 := by
  rcases tick_cases s with h | ⟨-, h⟩ | ⟨hs, h⟩ | ⟨_, _, h⟩
  · rw [h]; exact .inl ⟨rfl, rfl⟩
  · obtain ⟨l, x, hx, e⟩ := tickBit_shape s
    rw [h, e]; exact .inl ⟨hx, rfl⟩
  · rw [h]; exact .inr ⟨hs, rfl, rfl, rfl⟩
  · rw [h]; exact .inl ⟨rfl, rfl⟩

/-- Settles O9: a command keeps these fields by `exec_keeps`, and time advances them as `tick_time` says. -/
theorem commandsKeepTimeNumberAndTables : Obligations.CommandsKeepTimeNumberAndTables := by
  refine ⟨fun c s t hc hr h => ?_, fun s t hp h => ?_⟩
  · have hn : ¬ Resets c := fun k => ((resets_iff c).1 k).elim hc fun ⟨n, e⟩ => hr n e
    obtain ⟨tables, x, hk, htables, -, -⟩ := exec_keeps hn h
    refine ⟨hk.time, hk.micros, hk.number, hk.inReset, hk.phase, hk.shift, hk.duplicate, fun hl => ?_⟩
    rcases htables with e | ⟨image, e, -⟩
    · exact hk.tables.trans e
    · exact absurd e (hl image)
  · rcases step_cases h with ⟨c, rest, e, -⟩ | ⟨-, rfl⟩
    · rw [hp] at e; cases e
    · obtain ⟨hn, ht, hr, hpeers, -⟩ := tick_frame s
      exact ⟨hn, ht, hr, hpeers, tick_time s⟩

/-- Settles O54: a counter can fall only where `exec_keeps` leaves the counters reduced, or at a hard reset. -/
theorem countersFallOnlyAtAClearingStatus : Obligations.CountersFallOnlyAtAClearingStatus := by
  intro s t k hs h hlt
  rcases step_cases h with ⟨c, rest, hp, he⟩ | ⟨-, rfl⟩
  · refine ⟨c, rest, hp, ?_⟩
    by_cases hc : Resets c
    · exact ((resets_iff c).1 hc).imp_right .inl
    obtain ⟨tables, x, hk, -, -, hx⟩ := exec_keeps hc he
    rcases hx with rfl | hx
    · have hle : s.counter k ≤ t.counter k := (hk.counters hs).2 k
      omega
    · exact .inr (.inr hx)
  · obtain ⟨-, -, -, -, hc, -⟩ := tick_frame s
    rw [State.counter, hc] at hlt
    exact absurd hlt (Nat.lt_irrefl _)

/-! ### The hard-reset state -/

theorem reset_counters : CountersOk State.reset := fun c => by simp [State.reset]

theorem hardResetState_settled (held : Bool) (n : Station) (s : State) : Settled (hardResetState held n s) := rfl

/-- Settles O59: settling has rounds enough by `settle_enough`, and every effect keeps `Settled`. -/
theorem everyStepTakesItsReturns : Obligations.EveryStepTakesItsReturns := by
  refine ⟨fun s t hs h => ?_, fun s n => ⟨finish_returns s, (settle_enough (pot_lt_settleRounds s)).2 n⟩⟩
  rcases step_cases h with ⟨c, rest, -, he⟩ | ⟨-, rfl⟩
  · by_cases hc : Resets c
    · rcases exec_cases he with rfl | ⟨-, held, n, rfl⟩ | ⟨i, b, rfl⟩ | ⟨-, -, hn, -⟩
      · exact hs
      · rfl
      · exact hs
      · exact absurd hc hn
    · obtain ⟨tables, x, hk, -⟩ := exec_keeps hc he
      exact hk.settled hs
  · obtain ⟨-, -, -, -, -, -, -, -, -, hr, -⟩ := tick_frame s
    exact hr.trans hs

end Sys2Proof.Machine
end

