-- ==== Sys2Proof/Proofs/Image.lean ====
section
/-! PROOFS. The tables built from an image: the record each index has, the chains that end, and that the tables give what the
records hold and have the properties of R15 (R3, R4, R7, R8, R11 to R15, R18, R96, R102, R108, R134, R135, R147, R170). -/

namespace Sys2Proof.Machine

/-! ### Records (R134, R135) -/

/-- Record i of a section of n records stands at offset o: the last one with that index. -/
def IsAt (start size n : Nat) (index : Nat → Nat) (i o : Nat) : Prop :=
  ∃ j, j < n ∧ o = start + j * size ∧ index o = i ∧ ∀ l, j < l → l < n → index (start + l * size) ≠ i

/-- A section of n records has none with index i. -/
def Lacks (start size n : Nat) (index : Nat → Nat) (i : Nat) : Prop := ∀ j, j < n → index (start + j * size) ≠ i

/-- Of the values of f below n, the last that passes a test is found. -/
theorem find_last_some {f : Nat → Nat} {p : Nat → Bool} {n j : Nat} (hj : j < n) (hp : p (f j) = true)
    (hl : ∀ l, j < l → l < n → p (f l) = false) : ((List.range n).reverse.map f).find? p = some (f j) := by
  induction n with
  | zero => omega
  | succ n ih =>
    rw [List.range_succ, List.reverse_append]
    simp only [List.reverse_cons, List.reverse_nil, List.nil_append, List.singleton_append, List.map_cons]
    rcases Nat.lt_succ_iff_lt_or_eq.mp hj with h | rfl
    · rw [List.find?_cons_of_neg (by simp [hl n h (by omega)])]
      exact ih h fun l h1 h2 => hl l h1 (by omega)
    · rw [List.find?_cons_of_pos hp]

theorem find_last_none {f : Nat → Nat} {p : Nat → Bool} {n : Nat} :
    ((List.range n).reverse.map f).find? p = none ↔ ∀ j, j < n → p (f j) = false := by
  simp

theorem findRecord_of_isAt {m : List Byte} {k : Sect} {start size n : Nat} {index : Nat → Nat} {i o : Nat}
    (hs : start = sectionStart m k) (hz : size = recordSize k) (hn : n = recordCount m k)
    (hi : ∀ o, index o = recordIndex m k o) (h : IsAt start size n index i o) : findRecord m k i = some o := by
  subst hs hz hn
  obtain ⟨j, hj, rfl, hji, hl⟩ := h
  refine find_last_some (p := fun off => recordIndex m k off == i) hj ?_ fun l h1 h2 => ?_
  · rw [← hi, hji]; exact beq_self_eq_true i
  · rw [← hi]; exact beq_eq_false_iff_ne.2 (hl l h1 h2)

theorem findRecord_none_iff {m : List Byte} {k : Sect} {start size n : Nat} {index : Nat → Nat} {i : Nat}
    (hs : start = sectionStart m k) (hz : size = recordSize k) (hn : n = recordCount m k)
    (hi : ∀ o, index o = recordIndex m k o) : Lacks start size n index i ↔ findRecord m k i = none := by
  subst hs hz hn
  rw [findRecord, find_last_none]
  simp only [Lacks, hi, beq_eq_false_iff_ne]

/-! ### Numbers of the image -/

theorem image8_lt (m : List Byte) (i : Nat) : image8 m i < 256 := (imageByte m i).isLt

theorem image16_lt (m : List Byte) (i : Nat) : image16 m i < 65536 := by
  have h1 := image8_lt m i
  have h2 := image8_lt m (i + 1)
  simp only [image16]; omega

theorem ofNat_eq_some_iff {n : Nat} [NeZero n] {k : Nat} {i : Fin n} : some (Fin.ofNat n k) = some i ↔ i.val = k % n := by
  rw [Option.some.injEq]
  exact ⟨fun h => by rw [← h]; rfl, fun h => Fin.ext h.symm⟩

theorem clampFin_val {n : Nat} [NeZero n] (k : Nat) : (clampFin n k).val = min (n - 1) k := by
  have hn : 0 < n := Nat.pos_of_neZero n
  show min k (n - 1) % n = _
  rw [Nat.mod_eq_of_lt (by omega), Nat.min_comm]

@[simp] theorem vector_map_get {α β : Type} {n : Nat} (f : α → β) (v : Vector α n) (i : Fin n) :
    (v.map f).get i = f (v.get i) := by
  show (v.map f)[i.val] = f v[i.val]
  simp

/-! ### Segments (R4, R11) -/

/-- The segment records as they are read, before a next is compared with the table. -/
def rawSegments (m : List Byte) : Vector (Option Segment) 512 :=
  tabulate 512 fun d => (findRecord m .segment d.val).map (readSegment m)

theorem buildSegments_get (m : List Byte) (d : SegIdx) :
    (buildSegments m).get d = (findRecord m .segment d.val).map fun o => keepNext (rawSegments m) (readSegment m o) := by
  show ((rawSegments m).map fun g => g.map (keepNext (rawSegments m))).get d = _
  rw [vector_map_get, rawSegments, tabulate_get, Option.map_map]
  rfl

theorem buildSegments_isSome (m : List Byte) (d : SegIdx) :
    ((buildSegments m).get d).isSome = (findRecord m .segment d.val).isSome := by
  rw [buildSegments_get, Option.isSome_map]

theorem keepNext_next (m : List Byte) (o : Nat) (n : SegIdx) : (keepNext (rawSegments m) (readSegment m o)).next = some n ↔
    imageBit m (o + 11) 0 = true ∧ n.val = image16 m (o + 12) % 512 ∧ (findRecord m .segment n.val).isSome = true := by
  have hraw : ((rawSegments m).get n).isSome = (findRecord m .segment n.val).isSome := by
    rw [rawSegments, tabulate_get, Option.isSome_map]
  show (Option.filter _ (readSegment m o).next) = some n ↔ _
  rw [Option.filter_eq_some_iff, hraw, ← and_assoc]
  refine and_congr_left fun _ => ?_
  simp only [readSegment]
  split
  · rename_i h
    rw [ofNat_eq_some_iff]
    simp [h]
  · rename_i h
    simp [h]

theorem segment_ok (m : List Byte) {d : SegIdx} {g : Segment} (h : (buildSegments m).get d = some g) :
    (∀ n, g.next = some n → ((buildSegments m).get n).isSome = true)
      ∧ g.start < 2 ^ 25 ∧ 1 ≤ g.length ∧ g.length ≤ 2 ^ 24 ∧ g.repeats ≤ 255 := by
  rw [buildSegments_get, Option.map_eq_some_iff] at h
  obtain ⟨o, ho, rfl⟩ := h
  refine ⟨fun n hn => ?_, Nat.mod_lt _ (by decide), Nat.le_max_left _ _, ?_, ?_⟩
  · rw [buildSegments_isSome]
    exact ((keepNext_next m o n).1 hn).2.2
  · show max 1 (min (2 ^ 24) _) ≤ _
    omega
  · have := image8_lt m (o + 10)
    show image8 m (o + 10) ≤ 255
    omega

/-! ### Chains (R12) -/

/-- A list of descriptors, each defined and with the one after it as its next. -/
def IsChain (t : Vector (Option Segment) 512) (l : List SegIdx) : Prop :=
  ∀ (i : Nat) (e : SegIdx), l[i]? = some e → ∃ g, t.get e = some g ∧ g.next = l[i + 1]?

theorem isChain_cons (t : Vector (Option Segment) 512) (d : SegIdx) (l : List SegIdx) :
    IsChain t (d :: l) ↔ (∃ g, t.get d = some g ∧ g.next = l.head?) ∧ IsChain t l := by
  constructor
  · intro h
    refine ⟨?_, fun i e he => h (i + 1) e (by simpa using he)⟩
    obtain ⟨g, h1, h2⟩ := h 0 d rfl
    exact ⟨g, h1, by rw [h2]; cases l <;> rfl⟩
  · rintro ⟨⟨g, h1, h2⟩, h⟩ i e he
    cases i with
    | zero =>
      obtain rfl : d = e := by simpa using he
      exact ⟨g, h1, by rw [h2]; cases l <;> rfl⟩
    | succ i => exact h i e (by simpa using he)

/-- The walk accepts exactly where the chain ends without meeting a descriptor again, given rounds for its length. -/
theorem chainOk_iff (t : Vector (Option Segment) 512) (n : Nat) (met : List SegIdx) (d : SegIdx) :
    chainOk t n met d = true ↔
      ∃ l, l.length < n ∧ (d :: l).Nodup ∧ (∀ e ∈ d :: l, e ∉ met) ∧ IsChain t (d :: l) := by
  induction n generalizing met d with
  | zero => simp [chainOk]
  | succ n ih =>
    by_cases hm : d ∈ met
    · have hf : chainOk t (n + 1) met d = false := by simp [chainOk, hm]
      rw [hf]
      simp only [Bool.false_eq_true, false_iff]
      rintro ⟨l, -, -, h, -⟩
      exact h d (List.mem_cons_self ..) hm
    cases ht : t.get d with
    | none =>
      have hf : chainOk t (n + 1) met d = false := by simp [chainOk, hm, ht]
      rw [hf]
      simp only [Bool.false_eq_true, false_iff]
      rintro ⟨l, -, -, -, h⟩
      obtain ⟨g, h1, -⟩ := ((isChain_cons t d l).1 h).1
      rw [ht] at h1; cases h1
    | some g =>
      cases hn : g.next with
      | none =>
        have hf : chainOk t (n + 1) met d = true := by simp [chainOk, hm, ht, hn]
        rw [hf]
        simp only [true_iff]
        refine ⟨[], by simp, by simp, by simpa using hm, (isChain_cons t d []).2 ⟨⟨g, ht, hn⟩, ?_⟩⟩
        intro i e he; simp at he
      | some e =>
        have hf : chainOk t (n + 1) met d = chainOk t n (d :: met) e := by simp [chainOk, hm, ht, hn]
        rw [hf, ih]
        constructor
        · rintro ⟨l, h1, h2, h3, h4⟩
          have hd : d ∉ e :: l := fun hd => h3 d hd (List.mem_cons_self ..)
          refine ⟨e :: l, by simpa using h1, List.nodup_cons.2 ⟨hd, h2⟩, ?_, (isChain_cons t d _).2 ⟨⟨g, ht, hn⟩, h4⟩⟩
          intro x hx
          rcases List.mem_cons.1 hx with rfl | hx
          · exact hm
          · exact fun k => h3 x hx (List.mem_cons_of_mem _ k)
        · rintro ⟨l, h1, h2, h3, h4⟩
          obtain ⟨⟨g', hg', hl⟩, h4⟩ := (isChain_cons t d l).1 h4
          obtain rfl : g = g' := by rw [ht] at hg'; exact Option.some.inj hg'
          rw [hn] at hl
          obtain ⟨l, rfl⟩ : ∃ l', l = e :: l' := by
            cases l with
            | nil => cases hl
            | cons a l => exact ⟨l, by rw [Option.some.inj hl]⟩
          rw [List.nodup_cons] at h2
          refine ⟨l, by simpa using h1, h2.2, fun x hx => ?_, h4⟩
          rw [List.mem_cons, not_or]
          exact ⟨fun k => h2.1 (k ▸ hx), h3 x (List.mem_cons_of_mem _ hx)⟩

/-- The walk with its rounds accepts exactly the chains that end (R12). -/
theorem chainOk_iff_chainEnds (t : Vector (Option Segment) 512) (d : SegIdx) :
    chainOk t 513 [] d = true ↔ ChainEnds t d := by
  rw [chainOk_iff]
  constructor
  · rintro ⟨l, -, h2, -, h4⟩
    exact ⟨d :: l, rfl, h2, h4⟩
  · rintro ⟨l, h1, h2, h4⟩
    obtain ⟨l, rfl⟩ : ∃ l', l = d :: l' := by
      cases l with
      | nil => cases h1
      | cons a l => exact ⟨l, by rw [Option.some.inj h1]⟩
    have hlen := h2.length_le_card
    rw [Fintype.card_fin, List.length_cons] at hlen
    exact ⟨l, by omega, h2, by simp, h4⟩

/-! ### Cues (R2, R3, R11 to R14) -/

theorem buildCuesUnlinked_get (m : List Byte) (t : Vector (Option Segment) 512) (c : LocalCue) :
    (buildCuesUnlinked m t).get c = (findRecord m .cue c.val).bind fun o =>
      if chainOk t 513 [] (readCue m o).first then
        (t.get (readCue m o).first).map fun g => { readCue m o with headLen := min (readCue m o).headLen g.length }
      else none := by
  rw [buildCuesUnlinked, tabulate_get]
  cases findRecord m .cue c.val with
  | none => rfl
  | some o =>
    simp only [Option.map_some, Option.bind_some]
    cases t.get (readCue m o).first with
    | none => simp
    | some g => simp only [Option.map_some]

theorem buildCues_get (m : List Byte) (t : Vector (Option Segment) 512) (c : LocalCue) :
    (buildCues m t).get c = ((buildCuesUnlinked m t).get c).map fun q =>
      { q with followOn := keepCue (buildCuesUnlinked m t) q.followOn } := by
  show ((buildCuesUnlinked m t).map fun q => q.map fun q =>
    { q with followOn := keepCue (buildCuesUnlinked m t) q.followOn }).get c = _
  rw [vector_map_get]

theorem buildCues_isSome (m : List Byte) (t : Vector (Option Segment) 512) (c : LocalCue) :
    ((buildCues m t).get c).isSome = ((buildCuesUnlinked m t).get c).isSome := by
  rw [buildCues_get, Option.isSome_map]

theorem keepCue_eq_some {m : List Byte} {t : Vector (Option Segment) 512} {c : Option LocalCue} {n : LocalCue} :
    keepCue (buildCuesUnlinked m t) c = some n ↔ c = some n ∧ ((buildCues m t).get n).isSome = true := by
  rw [keepCue, Option.filter_eq_some_iff, buildCues_isSome]

/-- A valid cue is its record with its head within the first segment, whose chain ends, and its follow-on valid. -/
theorem buildCues_eq_some {m : List Byte} {t : Vector (Option Segment) 512} {c : LocalCue} {q : Cue}
    (h : (buildCues m t).get c = some q) : ∃ o g, findRecord m .cue c.val = some o
      ∧ t.get (readCue m o).first = some g ∧ ChainEnds t (readCue m o).first
      ∧ q = { readCue m o with
          headLen := min (readCue m o).headLen g.length
          followOn := keepCue (buildCuesUnlinked m t) (readCue m o).followOn } := by
  rw [buildCues_get, Option.map_eq_some_iff] at h
  obtain ⟨q', h, rfl⟩ := h
  rw [buildCuesUnlinked_get, Option.bind_eq_some_iff] at h
  obtain ⟨o, ho, h⟩ := h
  split at h
  · rename_i hc
    rw [Option.map_eq_some_iff] at h
    obtain ⟨g, hg, rfl⟩ := h
    exact ⟨o, g, ho, hg, (chainOk_iff_chainEnds t _).1 hc, rfl⟩
  · cases h

/-- A cue with a record is valid exactly when its chain ends. -/
theorem buildCues_isSome_iff {m : List Byte} {t : Vector (Option Segment) 512} {c : LocalCue} {o : Nat}
    (ho : findRecord m .cue c.val = some o) :
    ((buildCues m t).get c).isSome = true ↔ ChainEnds t (readCue m o).first := by
  rw [buildCues_isSome, buildCuesUnlinked_get, ho, Option.bind_some, ← chainOk_iff_chainEnds]
  by_cases hc : chainOk t 513 [] (readCue m o).first = true
  · have hsome : (t.get (readCue m o).first).isSome = true := by
      obtain ⟨l, h1, -, h3⟩ := (chainOk_iff_chainEnds t _).1 hc
      obtain ⟨g, hg, -⟩ := h3 0 _ (by rw [← h1]; cases l <;> rfl)
      simp [hg]
    simp [hc, hsome]
  · simp [hc]

theorem clampBeat_bounds (n : Nat) : 480 ≤ clampBeat n ∧ clampBeat n ≤ 96000 := by
  simp only [clampBeat]; omega

theorem cue_ok (m : List Byte) {c : LocalCue} {q : Cue} (h : (buildCues m (buildSegments m)).get c = some q) :
    (∃ g, (buildSegments m).get q.first = some g ∧ q.headLen ≤ g.length) ∧ ChainEnds (buildSegments m) q.first
      ∧ (∀ n, q.followOn = some n → ((buildCues m (buildSegments m)).get n).isSome = true)
      ∧ q.headLen ≤ 4096 ∧ q.level ≤ 126 ∧ q.fadeIn ≤ 8191 ∧ q.fadeOut ≤ 8191 ∧ q.choke ≤ 15
      ∧ ∀ b, q.beat = some b → 480 ≤ b ∧ b ≤ 96000 := by
  obtain ⟨o, g, ho, hg, hc, rfl⟩ := buildCues_eq_some h
  have hhead : (readCue m o).headLen ≤ 4096 := Nat.min_le_left _ _
  refine ⟨⟨g, hg, Nat.min_le_right _ _⟩, hc, fun n hn => (keepCue_eq_some.1 hn).2, (Nat.min_le_left _ _).trans hhead,
    Nat.min_le_left _ _, Nat.min_le_left _ _, Nat.min_le_left _ _, Nat.min_le_left _ _, fun b hb => ?_⟩
  change (if imageBit m (o + 15) 1 then some (clampBeat (image24 m (o + 17))) else none) = some b at hb
  split at hb
  · exact Option.some.inj hb ▸ clampBeat_bounds _
  · cases hb

/-! ### Classes, stores, groups and triggers (R6, R18, R102, R147) -/

/-- The properties of a class record of R6. -/
def ClassOk (r : ClassRec) : Prop :=
  r.priority ≤ 7 ∧ 1 ≤ r.polyphony ∧ r.polyphony ≤ 8 ∧ r.maxWait ≤ 2000 ∧ (∀ k, r.depth.get k ≤ 126)
    ∧ 1 ≤ r.attack ∧ r.attack ≤ 127 ∧ 1 ≤ r.release ∧ r.release ≤ 127

theorem defaultClass_ok : ClassOk defaultClass := by
  refine ⟨?_, ?_, ?_, ?_, ?_, ?_⟩ <;> simp [defaultClass]

theorem readClass_ok (m : List Byte) (o : Nat) : ClassOk (readClass m o) := by
  refine ⟨?_, ?_, ?_, ?_, fun k => ?_, ?_, ?_, ?_, ?_⟩ <;> simp only [readClass, tabulate_get] <;> omega

/-- The properties of a store window of R18. -/
def StoreOk (w : StoreWindow) : Prop :=
  (∃ k, 16 ≤ k ∧ k ≤ 24 ∧ w.size = 2 ^ k) ∧ w.base % w.size = 0 ∧ w.base < 2 ^ 25

theorem noStore_ok : StoreOk noStore := ⟨⟨16, by decide, by decide, by decide⟩, by decide, by decide⟩

theorem readStore_ok (m : List Byte) (o : Nat) : StoreOk (readStore m o) := by
  have hbase : image32 m (o + 2) % 2 ^ 25 < 2 ^ 25 := Nat.mod_lt _ (by decide)
  refine ⟨⟨max 16 (min 24 (image8 m (o + 6))), by omega, by omega, rfl⟩, ?_, (Nat.sub_le _ _).trans_lt hbase⟩
  exact Nat.sub_mod_eq_zero_of_mod_eq (Nat.mod_mod _ _).symm

theorem keepCue_isSome {cues : Vector (Option Cue) 256} {c : Option LocalCue} {n : LocalCue} (h : keepCue cues c = some n) :
    (cues.get n).isSome = true := (Option.filter_eq_some_iff.1 h).2

theorem keepAction_play {cues : Vector (Option Cue) 256} {a : Option Action} {c : LocalCue}
    (h : keepAction cues a = some (.play c)) : (cues.get c).isSome = true := by
  unfold keepAction at h
  split at h
  · rename_i d
    split at h
    · rename_i hd
      obtain rfl : d = c := by simpa using h
      exact hd
    · cases h
  · rename_i hne
    exact absurd h (hne c)

/-- The properties of a group record of R147. -/
def GroupOk (cues : Vector (Option Cue) 256) (bound : Vector (Option Binding) 16) (r : GroupCfg) : Prop :=
  (∀ c, r.wonCue = some c ∨ r.timeoutCue = some c → (cues.get c).isSome = true)
    ∧ (∀ i, r.claimTrigger = some i → (bound.get i).isSome = true) ∧ r.answerTime ≤ 600

theorem noGroup_ok (cues : Vector (Option Cue) 256) (bound : Vector (Option Binding) 16) : GroupOk cues bound noGroup := by
  refine ⟨?_, ?_, ?_⟩ <;> simp [noGroup]

theorem readGroup_ok (m : List Byte) (cues : Vector (Option Cue) 256) (bound : Vector (Option Binding) 16) (o : Nat) :
    GroupOk cues bound (readGroup m cues bound o) := by
  refine ⟨fun c hc => hc.elim keepCue_isSome keepCue_isSome, fun i hi => ?_, Nat.min_le_left _ _⟩
  simp only [readGroup] at hi
  split at hi
  · exact (Option.filter_eq_some_iff.1 hi).2
  · cases hi

/-- A table read from its records, with a default where the section has none, has a property that both have. -/
theorem getD_map_of {α : Type} {P : α → Prop} {d : α} {f : Nat → α} (hd : P d) (hf : ∀ o, P (f o)) (x : Option Nat) :
    P ((x.map f).getD d) := by
  cases x with
  | none => exact hd
  | some o => exact hf o

theorem readTrim_le (m : List Byte) (b o : Nat) : readTrim m b o ≤ 126 := by
  unfold readTrim
  split <;> omega

/-- The tables of any image have the properties of R15. -/
theorem buildTables_ok (m : List Byte) : TablesOk (buildTables m) := by
  have hclass : ∀ c, ClassOk ((buildTables m).classes.get c) := fun c => by
    simp only [buildTables, tabulate_get]
    exact getD_map_of defaultClass_ok (readClass_ok m) _
  have hgroup : ∀ g, GroupOk (buildTables m).cues (buildTables m).triggers ((buildTables m).groups.get g) := fun g => by
    simp only [buildTables, tabulate_get]
    exact getD_map_of (noGroup_ok _ _) (readGroup_ok m _ _) _
  refine ⟨fun c q hq => cue_ok m hq, fun d g hg => segment_ok m hg, hclass, fun w => ?_, fun g => (hgroup g).1,
    fun g => (hgroup g).2.1, fun g => (hgroup g).2.2, fun i b hb => ?_, readTrim_le _ _ _, readTrim_le _ _ _, ?_, ?_⟩
  · simp only [buildTables, tabulate_get]
    exact getD_map_of noStore_ok (readStore_ok m) _
  · simp only [buildTables, tabulate_get, Option.map_eq_some_iff] at hb
    obtain ⟨o, -, rfl⟩ := hb
    refine ⟨?_, ?_, fun c hc => hc.elim keepAction_play keepAction_play⟩ <;> simp only [readBinding] <;> omega
  · simp only [buildTables, readPeriod]; omega
  · simp only [buildTables, readPeriod]; omega

theorem reset_tables_ok : TablesOk Tables.reset := by
  have hclass : ∀ c, ClassOk (Tables.reset.classes.get c) := fun c => by
    simp only [Tables.reset, replicate_get]
    exact defaultClass_ok
  have hstore : ∀ w, StoreOk (Tables.reset.store.get w) := fun w => by
    simp only [Tables.reset, replicate_get]
    exact noStore_ok
  have hgroup : ∀ g, GroupOk Tables.reset.cues Tables.reset.triggers (Tables.reset.groups.get g) := fun g => by
    simp only [Tables.reset, replicate_get]
    exact noGroup_ok _ _
  refine ⟨fun c q h => ?_, fun d g h => ?_, hclass, hstore, fun g => (hgroup g).1, fun g => (hgroup g).2.1,
    fun g => (hgroup g).2.2, fun i b h => ?_, by decide, by decide, by decide, by decide⟩
  all_goals
    simp only [Tables.reset, replicate_get] at h
    cases h

/-- Settles O53: a hard reset puts the reset values in place, a load tables that R15 holds of, and every other effect keeps
them by `exec_keeps`. -/
theorem everyStepKeepsCountersAndPreload : Obligations.EveryStepKeepsCountersAndPreload := by
  intro s t h
  rcases step_cases h with ⟨c, rest, -, he⟩ | ⟨-, rfl⟩
  · by_cases hc : Resets c
    · rcases exec_cases he with rfl | ⟨-, held, n, rfl⟩ | ⟨i, b, rfl⟩ | ⟨-, -, hn, -⟩
      · exact ⟨id, id, id⟩
      · exact ⟨fun _ => reset_counters, fun _ => reset_preload_wf, fun _ => reset_tables_ok⟩
      · exact ⟨id, id, id⟩
      · exact absurd hc hn
    · obtain ⟨tables, x, hk, htables, hx, -⟩ := exec_keeps hc he
      refine ⟨fun hs => (hk.counters (hx hs)).1, hk.preload, fun hs => ?_⟩
      rw [hk.tables]
      rcases htables with rfl | ⟨image, -, rfl⟩
      · exact hs
      · exact buildTables_ok image
  · obtain ⟨-, ht, -, -, hc, hp, -⟩ := tick_frame s
    exact ⟨fun hs => by simpa only [CountersOk, hc] using hs, fun hs => by simpa only [PreloadOk, hp] using hs,
      fun hs => by rw [ht]; exact hs⟩

/-- Settles O52. -/
theorem resetStateIsSafe : Obligations.ResetStateIsSafe := by
  have hview : ∀ g, State.reset.view g = View.reset := fun g => by simp [State.view, State.reset, Groups.reset]
  have hvoice : ∀ v, State.reset.voice v = Voice.reset := fun v => by simp [State.voice, State.reset]
  refine ⟨⟨reset_counters, reset_preload_wf, reset_tables_ok, fun g => ?_, ?_, ?_, fun g => ?_, ?_⟩, rfl⟩
  · rw [hview]; simp [ViewOk, View.reset]
  · simp [StartQueueOk, State.reset, Starts.reset]
  · simp [TxQueueOk, State.reset, Line.reset]
  · simp [State.reset, Line.reset]
  · refine ⟨fun b hb => ?_, fun v => ?_⟩
    · simp [State.reset, Fetch.reset] at hb
    · rw [hvoice]; simp [Voice.reset]

end Sys2Proof.Machine
end

