-- ==== Sys2Proof/Proofs/Moves.lean ====
section
/-! PROOFS. What the operations of the voices, the port and the queue of starts are made of: updates of what these blocks hold,
counts of their counters, and offers of the own PRESENCE. Each operation is taken apart once; what every such operation keeps is
then shown of the parts alone. From it: the FIFOs stay bounded and the pending-start queue lawful (R24, R26, R51). -/

namespace Sys2Proof.Machine

/-! ### The parts of an operation -/

/-- From s to t nothing changes but what the voices, the port and the queue of starts hold. -/
def SameBeside (s t : State) : Prop :=
  t = { s with
    starts := { s.starts with queue := t.starts.queue, stamps := t.starts.stamps }
    voices := t.voices, beatRef := t.beatRef, returns := t.returns
    fetch := { s.fetch with requests := t.fetch.requests, burst := t.fetch.burst }
    mixer := { s.mixer with localKeys := t.mixer.localKeys, mix := t.mixer.mix, given := t.mixer.given } }

/-- The counters of the starts, the voices and the port (R145). -/
def Counter.ofSounds : Counter → Bool
  | .startMasked | .startInvalid | .startLost | .underrun | .storeFault => true
  | _ => false

/-- t is reached from s by updates that V allows, counts, and offers of the own PRESENCE. -/
inductive Moves (V : State → State → Prop) : State → State → Prop
  | refl (s : State) : Moves V s s
  | trans {s t u : State} : Moves V s t → Moves V t u → Moves V s u
  | update {s t : State} : SameBeside s t → V s t → Moves V s t
  | bump (s : State) {c : Counter} : c.ofSounds = true → Moves V s (s.bump c)
  | offerPresence (s : State) : Moves V s (offerPresence s)

theorem Moves.mono {V W : State → State → Prop} (h : ∀ s t, V s t → W s t) {s t : State} (m : Moves V s t) :
    Moves W s t := by
  induction m with
  | refl s => exact .refl s
  | trans _ _ h1 h2 => exact h1.trans h2
  | update e hv => exact .update e (h _ _ hv)
  | bump s hc => exact .bump s hc
  | offerPresence s => exact .offerPresence s

theorem Moves.bumpIf {V : State → State → Prop} (s : State) (b : Bool) {c : Counter} (hc : c.ofSounds = true) :
    Moves V s (s.bumpIf b c) := by
  rcases State.bumpIf_cases s b c with h | h <;> rw [h]
  · exact .refl s
  · exact .bump s hc

theorem Moves.foldl {V : State → State → Prop} {α : Type} {f : State → α → State} (h : ∀ s a, Moves V s (f s a))
    (l : List α) (s : State) : Moves V s (l.foldl f s) := by
  induction l generalizing s with
  | nil => exact .refl s
  | cons a l ih => exact (h s a).trans (ih _)

/-- What the parts keep, the moves keep. -/
theorem Moves.keep {V P : State → State → Prop} (hrefl : ∀ s, P s s) (htrans : ∀ s t u, P s t → P t u → P s u)
    (hupdate : ∀ s t, SameBeside s t → V s t → P s t) (hbump : ∀ s c, c.ofSounds = true → P s (s.bump c))
    (hoffer : ∀ s, P s (Machine.offerPresence s)) {s t : State} (m : Moves V s t) : P s t := by
  induction m with
  | refl s => exact hrefl s
  | trans _ _ h1 h2 => exact htrans _ _ _ h1 h2
  | update e hv => exact hupdate _ _ e hv
  | bump s hc => exact hbump s _ hc
  | offerPresence s => exact hoffer s

/-! ### What an offer leaves -/

@[simp] theorem offer_voices (b : TxBody) (s : State) : (offer b s).voices = s.voices := by rw [offer_shape]
@[simp] theorem offer_starts (b : TxBody) (s : State) : (offer b s).starts = s.starts := by rw [offer_shape]
@[simp] theorem offer_fetch (b : TxBody) (s : State) : (offer b s).fetch = s.fetch := by rw [offer_shape]
@[simp] theorem offer_mixer (b : TxBody) (s : State) : (offer b s).mixer = s.mixer := by rw [offer_shape]
@[simp] theorem offer_returns (b : TxBody) (s : State) : (offer b s).returns = s.returns := by rw [offer_shape]
@[simp] theorem offer_beatRef (b : TxBody) (s : State) : (offer b s).beatRef = s.beatRef := by rw [offer_shape]
@[simp] theorem offer_clock (b : TxBody) (s : State) : (offer b s).clock = s.clock := by rw [offer_shape]
@[simp] theorem offer_tables (b : TxBody) (s : State) : (offer b s).tables = s.tables := by rw [offer_shape]
@[simp] theorem offer_preload (b : TxBody) (s : State) : (offer b s).preload = s.preload := by rw [offer_shape]
@[simp] theorem offer_station (b : TxBody) (s : State) : (offer b s).station = s.station := by rw [offer_shape]
@[simp] theorem offer_number (b : TxBody) (s : State) : (offer b s).number = s.number := by rw [offer_shape]

theorem offerPresence_cases (s : State) : offerPresence s = s ∨ offerPresence s = offer .presence s := by
  unfold offerPresence
  split
  · exact .inr rfl
  · exact .inl rfl

@[simp] theorem offerPresence_voices (s : State) : (offerPresence s).voices = s.voices := by
  rcases offerPresence_cases s with h | h <;> simp [h]
@[simp] theorem offerPresence_starts (s : State) : (offerPresence s).starts = s.starts := by
  rcases offerPresence_cases s with h | h <;> simp [h]
@[simp] theorem offerPresence_fetch (s : State) : (offerPresence s).fetch = s.fetch := by
  rcases offerPresence_cases s with h | h <;> simp [h]
@[simp] theorem offerPresence_mixer (s : State) : (offerPresence s).mixer = s.mixer := by
  rcases offerPresence_cases s with h | h <;> simp [h]
@[simp] theorem offerPresence_beatRef (s : State) : (offerPresence s).beatRef = s.beatRef := by
  rcases offerPresence_cases s with h | h <;> simp [h]
@[simp] theorem offerPresence_clock (s : State) : (offerPresence s).clock = s.clock := by
  rcases offerPresence_cases s with h | h <;> simp [h]
@[simp] theorem offerPresence_tables (s : State) : (offerPresence s).tables = s.tables := by
  rcases offerPresence_cases s with h | h <;> simp [h]
@[simp] theorem offerPresence_preload (s : State) : (offerPresence s).preload = s.preload := by
  rcases offerPresence_cases s with h | h <;> simp [h]
@[simp] theorem offerPresence_groups (s : State) : (offerPresence s).groups = s.groups := by
  rcases offerPresence_cases s with h | h <;> rw [h]
  exact offer_groups (by decide) s

/-! ### The operations of a voice -/

/-- A voice's FIFO and its burst grow no larger, its fetch does not begin again, and it is the same start unless its FIFO is
empty. -/
def Eases (x y : Voice) : Prop :=
  y.inFlight ≤ x.inFlight ∧ y.fifo.length ≤ x.fifo.length
    ∧ (y.fifo = [] ∨ y.gen = x.gen ∧ (y.active = true → x.active = true)) ∧ (x.fetchDone = true → y.fetchDone = true)

theorem Eases.refl (x : Voice) : Eases x x := ⟨Nat.le_refl _, Nat.le_refl _, .inr ⟨rfl, id⟩, id⟩

theorem Eases.trans {x y z : Voice} (h : Eases x y) (k : Eases y z) : Eases x z := by
  obtain ⟨h1, h2, h3, hd⟩ := h
  obtain ⟨k1, k2, k3, kd⟩ := k
  refine ⟨k1.trans h1, k2.trans h2, ?_, fun hx => kd (hd hx)⟩
  rcases k3 with k3 | ⟨k3, k4⟩
  · exact .inl k3
  · rcases h3 with h3 | ⟨h3, h4⟩
    · rw [h3] at k2
      exact .inl (List.length_eq_zero_iff.1 (Nat.le_zero.1 k2))
    · exact .inr ⟨k3.trans h3, fun ha => h4 (k4 ha)⟩

/-- No return to take comes with a follow-on. -/
def NoFollow (s : State) : Prop := ∀ r ∈ s.returns, r.followOn = none

theorem Settled.noFollow {s : State} (h : Settled s) : NoFollow s := by
  unfold NoFollow
  rw [show s.returns = [] from h]
  simp

/-- A voice asks for the port as before, or its fetch is over and it asks no more. -/
def Asks (s t : State) (v : VoiceId) : Prop :=
  t.fetch.requests.get v = s.fetch.requests.get v
    ∨ (t.voice v).fetchDone = true ∧ t.fetch.requests.get v = none

/-- What an operation of a voice keeps: the queue of starts, the burst, the request set but for fetches that end, FIFOs no
fuller, and no follow-on. -/
structure Plays (s t : State) : Prop where
  queue : t.starts.queue = s.starts.queue
  burst : t.fetch.burst = s.fetch.burst
  requests : ∀ v, Asks s t v
  voices : ∀ v, Eases (s.voice v) (t.voice v)
  noFollow : NoFollow s → NoFollow t

theorem Plays.refl (s : State) : Plays s s := ⟨rfl, rfl, fun _ => .inl rfl, fun _ => .refl _, id⟩

theorem Plays.trans {s t u : State} (h : Plays s t) (k : Plays t u) : Plays s u := by
  refine ⟨k.queue.trans h.queue, k.burst.trans h.burst, fun v => ?_, fun v => (h.voices v).trans (k.voices v),
    fun hs => k.noFollow (h.noFollow hs)⟩
  obtain ⟨-, -, -, kd⟩ := k.voices v
  rcases k.requests v with k1 | k1
  · rcases h.requests v with h1 | ⟨h1, h2⟩
    · exact .inl (k1.trans h1)
    · exact .inr ⟨kd h1, k1.trans h2⟩
  · exact .inr k1

theorem Plays.request {s t : State} (h : Plays s t) {v : VoiceId} (hv : (t.fetch.requests.get v).isSome = true) :
    (s.fetch.requests.get v).isSome = true := by
  rcases h.requests v with h1 | ⟨-, h1⟩
  · rwa [← h1]
  · rw [h1] at hv; cases hv

/-- A change of nothing that the relation speaks of. -/
theorem Plays.of_eq {s t : State} (queue : t.starts.queue = s.starts.queue := by rfl)
    (burst : t.fetch.burst = s.fetch.burst := by rfl) (requests : t.fetch.requests = s.fetch.requests := by rfl)
    (voices : t.voices = s.voices := by rfl) (returns : t.returns = s.returns := by rfl) : Plays s t :=
  ⟨queue, burst, fun _ => .inl (by rw [requests]), fun v => by rw [State.voice_eq s t voices v]; exact .refl _,
    fun h => by unfold NoFollow; rw [returns]; exact h⟩

theorem Plays.of_moves {s t : State} (m : Moves Plays s t) : Plays s t := by
  refine m.keep Plays.refl (fun _ _ _ => Plays.trans) (fun _ _ _ h => h) (fun s c _ => .of_eq) fun s => ?_
  exact .of_eq (by simp) (by simp) (by simp) (by simp) (offerPresence_returns s)

theorem Moves.of_eq {s t : State} (h : SameBeside s t := by rfl) (queue : t.starts.queue = s.starts.queue := by rfl)
    (burst : t.fetch.burst = s.fetch.burst := by rfl) (requests : t.fetch.requests = s.fetch.requests := by rfl)
    (voices : t.voices = s.voices := by rfl) (returns : t.returns = s.returns := by rfl) : Moves Plays s t :=
  .update h (.of_eq queue burst requests voices returns)

theorem Moves.setVoice {s : State} {v : VoiceId} {x : Voice} (h : Eases (s.voice v) x) :
    Moves Plays s (s.setVoice v x) := by
  refine .update rfl ⟨rfl, rfl, fun _ => .inl rfl, fun u => ?_, id⟩
  by_cases hu : u = v
  · subst hu; rw [State.voice_setVoice]; exact h
  · rw [State.voice_setVoice_ne _ _ hu]; exact .refl _

/-- A change of a voice beside its FIFO, its burst and its start. -/
theorem Moves.setSame {s : State} {v : VoiceId} {x : Voice} (inFlight : x.inFlight = (s.voice v).inFlight := by rfl)
    (fifo : x.fifo = (s.voice v).fifo := by rfl) (gen : x.gen = (s.voice v).gen := by rfl)
    (fetchDone : (s.voice v).fetchDone = true → x.fetchDone = true := by exact id)
    (state : x.active = true → (s.voice v).active = true := by exact id) : Moves Plays s (s.setVoice v x) :=
  .setVoice ⟨inFlight.le, (congrArg List.length fifo).le, .inr ⟨gen, state⟩, fetchDone⟩

theorem Moves.setMix (s : State) (v : VoiceId) (x : VoiceMix) : Moves Plays s (s.setMix v x) := .of_eq

theorem Moves.setGiven (s : State) (v : VoiceId) (x : Option Sample) : Moves Plays s (s.setGiven v x) := .of_eq

theorem Moves.setBeatRef (s : State) (r : Option VoiceId) : Moves Plays s { s with beatRef := r } := .of_eq

/-- A return is reported, without a follow-on. -/
theorem Moves.report (s : State) (v : VoiceId) (ref : Bool) :
    Moves Plays s { s with returns := s.returns ++ [⟨v, ref, none⟩] } := by
  refine .update rfl ⟨rfl, rfl, fun _ => .inl rfl, fun _ => .refl _, fun hs r hr => ?_⟩
  rcases List.mem_append.1 hr with hr | hr
  · exact hs r hr
  · rw [List.mem_singleton.1 hr]

/-- A voice whose fetch is over leaves the request set. -/
theorem Moves.dropRequest {s : State} {v : VoiceId} (h : (s.voice v).fetchDone = true) :
    Moves Plays s (s.setRequest v none) := by
  refine .update rfl ⟨rfl, rfl, fun u => ?_, fun _ => .refl _, id⟩
  by_cases hu : u = v
  · subst hu
    exact .inr ⟨h, upd_get_self _ _ _⟩
  · exact .inl (upd_get_ne _ _ hu)

theorem Moves.handLocalKeys (s : State) : Moves Plays s (handLocalKeys s) := by
  unfold Machine.handLocalKeys
  dsimp only
  split
  · exact .refl s
  · refine Moves.trans ?_ (.offerPresence _)
    exact .of_eq

/-- A voice enters PLAYING out of another state than IDLE, or with an empty FIFO. -/
theorem Moves.enterPlaying {v : VoiceId} {s : State} (h : (s.voice v).active = true ∨ (s.voice v).fifo = []) :
    Moves Plays s (enterPlaying v s) := by
  unfold Machine.enterPlaying
  dsimp only
  split
  · exact .refl s
  · rename_i q hq
    refine Moves.trans ?_ (.handLocalKeys _)
    have hin : Eases (s.voice v) { s.voice v with
        state := .playing, deadline := none, playTime := s.now, fade := some (entryFade q) } := by
      rcases h with h | h
      · exact ⟨Nat.le_refl _, Nat.le_refl _, .inr ⟨rfl, fun _ => h⟩, id⟩
      · exact ⟨Nat.le_refl _, Nat.le_refl _, .inl h, id⟩
    split
    · exact ((Moves.setVoice hin).trans (.setMix _ v _)).trans (.setBeatRef _ _)
    · exact (Moves.setVoice hin).trans (.setMix _ v _)

/-- A return to IDLE, as yet unreported. -/
theorem Moves.returnIdle (v : VoiceId) (s : State) : Moves Plays s (returnIdle v false s) := by
  unfold Machine.returnIdle
  dsimp only
  have hidle : Eases (s.voice v) (idleVoice (s.voice v)) := ⟨Nat.zero_le _, Nat.zero_le _, .inl rfl, fun _ => rfl⟩
  have h : Moves Plays s ((((s.setVoice v (idleVoice (s.voice v))).setRequest v none).setMix v .silent).setGiven v none) :=
    (((Moves.setVoice hidle).trans (.dropRequest (by simp [idleVoice]))).trans (.setMix _ v _)).trans (.setGiven _ v _)
  refine Moves.trans (Moves.trans (Moves.trans h ?_) (.handLocalKeys _)) (.report _ v _)
  split
  · exact .setBeatRef _ _
  · exact .refl _

theorem active_of_state {x : Voice} {st : VState} (h : x.state = st) (hst : st ≠ .idle) : x.active = true := by
  simp [Voice.active, h, hst]

theorem Moves.beginFadeOut {v : VoiceId} {s : State} (T : Nat) (h : (s.voice v).active = true) :
    Moves Plays s (beginFadeOut v T s) :=
  .setSame (state := fun _ => h)

theorem Moves.cutVoice (s : State) (v : VoiceId) : Moves Plays s (cutVoice s v) := by
  unfold Machine.cutVoice
  split
  · exact .refl s
  · exact .returnIdle v s
  · rename_i h; exact .beginFadeOut _ (active_of_state h (by decide))
  · rename_i h; exact .beginFadeOut _ (active_of_state h (by decide))

theorem Moves.fadeVoice (s : State) (v : VoiceId) : Moves Plays s (fadeVoice s v) := by
  unfold Machine.fadeVoice
  split
  · exact .refl s
  · exact .refl s
  · exact .returnIdle v s
  · rename_i h; exact .beginFadeOut _ (active_of_state h (by decide))

theorem Moves.tailVoice (s : State) (v : VoiceId) : Moves Plays s (tailVoice s v) := by
  unfold Machine.tailVoice
  split
  · exact .setSame
  · exact .refl s

theorem Moves.stopVoice (m : StopMode) (s : State) (v : VoiceId) : Moves Plays s (stopVoice m s v) := by
  cases m
  · exact .cutVoice s v
  · exact .fadeVoice s v
  · exact .tailVoice s v

theorem Moves.endFetch (v : VoiceId) (s : State) : Moves Plays s (endFetch v s) :=
  Moves.trans (.setSame (fetchDone := fun _ => rfl)) (.dropRequest (by simp))

theorem Moves.storeFault (v : VoiceId) (s : State) : Moves Plays s (storeFault v s) :=
  ((Moves.bump s rfl).trans (.endFetch v _)).trans (.cutVoice _ v)

theorem Moves.enterDescriptor (v : VoiceId) (s : State) : Moves Plays s (enterDescriptor v s) := by
  unfold Machine.enterDescriptor
  dsimp only
  split
  · exact .setSame
  · exact .storeFault v s

theorem Moves.nextDescriptor (v : VoiceId) (g : Segment) (s : State) : Moves Plays s (nextDescriptor v g s) := by
  unfold Machine.nextDescriptor
  split
  · exact Moves.trans (.setSame (v := v)) (.enterDescriptor v _)
  · exact .endFetch v s

theorem Moves.walkOn (v : VoiceId) (g : Segment) (s : State) : Moves Plays s (walkOn v g s) := by
  unfold Machine.walkOn
  dsimp only
  split
  · split
    · exact Moves.trans (.setSame (v := v)) (.nextDescriptor v g _)
    · exact .setSame
  · split
    · exact .setSame
    · exact .nextDescriptor v g s

theorem Moves.advancePtr (v : VoiceId) (n : Nat) (s : State) : Moves Plays s (advancePtr v n s) := by
  unfold Machine.advancePtr
  dsimp only
  split
  · exact .endFetch v s
  · split
    · exact Moves.trans (.setSame (v := v)) (.walkOn v _ _)
    · exact .setSame

theorem Moves.debtWalk (v : VoiceId) (rounds d : Nat) (s : State) : Moves Plays s (debtWalk v rounds d s) := by
  induction rounds generalizing d s with
  | zero => exact .refl s
  | succ rounds ih =>
    unfold Machine.debtWalk
    dsimp only
    split
    · exact .refl s
    · split
      · exact .endFetch v s
      · split
        · exact .advancePtr v d s
        · exact (Moves.advancePtr v _ s).trans (ih _ _)

theorem Moves.settleDebt (v : VoiceId) (s : State) : Moves Plays s (settleDebt v s) :=
  (Moves.debtWalk v _ _ s).trans .setSame

theorem Moves.missSample (v : VoiceId) (s : State) : Moves Plays s (missSample v s) :=
  Moves.trans (Moves.trans .setSame (.setGiven _ v _)) (.bumpIf _ _ rfl)

theorem Moves.choke (c : LocalCue) (q : Cue) (s : State) : Moves Plays s (choke c q s) := by
  unfold Machine.choke
  split
  · exact .refl s
  · exact .foldl Moves.fadeVoice _ s

theorem fifo_nil_of_eases {x y : Voice} (h : Eases x y) (hx : x.fifo = []) : y.fifo = [] := by
  obtain ⟨-, h2, -⟩ := h
  rw [hx] at h2
  exact List.length_eq_zero_iff.1 (Nat.le_zero.1 h2)

theorem Moves.startHeadLoaded {v : VoiceId} {s : State} (q : Cue) (h : HeadLoc) (hf : (s.voice v).fifo = []) :
    Moves Plays s (startHeadLoaded v q h s) := by
  unfold Machine.startHeadLoaded
  dsimp only
  have hm := Moves.trans (Moves.trans
    (.setSame (s := s) (v := v) (x := { s.voice v with
      headPlace := h.place, headLen := h.length, fetchPtr := ⟨q.first, h.length, 0⟩ }))
    (.enterPlaying (v := v) (.inr (by rw [State.voice_setVoice]; exact hf)))) (.enterDescriptor v _)
  split
  · split
    · exact hm.trans (.walkOn v _ _)
    · exact hm
  · exact hm

theorem Moves.startStreaming {v : VoiceId} {s : State} (hf : (s.voice v).fifo = []) :
    Moves Plays s (startStreaming v s) := by
  refine Moves.trans ?_ (.enterDescriptor v _)
  exact .setVoice ⟨Nat.le_refl _, Nat.le_refl _, .inl hf, id⟩

/-! ### Operations that serve the queue -/

/-- The entry is as before, or has become a VOICE entry, for the same cue with the same offset. -/
def Relabels (f : Entry → Entry) : Prop :=
  ∀ e, (f e).cue = e.cue ∧ (f e).offset = e.offset ∧ (e.reason = .voice → (f e).reason = .voice)

/-- The queue holds no entry that was not there before. -/
def Shrinks (q q' : List Entry) : Prop := ∃ f, Relabels f ∧ q'.Sublist (q.map f)

theorem Shrinks.of_sublist {q q' : List Entry} (h : q'.Sublist q) : Shrinks q q' :=
  ⟨id, fun _ => ⟨rfl, rfl, id⟩, by rwa [List.map_id]⟩

theorem Shrinks.trans {q q' q'' : List Entry} (h : Shrinks q q') (k : Shrinks q' q'') : Shrinks q q'' := by
  obtain ⟨f, hf, h⟩ := h
  obtain ⟨g, hg, k⟩ := k
  refine ⟨g ∘ f, fun e => ?_, ?_⟩
  · obtain ⟨f1, f2, f3⟩ := hf e
    obtain ⟨g1, g2, g3⟩ := hg (f e)
    exact ⟨g1.trans f1, g2.trans f2, fun he => g3 (f3 he)⟩
  · have := k.trans (h.map g)
    rwa [List.map_map] at this

theorem Shrinks.mem {q q' : List Entry} (h : Shrinks q q') {e : Entry} (he : e ∈ q') :
    ∃ a ∈ q, a.cue = e.cue ∧ a.offset = e.offset ∧ (e.reason = .beat → a.reason = .beat) := by
  obtain ⟨f, hf, h⟩ := h
  obtain ⟨a, ha, rfl⟩ := List.mem_map.1 (h.subset he)
  obtain ⟨f1, f2, f3⟩ := hf a
  refine ⟨a, ha, f1.symm, f2.symm, fun hb => ?_⟩
  cases hr : a.reason with
  | beat => rfl
  | voice => rw [f3 hr] at hb; cases hb

/-- What an operation that serves the queue keeps: no new entry, FIFOs bounded, and no follow-on. -/
structure Serves (s t : State) : Prop where
  queue : Shrinks s.starts.queue t.starts.queue
  fifo : FifoOk s → FifoOk t
  noFollow : NoFollow s → NoFollow t

theorem Serves.refl (s : State) : Serves s s := ⟨.of_sublist (.refl _), id, id⟩

theorem Serves.trans {s t u : State} (h : Serves s t) (k : Serves t u) : Serves s u :=
  ⟨h.queue.trans k.queue, fun hs => k.fifo (h.fifo hs), fun hs => k.noFollow (h.noFollow hs)⟩

theorem ownBurst_iff {s : State} {v : VoiceId} : s.ownBurst v = true ↔
    ∃ b tag, s.fetch.burst = some b ∧ b.req = .voice v tag ∧ (s.voice v).active = true ∧ (s.voice v).gen = tag := by
  unfold State.ownBurst
  cases hb : s.fetch.burst with
  | none => simp
  | some b =>
    cases hr : b.req with
    | preload => simp [hr]
    | voice w tag =>
      simp only [Bool.and_eq_true, beq_iff_eq, hr, Option.some.injEq]
      constructor
      · rintro ⟨⟨rfl, h1⟩, h2⟩
        exact ⟨b, tag, rfl, hr, h1, h2⟩
      · rintro ⟨b', tag', rfl, hb', h1, h2⟩
        rw [hr] at hb'
        cases hb'
        exact ⟨⟨rfl, h1⟩, h2⟩

/-- An operation of a voice keeps the bounds of the FIFOs (R24, R26). -/
theorem Plays.fifo {s t : State} (h : Plays s t) (hs : FifoOk s) : FifoOk t := by
  obtain ⟨hb, hv⟩ := hs
  refine ⟨fun b => by rw [h.burst]; exact hb b, fun v => ?_⟩
  obtain ⟨h1, h2, h3, -⟩ := h.voices v
  obtain ⟨v1, v2, v3⟩ := hv v
  refine ⟨fun hr => ?_, h2.trans v2, h1.trans v3⟩
  rcases h3 with h3 | ⟨h3, h4⟩
  · rw [h3]; exact Nat.zero_le _
  · refine h2.trans (v1 (hr.imp h.request fun ho => ?_))
    obtain ⟨b, tag, e1, e2, e3, e4⟩ := ownBurst_iff.1 ho
    exact ownBurst_iff.2 ⟨b, tag, by rw [← h.burst]; exact e1, e2, h4 e3, h3.symm.trans e4⟩

theorem Plays.serves {s t : State} (h : Plays s t) : Serves s t :=
  ⟨by rw [h.queue]; exact .of_sublist (.refl _), h.fifo, h.noFollow⟩

theorem Moves.serves {s t : State} (m : Moves Plays s t) : Moves Serves s t := m.mono fun _ _ => Plays.serves

theorem Serves.of_moves {s t : State} (m : Moves Serves s t) : Serves s t :=
  m.keep Serves.refl (fun _ _ _ => Serves.trans) (fun _ _ _ h => h)
    (fun s _ hc => (Plays.of_moves (.bump s hc)).serves) fun s => (Plays.of_moves (.offerPresence s)).serves

theorem Moves.shrink {s : State} {q : List Entry} (h : Shrinks s.starts.queue q) : Moves Serves s (s.setQueue q) :=
  .update rfl ⟨h, id, id⟩

/-- A voice that is in the request set, or has no more than 192 samples in its FIFO, is granted the port. -/
theorem FifoOk.issue {s t : State} {v : VoiceId} (hs : FifoOk s) (hv : (s.voice v).fifo.length ≤ 192)
    (hvoices : ∀ u, (t.voice u).fifo = (s.voice u).fifo ∧ ((t.voice u).inFlight ≤ 64))
    (hreq : ∀ u, (t.fetch.requests.get u).isSome = true → (s.fetch.requests.get u).isSome = true)
    (hb : ∀ b, t.fetch.burst = some b → b.length ≤ 64 ∧ ∀ u tag, b.req = .voice u tag → u = v) : FifoOk t := by
  refine ⟨fun b e => (hb b e).1, fun u => ?_⟩
  obtain ⟨v1, v2, -⟩ := hs.2 u
  rw [(hvoices u).1]
  refine ⟨?_, v2, (hvoices u).2⟩
  rintro (hr | ho)
  · exact v1 (.inl (hreq u hr))
  · obtain ⟨b, tag, e1, e2, -⟩ := ownBurst_iff.1 ho
    rw [(hb b e1).2 u tag e2]
    exact hv

theorem Moves.leaveSet (s : State) (v : VoiceId) : Moves Serves s (s.setRequest v none) := by
  refine .update rfl ⟨.of_sublist (.refl _), fun hs => ⟨hs.1, fun u => ?_⟩, id⟩
  obtain ⟨v1, v2, v3⟩ := hs.2 u
  refine ⟨fun hr => v1 (hr.imp_left fun hu => ?_), v2, v3⟩
  change ((upd s.fetch.requests v none).get u).isSome = true at hu
  rw [upd_get] at hu
  split at hu
  · cases hu
  · exact hu

theorem State.voice_setVoice_of {P : Voice → Prop} {s : State} {v u : VoiceId} {x : Voice} (hv : u = v → P x)
    (hu : u ≠ v → P (s.voice u)) : P ((s.setVoice v x).voice u) := by
  by_cases h : u = v
  · subst h; rw [State.voice_setVoice]; exact hv rfl
  · rw [State.voice_setVoice_ne _ _ h]; exact hu h

/-- The burst of a granted voice, put in place by one update. -/
theorem Moves.issueVoice {v : VoiceId} {s : State} (hv : FifoOk s → (s.voice v).fifo.length ≤ 192) :
    Moves Serves s (issueVoice v s) := by
  unfold Machine.issueVoice
  dsimp only
  split
  · refine .update rfl ⟨.of_sublist (.refl _), fun hs => ?_, id⟩
    refine hs.issue (hv hs) (fun u => ?_) (fun u hu => ?_) fun b hb => ?_
    · refine State.voice_setVoice_of (P := fun y => y.fifo = (s.voice u).fifo ∧ y.inFlight ≤ 64) (fun huv => ?_)
        fun _ => ⟨rfl, (hs.2 u).2.2⟩
      exact ⟨by rw [huv], Nat.min_le_left _ _⟩
    · change ((upd s.fetch.requests v none).get u).isSome = true at hu
      rw [upd_get] at hu
      split at hu
      · cases hu
      · exact hu
    · obtain rfl := Option.some.inj hb
      exact ⟨Nat.min_le_left _ _, fun u tag e => (Requester.voice.inj e).1.symm⟩
  · exact (Moves.endFetch v s).serves

theorem Moves.issuePreload (h : HeadWork) (s : State) : Moves Serves s (issuePreload h s) := by
  refine .update rfl ⟨.of_sublist (.refl _), fun hs => ?_, id⟩
  refine ⟨fun b hb => ?_, fun v => ?_⟩
  · obtain rfl := Option.some.inj hb
    exact Nat.min_le_left _ _
  · obtain ⟨v1, v2, v3⟩ := hs.2 v
    refine ⟨?_, v2, v3⟩
    rintro (hr | ho)
    · exact v1 (.inl hr)
    · obtain ⟨b, tag, e1, e2, -⟩ := ownBurst_iff.1 ho
      obtain rfl := Option.some.inj e1
      cases e2

theorem mem_requesters {s : State} {v : VoiceId} {t : Micros} (h : (v, t) ∈ s.requesters) :
    s.fetch.requests.get v = some t := by
  obtain ⟨u, -, hu⟩ := List.mem_filterMap.1 h
  obtain ⟨t', ht, e⟩ := Option.map_eq_some_iff.1 hu
  cases e
  exact ht

theorem Moves.grant (rounds : Nat) (s : State) : Moves Serves s (grant rounds s) := by
  induction rounds generalizing s with
  | zero => exact .refl s
  | succ rounds ih =>
    unfold Machine.grant
    split
    · rename_i v t hp
      dsimp only
      have hm := Moves.settleDebt v s
      split
      · exact hm.serves.trans ((Moves.leaveSet _ v).trans (ih _))
      · rename_i hd
        refine hm.serves.trans (.issueVoice fun hs => (hs.2 v).1 (.inl ?_))
        rcases (Plays.of_moves hm).requests v with h1 | ⟨h1, -⟩
        · rw [h1, mem_requesters (pick_mem hp)]; rfl
        · exact absurd h1 hd
    · split
      · exact .issuePreload _ s
      · exact .refl s

theorem Moves.grantIfIdle (s : State) : Moves Serves s (grantIfIdle s) := by
  unfold Machine.grantIfIdle
  split
  · exact .grant 9 s
  · exact .refl s

/-- The bounds of the FIFOs but that of v against its requests and its burst. -/
def FifoBut (v : VoiceId) (s : State) : Prop :=
  (∀ b, s.fetch.burst = some b → b.length ≤ 64)
  ∧ ∀ u : VoiceId,
    (u ≠ v → (s.fetch.requests.get u).isSome = true ∨ s.ownBurst u = true → (s.voice u).fifo.length ≤ 192)
    ∧ (s.voice u).fifo.length ≤ 256 ∧ (s.voice u).inFlight ≤ 64

theorem FifoOk.but {s : State} (h : FifoOk s) (v : VoiceId) : FifoBut v s := by
  obtain ⟨h1, h2⟩ := h
  refine ⟨h1, fun u => ?_⟩
  obtain ⟨u1, u2, u3⟩ := h2 u
  exact ⟨fun _ => u1, u2, u3⟩

/-- A voice that meets the conditions of the request set holds at most 192 samples. -/
theorem fifo_of_requests {s : State} {v : VoiceId} (h : s.requests v = true) : (s.voice v).fifo.length ≤ 192 := by
  obtain ⟨-, h⟩ := (Bool.and_eq_true_iff.1 h)
  have hsum := of_decide_eq_true h
  simp only [Config.fillLimit] at hsum
  omega

theorem FifoBut.setRequest {v : VoiceId} {s : State} (h : FifoBut v s) (t : Option Micros)
    (hv : t.isSome = true ∨ s.ownBurst v = true → (s.voice v).fifo.length ≤ 192) : FifoOk (s.setRequest v t) := by
  obtain ⟨h1, h2⟩ := h
  refine ⟨h1, fun u => ?_⟩
  obtain ⟨u1, u2, u3⟩ := h2 u
  refine ⟨fun hr => ?_, u2, u3⟩
  by_cases hu : u = v
  · subst hu
    refine hv (hr.imp_left fun hr => ?_)
    rwa [show (s.setRequest u t).fetch.requests.get u = t from upd_get_self _ _ _] at hr
  · refine u1 hu (hr.imp_left fun hr => ?_)
    rwa [show (s.setRequest v t).fetch.requests.get u = _ from upd_get_ne _ _ hu] at hr

/-- The request set after it has been looked at for v is bounded, whatever v held before. -/
theorem FifoBut.refreshRequest {v : VoiceId} {s : State} (h : FifoBut v s)
    (ho : s.ownBurst v = true → (s.voice v).fifo.length ≤ 192) : FifoOk (refreshRequest v s) := by
  unfold Machine.refreshRequest
  split
  · rename_i hr
    have hfill := fifo_of_requests hr
    split
    · obtain ⟨h1, h2⟩ := h
      refine ⟨h1, fun u => ?_⟩
      obtain ⟨u1, u2, u3⟩ := h2 u
      refine ⟨fun hu => ?_, u2, u3⟩
      by_cases huv : u = v
      · exact huv ▸ hfill
      · exact u1 huv hu
    · exact (Serves.of_moves (.grantIfIdle _)).fifo (h.setRequest _ fun _ => hfill)
  · exact h.setRequest none fun hr => ho (hr.resolve_left (by simp))

theorem Moves.refreshRequest (v : VoiceId) (s : State) : Moves Serves s (refreshRequest v s) := by
  unfold Machine.refreshRequest
  split
  · rename_i hr
    split
    · exact .refl s
    · refine Moves.trans ?_ (.grantIfIdle _)
      refine .update rfl ⟨.of_sublist (.refl _), fun hs => ?_, id⟩
      exact (hs.but v).setRequest _ fun _ => fifo_of_requests hr
  · exact .leaveSet s v

theorem Moves.startVoice (v : VoiceId) (c : LocalCue) (offset : Int) (s : State) :
    Moves Serves s (startVoice v c offset s) := by
  unfold Machine.startVoice
  split
  · exact .refl s
  · rename_i q hq
    dsimp only
    refine Moves.trans ?_ (.refreshRequest v _)
    have hrec : Moves Serves s (State.setVoice { s with starts := { s.starts with stamps := upd s.starts.stamps v s.now } } v
        (startedVoice (s.voice v) c q offset)) := by
      refine .update rfl ⟨.of_sublist (.refl _), fun hs => ⟨hs.1, fun u => ?_⟩, id⟩
      by_cases hu : u = v
      · subst hu
        rw [State.voice_setVoice]
        exact ⟨fun _ => Nat.zero_le _, Nat.zero_le _, Nat.zero_le _⟩
      · obtain ⟨u1, u2, u3⟩ := hs.2 u
        rw [State.voice_setVoice_ne _ _ hu]
        refine ⟨fun hr => u1 (hr.imp_right fun ho => ?_), u2, u3⟩
        obtain ⟨b, tag, e1, e2, e3, e4⟩ := ownBurst_iff.1 ho
        rw [State.voice_setVoice_ne _ _ hu] at e3 e4
        exact ownBurst_iff.2 ⟨b, tag, e1, e2, e3, e4⟩
    have hfifo : ((State.setVoice { s with starts := { s.starts with stamps := upd s.starts.stamps v s.now } } v
        (startedVoice (s.voice v) c q offset)).voice v).fifo = [] := by rw [State.voice_setVoice]; rfl
    split
    · exact hrec.trans (Moves.startHeadLoaded _ _ hfifo).serves
    · exact hrec.trans (Moves.startStreaming hfifo).serves

theorem Moves.withoutEntry (c : LocalCue) (s : State) : Moves Serves s (withoutEntry c s) :=
  .shrink (.of_sublist List.filter_sublist)

theorem Moves.startEntry (e : Entry) (v : VoiceId) (s : State) : Moves Serves s (startEntry e v s) :=
  (Moves.withoutEntry e.cue s).trans (.startVoice v _ _ _)

theorem Moves.becomeVoice (c : LocalCue) (v : Option VoiceId) (s : State) : Moves Serves s (becomeVoice c v s) := by
  refine .shrink ⟨_, fun e => ?_, List.Sublist.refl _⟩
  dsimp only
  split
  · exact ⟨rfl, rfl, fun _ => rfl⟩
  · exact ⟨rfl, rfl, id⟩

theorem Moves.serve (rounds : Nat) (s : State) : Moves Serves s (serve rounds s) := by
  induction rounds generalizing s with
  | zero => exact .refl s
  | succ rounds ih =>
    unfold Machine.serve
    split
    · exact (Moves.startEntry _ _ s).trans (ih _)
    · exact .refl s

theorem Moves.releaseEntry (s : State) (c : LocalCue) : Moves Serves s (releaseEntry s c) := by
  unfold Machine.releaseEntry
  split
  · exact .refl s
  · split
    · split
      · exact .startEntry _ _ s
      · exact .becomeVoice c _ s
    · split
      · exact .startEntry _ _ s
      · exact (Moves.becomeVoice c _ s).trans (Moves.cutVoice _ _).serves
      · exact .becomeVoice c _ s
      · exact (Moves.withoutEntry c s).trans (.bump _ rfl)

theorem Moves.releaseBeats (s : State) : Moves Serves s (releaseBeats s) := .foldl Moves.releaseEntry _ s

theorem Moves.startReserved (v : VoiceId) (s : State) : Moves Serves s (startReserved v s) := by
  unfold Machine.startReserved
  split
  · split
    · exact .startEntry _ v s
    · exact .refl s
  · exact .refl s

/-- A return without a follow-on admits nothing. -/
theorem Moves.takeReturn {r : Return} (h : r.followOn = none) (s : State) : Moves Serves s (takeReturn r s) := by
  unfold Machine.takeReturn
  simp only [h]
  refine Moves.trans ?_ (.serve 17 _)
  split
  · exact (Moves.startReserved _ s).trans (.releaseBeats _)
  · exact .startReserved _ s

theorem Moves.popReturn {s : State} {r : Return} {rest : List Return} (h : s.returns = r :: rest) :
    Moves Serves s { s with returns := rest } := by
  refine .update rfl ⟨.of_sublist (.refl _), id, fun hs a ha => hs a ?_⟩
  rw [h]
  exact List.mem_cons_of_mem _ ha

/-- Settling without follow-ons admits nothing. -/
theorem Moves.settle (rounds : Nat) {s : State} (hn : NoFollow s) : Moves Serves s (settle rounds s) := by
  induction rounds generalizing s with
  | zero => exact .refl s
  | succ rounds ih =>
    unfold Machine.settle
    split
    · rename_i r rest hr
      have hm := (Moves.popReturn hr).trans (.takeReturn (hn r (by rw [hr]; exact List.mem_cons_self ..)) _)
      exact hm.trans (ih ((Serves.of_moves hm).noFollow hn))
    · dsimp only
      have hm := Moves.serve 17 s
      split
      · exact hm
      · exact hm.trans (ih ((Serves.of_moves hm).noFollow hn))

theorem Moves.finish {s : State} (hn : NoFollow s) : Moves Serves s (finish s) := .settle _ hn

/-! ### Operations that take in starts -/

/-- What an operation that admits starts keeps: the pending-start queue lawful and the FIFOs bounded (R24, R26, R51). -/
structure Admits (s t : State) : Prop where
  queue : StartQueueOk s → StartQueueOk t
  fifo : FifoOk s → FifoOk t

theorem Admits.refl (s : State) : Admits s s := ⟨id, id⟩

theorem Admits.trans {s t u : State} (h : Admits s t) (k : Admits t u) : Admits s u :=
  ⟨fun hs => k.queue (h.queue hs), fun hs => k.fifo (h.fifo hs)⟩

theorem Admits.foldl {α : Type} {f : State → α → State} (h : ∀ s a, Admits s (f s a)) (l : List α) (s : State) :
    Admits s (l.foldl f s) := by
  induction l generalizing s with
  | nil => exact .refl s
  | cons a l ih => exact (h s a).trans (ih _)

/-- A queue with no new entry is lawful when the former one was. -/
theorem Shrinks.lawful {q q' : List Entry} (h : Shrinks q q') (hq : q.length ≤ 16 ∧ q.Pairwise fun a b => a.cue ≠ b.cue) :
    q'.length ≤ 16 ∧ q'.Pairwise fun a b => a.cue ≠ b.cue := by
  obtain ⟨f, hf, h⟩ := h
  obtain ⟨h1, h2⟩ := hq
  refine ⟨h.length_le.trans (by rwa [List.length_map]), List.Pairwise.sublist h ?_⟩
  rw [List.pairwise_map]
  refine h2.imp fun {a b} hab => ?_
  rw [(hf a).1, (hf b).1]
  exact hab

theorem Serves.admits {s t : State} (h : Serves s t) : Admits s t := ⟨h.queue.lawful, h.fifo⟩

theorem Moves.admits {s t : State} (m : Moves Serves s t) : Moves Admits s t := m.mono fun _ _ => Serves.admits

theorem Admits.of_moves {s t : State} (m : Moves Admits s t) : Admits s t :=
  m.keep Admits.refl (fun _ _ _ => Admits.trans) (fun _ _ _ h => h)
    (fun s _ hc => (Serves.of_moves (.bump s hc)).admits) fun s => (Serves.of_moves (.offerPresence s)).admits

/-- The queue holds no entry for a cue. -/
def NotPending (c : LocalCue) (s : State) : Prop := ∀ e ∈ s.starts.queue, e.cue ≠ c

theorem isPending_iff {c : LocalCue} {s : State} : s.isPending c = true ↔ ∃ e ∈ s.starts.queue, e.cue = c := by
  simp [State.isPending]

theorem notPending_iff {c : LocalCue} {s : State} : s.isPending c = false ↔ NotPending c s := by
  rw [Bool.eq_false_iff, ne_eq, isPending_iff]
  simp [NotPending]

theorem Plays.notPending {s t : State} (h : Plays s t) {c : LocalCue} (hs : NotPending c s) : NotPending c t := by
  unfold NotPending
  rw [h.queue]
  exact hs

theorem Moves.joinQueue {e : Entry} {s t : State} (hp : NotPending e.cue s) (h : joinQueue e s = some t) :
    Moves Admits s t := by
  have join : ∀ q : List Entry, (∀ a ∈ q, a.cue ≠ e.cue) → q.length ≤ 15 → (q.Pairwise fun a b => a.cue ≠ b.cue) →
      (q ++ [e]).length ≤ 16 ∧ (q ++ [e]).Pairwise fun a b => a.cue ≠ b.cue := by
    intro q h1 h2 h3
    refine ⟨by simp; omega, List.pairwise_append.2 ⟨h3, List.pairwise_singleton _ _, fun a ha b hb => ?_⟩⟩
    rw [List.mem_singleton.1 hb]
    exact h1 a ha
  unfold Machine.joinQueue at h
  split at h
  · rename_i hl
    obtain rfl := Option.some.inj h
    simp only [Config.startQueueMax] at hl
    exact .update rfl ⟨fun hs => join _ hp (by omega) hs.2, id⟩
  · split at h
    · cases h
    · rename_i w hw
      dsimp only at h
      split at h
      · obtain rfl := Option.some.inj h
        have hmem : w ∈ s.starts.queue := pick_mem hw
        refine Moves.trans (t := s.setQueue (s.starts.queue.filter (·.cue != w.cue) ++ [e])) ?_ (.bump _ rfl)
        refine .update rfl ⟨fun hs => ?_, id⟩
        obtain ⟨h1, h2⟩ := hs
        refine join _ (fun a ha => hp a (List.mem_of_mem_filter ha)) ?_ (h2.filter _)
        have := List.length_filter_lt_length_iff_exists (p := fun a : Entry => a.cue != w.cue).2 ⟨w, hmem, by simp⟩
        omega
      · cases h

theorem Moves.plays_admits {s t : State} (m : Moves Plays s t) : Moves Admits s t := m.serves.admits

theorem Moves.lost (s : State) {c : Counter} (hc : c.ofSounds = true) : Moves Admits s (s.bump c) := .bump s hc

theorem Moves.joinOrLose {e : Entry} {s : State} (hp : NotPending e.cue s) : Moves Admits s (joinOrLose e s) := by
  unfold Machine.joinOrLose
  split
  · rename_i h; exact .joinQueue hp h
  · exact .lost s rfl

theorem Moves.stealFor {e : Entry} {s : State} (hp : NotPending e.cue s) (v : VoiceId) :
    Moves Admits s (stealFor e v s) := by
  unfold Machine.stealFor
  split
  · rename_i h
    exact (Moves.joinQueue (e := { e with reserved := some v }) hp h).trans (Moves.cutVoice _ v).plays_admits
  · exact .lost s rfl

theorem Moves.allocateRequest {r : Request} {s : State} (hp : NotPending r.cue s) (q : Cue) :
    Moves Admits s (allocateRequest r q s) := by
  unfold Machine.allocateRequest
  dsimp only
  split
  · exact (Moves.startVoice _ _ _ s).admits
  · exact .stealFor hp _
  · exact .joinOrLose hp
  · exact .lost s rfl

theorem Moves.chokeAndPlace {r : Request} {s : State} (hp : NotPending r.cue s) (q : Cue) :
    Moves Admits s (chokeAndPlace r q s) := by
  unfold Machine.chokeAndPlace
  dsimp only
  have hm := Moves.choke r.cue q s
  have hp' := (Plays.of_moves hm).notPending hp
  split
  · exact hm.plays_admits.trans (.joinOrLose hp')
  · exact hm.plays_admits.trans (.allocateRequest hp' q)

/-- An entry changed, in its place, but for its cue. -/
theorem Moves.changeEntry (c : LocalCue) {f : Entry → Entry} (hf : ∀ e, (f e).cue = e.cue) (s : State) :
    Moves Admits s (changeEntry c f s) := by
  refine .update rfl ⟨fun ⟨h1, h2⟩ => ⟨?_, ?_⟩, id⟩
  · exact (List.length_map ..).trans_le h1
  · refine List.pairwise_map.2 (h2.imp fun {a b} hab => ?_)
    have keep : ∀ e : Entry, (if e.cue = c then f e else e).cue = e.cue := fun e => by
      split
      · exact hf e
      · rfl
    rw [keep, keep]
    exact hab

theorem Moves.restartRequest {r : Request} {s : State} (hp : NotPending r.cue s) (q : Cue) :
    Moves Admits s (restartRequest r q s) := by
  unfold Machine.restartRequest
  split
  · exact .refl s
  · split
    · exact .lost s rfl
    · rename_i h
      have hm := (Moves.joinQueue hp h).trans
        ((Moves.foldl Moves.cutVoice (liveVoices s r.cue) _).trans (Moves.choke r.cue q _)).plays_admits
      dsimp only
      split
      · exact hm.trans (.changeEntry _ (f := fun e => { e with reason := .beat }) (fun _ => rfl) _)
      · exact hm

theorem Moves.admitRequest (r : Request) (s : State) : Moves Admits s (admitRequest r s) := by
  unfold Machine.admitRequest
  split
  · exact .refl s
  · split
    · exact .lost s rfl
    · split
      · exact .lost s rfl
      · split
        · exact .lost s rfl
        · rename_i hp
          have hp := notPending_iff.1 (Bool.eq_false_iff.2 hp)
          split
          · split
            · exact .chokeAndPlace hp _
            · exact .lost s rfl
            · exact .restartRequest hp _
          · exact .chokeAndPlace hp _

theorem Moves.takeAnyReturn (r : Return) (s : State) : Moves Admits s (Machine.takeReturn r s) := by
  unfold Machine.takeReturn
  dsimp only
  refine Moves.trans ?_ (Moves.serve 17 _).admits
  have h : Moves Admits s (Machine.startReserved r.voice
      (match r.followOn with | some c => Machine.admitRequest ⟨c, 0, false⟩ s | none => s)) := by
    split
    · exact (Moves.admitRequest _ s).trans (Moves.startReserved _ _).admits
    · exact (Moves.startReserved _ s).admits
  split
  · exact h.trans (Moves.releaseBeats _).admits
  · exact h

theorem Moves.setReturns (s : State) (l : List Return) : Moves Admits s { s with returns := l } := .update rfl ⟨id, id⟩

theorem Moves.settleAny (rounds : Nat) (s : State) : Moves Admits s (Machine.settle rounds s) := by
  induction rounds generalizing s with
  | zero => exact .refl s
  | succ rounds ih =>
    unfold Machine.settle
    split
    · exact ((Moves.setReturns s _).trans (.takeAnyReturn _ _)).trans (ih _)
    · dsimp only
      split
      · exact (Moves.serve 17 s).admits
      · exact (Moves.serve 17 s).admits.trans (ih _)

theorem Moves.finishAny (s : State) : Moves Admits s (Machine.finish s) := .settleAny _ s

theorem Moves.settleReturns (s : State) : Moves Admits s (settleReturns s) := by
  unfold Machine.settleReturns
  split
  · exact .refl s
  · exact .finishAny s

theorem Moves.startRequest (r : Request) (s : State) : Moves Admits s (startRequest r s) :=
  (Moves.admitRequest r s).trans (.finishAny _)

theorem Moves.groupCue (c : Option LocalCue) (s : State) : Moves Admits s (groupCue c s) := by
  unfold Machine.groupCue
  split
  · exact .startRequest _ s
  · exact .refl s

/-- What a stop does before the returns are taken. -/
theorem Moves.stopped (p : Entry → Bool) (l : List VoiceId) (m : StopMode) (s : State) :
    Moves Serves s (l.foldl (Machine.stopVoice m) (s.setQueue (s.starts.queue.filter p))) :=
  (Moves.shrink (.of_sublist List.filter_sublist)).trans (Moves.foldl (Moves.stopVoice m) l _).serves

theorem Moves.stop (sel : StopSel LocalCue) (m : StopMode) (s : State) : Moves Admits s (stop sel m s) :=
  (Moves.stopped _ _ m s).admits.trans (.finishAny _)

theorem Moves.segmentStop (s : State) : Moves Serves s (segmentStop s) :=
  (Moves.shrink (.of_sublist List.filter_sublist)).trans (Moves.foldl Moves.fadeVoice _ _).serves

theorem Moves.takeFire (b0 b1 b2 b3 : Byte) (s : State) : Moves Admits s (takeFire b0 b1 b2 b3 s) := by
  unfold Machine.takeFire
  split
  · exact .startRequest _ s
  · exact .refl s

theorem Moves.takeStop (b0 b1 b2 b3 : Byte) (s : State) : Moves Admits s (takeStop b0 b1 b2 b3 s) := by
  unfold Machine.takeStop
  split
  · exact .stop _ _ s
  · exact .refl s

theorem Moves.expireEntry (c : LocalCue) (s : State) : Moves Admits s (expireEntry c s) :=
  ((Moves.withoutEntry c s).trans (.bump _ rfl)).admits.trans (.finishAny _)

end Sys2Proof.Machine
end

