-- ==== Sys2Proof/Proofs/Regular.lean ====
section
/-! PROOFS. Every step keeps the group views as R148 states, the pending-start queue and the transmit queue within their limits, a
CLAIM queued only while its view is CLAIMING, and the FIFOs bounded (R26, R51, R122, R152): one relation for all the operations
of the groups, the peers, the triggers and the line. -/

namespace Sys2Proof.Machine

/-! ### Claims in the transmit queue -/

/-- The CLAIMs of a group in a queue. -/
def claimsOf (g : GroupId) (q : List TxEntry) : Nat := q.countP (·.body.claims g)

theorem claimsOf_bodies (g : GroupId) (q : List TxEntry) : claimsOf g q = (q.map (·.body)).countP (TxBody.claims g) := by
  rw [List.countP_map]; rfl

theorem claimsOf_insertTx (g : GroupId) (e : TxEntry) (q : List TxEntry) :
    claimsOf g (insertTx e q) = claimsOf g q + if e.body.claims g then 1 else 0 := by
  rw [claimsOf, (insertTx_perm e q).countP_eq, List.countP_cons]
  rfl

theorem claimsOf_leaveTx (g : GroupId) (n : Nat) (s : State) :
    claimsOf g (leaveTx n s).line.queue ≤ claimsOf g s.line.queue :=
  List.Sublist.countP_le List.filter_sublist

/-- An entry of a CLAIM that leaves the queue takes one CLAIM of its group along. -/
theorem claimsOf_leaveTx_of_mem {g : GroupId} {s : State} {e : TxEntry} (he : e ∈ s.line.queue)
    (hc : e.body.claims g = true) : claimsOf g (leaveTx e.ident s).line.queue + 1 ≤ claimsOf g s.line.queue := by
  have hsplit := List.countP_eq_countP_filter_add s.line.queue (·.body.claims g) (fun a : TxEntry => a.ident != e.ident)
  have hpos : 0 < (s.line.queue.filter fun a => !(a.ident != e.ident)).countP (·.body.claims g) :=
    List.countP_pos_iff.2 ⟨e, List.mem_filter.2 ⟨he, by simp⟩, hc⟩
  change _ = claimsOf g (leaveTx e.ident s).line.queue + _ at hsplit
  change _ + 1 ≤ s.line.queue.countP _
  omega

theorem claimsOf_removeTx (g : GroupId) (p : TxBody → Bool) (s : State) :
    claimsOf g (removeTx p s).line.queue ≤ claimsOf g s.line.queue := by
  rw [claimsOf_bodies, claimsOf_bodies]
  exact (removeTx_queue_sublist p s).countP_le

/-- A removal on an idle line leaves no CLAIM that it is about. -/
theorem claimsOf_removeTx_of_idle {g : GroupId} {p : TxBody → Bool} {s : State} (hidle : s.line.activity = .none)
    (hp : ∀ b : TxBody, b.claims g = true → p b = true) : claimsOf g (removeTx p s).line.queue = 0 := by
  rw [removeTx_of_activity_none hidle]
  refine List.countP_eq_zero.2 fun e he hc => ?_
  have := (List.mem_filter.1 he).2
  rw [hp _ hc] at this
  cases this

/-! ### The relation -/

section
variable {x : Option GroupId}

/-- Every view is as R148 states but that of the group x, which a handling is about. -/
def ViewsBut (x : Option GroupId) (s : State) : Prop := ∀ g : GroupId, x ≠ some g → ViewOk s.number (s.view g)

/-- One CLAIM of each group at most is queued, and one only while the view is CLAIMING but for the group x. -/
def ClaimsBut (x : Option GroupId) (s : State) : Prop := ∀ g : GroupId, claimsOf g s.line.queue ≤ 1
  ∧ (x ≠ some g → 0 < claimsOf g s.line.queue → (s.view g).state = .claiming)

theorem viewsBut_none {s : State} : ViewsBut none s ↔ ViewsOk s := by simp [ViewsBut, ViewsOk]

theorem claimsBut_none {s : State} : ClaimsBut none s ↔ ClaimsOk s := by
  simp [ClaimsBut, ClaimsOk, claimsOf, List.countP_pos_iff]

/-- What every handling keeps: the views lawful, CLAIMs queued for CLAIMING views alone, the pending-start queue within its limits
and the FIFOs bounded. -/
structure Orderly (x : Option GroupId) (s t : State) : Prop where
  views : ViewsBut x s → ViewsBut x t
  claims : ClaimsBut x s → ClaimsBut x t
  starts : StartQueueOk s → StartQueueOk t
  fifo : FifoOk s → FifoOk t

/-- A handling that is orderly, keeps the number, and begins nothing on an idle line. -/
structure Regular (x : Option GroupId) (s t : State) : Prop extends Orderly x s t where
  number : t.number = s.number
  idle : s.line.activity = .none → t.line.activity = .none

theorem Orderly.refl (s : State) : Orderly x s s := ⟨id, id, id, id⟩

theorem Orderly.trans {s t u : State} (h : Orderly x s t) (k : Orderly x t u) : Orderly x s u :=
  ⟨fun x => k.views (h.views x), fun x => k.claims (h.claims x), fun x => k.starts (h.starts x), fun x => k.fifo (h.fifo x)⟩

theorem Regular.refl (s : State) : Regular x s s := ⟨.refl s, rfl, id⟩

theorem Regular.trans {s t u : State} (h : Regular x s t) (k : Regular x t u) : Regular x s u :=
  ⟨h.toOrderly.trans k.toOrderly, k.number.trans h.number, fun x => k.idle (h.idle x)⟩

theorem Regular.foldl {α : Type} {f : State → α → State} (h : ∀ s a, Regular x s (f s a)) (l : List α) (s : State) :
    Regular x s (l.foldl f s) := by
  induction l generalizing s with
  | nil => exact .refl s
  | cons a l ih => exact (h s a).trans (ih _)

/-- A fold on an idle line. -/
theorem Regular.foldl_idle {α : Type} {f : State → α → State} {n : Station}
    (h : ∀ s a, s.line.activity = .none → s.number = n → Regular x s (f s a)) (l : List α) {s : State}
    (hidle : s.line.activity = .none) (hn : s.number = n) : Regular x s (l.foldl f s) := by
  induction l generalizing s with
  | nil => exact .refl s
  | cons a l ih =>
    have hf := h s a hidle hn
    exact hf.trans (ih (hf.idle hidle) (hf.number.trans hn))

/-- The bounds of the FIFOs speak of the request set, the burst and the voices. -/
theorem FifoOk.congr {s t : State} (h : FifoOk s) (requests : t.fetch.requests = s.fetch.requests)
    (burst : t.fetch.burst = s.fetch.burst) (voices : t.voices = s.voices) : FifoOk t := by
  have hown (v : VoiceId) : t.ownBurst v = s.ownBurst v := by
    simp only [State.ownBurst, burst, State.voice_eq s t voices]
  obtain ⟨h1, h2⟩ := h
  refine ⟨fun b hb => h1 b (burst ▸ hb), fun v => ?_⟩
  rw [State.voice_eq s t voices, requests, hown]
  exact h2 v

theorem Orderly.of_eq {s t : State} (number : t.number = s.number := by rfl)
    (groups : t.groups.views = s.groups.views := by rfl)
    (queue : t.line.queue.map (·.body) = s.line.queue.map (·.body) := by rfl)
    (starts : t.starts.queue = s.starts.queue := by rfl) (requests : t.fetch.requests = s.fetch.requests := by rfl)
    (burst : t.fetch.burst = s.fetch.burst := by rfl) (voices : t.voices = s.voices := by rfl) : Orderly x s t := by
  have hview (g : GroupId) : t.view g = s.view g := by rw [State.view, State.view, groups]
  refine ⟨fun h g => ?_, fun h => ?_, fun h => ?_, fun h => h.congr requests burst voices⟩
  · rw [hview, number]; exact h g
  · have hq (g : GroupId) : claimsOf g t.line.queue = claimsOf g s.line.queue := by
      rw [claimsOf_bodies, claimsOf_bodies, queue]
    intro g
    rw [hq, hview]
    exact h g
  · unfold StartQueueOk at h ⊢
    rw [starts]
    exact h

theorem Regular.of_eq {s t : State} (number : t.number = s.number := by rfl)
    (groups : t.groups.views = s.groups.views := by rfl)
    (queue : t.line.queue.map (·.body) = s.line.queue.map (·.body) := by rfl)
    (starts : t.starts.queue = s.starts.queue := by rfl) (requests : t.fetch.requests = s.fetch.requests := by rfl)
    (burst : t.fetch.burst = s.fetch.burst := by rfl) (voices : t.voices = s.voices := by rfl)
    (idle : s.line.activity = .none → t.line.activity = .none := by exact id) : Regular x s t :=
  ⟨.of_eq number groups queue starts requests burst voices, number, idle⟩

theorem Regular.bump (s : State) (c : Counter) : Regular x s (s.bump c) := .of_eq

theorem Regular.bumpIf (s : State) (b : Bool) (c : Counter) : Regular x s (s.bumpIf b c) := by
  rcases State.bumpIf_cases s b c with h | h <;> rw [h]
  · exact .refl s
  · exact .bump s c

/-- A removal of queued frames. -/
theorem Regular.removeTx (p : TxBody → Bool) (s : State) : Regular x s (removeTx p s) := by
  have h := Handled.removeTx p s
  have hview (g : GroupId) : (Machine.removeTx p s).view g = s.view g := State.view_eq _ _ (removeTx_groups p s) g
  have hfields : (Machine.removeTx p s).starts = s.starts ∧ (Machine.removeTx p s).fetch = s.fetch
      ∧ (Machine.removeTx p s).voices = s.voices := by
    unfold Machine.removeTx
    rcases recheckHoldoff_shape { s with line := { s.line with queue := _ } } with h | ⟨-, h⟩ <;> rw [h] <;>
      exact ⟨rfl, rfl, rfl⟩
  obtain ⟨hstarts, hfetch, hvoices⟩ := hfields
  refine ⟨⟨fun hv g => ?_, fun hc => ?_, fun hs => ?_, fun hf => hf.congr (by rw [hfetch]) (by rw [hfetch]) hvoices⟩,
    h.number, fun hi => ?_⟩
  · rw [hview, h.number]; exact hv g
  · intro g
    obtain ⟨h1, h2⟩ := hc g
    have hle := claimsOf_removeTx g p s
    rw [hview]
    exact ⟨hle.trans h1, fun hg hpos => h2 hg (Nat.lt_of_lt_of_le hpos hle)⟩
  · unfold StartQueueOk at hs ⊢; rw [hstarts]; exact hs
  · rw [removeTx_of_activity_none hi]; exact hi

/-! ### Views -/

theorem ViewsBut.setView {s : State} (h : ViewsBut x s) {g : GroupId} {w : View} (hw : x ≠ some g → ViewOk s.number w) :
    ViewsBut x (s.setView g w) := by
  intro k hx
  by_cases hk : k = g
  · subst hk; rw [State.view_setView]; exact hw hx
  · rw [State.view_setView_ne _ _ hk]; exact h k hx

/-- A view changed, where a CLAIMING view stays so or no CLAIM of the group is queued. -/
theorem ClaimsBut.setView {s : State} (h : ClaimsBut x s) {g : GroupId} {w : View}
    (hw : x ≠ some g → (s.view g).state = .claiming → w.state = .claiming ∨ claimsOf g s.line.queue = 0) :
    ClaimsBut x (s.setView g w) := by
  intro k
  obtain ⟨h1, h2⟩ := h k
  refine ⟨h1, fun hx hpos => ?_⟩
  by_cases hk : k = g
  · subst hk
    rw [State.view_setView]
    rcases hw hx (h2 hx hpos) with e | e
    · exact e
    · exact absurd hpos (by rw [State.setView_line, e]; decide)
  · rw [State.view_setView_ne _ _ hk]; exact h2 hx hpos

/-- A view changed after a handling that began in r. -/
theorem Regular.view {r s : State} (h : Regular x r s) {g : GroupId} {w : View}
    (hv : x ≠ some g → ViewsBut x r → ViewsBut x s → ViewOk s.number w)
    (hc : x ≠ some g → ClaimsBut x r → (s.view g).state = .claiming →
      w.state = .claiming ∨ claimsOf g s.line.queue = 0) :
    Regular x r (s.setView g w) where
  views hr := (h.views hr).setView fun hx => hv hx hr (h.views hr)
  claims hr := (h.claims hr).setView fun hx => hc hx hr
  starts hr := h.starts hr
  fifo hr := (h.fifo hr).congr rfl rfl rfl
  number := h.number
  idle := h.idle

theorem Regular.setView {s : State} {g : GroupId} {w : View} (hv : x ≠ some g → ViewsBut x s → ViewOk s.number w)
    (hc : x ≠ some g → ClaimsBut x s → (s.view g).state = .claiming →
      w.state = .claiming ∨ claimsOf g s.line.queue = 0) :
    Regular x s (s.setView g w) :=
  (Regular.refl s).view (fun hx h _ => hv hx h) hc

theorem ViewOk.untimed {n : Station} {w : View} (h : ViewOk n w) :
    ViewOk n { w with timeoutQueued := false } ∧ ViewOk n { w with timer := .stopped, timeoutQueued := false } := by
  obtain ⟨h1, h2, h3, h4⟩ := h
  exact ⟨⟨h1, h2, h3, fun e => by cases e⟩, ⟨h1, h2, fun e => absurd rfl e, fun e => by cases e⟩⟩

theorem ViewOk.free_of_claiming {n : Station} {w : View} (h : ViewOk n w) (hw : w.state = .claiming) :
    ViewOk n { w with state := .free } := by
  obtain ⟨h1, h2, h3, h4⟩ := h
  rw [hw] at h1 h2 h3 h4
  exact ⟨h1.1, fun e => absurd (h2 e) (by decide), fun e => absurd (h3 e) (by decide), fun e => absurd (h4 e) (by decide)⟩

/-! ### Offers -/

/-- The owner's handling of a dropped frame, where no CLAIM of a dropped CLAIM's group is left in the queue. -/
theorem Regular.frameDropped {r s : State} (h : Regular x r s) {b : TxBody}
    (hq : ∀ g, b.claims g = true → ClaimsBut x r → claimsOf g s.line.queue = 0) : Regular x r (frameDropped b s) := by
  cases b with
  | claim g n e =>
    show Regular x r (if (s.view g).state = .claiming then _ else s)
    split
    · rename_i hw
      refine Regular.trans (h.view (fun hx _ hs => (hs g hx).free_of_claiming hw) fun _ hr _ => .inr ?_) (.bump _ _)
      exact hq g (by simp [TxBody.claims]) hr
    · exact h
  | release g n e v =>
    show Regular x r (if (s.view g).state = .heldMe ∧ (s.view g).timer = .expired then _ else s)
    split
    · exact h.view (fun hx _ hs => (hs g hx).untimed.1) fun _ _ hw => .inl hw
    · exact h
  | presence | status | hold | fire | stop | segment => exact h.trans .of_eq

theorem Regular.leaveTx (n : Nat) (s : State) : Regular x s (leaveTx n s) := by
  refine ⟨⟨id, fun h => ?_, id, fun h => h.congr rfl rfl rfl⟩, rfl, id⟩
  intro g
  obtain ⟨h1, h2⟩ := h g
  have hle := claimsOf_leaveTx g n s
  exact ⟨hle.trans h1, fun hx hpos => h2 hx (Nat.lt_of_lt_of_le hpos hle)⟩

theorem Regular.recheckHoldoff (s : State) : Regular x s (recheckHoldoff s) := by
  rcases recheckHoldoff_shape s with h | ⟨-, h⟩ <;> rw [h]
  · exact .refl s
  · exact .of_eq (idle := fun _ => rfl)

/-- A frame joins: a CLAIM only for a view that is CLAIMING with no CLAIM of its group queued. -/
theorem Regular.joinTx {r s : State} (h : Regular x r s) {b : TxBody}
    (hb : ∀ g, b.claims g = true → ClaimsBut x r → (s.view g).state = .claiming ∧ claimsOf g s.line.queue = 0) :
    Regular x r (joinTx b s) where
  views := h.views
  claims hr := by
    have hc := (h.claims hr)
    intro g
    obtain ⟨h1, h2⟩ := hc g
    have hins : claimsOf g (Machine.joinTx b s).line.queue = claimsOf g s.line.queue + if b.claims g then 1 else 0 :=
      claimsOf_insertTx g _ _
    rw [hins]
    split
    · rename_i hg
      obtain ⟨hw, h0⟩ := hb g hg hr
      exact ⟨by omega, fun _ _ => hw⟩
    · exact ⟨h1, h2⟩
  starts := h.starts
  fifo hr := (h.fifo hr).congr rfl rfl rfl
  number := h.number
  idle := h.idle

/-- A queued frame leaves the queue and its owner is told that it is dropped. -/
theorem Regular.dropTx {e : TxEntry} {s : State} (he : e ∈ s.line.queue) (c : Counter) :
    Regular x s (Machine.frameDropped e.body ((Machine.leaveTx e.ident s).bump c)) := by
  refine Regular.frameDropped ((Regular.leaveTx _ s).trans (.bump _ _)) fun g hg hs => ?_
  obtain ⟨h1, -⟩ := hs g
  have hle := claimsOf_leaveTx_of_mem he hg
  change claimsOf g (Machine.leaveTx e.ident s).line.queue = 0
  omega

theorem TxBody.rank_of_claims {b : TxBody} {g : GroupId} (h : b.claims g = true) : b.rank = 0 := by
  cases b <;> first | rfl | cases h

/-- No view changes its state over the drop of a frame that is no CLAIM. -/
theorem frameDropped_state {b : TxBody} (hb : 0 < b.rank) (g : GroupId) (s : State) :
    ((frameDropped b s).view g).state = (s.view g).state := by
  cases b with
  | claim => cases hb
  | release k n e v =>
    show (State.view (if (s.view k).state = .heldMe ∧ (s.view k).timer = .expired then _ else s) g).state = _
    split
    · by_cases hk : g = k
      · subst hk; rw [State.view_setView]
      · rw [State.view_setView_ne _ _ hk]
    · rfl
  | presence | status | hold | fire | stop | segment => rfl

theorem frameDropped_line (b : TxBody) (s : State) : (frameDropped b s).line = s.line := by rw [frameDropped_shape]

/-- An offer, where a CLAIM is offered for a CLAIMING view with no CLAIM of its group queued. -/
theorem Regular.offered {r s : State} (h : Regular x r s) {b : TxBody}
    (hb : ∀ g, b.claims g = true → ClaimsBut x r → (s.view g).state = .claiming ∧ claimsOf g s.line.queue = 0) :
    Regular x r (offerWith b s).1 := by
  rcases offerWith_cases b s with e | ⟨e, -⟩ | ⟨e, -⟩ | ⟨w, hw, hrank, -, -, e, -⟩ <;> rw [e]
  · exact h
  · exact (h.joinTx hb).trans (.recheckHoldoff _)
  · exact (h.trans (.bump s _)).frameDropped fun g hg hr => (hb g hg hr).2
  · refine Regular.trans (Regular.joinTx (h.trans (.dropTx hw _)) fun g hg => ?_) (.recheckHoldoff _)
    rw [TxBody.rank_of_claims hg] at hrank
    intro hr
    obtain ⟨hview, h0⟩ := hb g hg hr
    rw [frameDropped_state hrank, frameDropped_line]
    exact ⟨hview, Nat.le_zero.1 (h0 ▸ claimsOf_leaveTx g w.ident s)⟩

theorem Regular.offer {b : TxBody} (hb : ∀ g, b.claims g = false) (s : State) : Regular x s (offer b s) :=
  (Regular.refl s).offered fun g hg => by rw [hb] at hg; cases hg

theorem Regular.offerPresence (s : State) : Regular x s (offerPresence s) := by
  rcases offerPresence_cases s with h | h <;> rw [h]
  · exact .refl s
  · exact .offer (fun _ => rfl) s

/-- The operations of the voices, the port and the starts touch views and CLAIMs only by an offer of the PRESENCE. -/
theorem Moves.viewsAndClaims {V : State → State → Prop} {s t : State} (m : Moves V s t) :
    (ViewsBut x s → ViewsBut x t) ∧ (ClaimsBut x s → ClaimsBut x t) := by
  refine m.keep (P := fun s t => (ViewsBut x s → ViewsBut x t) ∧ (ClaimsBut x s → ClaimsBut x t)) (fun _ => ⟨id, id⟩)
    (fun _ _ _ h k => ⟨fun hs => k.1 (h.1 hs), fun hs => k.2 (h.2 hs)⟩) (fun s t e _ => ⟨fun h g => ?_, fun h g => ?_⟩)
    (fun s c _ => ⟨(Regular.bump s c).views, (Regular.bump s c).claims⟩)
    fun s => ⟨(Regular.offerPresence s).views, (Regular.offerPresence s).claims⟩
  · rw [State.view_eq s t (by rw [e]), show t.number = s.number by rw [e]]
    exact h g
  · rw [State.view_eq s t (by rw [e]), show t.line = s.line by rw [e]]
    exact h g

theorem Moves.number {V : State → State → Prop} {s t : State} (m : Moves V s t) : t.number = s.number := by
  refine m.keep (P := fun s t => t.number = s.number) (fun _ => rfl) (fun _ _ _ h k => k.trans h) (fun s t e _ => ?_)
    (fun _ _ _ => rfl) fun s => ?_
  · rw [e]
  · exact (Handled.offerPresence s).number

theorem Moves.groups {V : State → State → Prop} {s t : State} (m : Moves V s t) : t.groups = s.groups := by
  refine m.keep (P := fun s t => t.groups = s.groups) (fun _ => rfl) (fun _ _ _ h k => k.trans h) (fun s t e _ => ?_)
    (fun _ _ _ => rfl) offerPresence_groups
  rw [e]

theorem Moves.idle {V : State → State → Prop} {s t : State} (m : Moves V s t) (h : s.line.activity = .none) :
    t.line.activity = .none := by
  refine m.keep (P := fun s t => s.line.activity = .none → t.line.activity = .none) (fun _ => id)
    (fun _ _ _ h k hs => k (h hs)) (fun s t e _ hs => ?_) (fun _ _ _ => id) (fun s => (Regular.offerPresence (x := none) s).idle) h
  rw [e]
  exact hs

/-- The operations of the voices, the port and the starts are regular. -/
theorem Regular.of_moves {s t : State} (m : Moves Admits s t) : Regular x s t :=
  ⟨⟨m.viewsAndClaims.1, m.viewsAndClaims.2, (Admits.of_moves m).queue, (Admits.of_moves m).fifo⟩, m.number, m.idle⟩

/-! ### Tidying -/

/-- What R148 says of a view's holder and set. -/
def Held148 (n : Station) (w : View) : Prop :=
  match w.state with
  | .free => w.holder = none
  | .claiming => w.holder = none ∧ inSet n w.excl = false
  | .heldMe => w.holder = some n ∧ inSet n w.excl = false
  | .heldOther => ∃ y, w.holder = some y ∧ y ≠ 0 ∧ y ≠ n ∧ inSet y w.excl = false

/-- What tidying makes lawful: holder and set are, no holding of the own is stale, and the answer timer and the timeout release
stand only where the view is HELD_ME or was. -/
def Tidiable (old : ViewState) (n : Station) (w : View) : Prop :=
  Held148 n w ∧ (w.state = .heldMe → w.stale = false)
    ∧ (w.timer ≠ .stopped ∨ w.timeoutQueued = true → old = .heldMe ∨ w.state = .heldMe)

theorem tidyView_state (old w : View) : (tidyView old w).state = w.state := by
  unfold tidyView
  dsimp only
  split <;> split <;> rfl

theorem Tidiable.tidied {n : Station} {old w : View} (h : Tidiable old.state n w) : ViewOk n (tidyView old w) := by
  obtain ⟨h1, h2, h3⟩ := h
  have timed (hold : ¬ (old.state = .heldMe ∧ w.state ≠ .heldMe)) (ht : w.timer ≠ .stopped ∨ w.timeoutQueued = true) :
      w.state = .heldMe := by
    rcases h3 ht with e | e
    · exact Decidable.byContradiction fun k => hold ⟨e, k⟩
    · exact e
  unfold tidyView
  dsimp only
  split
  · rename_i hheld
    have hstale : w.stale = true → w.state = .heldOther := fun e => hheld.resolve_left fun k => by rw [h2 k] at e; cases e
    split
    · exact ⟨h1, hstale, fun e => absurd rfl e, fun e => by cases e⟩
    · rename_i hold
      exact ⟨h1, hstale, fun e => timed hold (.inl e), fun e => timed hold (.inr e)⟩
  · split
    · exact ⟨h1, fun e => (by cases e), fun e => absurd rfl e, fun e => by cases e⟩
    · rename_i hold
      exact ⟨h1, fun e => (by cases e), fun e => timed hold (.inl e), fun e => timed hold (.inr e)⟩

/-- A handling of g began in r and has come to s, where the view of g may yet be unlawful and CLAIMs queued that are stale: no
more of them than there were. -/
structure Amid (g : GroupId) (r s : State) : Prop extends Regular (some g) r s where
  fewer : claimsOf g s.line.queue ≤ claimsOf g r.line.queue

theorem ViewsOk.but {s : State} (h : ViewsOk s) (x : Option GroupId) : ViewsBut x s := fun g _ => h g

theorem ClaimsOk.but {s : State} (h : ClaimsOk s) (x : Option GroupId) : ClaimsBut x s := fun g =>
  have ⟨h1, h2⟩ := claimsBut_none.2 h g
  ⟨h1, fun _ => h2 (by simp)⟩

theorem Amid.setView (g : GroupId) (w : View) (s : State) : Amid g s (s.setView g w) :=
  ⟨.setView (fun h => absurd rfl h) fun h => absurd rfl h, Nat.le_refl _⟩

theorem Amid.trans {g : GroupId} {r s t : State} (h : Amid g r s) (k : Amid g s t) : Amid g r t :=
  ⟨h.toRegular.trans k.toRegular, k.fewer.trans h.fewer⟩

theorem claimsOf_offer_le {b : TxBody} {g : GroupId} (hb : b.claims g = false) (s : State) :
    claimsOf g (offer b s).line.queue ≤ claimsOf g s.line.queue := by
  have join (t : State) : claimsOf g (Machine.joinTx b t).line.queue = claimsOf g t.line.queue := by
    refine (claimsOf_insertTx g _ _).trans ?_
    rw [if_neg (by simp [hb])]
    rfl
  unfold offer
  rcases offerWith_cases b s with e | ⟨e, -⟩ | ⟨e, -⟩ | ⟨w, -, -, -, -, e, -⟩ <;> rw [e]
  · rw [recheckHoldoff_queue, join]
  · rw [frameDropped_line]; exact Nat.le_refl _
  · rw [recheckHoldoff_queue, join, frameDropped_line]
    exact claimsOf_leaveTx g w.ident s

theorem Moves.claimsOf_le {V : State → State → Prop} {s t : State} (m : Moves V s t) (g : GroupId) :
    claimsOf g t.line.queue ≤ claimsOf g s.line.queue := by
  refine m.keep (P := fun s t => claimsOf g t.line.queue ≤ claimsOf g s.line.queue) (fun _ => Nat.le_refl _)
    (fun _ _ _ h k => k.trans h) (fun s t e _ => ?_) (fun _ _ _ => Nat.le_refl _) fun s => ?_
  · rw [e]
  · rcases offerPresence_cases s with h | h
    · rw [h]
    · rw [h]; exact claimsOf_offer_le rfl s

theorem Amid.of_moves {g : GroupId} {s t : State} (m : Moves Admits s t) : Amid g s t := ⟨.of_moves m, m.claimsOf_le g⟩

theorem bumpIf_line (s : State) (b : Bool) (c : Counter) : (s.bumpIf b c).line = s.line := by cases b <;> rfl

/-- The tidying that ends the handling. A view leaves CLAIMING only on an idle line, where its CLAIM is removed at once. -/
theorem Amid.tidy {g : GroupId} {r s : State} (h : Amid g r s) {old : View} (own : Bool)
    (hold : old.state = (r.view g).state) (hidle : s.line.activity = .none ∨ old.state ≠ .claiming)
    (hw : ViewsOk r → Tidiable old.state s.number (s.view g)) : Regular none r (tidy g old own s) := by
  have hline := claimsOf_removeTx g (staleFrame g old (s.view g)) s
  unfold Machine.tidy
  dsimp only
  generalize hs1 : (Machine.removeTx (staleFrame g old (s.view g)) s).bumpIf
      (old.state == .claiming && (s.view g).state != .claiming && !own) .claimLost = s1
  have hq1 : s1.line.queue = (Machine.removeTx (staleFrame g old (s.view g)) s).line.queue := by rw [← hs1, bumpIf_line]
  have hrem : Amid g s s1 := by
    refine ⟨?_, hq1 ▸ hline⟩
    rw [← hs1]
    exact (Regular.removeTx _ s).trans (.bumpIf _ _ _)
  have hm := h.trans hrem
  have hregular : Regular none r (s1.setView g (tidyView old (s.view g))) := by
    refine ⟨⟨fun hr => ?_, fun hr => ?_, hm.starts, fun hr => (hm.fifo hr).congr rfl rfl rfl⟩, hm.number, hm.idle⟩
    · have hr := viewsBut_none.1 hr
      intro k _
      by_cases hk : k = g
      · subst hk
        rw [State.view_setView, State.setView_number, hrem.number]
        exact (hw hr).tidied
      · rw [State.view_setView_ne _ _ hk]
        exact hm.views (hr.but _) k (by simpa using fun e => hk e.symm)
    · have hr := claimsBut_none.1 hr
      intro k
      obtain ⟨k1, k2⟩ := hm.claims (hr.but _) k
      refine ⟨k1, fun _ hpos => ?_⟩
      by_cases hk : k = g
      · subst hk
        rw [State.view_setView, tidyView_state]
        have hwas : old.state = .claiming := by
          rw [hold]
          exact (hr.but none k).2 (by simp) (Nat.lt_of_lt_of_le hpos hm.fewer)
        refine Decidable.byContradiction fun hnew => ?_
        refine absurd hpos ?_
        rw [State.setView_line, hq1, claimsOf_removeTx_of_idle (hidle.resolve_right fun e => e hwas) fun b hb => ?_]
        · decide
        · unfold staleFrame
          split
          · simp [hb]
          · simp [hb, hwas, hnew]
      · rw [State.view_setView_ne _ _ hk]
        exact k2 (by simpa using fun e => hk e.symm) hpos
  split
  · exact hregular.trans (.offerPresence _)
  · exact hregular

end

/-! ### The group views -/

/-- A view changed within a handling: its timer and its timeout release do not begin. -/
theorem ViewOk.tidiable {n : Station} {w w' : View} (h : ViewOk n w) (held : Held148 n w')
    (stale : w'.state = .heldMe → w'.stale = false) (timer : w'.timer ≠ .stopped → w.timer ≠ .stopped)
    (queued : w'.timeoutQueued = true → w.timeoutQueued = true) : Tidiable w.state n w' := by
  obtain ⟨-, -, h3, h4⟩ := h
  exact ⟨held, stale, fun e => .inl (e.elim (fun e => h3 (timer e)) fun e => h4 (queued e))⟩

/-- A view that is freed. -/
theorem ViewOk.freed {n : Station} {w w' : View} (h : ViewOk n w) (state : w'.state = .free) (holder : w'.holder = none)
    (timer : w'.timer ≠ .stopped → w.timer ≠ .stopped) (queued : w'.timeoutQueued = true → w.timeoutQueued = true) :
    Tidiable w.state n w' := by
  refine h.tidiable ?_ (fun e => by rw [state] at e; cases e) timer queued
  unfold Held148
  rw [state]
  exact holder

/-- A view that another station holds. -/
theorem ViewOk.passed {n y : Station} {w : View} (h : ViewOk n w) (hy : y ≠ 0 ∧ y ≠ n) (hx : inSet y w.excl = false)
    (t : Time) : Tidiable w.state n (heldBy y t w) :=
  h.tidiable (show ∃ x, some y = some x ∧ _ from ⟨y, rfl, hy.1, hy.2, hx⟩) (fun e => by cases e) id id

theorem Regular.changeView {g : GroupId} {w : View} {s : State}
    (hidle : s.line.activity = .none ∨ (s.view g).state ≠ .claiming)
    (hw : ViewsOk s → Tidiable (s.view g).state s.number w) : Regular none s (changeView g w s) :=
  (Amid.setView g w s).tidy false rfl hidle fun h => by
    rw [State.view_setView]
    exact hw h

theorem Regular.implicitRelease {s : State} (hidle : s.line.activity = .none) (g : GroupId) (e : Byte)
    (x : Option StationSet) : Regular none s (implicitRelease g e x s) :=
  .changeView (.inl hidle) fun h => (h g).freed rfl rfl (fun e => absurd rfl e) fun e => by cases e

theorem reset_viewOk (n : Station) : ViewOk n View.reset :=
  ⟨rfl, nofun, fun e => absurd rfl e, nofun⟩

theorem Regular.showRestart {s : State} (hidle : s.line.activity = .none) (n : Byte) :
    Regular none s (showRestart n s) := by
  unfold Machine.showRestart
  dsimp only
  rw [removeTx_of_activity_none (s := { s with groups := ⟨n, Vector.replicate 16 .reset⟩ }) hidle]
  have hview (t : State) (h : t.groups = ⟨n, Vector.replicate 16 .reset⟩) (g : GroupId) : t.view g = .reset := by
    rw [State.view, h]
    exact Vector.getElem_replicate _
  have hm (t : State) := (Moves.foldl Moves.cutVoice voiceIds t).plays_admits.trans (.finishAny _)
  have hreset : Regular none s { s with
      groups := ⟨n, Vector.replicate 16 .reset⟩
      line := { s.line with queue := s.line.queue.filter fun e => !e.body.ofGroups }
      starts := { s.starts with queue := [], segment := 0, mask := 0xFF } } := by
    refine ⟨⟨fun _ g _ => ?_, fun _ g => ?_, fun _ => ⟨Nat.zero_le _, .nil⟩, fun h => h.congr rfl rfl rfl⟩, rfl, id⟩
    · rw [hview _ rfl]
      exact reset_viewOk _
    · have hnone : claimsOf g (s.line.queue.filter fun e => !e.body.ofGroups) = 0 := by
        refine List.countP_eq_zero.2 fun e he hc => ?_
        have hkept := (List.mem_filter.1 he).2
        cases hb : e.body <;> rw [hb] at hc hkept <;> first | cases hc | cases hkept
      exact ⟨hnone.trans_le (Nat.zero_le _), fun _ hpos => absurd hpos (by rw [hnone]; decide)⟩
  split
  · exact (hreset.trans (.of_moves (hm _))).trans (.offerPresence _)
  · exact hreset.trans (.of_moves (hm _))

/-- The show test applies a frame to the state, or after a show restart to its show. -/
theorem Regular.showTest {n : Byte} {s t : State} (hidle : s.line.activity = .none) (h : showTest n s = some t) :
    Regular none s t := by
  unfold Machine.showTest at h
  split at h
  · cases h
  · split at h
    · cases h; exact .showRestart hidle n
    · cases h; exact .refl s

theorem Regular.groupFrame {rule : GroupId → State → State} {s : State} (hidle : s.line.activity = .none)
    (hr : ∀ g t, t.line.activity = .none → t.number = s.number → Regular none t (rule g t)) (n group epoch : Byte) :
    Regular none s (groupFrame n group epoch rule s) := by
  unfold Machine.groupFrame
  split
  · exact .bump s _
  · rename_i t ht
    have h := Regular.showTest hidle ht
    refine h.trans ?_
    split
    · dsimp only
      split
      · exact .bump t _
      · split
        · have hi := Regular.implicitRelease (h.idle hidle) ⟨group.toNat, by assumption⟩ epoch none
          exact hi.trans (hr _ _ (hi.idle (h.idle hidle)) (hi.number.trans h.number))
        · exact hr _ t (h.idle hidle) h.number
    · exact .refl t

/-- A HOLD or a RELEASE is offered. -/
theorem Regular.offerHold (g : GroupId) (s : State) : Regular none s (offerHold g s) := .offer (fun _ => rfl) s

/-- A local claim: a FREE view has no CLAIM queued, so its own may join. -/
theorem Regular.localClaim (g : GroupId) (s : State) : Regular none s (localClaim g s) := by
  unfold Machine.localClaim
  dsimp only
  split
  · exact .bump s _
  · rename_i hx
    have hx := Bool.eq_false_iff.2 hx
    split
    · exact .bump s _
    · exact .refl s
    · exact .refl s
    · rename_i hw
      have hset : Regular none s (s.setView g { s.view g with state := .claiming }) := by
        refine .setView (fun _ h => ?_) fun _ _ _ => .inl rfl
        obtain ⟨h1, h2, h3, h4⟩ := viewsBut_none.1 h g
        rw [hw] at h1 h2 h3 h4
        exact ⟨⟨h1, hx⟩, fun e => absurd (h2 e) (by decide), fun e => absurd (h3 e) (by decide),
          fun e => absurd (h4 e) (by decide)⟩
      refine hset.offered fun k hk h => ?_
      obtain rfl : g = k := by simpa [TxBody.claims] using hk
      rw [State.view_setView]
      refine ⟨rfl, Decidable.byContradiction fun hpos => ?_⟩
      have := (h g).2 (by simp) (Nat.pos_of_ne_zero hpos)
      rw [hw] at this
      cases this

/-- A view is replaced, voices and starts do something, a count follows, and the handling is tidied. -/
theorem Regular.changed {g : GroupId} {r t u : State} {w w' : View} {own : Bool} (m : Moves Admits (r.setView g w') t)
    (hu : Amid g t u) (hg : u.groups = t.groups) (hidle : r.line.activity = .none) (hw : w.state = (r.view g).state)
    (hok : ViewsOk r → Tidiable w.state r.number w') : Regular none r (Machine.tidy g w own u) := by
  refine Amid.tidy (((Amid.setView g w' r).trans (.of_moves m)).trans hu) own hw
    (.inl (hu.idle (m.idle hidle))) fun h => ?_
  rw [State.view_eq _ _ hg, State.view_eq _ _ m.groups, State.view_setView, hu.number, m.number]
  exact hok h

theorem Amid.refl (g : GroupId) (s : State) : Amid g s s := ⟨.refl s, Nat.le_refl _⟩

theorem Regular.ownClaim {s : State} (hidle : s.line.activity = .none) (g : GroupId) :
    Regular none s (ownClaim g s) := by
  unfold Machine.ownClaim
  dsimp only
  split
  · rename_i hw
    refine .changed (.groupCue _ _) (.refl g _) rfl hidle rfl fun h => ?_
    obtain ⟨h1, h2, h3, h4⟩ := h g
    rw [hw] at h1 h2
    exact ⟨⟨rfl, h1.2⟩, fun _ => Bool.eq_false_iff.2 fun e => absurd (h2 e) (by decide), fun _ => .inr rfl⟩
  · exact .refl s

theorem Regular.claimRule {y : Station} {s : State} (hidle : s.line.activity = .none) (hy : y ≠ 0 ∧ y ≠ s.number)
    (g : GroupId) : Regular none s (claimRule y g s) := by
  unfold Machine.claimRule
  dsimp only
  split
  · exact .refl s
  · rename_i hx
    have hx := Bool.eq_false_iff.2 hx
    split
    · exact .changeView (.inl hidle) fun h => (h g).passed hy hx _
    · exact .changeView (.inl hidle) fun h => (h g).passed hy hx _
    · exact .offerHold g s
    · exact .refl s

theorem Moves.cutWonCue (g : GroupId) (s : State) : Moves Admits s (cutWonCue g s) := by
  unfold Machine.cutWonCue
  split
  · exact .stop _ _ s
  · exact .refl s

theorem Regular.yieldTo {y : Station} {s : State} (hidle : s.line.activity = .none) (hy : y ≠ 0 ∧ y ≠ s.number)
    {g : GroupId} (hx : inSet y (s.view g).excl = false) (age : Nat) : Regular none s (yieldTo y age g s) :=
  .changed (.cutWonCue g _) ⟨.bump _ .conflict, Nat.le_refl _⟩ rfl hidle rfl fun h => (h g).passed hy hx _

theorem Regular.holdRule {y : Station} {s : State} (hidle : s.line.activity = .none) (hy : y ≠ 0 ∧ y ≠ s.number)
    (age : Nat) (g : GroupId) : Regular none s (holdRule y age g s) := by
  unfold Machine.holdRule
  dsimp only
  split
  · exact .refl s
  · rename_i hx
    have hx := Bool.eq_false_iff.2 hx
    have pass : Regular none s (Machine.changeView g (heldBy y (claimTimeOf s.now age) (s.view g)) s) :=
      .changeView (.inl hidle) fun h => (h g).passed hy hx _
    split
    · exact pass
    · exact pass
    · split
      · split
        · exact .refl s
        · split
          · exact pass.trans (.bump _ _)
          · exact .refl s
      · exact .refl s
    · split
      · exact .yieldTo hidle hy hx age
      · exact .offerHold g s

theorem Regular.releaseRule {s : State} (hidle : s.line.activity = .none) (v : Verdict) (g : GroupId) :
    Regular none s (releaseRule v g s) :=
  .changeView (.inl hidle) fun h => (h g).freed rfl rfl id id

/-- The mark of the timeout release stands only in HELD_ME, where the release is offered. -/
theorem Regular.offerTimeout {g : GroupId} {s : State} (hw : (s.view g).state = .heldMe) :
    Regular none s (offerTimeout g s) := by
  have hmark : Regular none s (s.setView g { s.view g with timeoutQueued := true }) := by
    refine .setView (fun _ h => ?_) fun _ _ => .inl
    obtain ⟨h1, h2, h3, h4⟩ := viewsBut_none.1 h g
    exact ⟨h1, h2, h3, fun _ => hw⟩
  have hoffer := hmark.offered (b := .release g (s.setView g { s.view g with timeoutQueued := true }).groups.showNo
    ((s.setView g { s.view g with timeoutQueued := true }).view g).epoch .timeout) fun k hk => by cases hk
  unfold Machine.offerTimeout
  dsimp only
  split
  · exact hoffer.trans (.setView (fun _ h => (viewsBut_none.1 h g).untimed.1) fun _ _ => .inl)
  · exact hoffer

theorem Regular.answerExpiry {g : GroupId} {s : State} (hw : (s.view g).state = .heldMe) :
    Regular none s (answerExpiry g s) := by
  have hm := Moves.groupCue (s.groupCfg g).timeoutCue (s.setView g { s.view g with timer := .expired })
  have hset : Regular none s (s.setView g { s.view g with timer := .expired }) := by
    refine .setView (fun _ h => ?_) fun _ _ => .inl
    obtain ⟨h1, h2, h3, h4⟩ := viewsBut_none.1 h g
    exact ⟨h1, h2, fun _ => hw, h4⟩
  refine (hset.trans (.of_moves hm)).trans (.offerTimeout ?_)
  rw [State.view_eq _ _ hm.groups, State.view_setView]
  exact hw

theorem Regular.reofferTimeout (s : State) (g : GroupId) : Regular none s (reofferTimeout s g) := by
  unfold Machine.reofferTimeout
  split
  · rename_i hw; exact .offerTimeout hw.1
  · exact .refl s

theorem State.setView_setView (s : State) (g : GroupId) (v w : View) : (s.setView g v).setView g w = s.setView g w := by
  simp [State.setView, upd, Vector.set_set]

/-- A view with another exclusion set, which forbids neither the holder nor the own claim. -/
theorem ViewOk.regrown {n : Station} {w : View} {excl : StationSet} (h : ViewOk n w)
    (hheld : w.state = .heldOther ∨ w.state = .heldMe → w.holder.any (inSet · excl) = false)
    (hclaim : w.state = .claiming → inSet n excl = false) : ViewOk n { w with excl := excl } := by
  obtain ⟨h1, h2⟩ := h
  refine ⟨?_, h2⟩
  cases hw : w.state <;> simp only [hw] at h1 ⊢
  case free => exact h1
  case claiming => exact ⟨h1.1, hclaim hw⟩
  case heldMe =>
    have hx := hheld (.inr hw)
    rw [h1.1] at hx
    exact ⟨h1.1, hx⟩
  case heldOther =>
    obtain ⟨y, hy, h0, hn, -⟩ := h1
    have hx := hheld (.inl hw)
    rw [hy] at hx
    exact ⟨y, hy, h0, hn, hx⟩

/-- A grown exclusion set, and what it forbids ended. -/
theorem Regular.enforce {g : GroupId} {r : State} (hidle : r.line.activity = .none) (excl : StationSet) :
    Regular none r (enforce g (r.setView g { r.view g with excl := excl })) := by
  have change {w' : View} (hw : ViewsOk r → Tidiable (r.view g).state r.number w') :
      Regular none r (Machine.changeView g w' (r.setView g { r.view g with excl := excl })) := by
    refine ((Amid.setView g _ r).trans (.setView g w' _)).tidy false ?_ (.inl hidle) fun h => ?_
    · rw [State.view_setView]
    · rw [State.view_setView, State.view_setView]
      exact hw h
  have keep (hw : ViewsOk r → ViewOk r.number { r.view g with excl := excl }) :
      Regular none r (r.setView g { r.view g with excl := excl }) :=
    .setView (fun _ h => hw (viewsBut_none.1 h)) fun _ _ => .inl
  unfold Machine.enforce
  dsimp only
  rw [State.view_setView]
  dsimp only
  split
  · rename_i hw
    split
    · exact change fun h => (h g).freed rfl rfl id id
    · rename_i hx
      exact keep fun h => (h g).regrown (fun _ => Bool.eq_false_iff.2 hx) fun e => by rw [hw] at e; cases e
  · rename_i hw
    split
    · rw [State.setView_setView]
      exact .changed (.cutWonCue g _) (.refl g _) rfl hidle rfl fun h => (h g).freed rfl rfl id id
    · rename_i hx
      exact keep fun h => (h g).regrown (fun _ => Bool.eq_false_iff.2 hx) fun e => by rw [hw] at e; cases e
  · rename_i hw
    split
    · exact change fun h => (h g).freed rfl rfl id id
    · rename_i hx
      exact keep fun h => (h g).regrown (by simp [hw]) fun _ => Bool.eq_false_iff.2 hx
  · rename_i hw
    exact keep fun h => (h g).regrown (by simp [hw]) fun e => by rw [hw] at e; cases e

/-- A view that is FREE needs nothing enforced. -/
theorem enforce_of_free {g : GroupId} {s : State} (h : (s.view g).state = .free) : enforce g s = s := by
  simp [Machine.enforce, h]

/-- The views after tidying: that of the group as its state requires, the others as they were. -/
theorem tidy_view (g : GroupId) (old : View) (own : Bool) (s : State) :
    (tidy g old own s).view g = tidyView old (s.view g) ∧ ∀ k, k ≠ g → (tidy g old own s).view k = s.view k := by
  have hgroups : (tidy g old own s).groups = (s.setView g (tidyView old (s.view g))).groups := by
    unfold Machine.tidy
    dsimp only
    have hb : ∀ (t : State) b c, (t.bumpIf b c).groups = t.groups := fun t b c => by cases b <;> rfl
    split <;> simp [State.setView, hb]
  refine ⟨?_, fun k hk => ?_⟩
  · rw [State.view_eq _ _ hgroups, State.view_setView]
  · rw [State.view_eq _ _ hgroups, State.view_setView_ne _ _ hk]

theorem changeView_view (g : GroupId) (w : View) (s : State) :
    (changeView g w s).view g = tidyView (s.view g) w ∧ ∀ k, k ≠ g → (changeView g w s).view k = s.view k := by
  obtain ⟨h1, h2⟩ := tidy_view g (s.view g) false (s.setView g w)
  rw [State.view_setView] at h1
  exact ⟨h1, fun k hk => (h2 k hk).trans (State.view_setView_ne _ _ hk)⟩

/-- An implicit release leaves the view FREE. -/
theorem implicitRelease_view (g : GroupId) (e : Byte) (x : Option StationSet) (s : State) :
    ((implicitRelease g e x s).view g).state = .free := by
  rw [implicitRelease, (changeView_view g _ s).1, tidyView_state]
  rfl

theorem Regular.heldFields {y : Station} {s : State} (hidle : s.line.activity = .none) (hy : y ≠ 0 ∧ y ≠ s.number)
    (g : GroupId) (entry : Option Nat) : Regular none s (heldFields y g entry s) := by
  unfold Machine.heldFields
  split
  · exact .holdRule hidle hy _ g
  · dsimp only
    split
    · exact .changeView (.inl hidle) fun h => (h g).freed rfl rfl id id
    · exact .refl s

theorem Regular.groupField {y : Station} {s : State} (hidle : s.line.activity = .none) (hy : y ≠ 0 ∧ y ≠ s.number)
    (p : Presence) (g : GroupId) : Regular none s (groupField y p s g) := by
  unfold Machine.groupField
  dsimp only
  split
  · exact .refl s
  · have fields {t : State} (h : Regular none s t) : Regular none s
        (if (t.view g).epoch = p.epochs.get g then Machine.heldFields y g (heldEntry p.held g) t else t) := by
      split
      · exact h.trans (.heldFields (h.idle hidle) (by rw [h.number]; exact hy) g _)
      · exact h
    split
    · rw [enforce_of_free (implicitRelease_view g _ _ s)]
      exact fields (.implicitRelease hidle g _ _)
    · exact fields (.enforce hidle _)

theorem Regular.groupFields {y : Station} {s : State} (hidle : s.line.activity = .none) (hy : y ≠ 0 ∧ y ≠ s.number)
    (p : Presence) : Regular none s (groupFields y p s) := by
  unfold Machine.groupFields
  split
  · exact .bump s _
  · rename_i t ht
    have h := Regular.showTest hidle ht
    refine (h.trans (Regular.foldl_idle (n := s.number) (fun t g hi hn => ?_) groupIds (h.idle hidle) h.number)).trans
      (.bumpIf _ _ _)
    exact .groupField hi (by rw [hn]; exact hy) p g

/-- The mark of a holding whose station is stale. -/
theorem Regular.markStale (y : Station) (b : Bool) (s : State) : Regular none s (markStale y b s) := by
  refine Regular.foldl ?_ groupIds s
  intro s g
  dsimp only
  split
  · rename_i hw
    refine .setView (fun _ h => ?_) fun _ _ => .inl
    obtain ⟨h1, h2, h3, h4⟩ := viewsBut_none.1 h g
    exact ⟨h1, fun _ => hw.1, h3, h4⟩
  · exact .refl s

theorem Regular.freeHeld (y : Station) (s : State) : Regular none s (freeHeld y s) := by
  refine Regular.foldl ?_ groupIds s
  intro s g
  dsimp only
  split
  · rename_i hw
    exact .changeView (.inr (by rw [hw.1]; decide)) fun h => (h g).freed rfl rfl id id
  · exact .refl s

/-! ### Peers, answers and triggers -/

theorem Regular.setPeer (s : State) (y : Station) (p : Peer) : Regular none s (s.setPeer y p) := .of_eq

theorem Regular.handPeerKeys (s : State) : Regular none s (handPeerKeys s) := by
  unfold Machine.handPeerKeys
  dsimp only
  split
  · exact .refl s
  · exact .of_eq

theorem Regular.signOfLife (y : Station) (s : State) : Regular none s (signOfLife y s) := by
  unfold Machine.signOfLife
  dsimp only
  split
  · exact ((Regular.setPeer s y _).trans (.markStale y false _)).trans (.handPeerKeys _)
  · exact (Regular.setPeer s y _).trans (.handPeerKeys _)

theorem Regular.turnStale (y : Station) (s : State) : Regular none s (turnStale y s) :=
  (Regular.setPeer s y _).trans (.markStale y true _)

theorem Regular.turnGone (y : Station) (s : State) : Regular none s (turnGone y s) :=
  ((Regular.setPeer s y _).trans (.handPeerKeys _)).trans (.freeHeld y _)

theorem Regular.takePresence {y : Station} {s : State} (hidle : s.line.activity = .none) (hy : y ≠ 0 ∧ y ≠ s.number)
    (p : Presence) : Regular none s (takePresence y p s) := by
  unfold Machine.takePresence
  dsimp only
  have h := fun q => (Regular.setPeer s y q).trans (.handPeerKeys _)
  split
  · exact (h _).trans (.groupFields ((h _).idle hidle) (by rw [(h _).number]; exact hy) p)
  · exact h _

theorem Regular.takeQuery (y : Station) (clear : Bool) (s : State) : Regular none s (takeQuery y clear s) := by
  unfold Machine.takeQuery
  split
  · refine Regular.trans ?_ (.offer (fun _ => rfl) _)
    exact .of_eq
  · exact .of_eq

theorem Regular.takeRestart {s : State} (hidle : s.line.activity = .none) (n : Byte) :
    Regular none s (takeRestart n s) := by
  unfold Machine.takeRestart
  split
  · exact .bump s _
  · split
    · exact .showRestart hidle n
    · exact .refl s

theorem Regular.takeSegment (b0 b1 b2 : Byte) (s : State) : Regular none s (takeSegment b0 b1 b2 s) := by
  unfold Machine.takeSegment
  dsimp only
  have h : Regular none s { s with starts := { s.starts with segment := b0, mask := b1 } } := .of_eq
  refine h.trans ?_
  split
  · exact .of_moves ((Moves.segmentStop _).admits.trans (.finishAny _))
  · exact .of_moves (.finishAny _)

theorem Regular.lineAction {a : State → State} (ha : ∀ s, Regular none s (a s)) (s : State) :
    Regular none s (lineAction s a) := by
  unfold Machine.lineAction
  split
  · exact .bump s _
  · exact ha s

theorem Regular.perform (i : InputId) (a : Action) (s : State) : Regular none s (perform i a s) := by
  have offer (b : TxBody) (hb : ∀ g, b.claims g = false) : ∀ s, Regular none s (Machine.offer b s) := .offer hb
  cases a
  · exact .of_moves (.startRequest _ s)
  · exact .lineAction (offer _ fun _ => rfl) s
  · exact .of_moves (.stop _ _ s)
  · exact .lineAction (offer _ fun _ => rfl) s
  · show Regular none s (Machine.claimAction i _ s)
    refine .lineAction (fun s => ?_) s
    split
    · exact .refl s
    · split
      · exact .bump s _
      · exact .localClaim _ s
  · exact .lineAction (fun s => .offer (fun _ => rfl) s) s
  · exact .lineAction (offer _ fun _ => rfl) s

end Sys2Proof.Machine
end

