-- ==== Sys2Proof/Proofs/EveryStep.lean ====
section
/-! PROOFS. Every command and every moment of time keeps the group views, the queues and the FIFOs as the manual states (R26, R51,
R122, R148): the effects of the commands in turn, made of the operations of `Regular`. -/

namespace Sys2Proof.Machine

/-! ### Voices and the port -/

theorem Moves.popSample {v : VoiceId} {s : State} {h : Held} {rest : List Held} (e : (s.voice v).fifo = h :: rest) :
    Moves Plays s ((s.setVoice v { s.voice v with fifo := rest, underrun := false }).setGiven v (some h.sample)) := by
  refine Moves.trans (t := s.setVoice v { s.voice v with fifo := rest, underrun := false }) ?_ (.setGiven _ v _)
  refine .setVoice ⟨Nat.le_refl _, ?_, .inr ⟨rfl, id⟩, id⟩
  rw [e]
  exact Nat.le_succ _

/-- A return to IDLE with the follow-on of a natural end. -/
theorem Moves.returnNatural (v : VoiceId) (s : State) : Moves Admits s (Machine.returnIdle v true s) :=
  (Moves.returnIdle v s).plays_admits.trans (.setReturns _ _)

theorem needOf_fifo {x : Voice} {h : Held} {rest : List Held} (e : needOf x = .fifo h rest) : x.fifo = h :: rest := by
  unfold needOf at e
  split at e
  · cases e
  · split at e
    · rename_i hx
      cases e
      exact hx
    · split at e <;> cases e

theorem Moves.takeSample (v : VoiceId) (s : State) : Moves Admits s (takeSample v s) := by
  unfold Machine.takeSample
  dsimp only
  split
  · exact (Moves.trans .setSame (.setGiven _ v _)).plays_admits
  · rename_i h rest hn
    exact ((Moves.popSample (needOf_fifo hn)).serves.trans (.refreshRequest v _)).admits
  · exact (Moves.missSample v s).plays_admits
  · split
    · exact .returnNatural v s
    · exact (Moves.setGiven s v _).plays_admits

/-- An operation of a voice keeps the bounds of the FIFOs of the other voices. -/
theorem Plays.fifoBut {v : VoiceId} {s t : State} (h : Plays s t) (hs : FifoBut v s) : FifoBut v t := by
  obtain ⟨hb, hv⟩ := hs
  refine ⟨fun b => by rw [h.burst]; exact hb b, fun u => ?_⟩
  obtain ⟨h1, h2, h3, -⟩ := h.voices u
  obtain ⟨v1, v2, v3⟩ := hv u
  refine ⟨fun hu hr => ?_, h2.trans v2, h1.trans v3⟩
  rcases h3 with h3 | ⟨h3, h4⟩
  · rw [h3]; exact Nat.zero_le _
  · refine h2.trans (v1 hu (hr.imp h.request fun ho => ?_))
    obtain ⟨b, tag, e1, e2, e3, e4⟩ := ownBurst_iff.1 ho
    exact ownBurst_iff.2 ⟨b, tag, by rw [← h.burst]; exact e1, e2, h4 e3, h3.symm.trans e4⟩

/-- The burst's samples come to a FIFO that has room for them (R26). -/
theorem appendBurst_fifo {v : VoiceId} {s : State} {x : Voice} (hs : FifoOk s) (hx : x.fifo.length ≤ 256)
    (hn : x.inFlight ≤ 64) : FifoBut v (s.setVoice v x) := by
  obtain ⟨h1, h2⟩ := hs
  refine ⟨h1, fun u => ?_⟩
  obtain ⟨u1, u2, u3⟩ := h2 u
  by_cases hu : u = v
  · subst hu
    rw [State.voice_setVoice]
    exact ⟨fun k => absurd rfl k, hx, hn⟩
  · rw [State.voice_setVoice_ne _ _ hu]
    refine ⟨fun _ hr => u1 (hr.imp_right fun ho => ?_), u2, u3⟩
    obtain ⟨b, tag, e1, e2, e3, e4⟩ := ownBurst_iff.1 ho
    rw [State.voice_setVoice_ne _ _ hu] at e3 e4
    exact ownBurst_iff.2 ⟨b, tag, e1, e2, e3, e4⟩

/-- What an operation does to the queue of starts alone. -/
def Queues (s t : State) : Prop := StartQueueOk s → StartQueueOk t

theorem Moves.queues {s t : State} (m : Moves Serves s t) : Moves Queues s t :=
  m.mono fun _ _ h => h.admits.queue

theorem Moves.applyBurst (v : VoiceId) (n : Nat) (data : List Sample) (s : State) :
    ∃ x : Voice, x.fifo.length ≤ (s.voice v).fifo.length + n ∧ x.inFlight = 0
      ∧ Moves Plays (s.setVoice v x) (applyBurst v n data s) := by
  refine ⟨{ s.voice v with
      inFlight := 0, debt := (s.voice v).debt - min (s.voice v).debt n
      fifo := (s.voice v).fifo
        ++ (burstSamples (s.voice v).fetchPtr (data.take n)).drop (min (s.voice v).debt n) }, ?_, rfl, ?_⟩
  · simp [burstSamples]
  · unfold Machine.applyBurst
    dsimp only
    have h := Moves.advancePtr v n (s.setVoice v { s.voice v with
      inFlight := 0, debt := (s.voice v).debt - min (s.voice v).debt n
      fifo := (s.voice v).fifo
        ++ (burstSamples (s.voice v).fetchPtr (data.take n)).drop (min (s.voice v).debt n) })
    split
    · rename_i hp
      exact h.trans (.enterPlaying (.inl (active_of_state hp (by decide))))
    · exact h

/-- A burst outstanding for a voice is due with its length, at most 64 samples. -/
theorem voiceBurstDue_some {s : State} {v : VoiceId} {tag : Byte} {n : Nat} (h : voiceBurstDue s = some (v, tag, n)) :
    ∃ b, s.fetch.burst = some b ∧ b.req = .voice v tag ∧ b.length = n := by
  unfold voiceBurstDue at h
  split at h
  · rename_i hb
    cases h
    exact ⟨_, hb, rfl, rfl⟩
  · cases h

theorem Moves.freePort (s : State) : Moves Serves s (freePort s) := by
  refine .update rfl ⟨.of_sublist (.refl _), fun ⟨h1, h2⟩ => ?_, id⟩
  refine ⟨fun b e => (by cases e), fun u => ?_⟩
  obtain ⟨u1, u2, u3⟩ := h2 u
  exact ⟨fun hr => u1 (hr.imp_right fun ho => (by cases ho)), u2, u3⟩

/-- A completed burst keeps the FIFOs bounded: the voice held at most 192 samples beside it (R26). -/
theorem completeBurst_fifo {s : State} {v : VoiceId} {tag : Byte} {n : Nat} (h : voiceBurstDue s = some (v, tag, n))
    (data : List Sample) (hs : FifoOk s) : FifoOk (completeBurst v tag n data s) := by
  obtain ⟨b, hb, hreq, rfl⟩ := voiceBurstDue_some h
  unfold completeBurst
  split
  · rename_i htag
    refine (Serves.of_moves (.grantIfIdle _)).fifo (FifoBut.refreshRequest ?_ fun ho => (by cases ho))
    obtain ⟨ha, hg⟩ := Bool.and_eq_true_iff.1 htag
    have hfill := (hs.2 v).1 (.inr (ownBurst_iff.2 ⟨b, tag, hb, hreq, ha, eq_of_beq hg⟩))
    have hlen := hs.1 b hb
    obtain ⟨x, hx, hfly, hm⟩ := Moves.applyBurst v b.length data s
    obtain ⟨-, h2⟩ := (Plays.of_moves hm).fifoBut (appendBurst_fifo (v := v) (x := x) hs (by omega) (by omega))
    refine ⟨fun b e => (by cases e), fun u => ?_⟩
    obtain ⟨u1, u2, u3⟩ := h2 u
    exact ⟨fun hu hr => u1 hu (hr.imp_right fun ho => (by cases ho)), u2, u3⟩
  · exact (Serves.of_moves (.grantIfIdle _)).fifo ((Serves.of_moves (.freePort s)).fifo hs)

theorem Moves.setVoiceQueues (s : State) (v : VoiceId) (x : Voice) : Moves Queues s (s.setVoice v x) := .update rfl id

theorem Moves.completeBurst (v : VoiceId) (tag : Byte) (n : Nat) (data : List Sample) (s : State) :
    Moves Queues s (completeBurst v tag n data s) := by
  unfold Machine.completeBurst
  split
  · obtain ⟨x, -, -, hm⟩ := Moves.applyBurst v n data s
    exact ((((Moves.setVoiceQueues s v x).trans hm.serves.queues).trans (Moves.freePort _).queues).trans
      (Moves.refreshRequest v _).queues).trans (Moves.grantIfIdle _).queues
  · exact (Moves.freePort s).queues.trans (Moves.grantIfIdle _).queues

/-- Operations known for the queue of starts, with the FIFOs seen to. -/
theorem Orderly.of_queues {x : Option GroupId} {s t : State} (m : Moves Queues s t) (hf : FifoOk s → FifoOk t) :
    Orderly x s t :=
  ⟨m.viewsAndClaims.1, m.viewsAndClaims.2,
    m.keep (P := Queues) (fun _ => id) (fun _ _ _ h k hs => k (h hs)) (fun _ _ _ h => h) (fun _ _ _ => id)
      (fun s hs => by unfold StartQueueOk; rw [offerPresence_starts]; exact hs), hf⟩

theorem takeVoiceBurst_orderly (data : List Sample) (s : State) : Orderly none s (takeVoiceBurst data s) := by
  unfold takeVoiceBurst
  split
  · rename_i v tag n h
    exact (Orderly.of_queues (.completeBurst v tag n data s) (completeBurst_fifo h data)).trans
      (Regular.of_moves (.settleReturns _)).toOrderly
  · exact .refl s

theorem takeUp_orderly (rounds c : Nat) (s : State) : Orderly none s (takeUp rounds c s) := by
  induction rounds generalizing c s with
  | zero => exact .of_eq
  | succ rounds ih =>
    have fault : Orderly none s (takeUp rounds (c + 1) (s.bump .storeFault)) := Orderly.trans .of_eq (ih _ _)
    unfold takeUp
    split
    · split
      · exact ih _ s
      · split
        · exact ih _ s
        · split
          · exact fault
          · split
            · exact fault
            · split
              · exact .of_eq
              · exact ih _ s
    · exact .of_eq

theorem startPass_orderly (s : State) : Orderly none s (startPass s) :=
  Orderly.trans .of_eq (takeUp_orderly 257 0 _)

theorem takePreloadBurst_orderly (data : List Sample) (s : State) : Orderly none s (takePreloadBurst data s) := by
  have grant (t : State) : Orderly none t (settleReturns (grantIfIdle (freePort t))) :=
    (Regular.of_moves (((Moves.freePort t).trans (.grantIfIdle _)).admits.trans (.settleReturns _))).toOrderly
  unfold takePreloadBurst
  split
  · unfold completePreload
    split
    · refine Orderly.trans ?_ (grant _)
      unfold applyPreload
      dsimp only
      split
      · exact Orderly.trans .of_eq (takeUp_orderly _ _ _)
      · exact .of_eq
    · exact grant s
  · exact .refl s

theorem Moves.boundaryVoice (s : State) (v : VoiceId) : Moves Plays s (boundaryVoice s v) := by
  unfold Machine.boundaryVoice
  dsimp only
  split
  · split
    · exact .setMix s v _
    · split
      · exact Moves.trans .setSame (.setMix _ v _)
      · exact Moves.trans .setSame (.setMix _ v _)
  · exact .setMix s v _

theorem controlBoundary_orderly (s : State) : Orderly none s (controlBoundary s) := by
  have hm : Moves Plays (duckAll s) (voiceIds.foldl Machine.boundaryVoice (duckAll s)) := .foldl Moves.boundaryVoice _ _
  refine Orderly.trans (t := duckAll s) .of_eq ((Regular.of_moves hm.plays_admits).toOrderly.trans ?_)
  unfold controlBoundary
  dsimp only
  generalize voiceIds.foldl Machine.boundaryVoice (duckAll s) = t
  exact .of_eq

theorem deliver_orderly (s : State) : Orderly none s (deliver s) := by
  unfold deliver
  dsimp only
  split
  · exact ((Regular.bumpIf s _ _).trans (.bumpIf _ _ _)).toOrderly.trans .of_eq
  · exact .of_eq

/-! ### The line -/

theorem beginHoldoff_orderly (n : Nat) (s : State) : Orderly none s (beginHoldoff n s) := by
  unfold beginHoldoff
  split
  · exact .of_eq
  · exact .refl s

theorem takeSendSlot_orderly (s : State) : Orderly none s (takeSendSlot s) := by
  unfold takeSendSlot
  split
  · exact .of_eq
  · exact .refl s

theorem mem_of_findTx {n : Nat} {s : State} {e : TxEntry} (h : findTx n s = some e) : e ∈ s.line.queue ∧ e.ident = n :=
  ⟨List.mem_of_find?_eq_some h, by simpa using List.find?_some h⟩

theorem takeCollision_orderly (s : State) : Orderly none s (takeCollision s) := by
  have after (n : Nat) (t : State) : Orderly none t (afterCollision n t) := by
    unfold afterCollision
    split
    · exact .refl t
    · rename_i e he
      obtain ⟨hmem, rfl⟩ := mem_of_findTx he
      split
      · exact (Regular.leaveTx _ t).toOrderly
      · split
        · exact .of_eq (queue := countAttempt_bodies _ t)
        · exact (Regular.dropTx hmem _).toOrderly
  unfold takeCollision
  split
  · exact Orderly.trans .of_eq (after _ _)
  · exact .refl s

theorem badReception_orderly (r : Reception) (s : State) : Orderly none s (badReception r s) :=
  Orderly.trans (t := endReception (afterBad r.ending) s) .of_eq (Regular.bumpIf _ _ _).toOrderly

/-- What a frame does that a station hands on: its line is idle, and the source is another station. -/
theorem receive_orderly {owner : State → State} {src : Station} {s : State} (hc : canReceive s src = true) (dst : Byte)
    (h : ∀ t : State, t.line.activity = .none → src ≠ 0 ∧ src ≠ t.number → Regular none t (owner t)) :
    Orderly none s (receive src dst owner s) := by
  obtain ⟨hcan, hsrc⟩ := Bool.and_eq_true_iff.1 hc
  obtain ⟨hdrive, -⟩ := Bool.and_eq_true_iff.1 hcan
  have hidle : (endReception .frameEnded s).line.activity = .none := deferred_of_not_driving (by simpa using hdrive)
  refine Orderly.trans (t := endReception .frameEnded s) .of_eq ?_
  show Orderly none _ (handOn src dst owner (endReception .frameEnded s))
  generalize endReception .frameEnded s = s at hidle
  unfold handOn
  split
  · exact .refl s
  · split
    · exact .of_eq
    · rename_i hn
      dsimp only
      have hlife := Regular.signOfLife src s
      split
      · exact (hlife.trans (h _ (hlife.idle hidle) ⟨by simpa using hsrc, by rw [hlife.number]; exact hn⟩)).toOrderly
      · exact hlife.toOrderly

theorem ownCompletion_orderly {s : State} (hidle : s.line.activity = .none) (b : TxBody) (p : List Byte) :
    Orderly none s (ownCompletion b p s) := by
  cases b with
  | fire _ _ => exact (Regular.of_moves (.takeFire _ _ _ _ s)).toOrderly
  | stop _ _ => exact (Regular.of_moves (.takeStop _ _ _ _ s)).toOrderly
  | segment _ _ _ => exact (Regular.takeSegment _ _ _ s).toOrderly
  | claim g n e => exact (Regular.groupFrame hidle (fun g _ ht _ => .ownClaim ht g) _ _ _).toOrderly
  | hold _ _ _ => exact .refl s
  | release g n e v => exact (Regular.groupFrame hidle (fun g _ ht _ => .releaseRule ht v g) _ _ _).toOrderly
  | presence => exact Orderly.trans (t := startPresenceTimer s) .of_eq (Regular.foldl Regular.reofferTimeout _ _).toOrderly
  | status =>
    show Orderly none s (statusDone p s)
    unfold statusDone
    dsimp only
    split
    · exact .of_eq
    · exact .of_eq

theorem takeTransmit_orderly (s : State) : Orderly none s (takeTransmit s) := by
  unfold takeTransmit
  split
  · rename_i n f _
    have hline : Orderly none s (releaseLine (leaveTx n s)) := (Regular.leaveTx n s).toOrderly.trans .of_eq
    unfold completeAttempt
    dsimp only
    split
    · exact hline.trans (ownCompletion_orderly rfl _ _)
    · exact hline
  · exact .refl s

/-! ### Triggers and start-up -/

theorem contactChange_orderly (i : InputId) (b : Bool) (s : State) : Orderly none s (contactChange i b s) := by
  unfold contactChange
  dsimp only
  split
  · exact .of_eq
  · split
    · exact .of_eq
    · exact .of_eq

theorem takeFilter_orderly (i : InputId) (s : State) : Orderly none s (takeFilter i s) := by
  unfold takeFilter
  split
  · unfold filterExpiry
    dsimp only
    split
    · exact .of_eq
    · split
      · refine Orderly.trans ?_ (Regular.perform _ _ _).toOrderly
        exact .of_eq
      · exact .of_eq
  · exact .refl s

theorem endLoad_orderly (image : List Byte) (s : State) : Orderly none s (endLoad image s) := by
  unfold endLoad
  split
  · refine Orderly.trans ?_ (Regular.of_moves ((Moves.grantIfIdle _).admits.trans (.settleReturns _))).toOrderly
    refine Orderly.trans ?_ (startPass_orderly _)
    exact .of_eq
  · refine Orderly.trans ?_ (Regular.offerPresence _).toOrderly
    exact .of_eq

/-! ### Every effect, every step -/

theorem heldMe_of_answerDue {s : State} {g : GroupId} (h : answerDue s g = true) : (s.view g).state = .heldMe := by
  unfold answerDue at h
  split at h
  · exact eq_of_beq (Bool.and_eq_true_iff.1 h).1
  · cases h
  · cases h

theorem effect_orderly {c : Instr} {s : State} (hc : ¬ Resets c) (hh : happens c s = true) : Orderly none s (effect c s) := by
  cases c with
  | hardReset | hardResetRelease => exact absurd trivial hc
  | loadEnd image => exact endLoad_orderly image s
  | listenTimerExpiry =>
    refine Orderly.trans ?_ ((Regular.offerPresence _).trans (.recheckHoldoff _)).toOrderly
    exact .of_eq
  | wordClockEdge ns => exact .of_eq
  | wordClockTimeout => exact .of_eq
  | voiceSampleNeed v => exact (Regular.of_moves ((Moves.takeSample v s).trans (.settleReturns _))).toOrderly
  | busSampleOutput => exact deliver_orderly s
  | controlFrameBoundary => exact controlBoundary_orderly s
  | fadeEnd v => exact (Regular.of_moves ((Moves.returnIdle v s).plays_admits.trans (.finishAny _))).toOrderly
  | primeDeadline v =>
    obtain ⟨hprime, -⟩ := Bool.and_eq_true_iff.1 hh
    have hm := (Moves.enterPlaying (.inl (active_of_state (eq_of_beq hprime) (by decide)))).trans (.missSample v _)
    exact (Regular.of_moves hm.plays_admits).toOrderly
  | beatBoundary =>
    show Orderly none s (takeBeat s)
    unfold takeBeat
    split
    · refine Orderly.trans ?_ (Regular.of_moves ((Moves.releaseBeats _).admits.trans (.finishAny _))).toOrderly
      exact .of_eq
    · exact .refl s
  | pendingExpiry cue => exact (Regular.of_moves (.expireEntry cue s)).toOrderly
  | burstComplete data => exact takeVoiceBurst_orderly data.toList s
  | preloadBurstComplete data => exact takePreloadBurst_orderly data.toList s
  | triggerInputChange i b => exact contactChange_orderly i b s
  | triggerFilterExpiry i => exact takeFilter_orderly i s
  | interframeGapComplete =>
    refine Orderly.trans ?_ (beginHoldoff_orderly 0 _)
    exact .of_eq
  | lineBusy => exact .of_eq
  | sendSlot => exact takeSendSlot_orderly s
  | transmitComplete => exact takeTransmit_orderly s
  | collision => exact takeCollision_orderly s
  | jamEnd => exact .of_eq
  | rxBad r => exact badReception_orderly r s
  | rxProtocol f => exact Orderly.trans (t := endReception .frameEnded s) .of_eq .of_eq
  | fireReceived src dst b0 b1 b2 b3 => exact receive_orderly hh dst fun t _ _ => .of_moves (.takeFire _ _ _ _ t)
  | stopReceived src dst b0 b1 b2 b3 => exact receive_orderly hh dst fun t _ _ => .of_moves (.takeStop _ _ _ _ t)
  | segmentReceived src b0 b1 b2 => exact receive_orderly hh 0 fun t _ _ => .takeSegment _ _ _ t
  | claimReceived src n g e =>
    exact receive_orderly hh 0 fun t ht hs => .groupFrame ht (fun g u hu hn => .claimRule hu (by rw [hn]; exact hs) g) _ _ _
  | holdReceived src n g e age =>
    exact receive_orderly hh 0 fun t ht hs => .groupFrame ht (fun g u hu hn => .holdRule hu (by rw [hn]; exact hs) _ g) _ _ _
  | releaseReceived src n g e v =>
    exact receive_orderly hh 0 fun t ht _ => .groupFrame ht (fun g u hu _ => .releaseRule hu _ g) _ _ _
  | presenceReceived src p => exact receive_orderly hh 0 fun t ht hs => .takePresence ht hs p
  | queryReceived src dst b0 =>
    exact receive_orderly (Bool.and_eq_true_iff.1 hh).1 dst fun t _ _ => .takeQuery src _ t
  | statusReceived src dst => exact receive_orderly hh dst fun t _ _ => .refl t
  | restartReceived src dst n => exact receive_orderly hh dst fun t ht _ => .takeRestart ht n
  | answerTimerExpiry g => exact (Regular.answerExpiry (heldMe_of_answerDue hh)).toOrderly
  | presenceTimerExpiry =>
    refine Orderly.trans ?_ (Regular.offerPresence _).toOrderly
    exact .of_eq
  | peerStale y => exact (Regular.turnStale y s).toOrderly
  | peerGone y => exact (Regular.turnGone y s).toOrderly
  | referenceSlot => exact beginHoldoff_orderly s.line.slot s

/-- The bounds of the FIFOs do not speak of the time a burst has left. -/
theorem FifoOk.burstLeft {s t : State} {f : Nat → Nat} (h : FifoOk s) (requests : t.fetch.requests = s.fetch.requests)
    (burst : t.fetch.burst = s.fetch.burst.map fun b => { b with left := f b.left }) (voices : t.voices = s.voices) :
    FifoOk t := by
  obtain ⟨h1, h2⟩ := h
  refine ⟨fun b hb => ?_, fun v => ?_⟩
  · rw [burst] at hb
    obtain ⟨b', hb', rfl⟩ := Option.map_eq_some_iff.1 hb
    exact h1 b' hb'
  · obtain ⟨v1, v2, v3⟩ := h2 v
    rw [State.voice_eq s t voices, requests]
    refine ⟨fun hr => v1 (hr.imp_right fun ho => ?_), v2, v3⟩
    obtain ⟨b, tag, e1, e2, e3, e4⟩ := ownBurst_iff.1 ho
    rw [burst] at e1
    obtain ⟨b', hb', rfl⟩ := Option.map_eq_some_iff.1 e1
    rw [State.voice_eq s t voices] at e3 e4
    exact ownBurst_iff.2 ⟨b', tag, hb', e2, e3, e4⟩

theorem tick_orderly (s : State) : Orderly none s (tick s) := by
  rcases tick_cases s with h | ⟨-, h⟩ | ⟨-, h⟩ | ⟨_, _, h⟩
  · rw [h]; exact .refl s
  · obtain ⟨l, x, -, e⟩ := tickBit_shape s
    rw [h, e]
    exact ⟨id, id, id, fun hf => hf.burstLeft (f := (· - 1)) rfl rfl rfl⟩
  · rw [h]; exact .of_eq
  · rw [h]; exact .of_eq

theorem hardResetState_orderly (held : Bool) (n : Station) (s : State) :
    ViewsOk (hardResetState held n s) ∧ ClaimsOk (hardResetState held n s) ∧ StartQueueOk (hardResetState held n s)
      ∧ FifoOk (hardResetState held n s) := by
  have hview (g : GroupId) : (hardResetState held n s).view g = .reset := Vector.getElem_replicate _
  have hvoice (v : VoiceId) : (hardResetState held n s).voice v = .reset := Vector.getElem_replicate _
  refine ⟨fun g => ?_, fun g => ⟨Nat.zero_le _, fun ⟨e, he, _⟩ => absurd he List.not_mem_nil⟩, ⟨Nat.zero_le _, .nil⟩,
    fun b hb => (by cases hb), fun v => ?_⟩
  · rw [hview]; exact reset_viewOk _
  · rw [hvoice]; exact ⟨fun _ => Nat.zero_le _, Nat.zero_le _, Nat.zero_le _⟩

/-- What every step keeps of the views, the queues and the FIFOs. -/
theorem step_orderly {s t : State} (h : step s = .next t) : (ViewsOk s → ViewsOk t) ∧ (ClaimsOk s → ClaimsOk t)
    ∧ (StartQueueOk s → StartQueueOk t) ∧ (FifoOk s → FifoOk t) := by
  have orderly {s t : State} (h : Orderly none s t) : (ViewsOk s → ViewsOk t) ∧ (ClaimsOk s → ClaimsOk t)
      ∧ (StartQueueOk s → StartQueueOk t) ∧ (FifoOk s → FifoOk t) :=
    ⟨fun hs => viewsBut_none.1 (h.views (viewsBut_none.2 hs)), fun hs => claimsBut_none.1 (h.claims (claimsBut_none.2 hs)),
      h.starts, h.fifo⟩
  rcases step_cases h with ⟨c, rest, -, hexec⟩ | ⟨-, rfl⟩
  · have hpop : Orderly none s { s with pending := rest } := .of_eq
    rcases exec_cases hexec with rfl | ⟨-, held, n, rfl⟩ | ⟨i, b, rfl⟩ | ⟨-, hh, hn, rfl⟩
    · exact orderly hpop
    · obtain ⟨h1, h2, h3, h4⟩ := hardResetState_orderly held n { s with pending := rest }
      exact ⟨fun _ => h1, fun _ => h2, fun _ => h3, fun _ => h4⟩
    · exact orderly (hpop.trans .of_eq)
    · exact orderly (hpop.trans (effect_orderly hn hh))
  · exact orderly (tick_orderly s)

/-- Settles O55: the views are part of what every step keeps. -/
theorem everyStepKeepsTheGroupViews : Obligations.EveryStepKeepsTheGroupViews :=
  fun _ _ hs h => (step_orderly h).1 hs

/-- Settles O56. -/
theorem everyStepKeepsTheStartQueue : Obligations.EveryStepKeepsTheStartQueue :=
  fun _ _ hs h => (step_orderly h).2.2.1 hs

/-- Settles O58: the FIFOs are bounded against the request set and the bursts, and `Plays` and `Serves` say what keeps that. -/
theorem everyStepKeepsTheFifosBounded : Obligations.EveryStepKeepsTheFifosBounded :=
  fun _ _ hs h => (step_orderly h).2.2.2 hs

/-- The hard-reset state's transmit queue is lawful, being empty. -/
theorem hardResetState_txQueue (held : Bool) (n : Station) (s : State) : TxQueueOk (hardResetState held n s) := by
  refine ⟨Nat.zero_le _, .nil, Nat.zero_le _, Nat.zero_le _, fun g => ⟨Nat.zero_le _, Nat.zero_le _⟩⟩

/-- Settles O57: the limits of the queue by `exec_keeps`, the CLAIMs by `step_orderly`. -/
theorem everyStepKeepsTheTransmitQueue : Obligations.EveryStepKeepsTheTransmitQueue := by
  refine fun s t h => ⟨fun hs => ?_, (step_orderly h).2.1⟩
  rcases step_cases h with ⟨c, rest, -, hexec⟩ | ⟨-, rfl⟩
  · by_cases hr : Resets c
    · rcases exec_cases hexec with rfl | ⟨-, held, n, rfl⟩ | ⟨i, b, rfl⟩ | ⟨-, -, hn, -⟩
      · exact hs
      · exact hardResetState_txQueue held n _
      · exact hs
      · exact absurd hr hn
    · obtain ⟨tables, x, hk, -⟩ := exec_keeps hr hexec
      exact hk.lawful hs
  · obtain ⟨-, -, -, -, -, -, -, -, -, -, hq⟩ := tick_frame s
    exact hs.congr hq

end Sys2Proof.Machine
end

