-- ==== Sys2Proof/Proofs/Samples.lean ====
section
/-! PROOFS. The samples of the voices, the control frame boundary's fades and gains, and the bus outputs
(R63 to R73, R86 to R99). -/

namespace Sys2Proof.Machine

/-! ### One sample of a voice (R67, R71) -/

theorem settleReturns_of_settled {s : State} (h : Settled s) : settleReturns s = s := by
  rw [settleReturns, show s.returns = [] from h]
  rfl

theorem exec_voiceSampleNeed {v : VoiceId} {s : State} (hr : s.inReset = false)
    (hv : (s.voice v).state = .playing ∨ (s.voice v).state = .fading) (hg : s.mixer.given.get v = none) :
    exec (.voiceSampleNeed v) s = .next (settleReturns (takeSample v s)) := by
  refine exec_of_happens (c := .voiceSampleNeed v) hr ?_ id
  show needDue s v = true
  rcases hv with h | h <;> simp [needDue, Voice.audible, h, hg]

section
variable {v : VoiceId} {s : State}

theorem takeSample_of_head (h : (s.voice v).headPos < (s.voice v).headLen) :
    takeSample v s = (s.setVoice v { s.voice v with headPos := (s.voice v).headPos + 1 }).setGiven v
      (some (memRead s.preload.mem ((s.voice v).headPlace + (s.voice v).headPos))) := by
  simp [takeSample, needOf, Voice.inHead, h]

variable (hhead : (s.voice v).headLen ≤ (s.voice v).headPos)
include hhead

theorem takeSample_of_fifo {h : Held} {rest : List Held} (hf : (s.voice v).fifo = h :: rest) :
    takeSample v s = refreshRequest v
      ((s.setVoice v { s.voice v with fifo := rest, underrun := false }).setGiven v (some h.sample)) := by
  simp [takeSample, needOf, Voice.inHead, hf, Nat.not_lt.2 hhead]

theorem takeSample_of_missing (hf : (s.voice v).fifo = []) (hd : (s.voice v).fetchDone = false) :
    takeSample v s = missSample v s := by
  simp [takeSample, needOf, Voice.inHead, hf, hd, Nat.not_lt.2 hhead]

theorem takeSample_of_spent (hf : (s.voice v).fifo = []) (hd : (s.voice v).fetchDone = true) :
    takeSample v s = if (s.voice v).state = .playing then returnIdle v true s else s.setGiven v (some 0) := by
  simp [takeSample, needOf, Voice.inHead, hf, hd, Nat.not_lt.2 hhead]

end

theorem State.setRequest_of_get {s : State} {v : VoiceId} {m : Option Micros} (h : s.fetch.requests.get v = m) :
    s.setRequest v m = s := by
  subst h
  simp [State.setRequest, upd_get_eq]

theorem grantIfIdle_of_busy {s : State} (h : s.fetch.burst.isSome = true) : grantIfIdle s = s := by
  rw [grantIfIdle, if_neg]
  obtain ⟨b, hb⟩ := Option.isSome_iff_exists.1 h
  simp [hb]

/-- With the port busy, the request set alone takes the voice in or lets it go (R24). -/
theorem refreshRequest_of_busy {v : VoiceId} {s : State} (hb : s.fetch.burst.isSome = true) :
    refreshRequest v s = s.setRequest v
      (if s.requests v = true then some ((s.fetch.requests.get v).getD s.clock.micros) else none) := by
  unfold refreshRequest
  split
  · split
    · rename_i hin
      obtain ⟨m, hm⟩ := Option.isSome_iff_exists.1 hin
      rw [hm]
      exact (State.setRequest_of_get hm).symm
    · rename_i hout
      rw [grantIfIdle_of_busy (s := s.setRequest v _) hb, Option.not_isSome_iff_eq_none.1 hout]
      rfl
  · rfl

/-- A voice's own burst stays its own while the voice is the same start. -/
theorem ownBurst_setVoice {s : State} {v : VoiceId} {x : Voice} (gen : x.gen = (s.voice v).gen)
    (active : x.active = (s.voice v).active) (u : VoiceId) : (s.setVoice v x).ownBurst u = s.ownBurst u := by
  have hgen : ((s.setVoice v x).voice u).gen = (s.voice u).gen :=
    State.voice_setVoice_of (P := fun y => y.gen = (s.voice u).gen) (fun e => by rw [e, gen]) fun _ => rfl
  have hactive : ((s.setVoice v x).voice u).active = (s.voice u).active :=
    State.voice_setVoice_of (P := fun y => y.active = (s.voice u).active) (fun e => by rw [e, active]) fun _ => rfl
  simp only [State.ownBurst, State.setVoice_fetch, hgen, hactive]

/-- The request set after a sounding voice has changed, with the port busy. -/
theorem refreshRequest_setVoice {s : State} {v : VoiceId} {x : Voice} (gen : x.gen = (s.voice v).gen)
    (active : x.active = (s.voice v).active) (hx : x.active = true) (g : Option Sample)
    (hb : s.fetch.burst.isSome = true) :
    refreshRequest v ((s.setVoice v x).setGiven v g) = ((s.setVoice v x).setGiven v g).setRequest v
      (if x.fetchDone = false ∧ s.ownBurst v = false ∧ x.fifo.length + x.inFlight ≤ 192 then
        some ((s.fetch.requests.get v).getD s.clock.micros)
      else none) := by
  have hreq : ((s.setVoice v x).setGiven v g).requests v = true
      ↔ x.fetchDone = false ∧ s.ownBurst v = false ∧ x.fifo.length + x.inFlight ≤ 192 := by
    change (s.setVoice v x).requests v = true ↔ _
    simp only [State.requests, State.voice_setVoice, ownBurst_setVoice gen active, hx, Config.fillLimit,
      Bool.true_and, Bool.and_eq_true, Bool.not_eq_true', decide_eq_true_eq, and_assoc]
  rw [refreshRequest_of_busy (s := (s.setVoice v x).setGiven v g) hb]
  simp only [hreq]
  rfl

/-- Settles O10: each case of R67 is an equation of `takeSample`, and no return to IDLE is left by any of them. -/
theorem sampleNeedTakesOneSample : Obligations.SampleNeedTakesOneSample := by
  intro v s hr hs hv hg
  dsimp only
  rw [exec_voiceSampleNeed hr hv hg]
  refine ⟨fun h => ?head, fun h rest hhead hf hb => ?fifo, fun hhead hf hd => ?missing, fun hhead hf hd hx => ?fading⟩
  case head =>
    rw [takeSample_of_head h, settleReturns_of_settled]
    exact hs
  case fifo =>
    have hactive : (s.voice v).active = true := by rcases hv with h | h <;> simp [Voice.active, h]
    rw [takeSample_of_fifo hhead hf, refreshRequest_setVoice (s := s)
      (x := { s.voice v with fifo := rest, underrun := false }) rfl rfl hactive _ hb]
    exact congrArg _ (settleReturns_of_settled hs)
  case missing =>
    rw [takeSample_of_missing hhead hf hd, settleReturns_of_settled]
    · rfl
    · exact (missSample_returns v s).trans hs
  case fading =>
    rw [takeSample_of_spent hhead hf hd, if_neg (by simp [hx]), settleReturns_of_settled]
    exact hs

/-! ### The control frame boundary (R73, R86 to R96) -/

/-- The fade of a voice as a boundary counts it. -/
def countedFade (f : Fade) : Fade := { f with count := some (fadeCount f) }

/-- A voice as a boundary leaves it: its fade is counted while it sounds. -/
def fadedVoice (x : Voice) : Voice := if x.audible then { x with fade := x.fade.map countedFade } else x

/-- The levels that a boundary gives voice v. -/
def boundaryMix (s : State) (v : VoiceId) : VoiceMix :=
  if (s.voice v).audible then
    match (s.voice v).fade with
    | none => mixFor s v 0
    | some f =>
      if fadeOver (countedFade f) then ⟨fadeAtt (countedFade f) (fadeCount f), none, none⟩
      else mixFor s v (fadeAtt (countedFade f) (fadeCount f))
  else .silent

/-- The levels of a voice are fixed by its record but its fade, the tables and the duck attenuations. -/
theorem mixFor_congr {s t : State} {v : VoiceId} (F : Nat) (bus : (t.voice v).bus = (s.voice v).bus)
    (cue : (t.voice v).cue = (s.voice v).cue) (offset : (t.voice v).offset = (s.voice v).offset)
    (cls : (t.voice v).cls = (s.voice v).cls) (tables : t.tables = s.tables) (duck : t.mixer.duck = s.mixer.duck) :
    mixFor t v F = mixFor s v F := by
  simp only [mixFor, levelFor, State.cue, bus, cue, offset, cls, tables, duck]

theorem fadedVoice_of_no_fade {x : Voice} (hf : x.fade = none) : fadedVoice x = x := by
  unfold fadedVoice
  split
  · rw [hf, Option.map_none, ← hf]
  · rfl

theorem State.setVoice_of_voice {s : State} {v : VoiceId} {x : Voice} (h : s.voice v = x) : s.setVoice v x = s := by
  subst h
  simp [State.setVoice, State.voice, upd_get_eq]

theorem fadedVoice_of_fade {x : Voice} {f : Fade} (ha : x.audible = true) (hf : x.fade = some f) :
    fadedVoice x = { x with fade := some (countedFade f) } := by
  simp [fadedVoice, ha, hf]

/-- Step 2 of a boundary for one voice (R86). -/
theorem boundaryVoice_eq (s : State) (v : VoiceId) :
    boundaryVoice s v = (s.setVoice v (fadedVoice (s.voice v))).setMix v (boundaryMix s v) := by
  unfold boundaryVoice boundaryMix
  dsimp only
  split
  · rename_i ha
    cases hf : (s.voice v).fade with
    | none =>
      have hsame : fadedVoice (s.voice v) = s.voice v := fadedVoice_of_no_fade hf
      rw [hsame, State.setVoice_of_voice rfl]
    | some f =>
      rw [fadedVoice_of_fade ha hf]
      have hmix := mixFor_congr (s := s) (t := s.setVoice v { s.voice v with fade := some (countedFade f) }) (v := v)
        (fadeAtt (countedFade f) (fadeCount f)) (by simp) (by simp) (by simp) (by simp) rfl rfl
      change (if fadeOver (countedFade f) then _ else _) = State.setMix _ v (if fadeOver (countedFade f) then _ else _)
      split
      · rfl
      · rw [← hmix]
        rfl
  · rename_i ha
    have hsame : fadedVoice (s.voice v) = s.voice v := by simp [fadedVoice, ha]
    rw [hsame, State.setVoice_of_voice rfl]

theorem boundaryVoice_ne {s : State} {v u : VoiceId} (h : u ≠ v) :
    (boundaryVoice s v).voice u = s.voice u ∧ (boundaryVoice s v).mix u = s.mix u := by
  rw [boundaryVoice_eq]
  exact ⟨State.voice_setVoice_ne s _ h, State.mix_setMix_ne (s.setVoice v _) _ h⟩

theorem boundaryMix_congr {s t : State} {v : VoiceId} (voice : t.voice v = s.voice v) (tables : t.tables = s.tables)
    (duck : t.mixer.duck = s.mixer.duck) : boundaryMix t v = boundaryMix s v := by
  have hmix (F : Nat) : mixFor t v F = mixFor s v F :=
    mixFor_congr F (by rw [voice]) (by rw [voice]) (by rw [voice]) (by rw [voice]) tables duck
  simp only [boundaryMix, voice, hmix]

/-- Step 2 of a boundary gives every voice its fade and its levels, whatever the others are. -/
theorem foldl_boundaryVoice (l : List VoiceId) (hl : l.Nodup) (s : State) (v : VoiceId) :
    (l.foldl boundaryVoice s).voice v = (if v ∈ l then fadedVoice (s.voice v) else s.voice v)
      ∧ (l.foldl boundaryVoice s).mix v = if v ∈ l then boundaryMix s v else s.mix v := by
  induction l generalizing s with
  | nil => exact ⟨rfl, rfl⟩
  | cons u l ih =>
    obtain ⟨hu, hl⟩ := List.nodup_cons.1 hl
    obtain ⟨h1, h2⟩ := ih hl (boundaryVoice s u)
    rw [List.foldl_cons, h1, h2]
    by_cases hv : v = u
    · subst hv
      rw [if_neg hu, if_neg hu, if_pos (List.mem_cons_self ..), if_pos (List.mem_cons_self ..), boundaryVoice_eq]
      exact ⟨State.voice_setVoice s v _, State.mix_setMix _ v _⟩
    · obtain ⟨n1, n2⟩ := boundaryVoice_ne (s := s) hv
      obtain ⟨vs, m, hf⟩ := boundaryVoice_frame s u
      rw [n1, n2, boundaryMix_congr n1 (by rw [hf]) (by rw [hf])]
      simp only [List.mem_cons, hv, false_or]
      exact ⟨trivial, trivial⟩

theorem controlBoundary_voice (s : State) (v : VoiceId) :
    (controlBoundary s).voice v = fadedVoice (s.voice v) ∧ (controlBoundary s).mix v = boundaryMix (duckAll s) v := by
  obtain ⟨h1, h2⟩ := foldl_boundaryVoice voiceIds (List.nodup_finRange 8) (duckAll s) v
  rw [if_pos (show v ∈ voiceIds from List.mem_finRange v)] at h1 h2
  unfold controlBoundary
  dsimp only
  generalize voiceIds.foldl boundaryVoice (duckAll s) = t at h1 h2
  exact ⟨h1, h2⟩

/-- The voice and its levels at a boundary while its fade goes on or ends. -/
theorem boundaryMix_of_fade {s : State} {v : VoiceId} {f : Fade} (ha : (s.voice v).audible = true)
    (hf : (s.voice v).fade = some f) : boundaryMix s v
      = if fadeOver (countedFade f) then ⟨fadeAtt (countedFade f) (fadeCount f), none, none⟩
        else mixFor s v (fadeAtt (countedFade f) (fadeCount f)) := by
  simp [boundaryMix, ha, hf]

theorem audible_iff {x : Voice} : x.audible = true ↔ x.state = .playing ∨ x.state = .fading := by
  simp [Voice.audible]

/-- Settles O14: a boundary gives each voice `fadedVoice` and `boundaryMix`, whose fade attenuation is `fadeAtt` at the count. -/
theorem boundaryCountsEveryFade : Obligations.BoundaryCountsEveryFade := by
  intro s v hr hp hb
  obtain ⟨hvoice, hmix⟩ := controlBoundary_voice s v
  refine ⟨controlBoundary s, exec_controlFrameBoundary_due hr hp hb, fun f hstate hf => ?_, fun hstate => ?_⟩
  · have ha := audible_iff.2 hstate
    have hfade : ((controlBoundary s).mix v).fade = fadeAtt (countedFade f) (fadeCount f) := by
      rw [hmix, boundaryMix_of_fade (s := duckAll s) ha hf]
      split <;> rfl
    dsimp only
    rw [hfade, hvoice, fadedVoice_of_fade ha hf]
    refine ⟨rfl, fun hk hl => ?_, fun hk hl => ?_, fun hk => ?_⟩
    · show fadeAtt (countedFade f) _ = _
      simp only [fadeAtt, countedFade, hk]
      rfl
    · simp [fadeAtt, countedFade, hk, hl]
    · simp only [fadeAtt, countedFade, hk]
      rfl
  · have ha : (s.voice v).audible = false := by rcases hstate with h | h <;> simp [Voice.audible, h]
    refine ⟨by rw [hvoice]; simp [fadedVoice, ha], ?_⟩
    rw [hmix, boundaryMix]
    exact if_neg (by rw [show (duckAll s).voice v = s.voice v from rfl, ha]; decide)

/-- The gain of an attenuation within the clamp, as R94 writes it. -/
theorem gainOf_eq {a : Nat} (h : a ≤ 127) :
    gainOf a = if a = 127 then 0
      else [32768, 30935, 29205, 27571, 26029, 24573, 23198, 21900, 20675, 19519, 18427, 17396].getD (a % 12) 0
        / 2 ^ (a / 12) := by
  have hiff : 127 ≤ a ↔ a = 127 := by omega
  simp only [gainOf, hiff, gainTable, Nat.shiftRight_eq_div_pow]

/-- The levels of a voice on the buses it feeds (R93, R94, R96). -/
theorem mixFor_levels {s : State} {v : VoiceId} {q : Cue} (hq : s.cue (s.voice v).cue = some q) (F : Nat) :
    let x := s.voice v
    let A (trim : Nat) : Nat := totalAtt q.level x.offset F (s.mixer.duck.get x.cls) trim
    (x.bus = .prog ∨ x.bus = .both →
        (mixFor s v F).prog = some ⟨A s.tables.trimProg, gainOf (A s.tables.trimProg)⟩)
    ∧ (x.bus = .fold ∨ x.bus = .both →
        (mixFor s v F).fold = some ⟨A s.tables.trimFold, gainOf (A s.tables.trimFold)⟩)
    ∧ (x.bus = .prog → (mixFor s v F).fold = none) ∧ (x.bus = .fold → (mixFor s v F).prog = none) := by
  simp only [mixFor, levelFor, hq, Option.map_some, Option.getD_some]
  cases (s.voice v).bus <;> simp [feedsProg, feedsFold]

/-- Settles O15: the levels are `mixFor` but where the fade-out ends. -/
theorem boundaryFixesEveryGain : Obligations.BoundaryFixesEveryGain := by
  intro s v q hr hp hb hstate hq
  obtain ⟨hvoice, hmix⟩ := controlBoundary_voice s v
  obtain ⟨vs, m, hframe⟩ := controlBoundary_frame s
  have hduck : (controlBoundary s).mixer.duck = (duckAll s).mixer.duck := by rw [hframe]
  have ha := audible_iff.2 hstate
  refine ⟨controlBoundary s, exec_controlFrameBoundary_due hr hp hb, ?_⟩
  dsimp only
  rw [hduck, ← gainOf_eq (Nat.min_le_left ..), ← gainOf_eq (Nat.min_le_left ..)]
  cases hf : (s.voice v).fade with
  | none =>
    have hlevels : (controlBoundary s).mix v = mixFor (duckAll s) v 0 := by
      rw [hmix]
      simp [boundaryMix, show (duckAll s).voice v = s.voice v from rfl, ha, hf]
    refine ⟨fun _ => ?_, fun ⟨f, k, e, _⟩ => ?_⟩
    · rw [hlevels]
      exact mixFor_levels (s := duckAll s) hq 0
    · rw [hvoice, fadedVoice_of_no_fade hf, hf] at e
      cases e
  | some f =>
    rw [hvoice, fadedVoice_of_fade ha hf]
    have hlevels := boundaryMix_of_fade (s := duckAll s) ha hf
    by_cases hover : fadeOver (countedFade f) = true
    · rw [if_pos hover] at hlevels
      obtain ⟨hkind, hcount⟩ := Bool.and_eq_true_iff.1 hover
      refine ⟨fun h => ?_, fun _ => by rw [hmix, hlevels]; exact ⟨rfl, rfl⟩⟩
      have hlt := h _ rfl (eq_of_beq hkind) _ rfl
      have hle : (countedFade f).length ≤ fadeCount f := of_decide_eq_true hcount
      exact absurd hlt (Nat.not_lt.2 hle)
    · rw [if_neg hover] at hlevels
      refine ⟨fun _ => ?_, ?_⟩
      · rw [hmix, hlevels]
        exact mixFor_levels (s := duckAll s) hq _
      · rintro ⟨f', k, e, hkind, hcount, hle⟩
        obtain rfl := Option.some.inj e
        exact absurd (by simp [fadeOver, hkind, hcount, hle]) hover

/-! ### The bus outputs (R95 to R99) -/

theorem clampSample_toInt (x : Int) : (BitVec.ofInt 16 (clampSample x)).toInt = max (-32768) (min 32767 x) := by
  rw [BitVec.toInt_ofInt]
  unfold clampSample
  rw [Int.bmod_eq_of_le] <;> omega

theorem clampSample_ne_iff (x : Int) : (clampSample x != x) = true ↔ x < -32768 ∨ 32767 < x := by
  rw [bne_iff_ne, ne_eq, clampSample]
  omega

theorem counter_bumpIf (s : State) (b : Bool) (c d : Counter) :
    (s.bumpIf b c).counter d = if b = true ∧ d = c then min 65535 (s.counter c + 1) else s.counter d := by
  cases b with
  | false => simp [State.bumpIf]
  | true =>
    by_cases h : d = c
    · subst h
      rw [if_pos ⟨rfl, rfl⟩]
      exact State.counter_bump s d
    · rw [if_neg fun k => h k.2]
      exact State.counter_bump_ne s h

/-- A sample frame's outputs while the station sounds (R95, R97, R99). -/
theorem deliver_of_sounding {s : State} (h : s.sounding = true) :
    deliver s = { s with
      mixer := { s.mixer with
        progOut := BitVec.ofInt 16 (clampSample (progSum s)), foldOut := BitVec.ofInt 16 (clampSample (foldSum s)) }
      counters := ((s.bumpIf (clampSample (progSum s) != progSum s) .clipProg).bumpIf
        (clampSample (foldSum s) != foldSum s) .clipFold).counters
      clock := { s.clock with hadOutput := true } } := by
  rw [deliver, if_pos h]
  dsimp only
  generalize (clampSample (progSum s) != progSum s) = a
  generalize (clampSample (foldSum s) != foldSum s) = b
  cases a <;> cases b <;> rfl

/-- Settles O12: `deliver` writes the clamped sums and bumps the counters of those that the clamp changes. -/
theorem outputIsTheClampedSum : Obligations.OutputIsTheClampedSum := by
  intro s hr ho sum clipped
  have hexec : exec .busSampleOutput s = .next (deliver s) :=
    exec_of_happens (c := .busSampleOutput) hr (by show (!s.clock.hadOutput) = true; rw [ho]; rfl) id
  have hprog : sum VoiceMix.prog = progSum s := by
    refine congrArg List.sum (List.map_congr_left fun v _ => ?_)
    unfold voiceContribution contribution
    cases s.mixer.given.get v <;> cases (s.mix v).prog <;> rfl
  have hfold : sum VoiceMix.fold = foldSum s := by
    refine congrArg List.sum (List.map_congr_left fun v _ => ?_)
    unfold voiceContribution contribution
    cases s.mixer.given.get v <;> cases (s.mix v).fold <;> rfl
  rw [hexec, hprog, hfold]
  refine ⟨fun hs => ⟨deliver s, rfl, ?_⟩, fun hs => ?_⟩
  · have hsound : s.sounding = true := by rcases hs with h | h <;> simp [State.sounding, h]
    have hd := deliver_of_sounding hsound
    have hcounter (c : Counter) : (deliver s).counter c
        = ((s.bumpIf (clampSample (progSum s) != progSum s) .clipProg).bumpIf
            (clampSample (foldSum s) != foldSum s) .clipFold).counter c := by
      rw [hd]
      rfl
    refine ⟨by rw [hd], by rw [hd]; exact clampSample_toInt _, by rw [hd]; exact clampSample_toInt _, ?_⟩
    simp only [hcounter, counter_bumpIf, clampSample_ne_iff, and_true]
    refine ⟨fun h => ?_, fun h => ?_, fun h => ?_, fun h => ?_, fun c h1 h2 => ?_⟩
    · rw [if_neg fun k => (by cases k.2), if_pos h]
    · rw [if_neg fun k => (by cases k.2), if_neg h]
    · rw [if_pos h, if_neg fun k => (by cases k.2)]
    · rw [if_neg h, if_neg fun k => (by cases k.2)]
    · rw [if_neg fun k => h2 k.2, if_neg fun k => h1 k.2]
  · have hsound : s.sounding = false := by rcases hs with h | h <;> simp [State.sounding, h]
    rw [deliver, hsound]
    rfl

/-! ### The prime deadline (R63, R64, R71) -/

theorem offer_counter {b : TxBody} (hb : 2 ≤ b.rank) {c : Counter} (hc : c ≠ .txDropped) (s : State) :
    (offer b s).counter c = s.counter c := by
  have recheck (t : State) : (recheckHoldoff t).counter c = t.counter c := by
    rcases recheckHoldoff_shape t with h | ⟨-, h⟩ <;> rw [h]
    rfl
  have dropped {b : TxBody} (hb : 2 ≤ b.rank) (t : State) : (frameDropped b t).counter c = t.counter c := by
    cases b with
    | claim | release => simp [TxBody.rank] at hb
    | presence | status | hold | fire | stop | segment => rfl
  have bumped (t : State) : (t.bump .txDropped).counter c = t.counter c := State.counter_bump_ne t hc
  unfold offer
  rcases offerWith_cases b s with e | ⟨e, -⟩ | ⟨e, -⟩ | ⟨w, -, hw, -, -, e, -⟩ <;> rw [e]
  · exact recheck _
  · rw [dropped hb, bumped]
  · rw [recheck]
    exact (dropped (by omega) _).trans (bumped (leaveTx w.ident s))

theorem offerPresence_counter {c : Counter} (hc : c ≠ .txDropped) (s : State) :
    (offerPresence s).counter c = s.counter c := by
  rcases offerPresence_cases s with h | h <;> rw [h]
  exact offer_counter (by decide) hc s

/-- The hand-over of the local keys: the Mixer holds them, and a PRESENCE may be offered (R81, R83). -/
theorem handLocalKeys_keeps (s : State) :
    (handLocalKeys s).voices = s.voices ∧ (handLocalKeys s).mixer = { s.mixer with localKeys := s.assertedKeys }
      ∧ (handLocalKeys s).beatRef = s.beatRef ∧ (handLocalKeys s).fetch = s.fetch ∧ (handLocalKeys s).starts = s.starts
      ∧ (handLocalKeys s).preload = s.preload ∧ (handLocalKeys s).groups = s.groups ∧ (handLocalKeys s).clock = s.clock
      ∧ (handLocalKeys s).tables = s.tables
      ∧ ∀ c, c ≠ .txDropped → (handLocalKeys s).counter c = s.counter c := by
  unfold handLocalKeys
  dsimp only
  split
  · rename_i h
    refine ⟨rfl, ?_, rfl, rfl, rfl, rfl, rfl, rfl, rfl, fun _ _ => rfl⟩
    rw [h]
  · simp only [offerPresence_voices, offerPresence_mixer, offerPresence_beatRef, offerPresence_fetch, offerPresence_starts,
      offerPresence_preload, offerPresence_groups, offerPresence_clock, offerPresence_tables, true_and]
    exact fun c hc => offerPresence_counter hc _

/-- The asserted keys are fixed by which voices sound, and their classes. -/
theorem assertedKeys_congr {s t : State} (h : ∀ v, (t.voice v).audible = (s.voice v).audible ∧ (t.voice v).cls = (s.voice v).cls)
    (tables : t.tables = s.tables) : t.assertedKeys = s.assertedKeys := by
  have hcls : t.cls = s.cls := by funext c; simp [State.cls, tables]
  simp only [State.assertedKeys, fun v => (h v).1, fun v => (h v).2, hcls]

/-- A voice enters PLAYING with its cue present (R64). -/
theorem enterPlaying_of_cue {v : VoiceId} {s : State} {q : Cue} (hq : s.cue (s.voice v).cue = some q) :
    ∃ m : VoiceMix, m.fade = fadeAtt (entryFade q) 0 ∧ enterPlaying v s
      = handLocalKeys { ((s.setVoice v { s.voice v with
          state := .playing, deadline := none, playTime := s.now, fade := some (entryFade q) }).setMix v m) with
            beatRef := if q.beat.isSome then some v else s.beatRef } := by
  refine ⟨mixFor (s.setVoice v { s.voice v with
    state := .playing, deadline := none, playTime := s.now, fade := some (entryFade q) }) v (fadeAtt (entryFade q) 0), rfl, ?_⟩
  simp only [enterPlaying, hq]
  split <;> rfl

theorem fadeAtt_entry (q : Cue) : fadeAtt (entryFade q) 0 = if q.fadeIn = 0 then 0 else 127 := by
  show 127 * (q.fadeIn - 0) / q.fadeIn = _
  split
  · rename_i h; simp [h]
  · rename_i h; exact Nat.mul_div_cancel _ (Nat.pos_of_ne_zero h)

/-- Settles O16. -/
theorem primeDeadlineBeginsPlaying : Obligations.PrimeDeadlineBeginsPlaying := by
  intro v s d q hr hstate hd hreached hq
  have hexec : exec (.primeDeadline v) s = .next (missSample v (enterPlaying v s)) := by
    refine exec_of_happens (c := .primeDeadline v) hr ?_ id
    show primeDue s v = true
    simp [primeDue, hstate, hd, expired, hreached]
  obtain ⟨m, hm, henter⟩ := enterPlaying_of_cue hq
  obtain ⟨k1, k2, k3, k4, k5, k6, k7, k8, k9, k10⟩ := handLocalKeys_keeps
    { ((s.setVoice v { s.voice v with
          state := .playing, deadline := none, playTime := s.now, fade := some (entryFade q) }).setMix v m) with
            beatRef := if q.beat.isSome then some v else s.beatRef }
  rw [← henter] at k1 k2 k3 k4 k5 k6 k7 k8 k9 k10
  generalize enterPlaying v s = t at *
  have htv : t.voice v = { s.voice v with
      state := .playing, deadline := none, playTime := s.now, fade := some (entryFade q) } := by
    rw [State.voice, k1]
    exact State.voice_setVoice s v _
  have hmiss : missSample v t = ((t.setVoice v
      { t.voice v with debt := min Config.debtMax ((t.voice v).debt + 1), underrun := true }).setGiven v
        (some 0)).bumpIf (!(t.voice v).underrun) .underrun := rfl
  have hvoices : (missSample v t).voices = (t.setVoice v
      { t.voice v with debt := min Config.debtMax ((t.voice v).debt + 1), underrun := true }).voices := by
    rw [hmiss]; cases (!(t.voice v).underrun) <;> rfl
  have hmixer : (missSample v t).mixer = { t.mixer with given := upd t.mixer.given v (some 0) } := by
    rw [hmiss]; cases (!(t.voice v).underrun) <;> rfl
  have hrest : (missSample v t).beatRef = t.beatRef ∧ (missSample v t).fetch = t.fetch
      ∧ (missSample v t).starts = t.starts ∧ (missSample v t).preload = t.preload ∧ (missSample v t).groups = t.groups
      ∧ (missSample v t).clock = t.clock ∧ (missSample v t).tables = t.tables := by
    rw [hmiss]; cases (!(t.voice v).underrun) <;> exact ⟨rfl, rfl, rfl, rfl, rfl, rfl, rfl⟩
  obtain ⟨r1, r2, r3, r4, r5, r6, r7⟩ := hrest
  have hvoice (u : VoiceId) : (missSample v t).voice u = if u = v then
      { s.voice v with
        state := .playing, deadline := none, playTime := s.now, fade := some ⟨.fadeIn, 0, q.fadeIn, none⟩
        debt := min 65535 ((s.voice v).debt + 1), underrun := true } else s.voice u := by
    rw [State.voice, hvoices]
    split
    · rename_i hu
      subst hu
      refine (State.voice_setVoice t u _).trans ?_
      rw [htv]
      rfl
    · rename_i hu
      refine (State.voice_setVoice_ne t _ hu).trans ?_
      rw [State.voice, k1]
      exact State.voice_setVoice_ne s _ hu
  have hmix (u : VoiceId) : (missSample v t).mix u = if u = v then m else s.mix u := by
    rw [State.mix, hmixer, k2]
    by_cases hu : u = v
    · subst hu
      rw [if_pos rfl]
      exact State.mix_setMix (s.setVoice u _) u m
    · rw [if_neg hu]
      exact State.mix_setMix_ne (s.setVoice v _) m hu
  refine ⟨missSample v t, 0, hexec, by rw [hvoice, if_pos rfl], ?_, ?_, fun u hu => ?_, ?_, ?_, ?_, ?_⟩
  · rw [hmixer, k2]; rfl
  · have hcount : t.counter .underrun = s.counter .underrun := k10 .underrun (by decide)
    rw [hmiss, counter_bumpIf]
    show (if _ then min 65535 (t.counter .underrun + 1) else t.counter .underrun) = _
    rw [hcount, htv]
    cases (s.voice v).underrun <;> rfl
  · rw [hvoice, hmix, if_neg hu, if_neg hu]
    exact ⟨rfl, rfl⟩
  · rw [hmix, if_pos rfl, hm, fadeAtt_entry]
  · rw [r1, k3]
  · have hkeys (x y : State) (hy : ∀ u, (y.voice u).audible = (x.voice u).audible ∧ (y.voice u).cls = (x.voice u).cls)
        (ht : y.tables = x.tables) (hx : x.mixer.localKeys = x.assertedKeys) : x.mixer.localKeys = y.assertedKeys := by
      rw [hx, assertedKeys_congr hy ht]
    rw [hmixer]
    refine hkeys t _ (fun u => ?_) r7 ?_
    · rw [State.voice, hvoices]
      refine State.voice_setVoice_of (P := fun y => y.audible = (t.voice u).audible ∧ y.cls = (t.voice u).cls) (fun e => ?_)
        fun _ => ⟨rfl, rfl⟩
      rw [e]
      exact ⟨rfl, rfl⟩
    · rw [k2]
      exact (assertedKeys_congr (fun u => by rw [State.voice_eq _ t k1]; exact ⟨rfl, rfl⟩) k9).symm
  · rw [r2, r3, r4, r5, r6, k4, k5, k6, k7, k8, hmixer, k2]
    exact ⟨rfl, rfl, rfl, rfl, rfl, rfl, rfl⟩

end Sys2Proof.Machine
end

