-- ==== Sys2Proof/Proofs/LineActs.lean ====
section
/-! PROOFS. What the station does on the line and what its own frames bring about: holdoffs, collisions, completions, the
actions of the triggers, and the answer timer (R103 to R107, R115 to R120, R128, R163). -/

namespace Sys2Proof.Machine

/-! ### Holdoffs (R116) -/

theorem draw_eq (w : BitVec 16) : draw w = w.toNat % 16 := by
  simp [draw]

theorem beginHoldoff_of_candidate {s : State} {e : TxEntry} (h : s.candidate = some e) (ref : Nat) :
    beginHoldoff ref s = { s with
      line := { s.line with activity := .holdoff e.ident (ref + e.body.rank * 16 + s.line.shift.toNat % 16) } } := by
  simp only [beginHoldoff, h, draw_eq]
  rfl

theorem beginHoldoff_of_none {s : State} (h : s.candidate = none) (ref : Nat) : beginHoldoff ref s = s := by
  simp [beginHoldoff, h]

/-- The state at the end of the interframe gap, before the holdoff. -/
def gapState (s : State) : State := { s with line := { s.line with phase := .idle, slot := 0, slotAge := 0 } }

theorem gapComplete_eq (s : State) : gapComplete s = beginHoldoff 0 (gapState s) := rfl

/-- Settles O28: both commands begin a holdoff for the candidate, whose place the line's phase and slot do not change. -/
theorem holdoffBeginsAtTheReferenceSlot : Obligations.HoldoffBeginsAtTheReferenceSlot := by
  intro s hr
  dsimp only
  refine ⟨fun n hphase hdrive hrest hn => ?_, fun e hphase hage hact hc => ?_⟩
  · have hexec : exec .interframeGapComplete s = .next (gapComplete s) := by
      refine exec_of_happens (c := .interframeGapComplete) hr ?_ id
      show gapDue s = true
      simp [gapDue, hphase, hdrive, hrest, Config.gapBits, hn]
    rw [hexec, gapComplete_eq]
    refine ⟨fun hc => congrArg _ (beginHoldoff_of_none (s := gapState s) hc 0), fun e hc => ?_⟩
    rw [beginHoldoff_of_candidate (s := gapState s) hc 0, Nat.zero_add]
    rfl
  · have hexec : exec .referenceSlot s = .next (beginHoldoff s.line.slot s) := by
      refine exec_of_happens (c := .referenceSlot) hr ?_ id
      show referenceDue s = true
      simp [referenceDue, hphase, hage, hact, hc]
    rw [hexec, beginHoldoff_of_candidate hc]

/-! ### Collisions (R119, R120) -/

/-- The state in the jam, the collision counted. -/
def jammed (s : State) : State :=
  ({ s with line := { s.line with activity := .jamming, phase := .busy, driveLeft := Config.jamBits } }).bump .txCollision

theorem collide_of_findTx {n : Nat} {e : TxEntry} {s : State} (h : findTx n s = some e) :
    collide n s = if e.removal then leaveTx n (jammed s)
      else if e.attempts < Config.lastAttempt then countAttempt n (jammed s)
      else frameDropped e.body ((leaveTx n (jammed s)).bump .txDropped) := by
  have hf : findTx n (jammed s) = some e := h
  show afterCollision n (jammed s) = _
  simp only [afterCollision, hf]

/-- Settles O34: a collision is the jam and its count, and then one of the three cases of R119 and R120. -/
theorem collisionJamsAndRetriesOrDrops : Obligations.CollisionJamsAndRetriesOrDrops := by
  intro n f e s hr hact hfind
  dsimp only
  have hexec : exec .collision s = .next (collide n s) := by
    have hsent : sentFrame s = some (n, f) := by simp [sentFrame, hact]
    refine (exec_of_happens (c := .collision) hr (by show (sentFrame s).isSome = true; rw [hsent]; rfl) id).trans ?_
    show Host.Outcome.next (takeCollision s) = _
    simp only [takeCollision, hsent]
  rw [hexec, collide_of_findTx hfind]
  refine ⟨fun hrem => ?_, fun hrem hlt => ?_, fun hrem hge => ?_⟩
  · rw [if_pos hrem]; rfl
  · rw [if_neg (by simp [hrem]), if_pos (show e.attempts < Config.lastAttempt from hlt)]; rfl
  · rw [if_neg (by simp [hrem]), if_neg (show ¬ e.attempts < Config.lastAttempt from Nat.not_lt.2 hge)]
    cases e.body <;> rfl

/-! ### The triggers' actions (R103 to R107) -/

section
variable {i : InputId} {b : Binding} {e : Time} {s : State}

theorem exec_filterExpiry (hr : s.inReset = false) (hb : s.tables.triggers.get i = some b)
    (he : s.triggers.timers.get i = some e) (hreached : reached s.now e = true) :
    exec (.triggerFilterExpiry i) s = .next (filterExpiry i b s) := by
  have hbind : s.binding i = some b := hb
  refine (exec_of_happens (c := .triggerFilterExpiry i) hr ?_ id).trans ?_
  · show filterDue s i = true
    simp [filterDue, hbind, expired, he, hreached]
  · show Host.Outcome.next (takeFilter i s) = _
    simp only [takeFilter, hbind]

/-- The state once a level is recognized (R103). -/
def recognizedState (i : InputId) (s : State) : State := { s with
  triggers := { s.triggers with
    timers := upd s.triggers.timers i none
    recognized := upd s.triggers.recognized i (s.triggers.raw.get i) } }

theorem filterExpiry_of_same (h : s.triggers.recognized.get i = s.triggers.raw.get i) :
    filterExpiry i b s = { s with triggers := { s.triggers with timers := upd s.triggers.timers i none } } := by
  simp [filterExpiry, h]

theorem filterExpiry_of_change (h : s.triggers.recognized.get i ≠ s.triggers.raw.get i) :
    filterExpiry i b s = match actionOf b (s.triggers.raw.get i) with
      | some a => perform i a (recognizedState i s)
      | none => recognizedState i s := by
  simp only [filterExpiry, if_neg h.symm]
  rfl

end

theorem lineAction_of_unavailable {s : State} (h : s.station = .listening ∨ s.number = 0) (a : State → State) :
    lineAction s a = s.bump .early := by
  rcases h with h | h <;> simp [lineAction, lineUnavailable, State.silent, h]

theorem lineAction_of_available {s : State} (h1 : s.station ≠ .listening) (h2 : s.number ≠ 0) (a : State → State) :
    lineAction s a = a s := by
  simp [lineAction, lineUnavailable, State.silent, h1, h2]

/-- Settles O25: a recognized level's action is performed by its owner, or refused with EARLY where it needs the line. -/
theorem filterExpiryRecognizesAndActs : Obligations.FilterExpiryRecognizesAndActs := by
  intro i b e s hr hb he hreached
  dsimp only
  rw [exec_filterExpiry hr hb he hreached]
  refine ⟨fun h => congrArg _ (filterExpiry_of_same h), fun h => ?_⟩
  rw [filterExpiry_of_change h, actionOf]
  refine ⟨fun ha => by rw [ha]; rfl, fun c ha => by rw [ha]; rfl, fun sel m ha => by rw [ha]; rfl, fun a f ha hf => ?_⟩
  rw [ha]
  have hline : perform i a (recognizedState i s) = lineAction (recognizedState i s) (offer f) := by
    cases a with
    | play | stopLocal | claim => cases hf
    | send c o => cases hf; rfl
    | stopLine sel m => cases hf; rfl
    | segment n m x => cases hf; rfl
    | release g v => cases hf; rfl
  refine ⟨fun hu => ?_, fun h1 h2 => ?_⟩
  · show Host.Outcome.next (perform i a (recognizedState i s)) = _
    rw [hline, lineAction_of_unavailable (s := recognizedState i s) hu]
    rfl
  · show Host.Outcome.next (perform i a (recognizedState i s)) = _
    rw [hline, lineAction_of_available (s := recognizedState i s) h1 h2]
    rfl

/-- Settles O26: the checks of R107 in their order, and then the state of the view. -/
theorem claimPressIsCheckedInOrder : Obligations.ClaimPressIsCheckedInOrder := by
  intro i b e g level s hr hb he hreached hraw hrec haction
  subst hraw
  dsimp only
  rw [exec_filterExpiry hr hb he hreached, filterExpiry_of_change hrec, actionOf, haction]
  refine congrArg _ ?_
  show claimAction i g (recognizedState i s) = _
  have henabled : claimEnabled (recognizedState i s) i g = true ↔ (s.tables.groups.get g).enabled = true
      ∧ ((s.tables.groups.get g).claimTrigger = none ∨ (s.tables.groups.get g).claimTrigger = some i) := by
    change ((s.tables.groups.get g).enabled && (s.tables.groups.get g).claimTrigger.all (· == i)) = true ↔ _
    cases (s.tables.groups.get g).claimTrigger <;> simp
  by_cases hline : s.station = .listening ∨ s.number = 0
  · rw [if_pos hline, claimAction, lineAction_of_unavailable (s := recognizedState i s) hline]
    rfl
  obtain ⟨h1, h2⟩ := not_or.1 hline
  rw [if_neg hline, claimAction, lineAction_of_available (s := recognizedState i s) h1 h2]
  by_cases hen : claimEnabled (recognizedState i s) i g = true
  · rw [if_neg (not_not.2 (henabled.1 hen)), hen]
    show (if s.peers.duplicate = true then (recognizedState i s).bump .early else localClaim g (recognizedState i s)) = _
    split
    · rfl
    · show (if inSet s.number (s.view g).excl = true then _ else _) = _
      split
      · rfl
      · show (match (s.view g).state with | .heldOther => _ | .claiming | .heldMe => _ | .free => _) = _
        cases (s.view g).state <;> rfl
  · rw [if_pos fun k => hen (henabled.2 k), Bool.eq_false_iff.2 hen]
    rfl

/-! ### The completion of own frames (R118, R128) -/

/-- The state once an own frame has left the queue and the line is released. -/
def sentState (n : Nat) (s : State) : State := releaseLine (leaveTx n s)

theorem exec_transmitComplete {n : Nat} {f : Frame} {e : TxEntry} {s : State} (hr : s.inReset = false)
    (hact : s.line.activity = .sending n f) (hleft : s.line.driveLeft = 0)
    (hfind : s.line.queue.find? (fun x => x.ident == n) = some e) :
    exec .transmitComplete s = .next (ownCompletion e.body f.payload (sentState n s)) := by
  have hsent : sentFrame s = some (n, f) := by simp [sentFrame, hact]
  have hf : findTx n s = some e := hfind
  refine (exec_of_happens (c := .transmitComplete) hr ?_ id).trans ?_
  · show transmitDue s = true
    simp [transmitDue, hsent, hleft]
  · show Host.Outcome.next (takeTransmit s) = _
    simp only [takeTransmit, hsent, completeAttempt, hf]
    rfl

/-- A view changes over the offer of a RELEASE only where it is of the same group. -/
theorem offerRelease_view {g k : GroupId} (hk : k ≠ g) (n e : Byte) (v : Verdict) (s : State) :
    (offer (.release g n e v) s).view k = s.view k := by
  have recheck (t : State) : (recheckHoldoff t).view k = t.view k := by
    rcases recheckHoldoff_shape t with h | ⟨-, h⟩ <;> rw [h]
    rfl
  unfold offer
  rcases offerWith_cases (.release g n e v) s with h | ⟨h, -⟩ | ⟨h, -⟩ | ⟨w, -, hw, -, -, h, -⟩ <;> rw [h]
  · rw [recheck]; rfl
  · show State.view (if (s.view g).state = .heldMe ∧ (s.view g).timer = .expired then _ else _) k = _
    split
    · exact State.view_setView_ne _ _ hk
    · rfl
  · rw [recheck]
    refine State.view_eq s _ ?_ k
    exact frameDropped_groups (Nat.succ_le_of_lt hw) _

/-- A RELEASE is refused only where one of its group is queued (R122). -/
theorem offerTimeout_of_unqueued {g : GroupId} {s : State} (h : s.releaseQueued g = false) :
    offerTimeout g s = offer (.release g s.groups.showNo (s.view g).epoch .timeout)
      (s.setView g { s.view g with timeoutQueued := true }) := by
  have hview : ((s.setView g { s.view g with timeoutQueued := true }).view g).epoch = (s.view g).epoch := by
    rw [State.view_setView]
  have hlimit : offerLimit (s.setView g { s.view g with timeoutQueued := true }).line.queue
      (.release g s.groups.showNo (s.view g).epoch .timeout) = none := if_neg (by
    have hq : (s.line.queue.any fun e => e.body.releases g) = false := h
    simp [hq])
  have hresult : (offerWith (.release g s.groups.showNo (s.view g).epoch .timeout)
      (s.setView g { s.view g with timeoutQueued := true })).2 ≠ .refused := by
    unfold offerWith
    split
    · nofun
    · rw [hlimit]
      dsimp only
      split
      · simp
      · split
        · simp
        · split <;> simp
  unfold offerTimeout
  dsimp only
  rw [hview]
  exact if_neg hresult

/-- Groups whose timeout release is not to be offered again leave the state as it is. -/
theorem foldl_reofferTimeout_of_none {l : List GroupId} {s : State}
    (h : ∀ g ∈ l, (s.view g).state ≠ .heldMe ∨ (s.view g).timer ≠ .expired) : l.foldl reofferTimeout s = s := by
  induction l with
  | nil => rfl
  | cons g l ih =>
    have hg : reofferTimeout s g = s := if_neg fun k => (h g (List.mem_cons_self ..)).elim (· k.1) (· k.2.1)
    rw [List.foldl_cons, hg]
    exact ih fun k hk => h k (List.mem_cons_of_mem _ hk)

/-- Where one group alone is to have its timeout release offered again, that is all that happens. -/
theorem foldl_reofferTimeout_of_one {l : List GroupId} (hl : l.Nodup) {g : GroupId} (hg : g ∈ l) {s : State}
    (hview : (s.view g).state = .heldMe ∧ (s.view g).timer = .expired) (hq : s.releaseQueued g = false)
    (h : ∀ k, k ≠ g → (s.view k).state ≠ .heldMe ∨ (s.view k).timer ≠ .expired) :
    l.foldl reofferTimeout s = offer (.release g s.groups.showNo (s.view g).epoch .timeout)
      (s.setView g { s.view g with timeoutQueued := true }) := by
  induction l with
  | nil => cases hg
  | cons k l ih =>
    obtain ⟨hnot, hl⟩ := List.nodup_cons.1 hl
    rw [List.foldl_cons]
    by_cases hk : k = g
    · subst hk
      rw [reofferTimeout, if_pos ⟨hview.1, hview.2, by simp [hq]⟩, offerTimeout_of_unqueued hq]
      refine foldl_reofferTimeout_of_none fun j hj => ?_
      have hne : j ≠ k := fun e => hnot (e ▸ hj)
      rw [offerRelease_view hne, State.view_setView_ne _ _ hne]
      exact h j hne
    · have hsame : reofferTimeout s k = s := if_neg fun e => (h k hk).elim (· e.1) (· e.2.1)
      rw [hsame]
      exact ih hl ((List.mem_cons.1 hg).resolve_left fun e => hk e.symm)

/-- The completion of a STATUS empties the answer list, and changes nothing else but the counters. -/
theorem statusDone_frame (p : List Byte) (s : State) :
    statusDone p s = { s with answers := none, counters := (statusDone p s).counters } := by
  cases h : s.answers.any (·.clear) <;> simp [statusDone, h, reduceCounters]

/-- Settles O32: the completion of each kind of frame on the state that has let it go. -/
theorem ownFrameActsAtItsCompletion : Obligations.OwnFrameActsAtItsCompletion := by
  intro n f e s hr hact hleft hfind
  dsimp only
  rw [exec_transmitComplete hr hact hleft hfind]
  refine ⟨fun c o hb => ?_, fun sel m hb => ?_, fun k m x hb => ?_, fun g k x hb => ?_, fun hb hnone => ?_,
    fun g hb hstate htimer hq hnone => ?_, fun a hb ha => ?_⟩ <;> rw [hb]
  · rfl
  · rfl
  · rfl
  · rfl
  · exact congrArg _ (foldl_reofferTimeout_of_none (s := startPresenceTimer (sentState n s)) fun g _ => hnone g)
  · exact congrArg _ (foldl_reofferTimeout_of_one (s := startPresenceTimer (sentState n s)) (List.nodup_finRange 16)
      (List.mem_finRange g) ⟨hstate, htimer⟩ hq hnone)
  · refine ⟨_, rfl, statusDone_frame f.payload (sentState n s), fun c => ?_⟩
    · show State.counter (statusDone f.payload (sentState n s)) c = _
      have hans : (sentState n s).answers = some a := ha
      unfold statusDone
      rw [hans]
      cases hclear : a.clear
      · simp [hclear]; rfl
      · simp only [Option.any_some, hclear, if_true]
        show (tabulate 16 _).get c.idx = _
        rw [tabulate_get]
        rfl

/-! ### The answer timer (R163) -/

/-- A station whose full queue holds a RELEASE of group 2 and, behind six FIREs, a STATUS that carries the same identity: group
2 is held, its answer timer has run, and its timeout cue is loaded to a head. -/
def twins : State :=
  let s := Tests.withView { Tests.mine with timer := .running 0 } Tests.live
  { s with
    tables := { Tests.desk with groups := upd Tests.desk.groups 2 { noGroup with timeoutCue := some 7 } }
    preload := { s.preload with heads := upd s.preload.heads 7 (some ⟨0, 50⟩) }
    mixer := { s.mixer with localKeys := 1 }
    line := { s.line with
      queue := ⟨0, .release 2 0 0 .wrong, 0, 0, false⟩ :: List.replicate 6 ⟨1, .fire 0 0, 0, 0, false⟩
        ++ [⟨0, .status, 0, 0, false⟩]
      nextIdent := 2 } }

/-- The timeout cue's key brings a PRESENCE, which evicts the STATUS and with it the RELEASE of its identity; so the timeout
release is not refused. -/
theorem twins_expiry :
    Tests.after (exec (.answerTimerExpiry 2) twins) (fun t => (t.view 2).timeoutQueued) = some true := by
  decide

/-- Refutes O50: the statement does not ask that the queued frames have identities of their own, and where a STATUS shares that
of the RELEASE its eviction takes the RELEASE along, before the timeout release is offered. (A queue that the part itself has
filled never holds two frames of one identity.) -/
theorem not_answerExpiryOffersTheTimeoutRelease : ¬ Obligations.AnswerExpiryOffersTheTimeoutRelease := by
  intro h
  have hexec := (h 2 0 twins rfl (by decide) (by decide) (by decide)).2 (by decide) (by decide) (by decide)
  have hmark := twins_expiry
  rw [hexec] at hmark
  simp [Tests.after] at hmark

end Sys2Proof.Machine
end

