-- ==== Sys2Proof/Proofs/Peers.lean ====
section
/-! PROOFS. Signs of life, the ageing of peers and what it does to the views they hold, and the ways a good frame is handed on
(R125, R127, R166, R172 to R177). -/

namespace Sys2Proof.Machine

/-! ### One view after another -/

/-- A handling of every group in turn that changes the view of its own group alone. -/
theorem foldl_view {f : State → GroupId → State} {φ : View → View} (hself : ∀ s g, (f s g).view g = φ (s.view g))
    (hother : ∀ s g k, k ≠ g → (f s g).view k = s.view k) {l : List GroupId} (hl : l.Nodup) (s : State) (g : GroupId) :
    (l.foldl f s).view g = if g ∈ l then φ (s.view g) else s.view g := by
  induction l generalizing s with
  | nil => rfl
  | cons k l ih =>
    obtain ⟨hk, hl⟩ := List.nodup_cons.1 hl
    rw [List.foldl_cons, ih hl]
    by_cases hg : g = k
    · subst hg
      rw [if_neg hk, if_pos (List.mem_cons_self ..), hself]
    · rw [hother _ _ _ hg]
      simp [hg]

theorem foldl_groupIds_view {f : State → GroupId → State} {φ : View → View} (hself : ∀ s g, (f s g).view g = φ (s.view g))
    (hother : ∀ s g k, k ≠ g → (f s g).view k = s.view k) (s : State) (g : GroupId) :
    (groupIds.foldl f s).view g = φ (s.view g) := by
  rw [foldl_view hself hother (show groupIds.Nodup from List.nodup_finRange 16),
    if_pos (show g ∈ groupIds from List.mem_finRange g)]

/-- Nothing but views, the transmit queue and the holdoff differ. -/
def Frees (s t : State) : Prop :=
  ∃ (views : Vector View 16) (queue : List TxEntry) (activity : Activity),
    t = { s with groups := { s.groups with views := views }, line := { s.line with queue := queue, activity := activity } }

theorem Frees.refl (s : State) : Frees s s := ⟨_, _, _, rfl⟩

theorem Frees.trans {s t u : State} : Frees s t → Frees t u → Frees s u := by
  rintro ⟨_, _, _, rfl⟩ ⟨v, q, a, rfl⟩
  exact ⟨v, q, a, rfl⟩

theorem Frees.foldl {α : Type} {f : State → α → State} (h : ∀ s a, Frees s (f s a)) (l : List α) (s : State) :
    Frees s (l.foldl f s) := by
  induction l generalizing s with
  | nil => exact .refl s
  | cons a l ih => exact (h s a).trans (ih _)

theorem Frees.setView (s : State) (g : GroupId) (w : View) : Frees s (s.setView g w) := ⟨_, _, _, rfl⟩

theorem Frees.removeTx (p : TxBody → Bool) (s : State) : Frees s (removeTx p s) := by
  unfold Machine.removeTx
  rcases recheckHoldoff_shape { s with line := { s.line with queue := _ } } with h | ⟨-, h⟩ <;> rw [h]
  · exact ⟨_, _, _, rfl⟩
  · exact ⟨_, _, _, rfl⟩

/-! ### Marks and releases of a peer's holdings (R166) -/

/-- A view as a mark of station x leaves it. -/
def markedView (x : Station) (b : Bool) (w : View) : View :=
  if w.state = .heldOther ∧ w.holder = some x then { w with stale := b } else w

theorem markStale_view (x : Station) (b : Bool) (s : State) (g : GroupId) :
    (markStale x b s).view g = markedView x b (s.view g) := by
  refine foldl_groupIds_view (φ := markedView x b) (fun s g => ?_) (fun s g k hk => ?_) s g
  · dsimp only
    unfold markedView
    split
    · rw [State.view_setView]
    · rfl
  · dsimp only
    split
    · rw [State.view_setView_ne _ _ hk]
    · rfl

/-- Nothing but views differ. -/
def OnlyViews (s t : State) : Prop := ∃ views : Vector View 16, t = { s with groups := { s.groups with views := views } }

/-- A mark changes nothing but views. -/
theorem markStale_frame (x : Station) (b : Bool) (s : State) : OnlyViews s (markStale x b s) := by
  unfold markStale
  induction groupIds generalizing s with
  | nil => exact ⟨_, rfl⟩
  | cons g l ih =>
    rw [List.foldl_cons]
    obtain ⟨v, h⟩ := ih (if (s.view g).state = .heldOther ∧ (s.view g).holder = some x then
      s.setView g { s.view g with stale := b } else s)
    refine ⟨v, h.trans ?_⟩
    split <;> rfl

theorem OnlyViews.eq {s t : State} (h : OnlyViews s t) : t = { s with groups := { s.groups with views := t.groups.views } } := by
  obtain ⟨v, h⟩ := h
  rw [h]

/-- A view as the release of station x's holdings leaves it. -/
def endedView (x : Station) (w : View) : View :=
  if w.state = .heldOther ∧ w.holder = some x then
    { w with state := .free, holder := none, epoch := w.epoch + 1, stale := false }
  else w

theorem freeHeld_view (x : Station) (s : State) (g : GroupId) : (freeHeld x s).view g = endedView x (s.view g) := by
  refine foldl_groupIds_view (φ := endedView x) (fun s g => ?_) (fun s g k hk => ?_) s g
  · dsimp only
    unfold endedView
    split
    · rename_i h
      rw [(changeView_view g _ s).1]
      simp [tidyView, releasedView, h.1]
    · rfl
  · dsimp only
    split
    · exact (changeView_view g _ s).2 k hk
    · rfl

theorem epoch_ne_succ (e : Byte) : e ≠ e + 1 := by
  bv_omega

/-- A release of another station's holding touches the view and the queue alone. -/
theorem changeView_frees {g : GroupId} {s : State} (h : (s.view g).state = .heldOther) :
    Frees s (changeView g (releasedView (s.view g)) s) := by
  have hlost : ((s.view g).state == .claiming) = false := by rw [h]; rfl
  have hme : ((s.view g).state == .heldMe) = false := by rw [h]; rfl
  unfold changeView tidy
  simp only [State.view_setView, hlost, hme, releasedView, Bool.false_and, State.bumpIf, Bool.false_eq_true, if_false]
  exact ((Frees.setView s g _).trans (.removeTx _ _)).trans (.setView _ g _)

theorem freeHeld_frees (x : Station) (s : State) : Frees s (freeHeld x s) := by
  refine Frees.foldl (fun s g => ?_) groupIds s
  dsimp only
  split
  · rename_i h; exact changeView_frees h.1
  · exact .refl s

theorem handPeerKeys_eq (s : State) : handPeerKeys s = { s with mixer := { s.mixer with peerKeys := s.peerUnion } } := by
  unfold handPeerKeys
  dsimp only
  split
  · rename_i h; rw [h]
  · rfl

/-- The peers' key set is fixed by the peer table and the own number. -/
theorem peerUnion_congr {s t : State} (peers : t.peers.table = s.peers.table) (number : t.number = s.number) :
    t.peerUnion = s.peerUnion := by
  unfold State.peerUnion State.peer
  rw [peers, number]

/-! ### Ageing (R173, R177) -/

theorem peerDue_of_age {s : State} {x : Station} {st : PeerState} {n : Nat} (h0 : x ≠ 0) (hn : x ≠ s.number)
    (hp : (s.peer x).state = st) (hage : n * (48 * s.tables.periodMs) ≤ since s.now (s.peer x).lastHeard) :
    peerDue s x st n = true := by
  have hage : n * (Config.framesPerMs * s.tables.periodMs) ≤ silence s x := hage
  simp [peerDue, h0, hn, hp, hage]

/-- Settles O51. -/
theorem presenceAndPeerTimersExpire : Obligations.PresenceAndPeerTimersExpire := by
  intro s hr
  refine ⟨fun e he hreached => ?_, fun x h0 hn => ?_⟩
  · have hexec : exec .presenceTimerExpiry s = .next (offerPresence { s with peers := { s.peers with presenceTimer := none } }) := by
      refine exec_of_happens (c := .presenceTimerExpiry) hr ?_ id
      show presenceDue s = true
      simp [presenceDue, expired, he, hreached]
    dsimp only
    rw [hexec]
    exact ⟨fun h => congrArg _ (offerPresence_of_up (s := { s with peers := { s.peers with presenceTimer := none } }) h),
      fun h => congrArg _ (offerPresence_of_not_up (s := { s with peers := { s.peers with presenceTimer := none } }) h)⟩
  · dsimp only
    refine ⟨fun hp hage => ?_, fun hp hage => ?_⟩
    · have hexec : exec (.peerStale x) s = .next (turnStale x s) := by
        refine exec_of_happens (c := .peerStale x) hr ?_ id
        show peerDue s x .present 2 = true
        exact peerDue_of_age h0 hn hp (by omega)
      obtain ⟨views, hf⟩ := markStale_frame x true (s.setPeer x { s.peer x with state := .stale })
      change turnStale x s = _ at hf
      refine ⟨turnStale x s, hexec, by rw [hf]; rfl, fun g => ?_⟩
      have hview := markStale_view x true (s.setPeer x { s.peer x with state := .stale }) g
      change (turnStale x s).view g = markedView x true (s.view g) at hview
      rw [hview, markedView]
      exact ⟨fun h => if_pos h, fun h => if_neg h⟩
    · have hexec : exec (.peerGone x) s = .next (turnGone x s) := by
        refine exec_of_happens (c := .peerGone x) hr ?_ id
        show peerDue s x .stale 4 = true
        exact peerDue_of_age h0 hn hp (by omega)
      obtain ⟨views, queue, activity, hf⟩ := freeHeld_frees x
        (handPeerKeys (s.setPeer x { s.peer x with state := .gone, keys := 0 }))
      have hview := freeHeld_view x (handPeerKeys (s.setPeer x { s.peer x with state := .gone, keys := 0 }))
      change ∀ g, (turnGone x s).view g = _ at hview
      change turnGone x s = _ at hf
      rw [handPeerKeys_eq] at hf
      refine ⟨turnGone x s, hexec, ?_, fun y hy => ?_, ?_, fun g => ?_, ?_⟩
      · rw [hf]
        exact State.peer_setPeer s x _
      · rw [hf]
        exact State.peer_setPeer_ne s _ hy
      · rw [hf]
        exact (peerUnion_congr (s := s.setPeer x { s.peer x with state := .gone, keys := 0 }) rfl rfl).symm
      · rw [hview, State.view_eq _ _ (handPeerKeys_groups _), endedView]
        exact ⟨fun h => if_pos h, fun h => if_neg h⟩
      · rw [hf]
        exact ⟨rfl, rfl, rfl⟩

/-! ### A good frame's hand-over (R127, R172, R176) -/

/-- A good frame of the ten kinds, as O36 lists them with their addresses. -/
def IsGoodFrame (i : Instr) (src : Station) (dst : Byte) : Prop :=
  (∃ a b c d, i = .fireReceived src dst a b c d) ∨ (∃ a b c d, i = .stopReceived src dst a b c d)
    ∨ (∃ a b c, i = .segmentReceived src a b c ∧ dst = 0) ∨ (∃ a b c, i = .claimReceived src a b c ∧ dst = 0)
    ∨ (∃ a b c d, i = .holdReceived src a b c d ∧ dst = 0) ∨ (∃ a b c d, i = .releaseReceived src a b c d ∧ dst = 0)
    ∨ (∃ p, i = .presenceReceived src p ∧ dst = 0) ∨ (∃ a, i = .queryReceived src dst a ∧ dst ≠ 0)
    ∨ (∃ p, i = .statusReceived src dst p) ∨ ∃ a, i = .restartReceived src dst a

/-- Every good frame is received on behalf of an owner, and STATUS on behalf of none. -/
theorem exec_of_isGoodFrame {i : Instr} {src : Station} {dst : Byte} (h : IsGoodFrame i src dst) (s : State) :
    ∃ owner : State → State, exec i s = event s (canReceive s src) (receive src dst owner)
      ∧ ((∃ p, i = .statusReceived src dst p) → owner = id) := by
  rcases h with ⟨a, b, c, d, rfl⟩ | ⟨a, b, c, d, rfl⟩ | ⟨a, b, c, rfl, rfl⟩ | ⟨a, b, c, rfl, rfl⟩ | ⟨a, b, c, d, rfl, rfl⟩
    | ⟨a, b, c, d, rfl, rfl⟩ | ⟨p, rfl, rfl⟩ | ⟨a, rfl, hd⟩ | ⟨p, rfl⟩ | ⟨a, rfl⟩
  case inr.inr.inr.inr.inr.inr.inr.inl =>
    refine ⟨takeQuery src (a.getLsbD 0), ?_, fun ⟨p, hp⟩ => by cases hp⟩
    show event s (canReceive s src && dst != 0) _ = _
    rw [show (dst != 0) = true by simpa using hd, Bool.and_true]
  case inr.inr.inr.inr.inr.inr.inr.inr.inl => exact ⟨id, rfl, fun _ => rfl⟩
  all_goals exact ⟨_, rfl, fun ⟨p, hp⟩ => by cases hp⟩

theorem endReception_of_not_driving {x : RxState} {s : State} (h : s.driving = false) :
    endReception x s = { s with
      line := { s.line with phase := .busy, activity := .none, rest := some (s.line.rest.getD 0), rx := x } } := by
  rw [endReception, deferred_of_not_driving h]

/-- A sign of life writes the peer's entry, unmarks its views and hands the peers' keys over (R172, R166, R174). -/
theorem signOfLife_frame (x : Station) (s : State) : ∃ views : Vector View 16,
    signOfLife x s = { s with
      peers := { s.peers with table := upd s.peers.table x { s.peer x with state := .present, lastHeard := s.now } }
      groups := { s.groups with views := views }
      mixer := { s.mixer with peerKeys := (signOfLife x s).peerUnion } } := by
  have hmarked : ∃ views : Vector View 16,
      (if (s.peer x).state = .stale then
        markStale x false (s.setPeer x { s.peer x with state := .present, lastHeard := s.now })
      else s.setPeer x { s.peer x with state := .present, lastHeard := s.now })
        = { s.setPeer x { s.peer x with state := .present, lastHeard := s.now } with
            groups := { s.groups with views := views } } := by
    split
    · exact markStale_frame x false _
    · exact ⟨s.groups.views, rfl⟩
  obtain ⟨views, h⟩ := hmarked
  have heq : signOfLife x s = _ := handPeerKeys_eq _
  rw [h] at heq
  refine ⟨views, ?_⟩
  rw [heq]
  rfl

theorem signOfLife_view (x : Station) (s : State) (g : GroupId) :
    (signOfLife x s).view g =
      if (s.peer x).state = .stale ∧ (s.view g).state = .heldOther ∧ (s.view g).holder = some x then
        { s.view g with stale := false }
      else s.view g := by
  have hkeys : (signOfLife x s).view g = _ := State.view_eq _ _ (handPeerKeys_groups _) g
  rw [hkeys]
  by_cases hp : (s.peer x).state = .stale
  · rw [if_pos hp, markStale_view]
    simp only [hp, true_and]
    rfl
  · rw [if_neg hp]
    simp only [hp, false_and, if_false]
    rfl

/-- Settles O36. -/
theorem goodFramesAreHandedOnByAddress : Obligations.GoodFramesAreHandedOnByAddress := by
  intro i src dst s hr hd h0 hi
  obtain ⟨owner, hexec, hstatus⟩ := exec_of_isGoodFrame hi s
  dsimp only
  rw [hexec]
  have hend := endReception_of_not_driving (x := .frameEnded) hd
  have htaken : s.receiving = true → event s (canReceive s src) (receive src dst owner) =
      .next (handOn src dst owner (endReception .frameEnded s)) := fun hrecv =>
    event_of_happens hr (by simp [canReceive, hd, hrecv, h0]) _
  refine ⟨fun hrecv => ?_, fun hrecv hload => ?_, fun hrecv hload hown => ?_, fun hrecv hload hown hdst => ?_⟩
  · exact event_of_not (by simp [canReceive, hrecv]) _
  · rw [htaken hrecv, hend]
    exact congrArg _ (if_pos hload)
  · rw [htaken hrecv, hend]
    exact congrArg _ ((if_neg hload).trans (if_pos hown))
  · have hsign : handOn src dst owner (endReception .frameEnded s) = signOfLife src (endReception .frameEnded s) := by
      refine (if_neg hload).trans ((if_neg hown).trans ?_)
      rcases hdst with ⟨h0, hn⟩ | hp
      · refine if_neg ?_
        rw [(Handled.signOfLife src (endReception .frameEnded s)).number]
        exact not_or.2 ⟨h0, hn⟩
      · rw [hstatus hp]
        exact ite_self _
    obtain ⟨views, hframe⟩ := signOfLife_frame src (endReception .frameEnded s)
    refine ⟨_, htaken hrecv, ?_, fun g => ?_⟩
    · rw [hsign]
      generalize signOfLife src (endReception .frameEnded s) = t at hframe
      rw [hend] at hframe
      have hk : t.mixer.peerKeys = t.peerUnion := congrArg (fun u : State => u.mixer.peerKeys) hframe
      have hv : t.groups.views = views := congrArg (fun u : State => u.groups.views) hframe
      rw [hv]
      exact hframe
    · rw [hsign]
      exact signOfLife_view src (endReception .frameEnded s) g

end Sys2Proof.Machine
end

