-- ==== Sys2Proof/Proofs/Offers.lean ====
section
/-! PROOFS. What becomes of an offer to the transmit queue (R116, R117, R121 to R123, R128). -/

namespace Sys2Proof.Machine

/-- The activity as the check of a holdoff leaves it, where the queue's first eligible frame is as given (R116). -/
def holdoffKept (first : Option TxEntry) (a : Activity) : Activity :=
  match a with
  | .holdoff n k => if first.map (·.ident) = some n then .holdoff n k else .none
  | a => a

theorem recheckHoldoff_eq (s : State) :
    recheckHoldoff s = { s with line := { s.line with activity := holdoffKept s.candidate s.line.activity } } := by
  unfold recheckHoldoff holdoffKept
  cases h : s.line.activity with
  | holdoff n k =>
    dsimp only
    split
    · rw [← h]
    · rfl
  | none | sending _ _ | jamming => simp only [← h]

theorem candidate_of_transmits {s : State} (hup : s.station ≠ .loading) (hn : s.number ≠ 0) :
    s.candidate = s.line.queue.find? fun e => decide (s.station ≠ .listening) || e.body == .status := by
  unfold State.candidate
  congr 1
  funext e
  cases hs : s.station <;> simp_all [State.eligible, State.silent]

/-- A frame joins a queue in order of rank behind those of its rank, and the holdoff is checked (R116, R121). -/
theorem joinTx_line {b : TxBody} {s : State} (hup : s.station ≠ .loading) (hn : s.number ≠ 0)
    (hsorted : s.line.queue.Pairwise fun x y => x.body.rank ≤ y.body.rank) :
    ∃ l₁ l₂ : List TxEntry, s.line.queue = l₁ ++ l₂
      ∧ (∀ e ∈ l₁, e.body.rank ≤ b.rank) ∧ (∀ e ∈ l₂, b.rank < e.body.rank)
      ∧ recheckHoldoff (joinTx b s) = { s with
          line := { s.line with
            queue := l₁ ++ ⟨s.line.nextIdent, b, s.now, 0, false⟩ :: l₂, nextIdent := s.line.nextIdent + 1
            activity := holdoffKept
              ((l₁ ++ ⟨s.line.nextIdent, b, s.now, 0, false⟩ :: l₂).find? fun e =>
                decide (s.station ≠ .listening) || e.body == .status) s.line.activity } } := by
  obtain ⟨l₁, l₂, hq, hins, h₁, h₂⟩ := insertTx_split ⟨s.line.nextIdent, b, s.now, 0, false⟩ s.line.queue hsorted
  refine ⟨l₁, l₂, hq, h₁, h₂, ?_⟩
  rw [recheckHoldoff_eq, candidate_of_transmits (s := joinTx b s) hup hn, joinTx, hins]

/-- A kind's limit is reached (R122). -/
theorem offerLimit_eq_none_iff (q : List TxEntry) (b : TxBody) : offerLimit q b = none ↔
    match b with
    | .presence => ¬ ∃ e ∈ q, e.body = .presence
    | .status => ¬ ∃ e ∈ q, e.body = .status
    | .hold g _ _ => ¬ ∃ e ∈ q, ∃ n k, e.body = .hold g n k
    | .release g _ _ _ => ¬ ∃ e ∈ q, ∃ n k v, e.body = .release g n k v
    | .fire _ _ | .stop _ _ | .segment _ _ _ | .claim _ _ _ => True := by
  have hholds : ∀ (g : GroupId) (x : TxBody), x.holds g = true ↔ ∃ n k, x = .hold g n k := by
    intro g x
    cases x <;> simp [TxBody.holds]
  have hreleases : ∀ (g : GroupId) (x : TxBody), x.releases g = true ↔ ∃ n k v, x = .release g n k v := by
    intro g x
    cases x <;> simp [TxBody.releases]
  cases b with
  | hold g n k => simp [offerLimit, ← hholds]
  | release g n k v => simp [offerLimit, ← hreleases]
  | presence | status => simp [offerLimit]
  | fire _ _ | stop _ _ | segment _ _ _ | claim _ _ _ => simp [offerLimit]

theorem offer_of_limit {b : TxBody} {s : State} {r : OfferResult} (hup : s.station ≠ .loading) (hn : s.number ≠ 0)
    (hl : offerLimit s.line.queue b = some r) : offer b s = s := by
  simp [offer, offerWith, hup, State.silent, hn, hl]

theorem offer_of_room {b : TxBody} {s : State} (hup : s.station ≠ .loading) (hn : s.number ≠ 0)
    (hl : offerLimit s.line.queue b = none) (hq : s.line.queue.length < 8) : offer b s = recheckHoldoff (joinTx b s) := by
  simp [offer, offerWith, hup, State.silent, hn, hl, hq, Config.txQueueMax]

/-- At a full queue the offer turns on the worst frame that is not in flight (R123). -/
theorem offer_of_full {b : TxBody} {s : State} {w : TxEntry} (hup : s.station ≠ .loading) (hn : s.number ≠ 0)
    (hl : offerLimit s.line.queue b = none) (hq : s.line.queue.length = 8)
    (hw : (s.line.queue.filter fun e => s.inFlight != some e.ident).getLast? = some w) :
    offer b s = if b.rank < w.body.rank then
        recheckHoldoff (joinTx b (frameDropped w.body ((leaveTx w.ident s).bump .txDropped)))
      else frameDropped b (s.bump .txDropped) := by
  have hup' : ¬ (s.station = .loading ∨ s.silent = true) := by simp [hup, State.silent, hn]
  have hfull : ¬ s.line.queue.length < Config.txQueueMax := by rw [hq]; exact Nat.lt_irrefl 8
  simp only [offer, offerWith, if_neg hup', hl, if_neg hfull, hw]
  split <;> rfl

/-- An owner told of a drop does not read the queue (R128). -/
theorem frameDropped_withLine (b : TxBody) (s : State) (l : Line) :
    frameDropped b { s with line := l } = { frameDropped b s with line := l } := by
  cases b with
  | claim g n e =>
    by_cases h : (s.view g).state = .claiming
    · have hs : frameDropped (.claim g n e) s = _ := if_pos h
      rw [hs]
      exact if_pos h
    · have hs : frameDropped (.claim g n e) s = _ := if_neg h
      rw [hs]
      exact if_neg h
  | release g n e v =>
    by_cases h : (s.view g).state = .heldMe ∧ (s.view g).timer = .expired
    · have hs : frameDropped (.release g n e v) s = _ := if_pos h
      rw [hs]
      exact if_pos h
    · have hs : frameDropped (.release g n e v) s = _ := if_neg h
      rw [hs]
      exact if_neg h
  | presence | status | hold | fire | stop | segment => rfl

theorem worst_of_split {q l₁ l₂ : List TxEntry} {w : TxEntry} {x : Option Nat} (hq : q = l₁ ++ w :: l₂) (hw : x ≠ some w.ident)
    (hl₂ : ∀ e ∈ l₂, x = some e.ident) : (q.filter fun e => x != some e.ident).getLast? = some w := by
  have hnone : l₂.filter (fun e => x != some e.ident) = [] := by
    rw [List.filter_eq_nil_iff]
    intro e he
    simp [hl₂ e he]
  rw [hq, List.filter_append, List.filter_cons_of_pos (by simpa using hw), hnone]
  simp

theorem filter_ident_of_split {q l₁ l₂ : List TxEntry} {w : TxEntry} (hq : q = l₁ ++ w :: l₂)
    (hp : q.Pairwise fun x y => x.ident ≠ y.ident) : q.filter (·.ident != w.ident) = l₁ ++ l₂ := by
  rw [hq, List.pairwise_append, List.pairwise_cons] at hp
  obtain ⟨-, ⟨hw, -⟩, h₁⟩ := hp
  have hk₁ : l₁.filter (·.ident != w.ident) = l₁ := by
    rw [List.filter_eq_self]
    intro e he
    simpa using h₁ e he w (List.mem_cons_self ..)
  have hk₂ : l₂.filter (·.ident != w.ident) = l₂ := by
    rw [List.filter_eq_self]
    intro e he
    simpa using (hw e he).symm
  rw [hq, List.filter_append, List.filter_cons_of_neg (by simp), hk₁, hk₂]

/-- Settles O27. -/
theorem offerJoinsMergesEvictsOrIsDropped : Obligations.OfferJoinsMergesEvictsOrIsDropped := by
  refine ⟨fun b s h => ?_, fun b s hup hn hok => ?_⟩
  · rcases h with h | h
    · exact offer_of_loading h b
    · exact offer_of_silent (by simp [State.silent, h]) b
  · intro t q limited joins told
    have hlim : ¬ limited ↔ offerLimit q b = none := by
      rw [offerLimit_eq_none_iff]
      cases b with
      | presence | status | hold | release => exact Iff.rfl
      | fire _ _ | stop _ _ | segment _ _ _ | claim _ _ _ => exact iff_of_true id trivial
    have htold : ∀ f, told f = frameDropped f (s.bump .txDropped) := by
      intro f
      cases f <;> rfl
    refine ⟨fun h => ?_, fun h hlen => ?_, fun h hlen l₁ l₂ w hq hw hl₂ hident => ?_⟩
    · obtain ⟨r, hr⟩ := Option.ne_none_iff_exists'.1 fun h' => hlim.2 h' h
      exact offer_of_limit hup hn hr
    · have ht : t = recheckHoldoff (joinTx b s) := offer_of_room hup hn (hlim.1 h) hlen
      obtain ⟨l₁, l₂, hq, h₁, h₂, hj⟩ := joinTx_line (b := b) hup hn hok.2.1
      rw [hj] at ht
      refine ⟨⟨⟨l₁, l₂, hq, by rw [ht], h₁, h₂⟩, ?_⟩, by rw [ht]⟩
      dsimp only
      rw [ht]
      cases s.line.activity <;> rfl
    · have ht := offer_of_full hup hn (hlim.1 h) hlen (worst_of_split hq hw hl₂)
      refine ⟨fun hrank => ?_, fun hrank => ?_⟩
      · rw [if_pos hrank] at ht
        have hleft : (leaveTx w.ident s).bump .txDropped
            = { s.bump .txDropped with line := { s.line with queue := l₁ ++ l₂ } } := by
          rw [leaveTx, filter_ident_of_split hq hident]
          rfl
        rw [hleft, frameDropped_withLine] at ht
        have hsorted := hok.2.1
        rw [show s.line.queue = _ from hq] at hsorted
        have hdrop := frameDropped_shape w.body (s.bump .txDropped)
        rw [htold]
        generalize frameDropped w.body (s.bump .txDropped) = d at ht hdrop
        have hdup : d.station ≠ .loading := by rw [hdrop]; exact hup
        have hdn : d.number ≠ 0 := by rw [hdrop]; exact hn
        have hdnow : d.now = s.now := by rw [hdrop]; rfl
        have hdst : d.station = s.station := by rw [hdrop]; rfl
        obtain ⟨k₁, k₂, hk, h₁, h₂, hj⟩ := joinTx_line (b := b)
          (s := { d with line := { s.line with queue := l₁ ++ l₂ } }) hdup hdn
          (hsorted.sublist (List.Sublist.append_left (List.sublist_cons_self w l₂) l₁))
        change t = _ at ht
        rw [hj] at ht
        refine ⟨⟨⟨k₁, k₂, hk, ?_, h₁, h₂⟩, ?_⟩, ?_⟩
        · rw [ht, ← hdnow]; rfl
        · dsimp only
          rw [ht, ← hdst]
          cases s.line.activity <;> rfl
        · rw [ht]
      · rw [if_neg (by omega)] at ht
        rw [htold]
        exact ht

end Sys2Proof.Machine
end

