-- ==== Sys2Proof/Proofs/Releases.lean ====
section
/-! PROOFS. A change of a view with its tidying on an idle line, and the releases of a group: received, own and implicit (R151, R152,
R159, R160, R177). -/

namespace Sys2Proof.Machine

/-! ### Tidying on an idle line (R152) -/

/-- The queue without the frames that the change of g's view makes stale. -/
def tidyQueue (g : GroupId) (old new : View) (q : List TxEntry) : List TxEntry := q.filter fun e => !staleFrame g old new e.body

/-- The state with another transmit queue. -/
def State.withTx (s : State) (q : List TxEntry) : State := { s with line := { s.line with queue := q } }

/-- The tidying that follows a change of g's view, but for the offer of a PRESENCE. -/
def tidied (g : GroupId) (old : View) (own : Bool) (s : State) : State :=
  ((s.bumpIf (old.state == .claiming && (s.view g).state != .claiming && !own) .claimLost).setView g
    (tidyView old (s.view g))).withTx (tidyQueue g old (s.view g) s.line.queue)

theorem tidy_of_idle {g : GroupId} {old : View} {own : Bool} {s : State} (hidle : s.line.activity = .none) :
    tidy g old own s =
      if ((old.state == .heldMe) != ((s.view g).state == .heldMe)) = true then offerPresence (tidied g old own s)
      else tidied g old own s := by
  have h : ∀ q b w, ((s.withTx q).bumpIf b .claimLost).setView g w = ((s.bumpIf b .claimLost).setView g w).withTx q := by
    intro q b w
    cases b <;> rfl
  unfold tidy
  simp only [removeTx_of_activity_none hidle]
  rw [tidied, ← h]
  rfl

theorem tidied_frame (g : GroupId) (old : View) (own : Bool) (s : State) :
    (tidied g old own s).voices = s.voices ∧ (tidied g old own s).starts = s.starts ∧ (tidied g old own s).mixer = s.mixer
      ∧ (tidied g old own s).fetch = s.fetch ∧ (tidied g old own s).beatRef = s.beatRef
      ∧ (tidied g old own s).station = s.station ∧ (tidied g old own s).number = s.number
      ∧ (tidied g old own s).groups.showNo = s.groups.showNo := by
  unfold tidied
  rcases State.bumpIf_cases s (old.state == .claiming && (s.view g).state != .claiming && !own) .claimLost with h | h <;> rw [h]
  · exact ⟨rfl, rfl, rfl, rfl, rfl, rfl, rfl, rfl⟩
  · exact ⟨rfl, rfl, rfl, rfl, rfl, rfl, rfl, rfl⟩

theorem tidied_counter (g : GroupId) (old : View) (own : Bool) (s : State) (c : Counter) :
    (tidied g old own s).counter c =
      if (old.state = .claiming ∧ (s.view g).state ≠ .claiming ∧ own = false) ∧ c = .claimLost then
        min 65535 (s.counter .claimLost + 1)
      else s.counter c := by
  have h := counter_bumpIf s (old.state == .claiming && (s.view g).state != .claiming && !own) .claimLost c
  refine (show (tidied g old own s).counter c = _ from h).trans ?_
  simp [and_assoc]

/-- Nothing of the voices, the starts, the mixer and the port hears of the tidying. -/
theorem tidy_frame {g : GroupId} {old : View} {own : Bool} {s : State} (hidle : s.line.activity = .none) :
    (tidy g old own s).voices = s.voices ∧ (tidy g old own s).starts = s.starts ∧ (tidy g old own s).mixer = s.mixer
      ∧ (tidy g old own s).fetch = s.fetch ∧ (tidy g old own s).beatRef = s.beatRef
      ∧ (tidy g old own s).groups.showNo = s.groups.showNo := by
  obtain ⟨voices, starts, mixer, fetch, beat, -, -, showNo⟩ := tidied_frame g old own s
  rw [tidy_of_idle hidle]
  split
  · simp only [offerPresence_voices, offerPresence_starts, offerPresence_mixer, offerPresence_fetch, offerPresence_beatRef,
      offerPresence_groups]
    exact ⟨voices, starts, mixer, fetch, beat, showNo⟩
  · exact ⟨voices, starts, mixer, fetch, beat, showNo⟩

theorem tidy_counter {g : GroupId} {old : View} {own : Bool} {s : State} (hidle : s.line.activity = .none) {c : Counter}
    (hc : c ≠ .txDropped) : (tidy g old own s).counter c = (tidied g old own s).counter c := by
  rw [tidy_of_idle hidle]
  split
  · exact offerPresence_counter hc _
  · rfl

/-- The bodies an offer leaves in the queue: those that were there, and its own. -/
theorem mem_offer_body {b x : TxBody} {s : State} (h : ∃ e ∈ (offer b s).line.queue, e.body = x) :
    x = b ∨ ∃ e ∈ s.line.queue, e.body = x := by
  have hjoin (t : State) (h : ∃ e ∈ (recheckHoldoff (joinTx b t)).line.queue, e.body = x) :
      x = b ∨ ∃ e ∈ t.line.queue, e.body = x := by
    obtain ⟨e, he, rfl⟩ := h
    rw [recheckHoldoff_queue, joinTx] at he
    rcases List.mem_cons.1 ((insertTx_perm _ _).mem_iff.1 he) with rfl | he
    · exact .inl rfl
    · exact .inr ⟨e, he, rfl⟩
  rw [offer] at h
  rcases offerWith_cases b s with e | ⟨e, -⟩ | ⟨e, -⟩ | ⟨w, -, -, -, -, e, -⟩ <;> rw [e] at h
  · exact .inr h
  · exact hjoin s h
  · rw [frameDropped_line] at h
    exact .inr h
  · rcases hjoin _ h with h | ⟨e, he, h⟩
    · exact .inl h
    · rw [frameDropped_line] at he
      exact .inr ⟨e, (List.mem_filter.1 he).1, h⟩

theorem mem_offerPresence_body {x : TxBody} {s : State} (h : ∃ e ∈ (offerPresence s).line.queue, e.body = x) :
    x = .presence ∨ ∃ e ∈ s.line.queue, e.body = x := by
  rcases offerPresence_cases s with e | e <;> rw [e] at h
  · exact .inr h
  · exact mem_offer_body h

/-- No frame that the change of a view makes stale is left in the queue. -/
theorem tidy_queue {g : GroupId} {old : View} {own : Bool} {s : State} (hidle : s.line.activity = .none) {e : TxEntry}
    (he : e ∈ (tidy g old own s).line.queue) :
    e.body = .presence ∨ staleFrame g old (s.view g) e.body = false ∧ ∃ x ∈ s.line.queue, x.body = e.body := by
  have hmem : e.body = .presence ∨ ∃ x ∈ (tidied g old own s).line.queue, x.body = e.body := by
    rw [tidy_of_idle hidle] at he
    split at he
    · exact mem_offerPresence_body ⟨e, he, rfl⟩
    · exact .inr ⟨e, he, rfl⟩
  rcases hmem with h | ⟨x, hx, hxe⟩
  · exact .inl h
  · obtain ⟨hx, hstale⟩ := List.mem_filter.1 hx
    rw [hxe] at hstale
    exact .inr ⟨by simpa using hstale, x, hx, hxe⟩

/-! ### Releases (R159, R160) -/

theorem inSet_addTo (x y : Station) (e : StationSet) : inSet y (addTo x e) = (inSet y e || y == x) := by
  unfold inSet addTo
  rw [BitVec.getLsbD_or, BitVec.getLsbD_shiftLeft]
  congr 1
  rw [Bool.eq_iff_iff]
  simp [Fin.ext_iff]
  omega

/-- What a release leaves of a group's view and elsewhere (R152, R160). -/
structure ReleasedBy (v : Verdict) (g : GroupId) (s t : State) : Prop where
  state : (t.view g).state = .free
  holder : (t.view g).holder = none
  epoch : (t.view g).epoch = (s.view g).epoch + 1
  fresh : (t.view g).stale = false
  timer : (s.view g).state = .heldMe → (t.view g).timer = .stopped ∧ (t.view g).timeoutQueued = false
  clear : v = .clear → (t.view g).excl = 0
  wrong : ∀ x : Station, v = .wrong → (s.groupCfg g).excludeOnWrong = true →
    (s.view g).state = .heldMe ∨ (s.view g).state = .heldOther → (s.view g).holder = some x →
      ∀ y : Station, inSet y (t.view g).excl = (inSet y (s.view g).excl || y == x)
  kept : v ≠ .clear → v ≠ .wrong ∨ (s.groupCfg g).excludeOnWrong = false
    ∨ ¬ ((s.view g).state = .heldMe ∨ (s.view g).state = .heldOther) → (t.view g).excl = (s.view g).excl
  others : ∀ k : GroupId, k ≠ g → t.view k = s.view k
  queue : ∀ e ∈ t.line.queue, (e.body.claims g || e.body.holds g || e.body.releases g) = false
  lost : t.counter .claimLost =
    if (s.view g).state = .claiming then min 65535 (s.counter .claimLost + 1) else s.counter .claimLost
  rest : t.voices = s.voices ∧ t.starts = s.starts ∧ t.mixer = s.mixer ∧ t.groups.showNo = s.groups.showNo

/-- The view as a release with a verdict leaves it, before tidying. -/
def verdictView (v : Verdict) (exclude : Bool) (w : View) : View :=
  { releasedView w with
    excl := verdictSet v exclude (if w.state = .heldMe ∨ w.state = .heldOther then w.holder else none) w.excl }

theorem tidyView_free {old new : View} (h : new.state = .free) :
    tidyView old new = if old.state = .heldMe then { new with stale := false, timer := .stopped, timeoutQueued := false }
      else { new with stale := false } := by
  simp [tidyView, h]

theorem staleFrame_of_epoch {g : GroupId} {old new : View} (h : old.epoch ≠ new.epoch) (b : TxBody) :
    staleFrame g old new b = (b.claims g || b.holds g || b.releases g) := if_pos h

theorem releaseRule_releases (v : Verdict) (g : GroupId) {s : State} (hidle : s.line.activity = .none) :
    ReleasedBy v g s (releaseRule v g s) := by
  have heq : releaseRule v g s =
      tidy g (s.view g) false (s.setView g (verdictView v (s.groupCfg g).excludeOnWrong (s.view g))) := rfl
  have hidle' : (s.setView g (verdictView v (s.groupCfg g).excludeOnWrong (s.view g))).line.activity = .none := hidle
  obtain ⟨hview, others⟩ := changeView_view g (verdictView v (s.groupCfg g).excludeOnWrong (s.view g)) s
  change (releaseRule v g s).view g = _ at hview
  rw [tidyView_free rfl] at hview
  have hshape : ∃ tm tq, (releaseRule v g s).view g =
      { verdictView v (s.groupCfg g).excludeOnWrong (s.view g) with stale := false, timer := tm, timeoutQueued := tq } := by
    rw [hview]
    split
    · exact ⟨_, _, rfl⟩
    · exact ⟨_, _, rfl⟩
  have hexcl : ((releaseRule v g s).view g).excl = (verdictView v (s.groupCfg g).excludeOnWrong (s.view g)).excl := by
    obtain ⟨_, _, h⟩ := hshape
    rw [h]
  obtain ⟨tm, tq, hw⟩ := hshape
  refine ⟨by rw [hw]; rfl, by rw [hw]; rfl, by rw [hw]; rfl, by rw [hw], fun hme => ?_, fun hv => ?_, fun x hv hx hheld hh y => ?_,
    fun hc hk => ?_, others, fun e he => ?_, ?_, ?_⟩
  · rw [hview, if_pos hme]
    exact ⟨rfl, rfl⟩
  · rw [hexcl, hv]
    rfl
  · rw [hexcl, ← inSet_addTo]
    simp [verdictView, verdictSet, hv, hx, hheld, hh]
  · rw [hexcl]
    unfold verdictView verdictSet
    cases v with
    | clear => exact absurd rfl hc
    | none | correct | timeout => rfl
    | wrong =>
      rcases hk with h | h | h
      · exact absurd rfl h
      · rw [h]
        dsimp only
        split <;> rfl
      · rw [if_neg h]
  · rw [heq] at he
    rcases tidy_queue hidle' he with h | ⟨h, -⟩
    · rw [h]; rfl
    · rw [State.view_setView, staleFrame_of_epoch (epoch_ne_succ _)] at h
      exact h
  · rw [heq, tidy_counter hidle' (by decide), tidied_counter, State.view_setView]
    simp [verdictView, releasedView]
    rfl
  · obtain ⟨voices, starts, mixer, -, -, showNo⟩ := tidy_frame (g := g) (old := s.view g) (own := false) hidle'
    rw [heq]
    exact ⟨voices, starts, mixer, showNo⟩

theorem verdictOfCode_eq_wrong (b : Byte) : verdictOfCode b = .wrong ↔ b = 2 := by
  unfold verdictOfCode
  rw [← BitVec.toNat_inj]
  split <;> simp_all

theorem verdictOfCode_eq_clear (b : Byte) : verdictOfCode b = .clear ↔ b = 4 := by
  unfold verdictOfCode
  rw [← BitVec.toNat_inj]
  split <;> simp_all

@[simp] theorem heard_tables (src : Station) (s : State) : (heard src s).tables = s.tables :=
  (Handled.signOfLife src (endReception .frameEnded s)).tables

@[simp] theorem heard_station (src : Station) (s : State) : (heard src s).station = s.station :=
  (Handled.signOfLife src (endReception .frameEnded s)).station

/-- Settles O45. -/
theorem releaseFreesTheView : Obligations.ReleaseFreesTheView := by
  intro src verdict g s hs
  have hidle : (heard src s).line.activity = .none := by
    obtain ⟨-, -, hdrive, -⟩ := hs
    exact heard_activity hdrive
  have hexec : exec (.releaseReceived src s.groups.showNo (BitVec.ofNat 8 g.val) ((heard src s).view g).epoch verdict) s
      = .next (releaseRule (verdictOfCode verdict) g (heard src s)) := by
    show event s (canReceive s src) (receive src 0 _) = _
    rw [event_receive_of_handsOn hs, ← heard_showNo src s, groupFrame_of_equal]
  have r := releaseRule_releases (verdictOfCode verdict) g hidle
  have hcfg : (heard src s).groupCfg g = s.groupCfg g := by rw [State.groupCfg, heard_tables]; rfl
  obtain ⟨state, holder, epoch, fresh, timer, clear, wrong, kept, others, queue, lost, rest⟩ := r
  rw [hcfg] at wrong kept
  refine ⟨_, hexec, state, holder, epoch, fresh, timer, fun h => clear ((verdictOfCode_eq_clear _).2 h),
    fun x h => wrong x ((verdictOfCode_eq_wrong _).2 h), fun hc hk => kept (mt (verdictOfCode_eq_clear _).1 hc)
      (hk.imp_left (mt (verdictOfCode_eq_wrong _).1)), others, queue, lost, rest⟩

/-! ### The show and epoch tests (R150, R151, R188) -/

theorem showRestart_groups (n : Byte) (s : State) : (showRestart n s).groups = ⟨n, Vector.replicate 16 .reset⟩ := by
  unfold showRestart
  dsimp only
  have hm (t : State) := ((Moves.foldl Moves.cutVoice voiceIds t).plays_admits.trans (.finishAny _)).groups
  have hgroups : (finish (voiceIds.foldl cutVoice
      { removeTx TxBody.ofGroups { s with groups := ⟨n, Vector.replicate 16 .reset⟩ } with
        starts := { (removeTx TxBody.ofGroups { s with groups := ⟨n, Vector.replicate 16 .reset⟩ }).starts with
          queue := [], segment := 0, mask := 0xFF } })).groups = ⟨n, Vector.replicate 16 .reset⟩ := by
    rw [hm]
    exact removeTx_groups _ _
  split
  · rw [offerPresence_groups, hgroups]
  · exact hgroups

@[simp] theorem showRestart_view (n : Byte) (s : State) (g : GroupId) : (showRestart n s).view g = .reset := by
  rw [State.view, showRestart_groups]
  exact Vector.getElem_replicate _

theorem behind_iff (a b : Byte) : behind a b = true ↔ 128 ≤ (a - b).toNat := decide_eq_true_iff

theorem ahead_iff (a b : Byte) : ahead a b = true ↔ 1 ≤ (a - b).toNat ∧ (a - b).toNat < 128 := by
  rw [ahead, decide_eq_true_iff]
  omega

theorem not_behind_of_ahead {a b : Byte} (h : ahead a b = true) : ¬ behind a b = true := by
  rw [ahead_iff] at h
  rw [behind_iff]
  omega

theorem showTest_of_ahead {n : Byte} {s : State} (h : ahead n s.groups.showNo = true) : showTest n s = some (showRestart n s) :=
  (if_neg (not_behind_of_ahead h)).trans (if_pos h)

theorem groupFrame_of_behind {n : Byte} {s : State} (h : 128 ≤ (n - s.groups.showNo).toNat) (group epoch : Byte)
    (rule : GroupId → State → State) : groupFrame n group epoch rule s = s.bump .staleFrame := by
  have hnone : showTest n s = none := if_pos ((behind_iff ..).2 h)
  simp only [groupFrame, hnone]

/-- A frame of a newer show is applied after the show restart to it (R150). -/
theorem groupFrame_of_ahead {n : Byte} {s : State} (h1 : 1 ≤ (n - s.groups.showNo).toNat)
    (h2 : (n - s.groups.showNo).toNat < 128) (group epoch : Byte) (rule : GroupId → State → State) :
    groupFrame n group epoch rule s = groupFrame n group epoch rule (showRestart n s) := by
  have hself : showTest n (showRestart n s) = some (showRestart n s) := by
    have := showTest_self (showRestart n s)
    rwa [showRestart_groups] at this
  simp only [groupFrame, hself, showTest_of_ahead ((ahead_iff ..).2 ⟨h1, h2⟩)]

section
variable {s : State} {group epoch : Byte} {g : GroupId} (hg : group.toNat = g.val) (rule : GroupId → State → State)

theorem groupFrame_of_no_group (h : 16 ≤ group.toNat) : groupFrame s.groups.showNo group epoch rule s = s := by
  have : ¬ group.toNat < 16 := by omega
  simp [groupFrame, this]

include hg

theorem groupFrame_eq_of_group : groupFrame s.groups.showNo group epoch rule s =
    if behind epoch (s.view g).epoch then s.bump .staleFrame
    else if ahead epoch (s.view g).epoch then rule g (implicitRelease g epoch none s)
    else rule g s := by
  have hlt : group.toNat < 16 := by rw [hg]; exact g.isLt
  simp only [groupFrame, showTest_self, dif_pos hlt]
  simp only [hg]

theorem groupFrame_of_epoch (h : epoch = (s.view g).epoch) : groupFrame s.groups.showNo group epoch rule s = rule g s := by
  rw [groupFrame_eq_of_group hg, h]
  simp

theorem groupFrame_of_epoch_behind (h : 128 ≤ (epoch - (s.view g).epoch).toNat) :
    groupFrame s.groups.showNo group epoch rule s = s.bump .staleFrame := by
  rw [groupFrame_eq_of_group hg, if_pos ((behind_iff ..).2 h)]

theorem groupFrame_of_epoch_ahead (h1 : 1 ≤ (epoch - (s.view g).epoch).toNat) (h2 : (epoch - (s.view g).epoch).toNat < 128) :
    groupFrame s.groups.showNo group epoch rule s = rule g (implicitRelease g epoch none s) := by
  have ha := (ahead_iff ..).2 ⟨h1, h2⟩
  rw [groupFrame_eq_of_group hg, if_neg (not_behind_of_ahead ha), if_pos ha]

end

/-- The view as an implicit release to an epoch leaves it (R151). -/
def impliedView (epoch : Byte) (w : View) : View :=
  { w with state := .free, holder := none, epoch := epoch, stale := false, timer := .stopped, timeoutQueued := false }

/-- The state an implicit release on an idle line leaves, but for its count and the offer of a PRESENCE (R151, R152). -/
def impliedState (g : GroupId) (epoch : Byte) (s : State) : State :=
  (s.setView g (impliedView epoch (s.view g))).withTx
    (s.line.queue.filter fun e => !(e.body.claims g || e.body.holds g || e.body.releases g))

theorem impliedState_station (g : GroupId) (epoch : Byte) (s : State) : (impliedState g epoch s).station = s.station := rfl

theorem tidyView_implied (e : Byte) (old : View) : tidyView old (impliedView e old) = impliedView e old := by
  unfold tidyView impliedView
  simp

theorem implicitRelease_eq {g : GroupId} {epoch : Byte} {s : State} (hidle : s.line.activity = .none)
    (hepoch : (s.view g).epoch ≠ epoch) : implicitRelease g epoch none s =
      if (s.view g).state = .heldMe then offerPresence (impliedState g epoch s)
      else (impliedState g epoch s).bumpIf ((s.view g).state == .claiming) .claimLost := by
  have heq : implicitRelease g epoch none s = tidy g (s.view g) false (s.setView g (impliedView epoch (s.view g))) := rfl
  have hclaim : (impliedView epoch (s.view g)).state = .free := rfl
  have hqueue : tidyQueue g (s.view g) (impliedView epoch (s.view g)) s.line.queue
      = s.line.queue.filter fun e => !(e.body.claims g || e.body.holds g || e.body.releases g) := by
    unfold tidyQueue
    congr 1
    funext e
    rw [staleFrame_of_epoch (new := impliedView epoch (s.view g)) hepoch]
  have htidied : tidied g (s.view g) false (s.setView g (impliedView epoch (s.view g))) =
      (impliedState g epoch s).bumpIf ((s.view g).state == .claiming) .claimLost := by
    have htwice := State.setView_setView s g (impliedView epoch (s.view g)) (impliedView epoch (s.view g))
    unfold tidied impliedState
    rw [State.view_setView, tidyView_implied, hclaim, State.setView_line, hqueue]
    cases (s.view g).state == .claiming
    · exact congrArg (State.withTx · _) htwice
    · exact congrArg (fun u : State => (u.bump .claimLost).withTx _) htwice
  rw [heq, tidy_of_idle (s := s.setView g _) hidle, htidied, State.view_setView, hclaim]
  by_cases h : (s.view g).state = .heldMe
  · rw [if_pos h, if_pos (by rw [h]; rfl), h]
    rfl
  · rw [if_neg h, if_neg (by simpa using h)]

/-- Settles O46. -/
theorem groupFramesMeetTheShowAndEpochTests : Obligations.GroupFramesMeetTheShowAndEpochTests := by
  intro src n group epoch v age s hs
  have hidle : (heard src s).line.activity = .none := by
    obtain ⟨-, -, hdrive, -⟩ := hs
    exact heard_activity hdrive
  dsimp only
  intro i rule hi
  have hexec : exec i s = .next (groupFrame n group epoch rule (heard src s)) := by
    rcases hi with ⟨rfl, rfl⟩ | ⟨rfl, rfl⟩ | ⟨rfl, rfl⟩
    · exact event_receive_of_handsOn hs _
    · exact event_receive_of_handsOn hs _
    · exact event_receive_of_handsOn hs _
  rw [hexec, ← heard_showNo src s]
  refine ⟨fun h => congrArg _ (groupFrame_of_behind h ..), fun h1 h2 => ?_, fun hn hg => ?_, fun g hn hg => ?_⟩
  · have hshow : (showRestart n (heard src s)).groups.showNo = n := by rw [showRestart_groups]
    have hepoch (g : GroupId) : ((showRestart n (heard src s)).view g).epoch = 0 := by rw [showRestart_view]; rfl
    have hsub (g : GroupId) : epoch - ((showRestart n (heard src s)).view g).epoch = epoch := by rw [hepoch]; simp
    have hnew : ∀ t, groupFrame n group epoch rule (showRestart n (heard src s)) = t →
        groupFrame (showRestart n (heard src s)).groups.showNo group epoch rule (showRestart n (heard src s)) = t := by
      intro t h
      rwa [hshow]
    rw [groupFrame_of_ahead h1 h2]
    refine ⟨rfl, fun hg => ?_, fun g hg => ⟨fun h => ?_, fun h1 h2 => ?_, fun h => ?_⟩⟩
    · have := groupFrame_of_no_group (s := showRestart n (heard src s)) (epoch := epoch) rule hg
      rw [hshow] at this
      rw [this]
    · have := groupFrame_of_epoch (s := showRestart n (heard src s)) hg rule (h.trans (hepoch g).symm)
      rw [hshow] at this
      rw [this]
    · have := groupFrame_of_epoch_ahead (s := showRestart n (heard src s)) hg rule (by rw [hsub]; exact h1) (by rw [hsub]; exact h2)
      rw [hshow] at this
      rw [this]
    · have := groupFrame_of_epoch_behind (s := showRestart n (heard src s)) hg rule (by rw [hsub]; exact h)
      rw [hshow] at this
      rw [this]
  · rw [hn, groupFrame_of_no_group rule hg]
  · rw [hn]
    refine ⟨fun h => by rw [groupFrame_of_epoch hg rule h], fun h => by rw [groupFrame_of_epoch_behind hg rule h], fun h1 h2 => ?_⟩
    have hne : ((heard src s).view g).epoch ≠ epoch := by
      intro h
      rw [h] at h1
      simp at h1
    have himplied := implicitRelease_eq hidle hne
    refine ⟨by rw [groupFrame_of_epoch_ahead hg rule h1 h2], fun h => ?_, fun h => ?_, fun h => ?_⟩
    · rcases h with h | h
      · rw [himplied, h]; rfl
      · rw [himplied, h]; rfl
    · rw [himplied, h]; rfl
    · rw [himplied, if_pos h]
      change offerPresence (impliedState g epoch (heard src s)) =
        if s.station = .listening then impliedState g epoch (heard src s)
        else offer .presence (impliedState g epoch (heard src s))
      obtain ⟨-, hup, -⟩ := hs
      have hst : (impliedState g epoch (heard src s)).station = s.station := by
        rw [impliedState_station, heard_station]
      generalize impliedState g epoch (heard src s) = u at hst ⊢
      split
      · rename_i hl
        exact offerPresence_of_not_up (by rw [hst]; exact .inr hl)
      · rename_i hl
        refine offerPresence_of_up ?_
        rw [hst]
        cases hc : s.station with
        | loading => exact absurd hc hup
        | listening => exact absurd hc hl
        | running => exact .inl rfl
        | unconfigured => exact .inr rfl

end Sys2Proof.Machine
end

