-- ==== Sys2Proof/Proofs/Wins.lean ====
section
/-! PROOFS. The completion of the own CLAIM and of the own RELEASE (R152, R153, R159, R160, R162). -/

namespace Sys2Proof.Machine

/-- Only the counters of the starts, the voices and the port, and that of dropped offers, can move with the voices. -/
theorem Moves.counter {V : State → State → Prop} {s t : State} (m : Moves V s t) {c : Counter} (hs : c.ofSounds = false)
    (hd : c ≠ .txDropped) : t.counter c = s.counter c := by
  refine m.keep (P := fun s t => t.counter c = s.counter c) (fun _ => rfl) (fun _ _ _ h k => k.trans h) (fun s t e _ => ?_)
    (fun s d hc => State.counter_bump_ne s ?_) fun s => offerPresence_counter hd s
  · rw [e]
    rfl
  · rintro rfl
    rw [hs] at hc
    cases hc

theorem Moves.station {V : State → State → Prop} {s t : State} (m : Moves V s t) : t.station = s.station := by
  refine m.keep (P := fun s t => t.station = s.station) (fun _ => rfl) (fun _ _ _ h k => k.trans h) (fun s t e _ => ?_)
    (fun _ _ _ => rfl) fun s => ?_
  · rw [e]
  · rcases offerPresence_cases s with h | h <;> rw [h]
    exact offer_station _ s

/-! ### The PRESENCE that a change of HELD_ME offers (R152, R177) -/

/-- A PRESENCE is queued, or the queue has room for one. -/
def Announces (s : State) : Prop := s.line.queue.length < 8 ∨ ∃ e ∈ s.line.queue, e.body = .presence

/-- With room in the queue, an offer of a PRESENCE leaves one there. -/
theorem offerPresence_announced {s : State} (hup : s.station = .running) (hn : s.number ≠ 0) (h : Announces s) :
    ∃ e ∈ (offerPresence s).line.queue, e.body = .presence := by
  have hload : s.station ≠ .loading := by rw [hup]; decide
  rw [offerPresence_of_up (.inl hup)]
  rcases hl : offerLimit s.line.queue .presence with _ | r
  · rcases h with h | h
    · rw [offer_of_room hload hn hl h, recheckHoldoff_queue, joinTx]
      exact ⟨_, (insertTx_perm _ _).mem_iff.2 (List.mem_cons_self ..), rfl⟩
    · exact absurd h ((offerLimit_eq_none_iff _ _).1 hl)
  · rw [offer_of_limit hload hn hl]
    have hlim := mt (offerLimit_eq_none_iff s.line.queue .presence).2 (by rw [hl]; exact Option.some_ne_none r)
    exact not_not.1 hlim

theorem Announces.offerPresence {s : State} (h : Announces s) (hup : s.station = .running) (hn : s.number ≠ 0) :
    Announces (offerPresence s) := .inr (offerPresence_announced hup hn h)

theorem Announces.of_moves {V : State → State → Prop} {s t : State} (m : Moves V s t) (hup : s.station = .running)
    (hn : s.number ≠ 0) (h : Announces s) : Announces t := by
  induction m with
  | refl s => exact h
  | trans m _ ih ih' => exact ih' (m.station.trans hup) (m.number ▸ hn) (ih hup hn h)
  | update e _ => rw [e]; exact h
  | bump s _ => exact h
  | offerPresence s => exact h.offerPresence hup hn

/-- A tidying drops no PRESENCE. -/
theorem Announces.tidied {g : GroupId} {old : View} {own : Bool} {s : State} (h : Announces s) :
    Announces (tidied g old own s) := by
  rcases h with h | ⟨e, he, hb⟩
  · exact .inl ((List.length_filter_le _ _).trans_lt h)
  · refine .inr ⟨e, List.mem_filter.2 ⟨he, ?_⟩, hb⟩
    rw [hb]
    simp [staleFrame, TxBody.claims, TxBody.holds, TxBody.releases]

/-- A station that comes to hold a group, or ceases to, has a PRESENCE queued. -/
theorem tidy_announces {g : GroupId} {old : View} {own : Bool} {s : State} (hidle : s.line.activity = .none)
    (hup : s.station = .running) (hn : s.number ≠ 0) (h : Announces s)
    (hme : (old.state == .heldMe) ≠ ((s.view g).state == .heldMe)) :
    ∃ e ∈ (tidy g old own s).line.queue, e.body = .presence := by
  obtain ⟨-, -, -, -, -, station, number, -⟩ := tidied_frame g old own s
  rw [tidy_of_idle hidle, if_pos (by simpa using hme)]
  exact offerPresence_announced (station.trans hup) (number ▸ hn) h.tidied

/-- The queue has room once the frame in flight has left it. -/
theorem sentState_announces {n : Nat} {e : TxEntry} {s : State} (hfind : s.line.queue.find? (fun x => x.ident == n) = some e)
    (hlen : s.line.queue.length ≤ 8) : Announces (sentState n s) := by
  have hident : (e.ident == n) = true := by simpa using List.find?_some hfind
  have := List.length_filter_lt_length_iff_exists (p := fun x : TxEntry => x.ident != n).2
    ⟨e, List.mem_of_find?_eq_some hfind, by simpa using hident⟩
  exact .inl (Nat.lt_of_lt_of_le this hlen)

/-- Settles O33. -/
theorem ownClaimAndReleaseActAtCompletion : Obligations.OwnClaimAndReleaseActAtCompletion := by
  intro n f e g s hr hact hleft hfind w done timer won announced
  have hexec := exec_transmitComplete hr hact hleft hfind
  have hdone : done = sentState n s := rfl
  have hann (hlen : s.line.queue.length ≤ 8) : Announces (sentState n s) := sentState_announces hfind hlen
  refine ⟨fun hb hw => ?_, fun v hb => ?_⟩
  · rw [hb] at hexec
    have heq : ownCompletion (.claim g s.groups.showNo w.epoch) f.payload (sentState n s) =
        tidy g w true (groupCue (s.groupCfg g).wonCue won) :=
      (groupFrame_of_equal g ownClaim (sentState n s)).trans (if_pos hw)
    rw [heq] at hexec
    have m := Moves.groupCue (s.groupCfg g).wonCue won
    have hidle : (groupCue (s.groupCfg g).wonCue won).line.activity = .none := m.idle rfl
    have hview : ∀ k, (groupCue (s.groupCfg g).wonCue won).view k = won.view k := State.view_eq _ _ m.groups
    have hown : won.view g = { w with state := .heldMe, holder := some s.number, claimTime := s.now, timer := timer } :=
      State.view_setView ..
    obtain ⟨hself, hothers⟩ := tidy_view g w true (groupCue (s.groupCfg g).wonCue won)
    obtain ⟨voices, starts, mixer, fetch, beat, showNo⟩ := tidy_frame (g := g) (old := w) (own := true) hidle
    rw [hview, hown] at hself
    have hself : (tidy g w true (groupCue (s.groupCfg g).wonCue won)).view g =
        { w with state := .heldMe, holder := some s.number, claimTime := s.now, timer := timer } := by
      rw [hself]
      simp [tidyView]
    have hcount : ∀ c, c ≠ .txDropped → (tidy g w true (groupCue (s.groupCfg g).wonCue won)).counter c =
        (groupCue (s.groupCfg g).wonCue won).counter c := by
      intro c hc
      rw [tidy_counter hidle hc, tidied_counter]
      simp
    refine ⟨_, hexec, by rw [hself], by rw [hself], by rw [hself], by rw [hself], by rw [hself], by rw [hself],
      fun k hk => ?_, ?_, fun x hx => ?_, fun hup hn hlen => ?_, ?_, fun hc => ?_, fun c hc => ?_⟩
    · rw [hothers k hk, hview]
      exact State.view_setView_ne _ _ hk
    · rw [showNo, m.groups]
      rfl
    · rcases tidy_queue hidle hx with h | ⟨h, -⟩
      · rw [h]; rfl
      · rw [hview, hown] at h
        rw [staleFrame, if_neg (by simp)] at h
        simp [hw] at h
        exact h
    · refine tidy_announces hidle (m.station.trans hup) ?_ ?_ ?_
      · rw [m.number]; exact hn
      · exact .of_moves m hup hn (hann hlen)
      · rw [hview, hown, hw]
        show (ViewState.claiming == .heldMe) ≠ (ViewState.heldMe == .heldMe)
        decide
    · rw [hcount _ (by decide), m.counter rfl (by decide)]
      rfl
    · rw [voices, starts, mixer, hc]
      exact ⟨rfl, rfl, rfl⟩
    · rw [hc] at voices starts mixer fetch beat hcount ⊢
      exact ⟨voices, starts, mixer, fetch, beat, hcount .startLost (by decide)⟩
  · rw [hb] at hexec
    have heq : ownCompletion (.release g s.groups.showNo w.epoch v) f.payload (sentState n s) = releaseRule v g (sentState n s) :=
      groupFrame_of_equal g (releaseRule v) (sentState n s)
    rw [heq] at hexec
    obtain ⟨state, holder, epoch, fresh, htimer, clear, wrong, kept, others, queue, lost, voices, starts, mixer, showNo⟩ :=
      releaseRule_releases v g (s := sentState n s) rfl
    refine ⟨_, hexec, state, holder, epoch, fresh, fun hme => ?_, clear, wrong, kept, others, showNo, queue, lost, voices, starts,
      mixer⟩
    obtain ⟨stopped, unqueued⟩ := htimer hme
    refine ⟨stopped, unqueued, fun hup hn hlen => ?_⟩
    have hme : ((sentState n s).view g).state = .heldMe := hme
    refine tidy_announces (s := (sentState n s).setView g _) rfl hup hn (hann hlen) ?_
    rw [State.view_setView, hme]
    show (ViewState.heldMe == .heldMe) ≠ (ViewState.free == .heldMe)
    decide

end Sys2Proof.Machine
end

