-- ==== Sys2Proof/Proofs/Quiet.lean ====
section
/-! PROOFS. Serving and settling: what the queue of starts keeps, where they end, and where they find nothing to do; the refusals of a
request and the expiry of an entry (R39 to R41, R53, R54). -/

namespace Sys2Proof.Machine

/-! ### The port keeps the queue of starts -/

theorem settleDebt_queue (v : VoiceId) (s : State) : (settleDebt v s).starts.queue = s.starts.queue :=
  (Plays.of_moves (.settleDebt v s)).queue

theorem grant_queue (rounds : Nat) (s : State) : (grant rounds s).starts.queue = s.starts.queue := by
  induction rounds generalizing s with
  | zero => rfl
  | succ rounds ih =>
    unfold grant
    split
    · rename_i v _ _
      dsimp only
      split
      · exact (ih _).trans (settleDebt_queue v s)
      · refine Eq.trans ?_ (settleDebt_queue v s)
        unfold issueVoice
        dsimp only
        split <;> rfl
    · split <;> rfl

theorem grantIfIdle_queue (s : State) : (grantIfIdle s).starts.queue = s.starts.queue := by
  unfold grantIfIdle
  split
  · exact grant_queue 9 s
  · rfl

theorem refreshRequest_queue (v : VoiceId) (s : State) : (refreshRequest v s).starts.queue = s.starts.queue := by
  unfold refreshRequest
  split
  · split
    · rfl
    · exact grantIfIdle_queue _
  · rfl

/-- A start taken on a voice leaves the queue as it is (R47). -/
theorem startVoice_queue (v : VoiceId) (c : LocalCue) (offset : Int) (s : State) :
    (startVoice v c offset s).starts.queue = s.starts.queue := by
  unfold startVoice
  split
  · rfl
  · rename_i q _
    dsimp only
    have hfifo : ((State.setVoice { s with starts := { s.starts with stamps := upd s.starts.stamps v s.now } } v
        (startedVoice (s.voice v) c q offset)).voice v).fifo = [] := by rw [State.voice_setVoice]; rfl
    rw [refreshRequest_queue]
    split
    · exact (Plays.of_moves (Moves.startHeadLoaded _ _ hfifo)).queue
    · exact (Plays.of_moves (Moves.startStreaming hfifo)).queue

theorem startEntry_queue (e : Entry) (v : VoiceId) (s : State) :
    (startEntry e v s).starts.queue = s.starts.queue.filter fun a => a.cue != e.cue := startVoice_queue ..

/-! ### Serving (R54) -/

theorem pick_eq_none {α : Type} {better : α → α → Bool} {l : List α} : pick better l = none ↔ l = [] := by
  cases l with
  | nil => exact iff_of_true rfl rfl
  | cons a l =>
    refine iff_of_false (fun h => ?_) (List.cons_ne_nil a l)
    unfold pick at h
    split at h
    · cases h
    · split at h <;> cases h

theorem serve_of_not_free {s : State} (h : s.lowestFree = none) (n : Nat) : serve n s = s := by
  cases n with
  | zero => rfl
  | succ n => simp only [serve, h]

theorem serve_of_none_servable {s : State} (h : s.starts.queue.filter (servable s) = []) (n : Nat) : serve n s = s := by
  cases n with
  | zero => rfl
  | succ n =>
    simp only [serve, h, pick]
    split
    · rename_i he
      cases he
    · rfl

/-- Serving only takes entries out of the queue. -/
theorem serve_queue (n : Nat) (s : State) : (serve n s).starts.queue.Sublist s.starts.queue := by
  induction n generalizing s with
  | zero => exact .refl _
  | succ n ih =>
    unfold serve
    split
    · refine (ih _).trans ?_
      rw [startEntry_queue]
      exact List.filter_sublist
    · exact .refl _

/-- With more rounds than entries, serving ends where no voice is free or no entry can be served. -/
theorem serve_ends {n : Nat} {s : State} (h : s.starts.queue.length < n) :
    (serve n s).lowestFree = none ∨ (serve n s).starts.queue.filter (servable (serve n s)) = [] := by
  induction n generalizing s with
  | zero => omega
  | succ n ih =>
    unfold serve
    split
    · rename_i v e _ he
      refine ih ?_
      have hmem : e ∈ s.starts.queue := List.mem_of_mem_filter (pick_mem he)
      have := List.length_filter_lt_length_iff_exists (p := fun a : Entry => a.cue != e.cue).2 ⟨e, hmem, by simp⟩
      rw [startEntry_queue]
      omega
    · rename_i hnot
      cases hfree : s.lowestFree with
      | none => exact .inl rfl
      | some v =>
        cases hp : pick s.entryBefore (s.starts.queue.filter (servable s)) with
        | none => exact .inr (pick_eq_none.1 hp)
        | some e => exact absurd hp (hnot v e hfree)

/-- Settles O23. -/
theorem servingLeavesNoFreeVoiceBesideAnEntry : Obligations.ServingLeavesNoFreeVoiceBesideAnEntry := by
  intro s hlen
  refine ⟨(serve_ends (by omega)).imp_right fun hnone e he hvoice hres => ?_, fun e he => (serve_queue 17 s).subset he⟩
  have hunserved := List.filter_eq_nil_iff.1 hnone e he
  have htables : (serve 17 s).cls (s.classOf e.cue) = s.cls (s.classOf e.cue) :=
    congrArg (fun t : Tables => t.classes.get _) (Sounds.serve 17 s).tables
  have hclass : (serve 17 s).classOf e.cue = s.classOf e.cue := by
    simp only [State.classOf, State.cue, (Sounds.serve 17 s).tables]
  simp only [servable, hvoice, hres, State.room, hclass, htables] at hunserved
  rw [hclass]
  simpa using hunserved

/-! ### Settling with nothing to do (R54) -/

/-- Between two handlings, with no entry or no free voice, the end of an event does nothing. -/
theorem finish_of_settled {s : State} (h : Settled s) (hq : s.starts.queue = [] ∨ s.lowestFree = none) : finish s = s := by
  have hserve : serve 17 s = s := by
    rcases hq with hq | hq
    · exact serve_of_none_servable (by rw [hq]; rfl) 17
    · exact serve_of_not_free hq 17
  have hreturns : s.returns = [] := h
  simp only [finish, settleRounds, settle, hreturns, hserve]

/-- A return without a follow-on finds nothing to do where no entry waits. -/
theorem takeReturn_of_empty {s : State} {r : Return} (hr : r.followOn = none) (hq : s.starts.queue = []) :
    takeReturn r s = s := by
  have hreserved : startReserved r.voice s = s := by simp [startReserved, State.reservedFor, hq]
  have hbeats : releaseBeats s = s := by simp [releaseBeats, hq, sortBy]
  simp only [takeReturn, hr, hreserved, hbeats, ite_self]
  exact serve_of_none_servable (by rw [hq]; rfl) 17

theorem settle_of_empty {n : Nat} {s : State} (hn : NoFollow s) (hq : s.starts.queue = []) (h : s.returns.length < n) :
    settle n s = { s with returns := [] } := by
  induction n generalizing s with
  | zero => omega
  | succ n ih =>
    unfold settle
    cases hr : s.returns with
    | nil =>
      have hserve : serve 17 s = s := serve_of_none_servable (by rw [hq]; rfl) 17
      simp only [hserve, hr]
      rw [← hr]
    | cons r rest =>
      have hfollow : r.followOn = none := hn r (by rw [hr]; exact List.mem_cons_self ..)
      dsimp only
      rw [takeReturn_of_empty (s := { s with returns := rest }) hfollow hq]
      refine ih (s := { s with returns := rest }) (fun a ha => hn a ?_) hq ?_
      · rw [hr]; exact List.mem_cons_of_mem r ha
      · rw [hr] at h
        exact Nat.lt_of_succ_lt_succ h

/-- Where no entry waits and no follow-on stands, the end of an event only takes the returns off its list. -/
theorem finish_of_empty {s : State} (hn : NoFollow s) (hq : s.starts.queue = []) : finish s = { s with returns := [] } := by
  refine settle_of_empty hn hq ?_
  unfold settleRounds
  omega

/-! ### The station once a good frame is heard (R125, R172) -/

/-- What a good frame's reception and sign of life leave as it was. -/
theorem heard_frame (src : Station) (s : State) : ∃ (line : Line) (peers : Peers) (groups : Groups) (keys : KeySet),
    heard src s = { s with line := line, peers := peers, groups := groups, mixer := { s.mixer with peerKeys := keys } } := by
  obtain ⟨views, h⟩ := signOfLife_frame src (endReception .frameEnded s)
  exact ⟨_, _, _, _, h⟩

section
variable (src : Station) (s : State)

@[simp] theorem heard_starts : (heard src s).starts = s.starts := by obtain ⟨_, _, _, _, h⟩ := heard_frame src s; rw [h]
@[simp] theorem heard_voices : (heard src s).voices = s.voices := by obtain ⟨_, _, _, _, h⟩ := heard_frame src s; rw [h]
@[simp] theorem heard_returns : (heard src s).returns = s.returns := by obtain ⟨_, _, _, _, h⟩ := heard_frame src s; rw [h]
@[simp] theorem heard_beatRef : (heard src s).beatRef = s.beatRef := by obtain ⟨_, _, _, _, h⟩ := heard_frame src s; rw [h]
@[simp] theorem heard_fetch : (heard src s).fetch = s.fetch := by obtain ⟨_, _, _, _, h⟩ := heard_frame src s; rw [h]
@[simp] theorem heard_preload : (heard src s).preload = s.preload := by obtain ⟨_, _, _, _, h⟩ := heard_frame src s; rw [h]
@[simp] theorem heard_counters : (heard src s).counters = s.counters := by obtain ⟨_, _, _, _, h⟩ := heard_frame src s; rw [h]
@[simp] theorem heard_clock : (heard src s).clock = s.clock := by obtain ⟨_, _, _, _, h⟩ := heard_frame src s; rw [h]
@[simp] theorem heard_triggers : (heard src s).triggers = s.triggers := by obtain ⟨_, _, _, _, h⟩ := heard_frame src s; rw [h]
@[simp] theorem heard_mix (v : VoiceId) : (heard src s).mix v = s.mix v := by obtain ⟨_, _, _, _, h⟩ := heard_frame src s; rw [h]; rfl
@[simp] theorem heard_duck : (heard src s).mixer.duck = s.mixer.duck := by obtain ⟨_, _, _, _, h⟩ := heard_frame src s; rw [h]
@[simp] theorem heard_voice (v : VoiceId) : (heard src s).voice v = s.voice v := by rw [State.voice, heard_voices]; rfl
@[simp] theorem heard_cue (c : LocalCue) : (heard src s).cue c = s.cue c := by rw [State.cue, heard_tables]; rfl
@[simp] theorem heard_classOf (c : LocalCue) : (heard src s).classOf c = s.classOf c := by rw [State.classOf, heard_cue]; rfl
@[simp] theorem heard_lowestFree : (heard src s).lowestFree = s.lowestFree := by
  obtain ⟨_, _, _, _, h⟩ := heard_frame src s; rw [h]; rfl

end

theorem Settled.heard {s : State} (h : Settled s) (src : Station) : Settled (heard src s) := (heard_returns src s).trans h

/-! ### Refusals (R9, R40, R41) -/

/-- A FIRE that no window maps makes no request, and one that a window maps makes a request for the cue (R137). -/
theorem fireRequest_of_unmapped {t : Tables} {b0 b1 : Byte} (h : mapLineCue t (fireLineCue b0 b1) = none) (b2 b3 : Byte) :
    fireRequest t b0 b1 b2 b3 = none := by rw [fireRequest, h]; rfl

theorem exec_fireReceived_of_unmapped {src : Station} {dst b0 b1 : Byte} {s : State} (hs : HandsOn s src dst)
    (h : mapLineCue s.tables (fireLineCue b0 b1) = none) (b2 b3 : Byte) :
    exec (.fireReceived src dst b0 b1 b2 b3) s = .next (heard src s) := by
  refine (event_receive_of_handsOn hs _).trans ?_
  simp only [takeFire, heard_tables, fireRequest_of_unmapped h]

theorem exec_fireReceived_of_mapped {src : Station} {dst b0 b1 : Byte} {s : State} {c : LocalCue} (hs : HandsOn s src dst)
    (h : mapLineCue s.tables (fireLineCue b0 b1) = some c) (b2 b3 : Byte) :
    exec (.fireReceived src dst b0 b1 b2 b3) s
      = .next (finish (admitRequest ⟨c, max (-24) (min 24 b2.toInt), b3.getLsbD 0⟩ (heard src s))) := by
  refine (event_receive_of_handsOn hs _).trans ?_
  simp only [takeFire, heard_tables, fireRequest, h, Option.map_some]
  rfl

section
variable {r : Request} {s : State} (hup : s.station ≠ .loading)
include hup

theorem admitRequest_of_invalid (h : s.cue r.cue = none) : admitRequest r s = s.bump .startInvalid := by
  simp [admitRequest, hup, h]

variable {q : Cue} (hq : s.cue r.cue = some q)
include hq

theorem admitRequest_of_masked (h : s.starts.mask.getLsbD q.cls.val = false) : admitRequest r s = s.bump .startMasked := by
  simp only [admitRequest, if_neg hup, hq, h, Bool.not_false, if_true]

theorem admitRequest_of_pending (hm : s.starts.mask.getLsbD q.cls.val = true) (h : ∃ e ∈ s.starts.queue, e.cue = r.cue) :
    admitRequest r s = s.bump .startLost := by
  simp [admitRequest, hup, hq, hm, isPending_iff.2 h]

end

/-- Settles O39. -/
theorem fireIsRefusedWithoutEffect : Obligations.FireIsRefusedWithoutEffect := by
  intro src dst b0 b1 b2 b3 s hs hset hq
  have hup : (heard src s).station ≠ .loading := by
    obtain ⟨-, hup, -⟩ := hs
    rwa [heard_station]
  have hset := hset.heard src
  rw [← heard_starts src s, ← heard_lowestFree src s] at hq
  refine ⟨fun h => exec_fireReceived_of_unmapped hs h b2 b3, fun c hc => ?_⟩
  rw [exec_fireReceived_of_mapped hs hc, ← heard_starts src s, ← heard_cue src s c]
  generalize heard src s = h at *
  have hfinish (c : Counter) : finish (h.bump c) = h.bump c := finish_of_settled (s := h.bump c) hset hq
  refine ⟨fun hcue => ?_, fun q hcue => ⟨fun hm => ?_, fun he hm => ?_⟩⟩
  · rw [admitRequest_of_invalid hup hcue, hfinish]
  · rw [admitRequest_of_masked hup hcue hm, hfinish]
  · rw [admitRequest_of_pending hup hcue hm he, hfinish]

/-! ### Expiry of an entry (R53) -/

theorem entry_unique {l : List Entry} (h : l.Pairwise fun a b => a.cue ≠ b.cue) {e a : Entry} (he : e ∈ l) (ha : a ∈ l)
    (hc : a.cue = e.cue) : a = e := by
  by_contra hne
  have hsymm : Std.Symm fun a b : Entry => a.cue ≠ b.cue := ⟨fun _ _ h => h.symm⟩
  exact h.forall ha he hne hc

/-- The removal of an entry without reservation frees no voice. -/
theorem lowestFree_of_unreserved {s : State} {q : List Entry}
    (hq : ∀ e ∈ s.starts.queue, e.reserved ≠ none → e ∈ q) (h : s.lowestFree = none) :
    (s.setQueue q).lowestFree = none := by
  unfold State.lowestFree at h ⊢
  rw [List.find?_eq_none] at h ⊢
  intro v hv hfree
  refine h v hv ?_
  unfold State.freeVoice State.reservedFor at hfree ⊢
  rw [Bool.and_eq_true] at hfree ⊢
  refine ⟨hfree.1, ?_⟩
  rw [Option.isNone_iff_eq_none, List.find?_eq_none]
  intro e he hres
  have hmem := hq e he (by intro h; rw [h] at hres; cases hres)
  have hnone := Option.isNone_iff_eq_none.1 hfree.2
  exact List.find?_eq_none.1 hnone e hmem hres

/-- Settles O22. -/
theorem pendingExpiryRemovesTheEntry : Obligations.PendingExpiryRemovesTheEntry := by
  intro c e s hr hset hok he hc
  obtain ⟨-, hdistinct⟩ := hok
  have hunique : ∀ a ∈ s.starts.queue, a.cue = c → a = e := fun a ha hac => entry_unique hdistinct he ha (hac.trans hc.symm)
  refine ⟨fun hvoice hres hwait => ⟨?_, fun hfree => ?_⟩, fun hnot => ?_⟩
  · refine exec_of_happens (c := .pendingExpiry c) hr ?_ id
    show entryExpired s c = true
    unfold entryExpired
    rw [List.any_eq_true]
    refine ⟨e, he, ?_⟩
    simp only [hc, hvoice, hres, beq_self_eq_true, Option.isNone_none, Bool.and_self, Bool.true_and]
    exact decide_eq_true hwait
  · refine finish_of_settled (s := State.bump _ _) hset (.inr ?_)
    refine lowestFree_of_unreserved (s := s) (fun a ha hres' => ?_) hfree
    refine List.mem_filter.2 ⟨ha, ?_⟩
    rw [bne_iff_ne]
    intro hac
    rw [hunique a ha hac] at hres'
    exact hres' hres
  · refine exec_of_not (c := .pendingExpiry c) ?_
    show entryExpired s c = false
    unfold entryExpired
    rw [List.any_eq_false]
    intro a ha hexp
    simp only [Bool.and_eq_true, beq_iff_eq, decide_eq_true_eq, Option.isNone_iff_eq_none] at hexp
    obtain ⟨⟨⟨hac, hvoice⟩, hres⟩, hwait⟩ := hexp
    obtain rfl := hunique a ha hac
    rcases hnot with h | h | h
    · rw [hvoice] at h; cases h
    · exact h hres
    · exact absurd h (Nat.not_lt.2 hwait)

end Sys2Proof.Machine
end

