-- ==== Sys2Proof/Proofs/Stops.lean ====
section
/-! PROOFS. Cuts, fades and tail exits of several voices: STOP, SEGMENT, a won cue that is lost, and the show restart (R56 to R59, R69,
R73 to R77, R138, R139, R157, R187, R188). -/

namespace Sys2Proof.Machine

/-! ### One voice returns, is cut, faded or marked (R69, R73 to R77) -/

/-- An operation on voice v leaves the other voices with their levels and samples, and the fields that no voice's end touches. -/
structure Spares (v : VoiceId) (s t : State) : Prop where
  others : ∀ u, u ≠ v → t.voice u = s.voice u ∧ t.mix u = s.mix u ∧ t.mixer.given.get u = s.mixer.given.get u
  starts : t.starts = s.starts
  tables : t.tables = s.tables
  preload : t.preload = s.preload
  clock : t.clock = s.clock
  groups : t.groups = s.groups
  triggers : t.triggers = s.triggers
  duck : t.mixer.duck = s.mixer.duck

theorem Spares.refl (v : VoiceId) (s : State) : Spares v s s := ⟨fun _ _ => ⟨rfl, rfl, rfl⟩, rfl, rfl, rfl, rfl, rfl, rfl, rfl⟩

theorem Spares.setVoice (v : VoiceId) (x : Voice) (s : State) : Spares v s (s.setVoice v x) :=
  ⟨fun _ hu => ⟨State.voice_setVoice_ne s x hu, rfl, rfl⟩, rfl, rfl, rfl, rfl, rfl, rfl, rfl⟩

theorem offerPresence_triggers (s : State) : (offerPresence s).triggers = s.triggers := by
  rcases offerPresence_cases s with h | h <;> rw [h]
  rw [offer_shape]

theorem handLocalKeys_triggers (s : State) : (handLocalKeys s).triggers = s.triggers := by
  unfold handLocalKeys
  dsimp only
  split
  · rfl
  · exact offerPresence_triggers _

/-- The state of a returned voice before the keys are handed over (R77, R79). -/
def silenced (v : VoiceId) (s : State) : State :=
  let t := (((s.setVoice v (idleVoice (s.voice v))).setRequest v none).setMix v .silent).setGiven v none
  if s.beatRef == some v then { t with beatRef := t.latestBed } else t

theorem silenced_eq (v : VoiceId) (s : State) : ∃ r, silenced v s =
    { (((s.setVoice v (idleVoice (s.voice v))).setRequest v none).setMix v .silent).setGiven v none with beatRef := r } := by
  unfold silenced
  dsimp only
  split
  · exact ⟨_, rfl⟩
  · exact ⟨s.beatRef, rfl⟩

theorem returnIdle_eq (v : VoiceId) (natural : Bool) (s : State) : returnIdle v natural s =
    { handLocalKeys (silenced v s) with
      returns := s.returns ++
        [⟨v, s.beatRef == some v, if natural then (s.cue (s.voice v).cue).bind (·.followOn) else none⟩] } := by
  have h : (handLocalKeys (silenced v s)).returns = s.returns := by
    rw [handLocalKeys_returns]
    obtain ⟨r, hr⟩ := silenced_eq v s
    rw [hr]
    rfl
  rw [← h]
  rfl

theorem returnIdle_spares (v : VoiceId) (natural : Bool) (s : State) : Spares v s (returnIdle v natural s) := by
  obtain ⟨voices, mixer, -, -, starts, preload, groups, clock, tables, -⟩ := handLocalKeys_keeps (silenced v s)
  have triggers := handLocalKeys_triggers (silenced v s)
  obtain ⟨r, hr⟩ := silenced_eq v s
  rw [returnIdle_eq]
  generalize silenced v s = w at *
  generalize handLocalKeys w = t at *
  subst hr
  refine ⟨fun u hu => ⟨?_, ?_, ?_⟩, starts, tables, preload, clock, groups, triggers, congrArg (·.duck) mixer⟩
  · exact (State.voice_eq _ t voices u).trans (State.voice_setVoice_ne s _ hu)
  · exact (congrArg (fun m : Mixer => m.mix.get u) mixer).trans (upd_get_ne _ _ hu)
  · exact (congrArg (fun m : Mixer => m.given.get u) mixer).trans (upd_get_ne _ _ hu)

theorem returnIdle_voice (v : VoiceId) (natural : Bool) (s : State) :
    (returnIdle v natural s).voice v = idleVoice (s.voice v) := by
  obtain ⟨voices, -⟩ := handLocalKeys_keeps (silenced v s)
  obtain ⟨r, hr⟩ := silenced_eq v s
  rw [returnIdle_eq]
  generalize silenced v s = w at *
  generalize handLocalKeys w = t at *
  subst hr
  exact (State.voice_eq _ t voices v).trans (State.voice_setVoice s v _)

/-- A voice in FADING from attenuation F, over T control frames (R73 to R75). -/
def fadedFrom (F T : Nat) (x : Voice) : Voice := { x with state := .fading, fade := some ⟨.fadeOut, F, T, none⟩ }

/-- A voice as a cut from attenuation F leaves it (R74). -/
def cutOf (F : Nat) (x : Voice) : Voice :=
  match x.state with
  | .idle => x
  | .priming => idleVoice x
  | .playing | .fading => fadedFrom F 2 x

/-- A voice as a fade of length T from attenuation F leaves it (R75). -/
def fadeOf (F T : Nat) (x : Voice) : Voice :=
  match x.state with
  | .idle | .fading => x
  | .priming => idleVoice x
  | .playing => fadedFrom F T x

/-- A voice as a stop of a mode leaves it (R76). -/
def stopOf (m : StopMode) (F T : Nat) (x : Voice) : Voice :=
  match m with
  | .cut => cutOf F x
  | .fade => fadeOf F T x
  | .tail => if x.active then { x with tail := true } else x

section
variable {m : StopMode} {F T : Nat} {x : Voice}

theorem stopOf_of_playing (hm : m ≠ .tail) (hx : x.state = .playing) :
    stopOf m F T x = fadedFrom F (if m = .cut then 2 else T) x := by
  cases m with
  | cut => simp [stopOf, cutOf, hx]
  | fade => simp [stopOf, fadeOf, hx]
  | tail => exact absurd rfl hm

theorem stopOf_of_priming (hm : m ≠ .tail) (hx : x.state = .priming) : (stopOf m F T x).state = .idle := by
  cases m with
  | cut => simp [stopOf, cutOf, hx, idleVoice]
  | fade => simp [stopOf, fadeOf, hx, idleVoice]
  | tail => exact absurd rfl hm

theorem stopOf_cut_of_fading (hx : x.state = .fading) : stopOf .cut F T x = fadedFrom F 2 x := by
  simp [stopOf, cutOf, hx]

theorem stopOf_fade_of_fading (hx : x.state = .fading) : stopOf .fade F T x = x := by
  simp [stopOf, fadeOf, hx]

theorem stopOf_tail (hx : x.state ≠ .idle) : stopOf .tail F T x = { x with tail := true } :=
  if_pos (by simpa [Voice.active] using hx)

theorem stopOf_of_idle (hx : x.state = .idle) : stopOf m F T x = x := by
  cases m with
  | cut => simp [stopOf, cutOf, hx]
  | fade => simp [stopOf, fadeOf, hx]
  | tail => simp [stopOf, Voice.active, hx]

end

theorem cutVoice_voice (s : State) (v : VoiceId) : (cutVoice s v).voice v = cutOf (s.mix v).fade (s.voice v) := by
  unfold cutVoice cutOf
  cases (s.voice v).state
  · rfl
  · exact returnIdle_voice v false s
  · exact State.voice_setVoice ..
  · exact State.voice_setVoice ..

theorem fadeVoice_voice (s : State) (v : VoiceId) :
    (fadeVoice s v).voice v = fadeOf (s.mix v).fade (fadeLength s v) (s.voice v) := by
  unfold fadeVoice fadeOf
  cases (s.voice v).state
  · rfl
  · exact returnIdle_voice v false s
  · exact State.voice_setVoice ..
  · rfl

theorem stopVoice_voice (m : StopMode) (s : State) (v : VoiceId) :
    (stopVoice m s v).voice v = stopOf m (s.mix v).fade (fadeLength s v) (s.voice v) := by
  cases m with
  | cut => exact cutVoice_voice s v
  | fade => exact fadeVoice_voice s v
  | tail =>
    unfold stopVoice tailVoice stopOf
    dsimp only
    split
    · exact State.voice_setVoice ..
    · rfl

theorem cutVoice_spares (s : State) (v : VoiceId) : Spares v s (cutVoice s v) := by
  unfold cutVoice
  cases (s.voice v).state
  · exact .refl v s
  · exact returnIdle_spares v false s
  · exact .setVoice v _ s
  · exact .setVoice v _ s

theorem fadeVoice_spares (s : State) (v : VoiceId) : Spares v s (fadeVoice s v) := by
  unfold fadeVoice
  cases (s.voice v).state
  · exact .refl v s
  · exact returnIdle_spares v false s
  · exact .setVoice v _ s
  · exact .refl v s

theorem stopVoice_spares (m : StopMode) (s : State) (v : VoiceId) : Spares v s (stopVoice m s v) := by
  cases m with
  | cut => exact cutVoice_spares s v
  | fade => exact fadeVoice_spares s v
  | tail =>
    unfold stopVoice tailVoice
    dsimp only
    split
    · exact .setVoice v _ s
    · exact .refl v s

/-! ### Voice after voice -/

/-- What a fold of operations on voices keeps of the rest. -/
structure SparesAll (s t : State) : Prop where
  starts : t.starts = s.starts
  tables : t.tables = s.tables
  preload : t.preload = s.preload
  clock : t.clock = s.clock
  groups : t.groups = s.groups
  triggers : t.triggers = s.triggers
  duck : t.mixer.duck = s.mixer.duck

theorem Spares.all {v : VoiceId} {s t : State} (h : Spares v s t) : SparesAll s t :=
  ⟨h.starts, h.tables, h.preload, h.clock, h.groups, h.triggers, h.duck⟩

theorem SparesAll.refl (s : State) : SparesAll s s := ⟨rfl, rfl, rfl, rfl, rfl, rfl, rfl⟩

theorem SparesAll.trans {s t u : State} (h : SparesAll s t) (k : SparesAll t u) : SparesAll s u :=
  ⟨k.starts.trans h.starts, k.tables.trans h.tables, k.preload.trans h.preload, k.clock.trans h.clock,
    k.groups.trans h.groups, k.triggers.trans h.triggers, k.duck.trans h.duck⟩

theorem SparesAll.foldl {f : State → VoiceId → State} (h : ∀ s v, Spares v s (f s v)) (l : List VoiceId) (s : State) :
    SparesAll s (l.foldl f s) := by
  induction l generalizing s with
  | nil => exact .refl s
  | cons v l ih => exact (h s v).all.trans (ih _)

/-- In a fold over distinct voices each one is as its own operation leaves it, taken on the first state. -/
theorem foldl_voice {f : State → VoiceId → State} {φ : Tables → Nat → Voice → Voice}
    (hself : ∀ s v, (f s v).voice v = φ s.tables (s.mix v).fade (s.voice v)) (hspare : ∀ s v, Spares v s (f s v))
    {l : List VoiceId} (hl : l.Nodup) (s : State) (v : VoiceId) :
    (l.foldl f s).voice v = if v ∈ l then φ s.tables (s.mix v).fade (s.voice v) else s.voice v := by
  induction l generalizing s with
  | nil => rfl
  | cons u l ih =>
    obtain ⟨hu, hl⟩ := List.nodup_cons.1 hl
    rw [List.foldl_cons, ih hl]
    by_cases hv : v = u
    · subst hv
      rw [if_neg hu, if_pos (List.mem_cons_self ..), hself]
    · obtain ⟨hvoice, hmix, -⟩ := (hspare s u).others v hv
      rw [hvoice, hmix, (hspare s u).tables]
      simp [hv]

/-- The length of a fade-out of a cue (R75). -/
def fadeLengthOf (t : Tables) (c : LocalCue) : Nat :=
  let n := ((t.cues.get c).map (·.fadeOut)).getD 0
  if n = 0 then 2 else n

theorem nodup_filter_voiceIds (p : VoiceId → Bool) : (voiceIds.filter p).Nodup := (List.nodup_finRange 8).filter p

theorem mem_filter_voiceIds {p : VoiceId → Bool} {v : VoiceId} : v ∈ voiceIds.filter p ↔ p v = true :=
  List.mem_filter.trans (and_iff_right (List.mem_finRange v))

theorem foldl_stopVoice_voice (m : StopMode) (p : VoiceId → Bool) (s : State) (v : VoiceId) :
    ((voiceIds.filter p).foldl (stopVoice m) s).voice v =
      if p v = true then stopOf m (s.mix v).fade (fadeLengthOf s.tables (s.voice v).cue) (s.voice v) else s.voice v := by
  have h := foldl_voice (f := stopVoice m) (φ := fun t F x => stopOf m F (fadeLengthOf t x.cue) x)
    (fun s v => stopVoice_voice m s v) (stopVoice_spares m) (nodup_filter_voiceIds p) s v
  simpa only [mem_filter_voiceIds] using h

theorem foldl_fadeVoice_voice (p : VoiceId → Bool) (s : State) (v : VoiceId) :
    ((voiceIds.filter p).foldl fadeVoice s).voice v =
      if p v = true then fadeOf (s.mix v).fade (fadeLengthOf s.tables (s.voice v).cue) (s.voice v) else s.voice v := by
  have h := foldl_voice (f := fadeVoice) (φ := fun t F x => fadeOf F (fadeLengthOf t x.cue) x)
    (fun s v => fadeVoice_voice s v) fadeVoice_spares (nodup_filter_voiceIds p) s v
  simpa only [mem_filter_voiceIds] using h

theorem foldl_cutVoice_voice {l : List VoiceId} (hl : l.Nodup) (s : State) (v : VoiceId) :
    (l.foldl cutVoice s).voice v = if v ∈ l then cutOf (s.mix v).fade (s.voice v) else s.voice v :=
  foldl_voice (f := cutVoice) (φ := fun _ F x => cutOf F x) (fun s v => cutVoice_voice s v) cutVoice_spares hl s v

/-! ### The event's end after stops (R54) -/

/-- After operations that report no follow-on, the end of the event adds no entry. -/
theorem finish_cues {m : State} (h : NoFollow m) : ∀ e ∈ (finish m).starts.queue, ∃ a ∈ m.starts.queue, a.cue = e.cue := by
  intro e he
  obtain ⟨a, ha, hc, -⟩ := (Serves.of_moves (.finish h)).queue.mem he
  exact ⟨a, ha, hc⟩

theorem NoFollow.stopped {s : State} (h : NoFollow s) (p : Entry → Bool) (l : List VoiceId) (m : StopMode) :
    NoFollow (l.foldl (stopVoice m) (s.setQueue (s.starts.queue.filter p))) :=
  (Serves.of_moves (.stopped p l m s)).noFollow h

/-! ### STOP (R56, R76, R138) -/

/-- The state of a stop request before the returns are taken and the queue is served (R56, R76). -/
def stopActs (sel : StopSel LocalCue) (m : StopMode) (s : State) : State :=
  (voiceIds.filter fun v => (s.voice v).active && selects sel (s.voice v).cue (s.voice v).cls).foldl (stopVoice m)
    (s.setQueue (s.starts.queue.filter fun e => !selects sel e.cue (s.classOf e.cue)))

theorem stop_eq (sel : StopSel LocalCue) (m : StopMode) (s : State) : stop sel m s = finish (stopActs sel m s) := rfl

theorem stopActs_voice (sel : StopSel LocalCue) (m : StopMode) (s : State) (v : VoiceId) :
    (stopActs sel m s).voice v =
      if ((s.voice v).active && selects sel (s.voice v).cue (s.voice v).cls) = true then
        stopOf m (s.mix v).fade (fadeLengthOf s.tables (s.voice v).cue) (s.voice v)
      else s.voice v :=
  foldl_stopVoice_voice m _ (s.setQueue (s.starts.queue.filter fun e => !selects sel e.cue (s.classOf e.cue))) v

theorem stopActs_starts (sel : StopSel LocalCue) (m : StopMode) (s : State) : (stopActs sel m s).starts =
    { s.starts with queue := s.starts.queue.filter fun e => !selects sel e.cue (s.classOf e.cue) } :=
  (SparesAll.foldl (stopVoice_spares m) _ _).starts

theorem stopActs_noFollow {s : State} (h : Settled s) (sel : StopSel LocalCue) (m : StopMode) : NoFollow (stopActs sel m s) :=
  h.noFollow.stopped _ _ m

theorem stop_of_empty {s : State} (h : Settled s) (hq : s.starts.queue = []) (sel : StopSel LocalCue) (m : StopMode) :
    stop sel m s = { stopActs sel m s with returns := [] } := by
  rw [stop_eq]
  refine finish_of_empty (stopActs_noFollow h sel m) ?_
  rw [stopActs_starts]
  simp [hq]

theorem byte_of_lt_three {b : Byte} (h : b.toNat < 3) : b = 0 ∨ b = 1 ∨ b = 2 := by
  have : b.toNat = 0 ∨ b.toNat = 1 ∨ b.toNat = 2 := by omega
  simpa [← BitVec.toNat_inj] using this

theorem lineCue_of_bytes (b1 b2 : Byte) : (word16 b1 b2).extractLsb' 0 12 = BitVec.ofNat 12 (word16 b1 b2).toNat := by
  apply BitVec.eq_of_toNat_eq
  simp

/-- What a STOP matches (R56, R138). -/
def StopMatches (t : Tables) (b0 b1 b2 : Byte) (c : LocalCue) (k : ClassId) : Prop :=
  b0 = 0 ∧ mapLineCue t (BitVec.ofNat 12 (word16 b1 b2).toNat) = some c ∨ b0 = 1 ∧ (word16 b1 b2).toNat = k.val ∨ b0 = 2

theorem stopMode_eq_none {b : Byte} (h : 3 ≤ b.toNat) : stopMode b = none := by
  unfold stopMode
  split <;> first | omega | rfl

theorem stopRequest_of_void {t : Tables} {b0 b1 b2 b3 : Byte} (h : 3 ≤ b0.toNat ∨ 3 ≤ b3.toNat ∨ b0 = 1 ∧ 8 ≤ (word16 b1 b2).toNat
    ∨ b0 = 0 ∧ mapLineCue t (BitVec.ofNat 12 (word16 b1 b2).toNat) = none) : stopRequest t b0 b1 b2 b3 = none := by
  unfold stopRequest
  rcases h with h | h | ⟨rfl, h⟩ | ⟨rfl, h⟩
  · cases stopMode b3 with
    | none => rfl
    | some m =>
      dsimp only
      split <;> first | omega | rfl
  · rw [stopMode_eq_none h]
  · cases stopMode b3 with
    | none => rfl
    | some m => exact dif_neg (Nat.not_lt.2 h)
  · cases stopMode b3 with
    | none => rfl
    | some m =>
      rw [lineCue_of_bytes]
      simp only [h, Option.map_none]
      rfl

theorem stopRequest_of_valid {t : Tables} {b0 b1 b2 b3 : Byte} (h0 : b0.toNat < 3) (h3 : b3.toNat < 3)
    (h1 : ¬ (b0 = 1 ∧ 8 ≤ (word16 b1 b2).toNat))
    (hc : ¬ (b0 = 0 ∧ mapLineCue t (BitVec.ofNat 12 (word16 b1 b2).toNat) = none)) :
    ∃ sel m, stopRequest t b0 b1 b2 b3 = some (sel, m) ∧ stopMode b3 = some m
      ∧ ∀ c k, selects sel c k = true ↔ StopMatches t b0 b1 b2 c k := by
  have hm : ∃ m, stopMode b3 = some m := by
    rcases byte_of_lt_three h3 with rfl | rfl | rfl
    · exact ⟨.cut, rfl⟩
    · exact ⟨.fade, rfl⟩
    · exact ⟨.tail, rfl⟩
  obtain ⟨m, hm⟩ := hm
  unfold stopRequest
  rw [hm]
  rcases byte_of_lt_three h0 with rfl | rfl | rfl
  · obtain ⟨c, hc⟩ := Option.ne_none_iff_exists'.1 fun h => hc ⟨rfl, h⟩
    refine ⟨.cue c, m, ?_, rfl, fun d k => ?_⟩
    · rw [lineCue_of_bytes]
      simp only [hc, Option.map_some]
      rfl
    · simp only [selects, StopMatches, hc, beq_iff_eq, true_and, Option.some.injEq]
      exact (or_iff_left fun h => h.elim (fun h => absurd h.1 (by decide)) fun h => absurd h (by decide)).symm
  · have hlt : (word16 b1 b2).toNat < 8 := Nat.lt_of_not_le fun h => h1 ⟨rfl, h⟩
    refine ⟨.cls ⟨_, hlt⟩, m, dif_pos hlt, rfl, fun d k => ?_⟩
    simp [selects, StopMatches, Fin.ext_iff]
  · exact ⟨.all, m, rfl, rfl, fun d k => by simp [selects, StopMatches]⟩

section
variable {b3 : Byte} {m : StopMode}

theorem mode_ne_tail (hb : b3.toNat < 2) (hm : stopMode b3 = some m) : m ≠ .tail := by
  rcases byte_of_lt_three (hb.trans (by decide)) with rfl | rfl | rfl
  · obtain rfl : StopMode.cut = m := Option.some.inj hm
    decide
  · obtain rfl : StopMode.fade = m := Option.some.inj hm
    decide
  · exact absurd hb (by decide)

/-- The length of the fade-out that a STOP begins (R74, R75). -/
theorem stopLength_eq {s : State} {c : LocalCue} (hm : stopMode b3 = some m) (hb : b3.toNat < 2) :
    (if m = .cut then 2 else fadeLengthOf s.tables c) =
      if b3 = 0 then 2 else match s.cue c with
        | some q => if q.fadeOut = 0 then 2 else q.fadeOut
        | none => 2 := by
  have hlen : fadeLengthOf s.tables c = match s.cue c with
      | some q => if q.fadeOut = 0 then 2 else q.fadeOut
      | none => 2 := by
    unfold fadeLengthOf State.cue
    cases s.tables.cues.get c <;> rfl
  rw [hlen]
  rcases byte_of_lt_three (hb.trans (by decide)) with rfl | rfl | rfl
  · obtain rfl : StopMode.cut = m := Option.some.inj hm
    rfl
  · obtain rfl : StopMode.fade = m := Option.some.inj hm
    rfl
  · exact absurd hb (by decide)

end

/-- Settles O41. -/
theorem stopActsOnEveryMatchingVoice : Obligations.StopActsOnEveryMatchingVoice := by
  intro src dst b0 b1 b2 b3 s hs hset
  have hexec : exec (.stopReceived src dst b0 b1 b2 b3) s = .next (takeStop b0 b1 b2 b3 (heard src s)) :=
    event_receive_of_handsOn hs _
  dsimp only
  rw [hexec]
  unfold takeStop
  rw [heard_tables]
  refine ⟨fun h => by rw [stopRequest_of_void h], fun h0 h3 h1 hc => ?_⟩
  obtain ⟨sel, m, hreq, hmode, hsel⟩ := stopRequest_of_valid (t := s.tables) h0 h3 h1 hc
  rw [hreq]
  have hvoice (v : VoiceId) := stopActs_voice sel m (heard src s) v
  have hstarts := stopActs_starts sel m (heard src s)
  have hempty := stop_of_empty (hset.heard src) (sel := sel) (m := m)
  have hcues := finish_cues (stopActs_noFollow (hset.heard src) sel m)
  simp only [heard_voice, heard_mix, heard_tables] at hvoice
  simp only [heard_starts, heard_classOf] at hstarts hempty
  rw [stop_eq] at hempty
  generalize heard src s = h at *
  refine ⟨stopActs sel m h, finish (stopActs sel m h), rfl, rfl, fun e => ?_, by rw [hstarts], by rw [hstarts], hcues, fun hq => ?_, fun v => ?_⟩
  · rw [hstarts]
    simp only [List.mem_filter, Bool.not_eq_true', ← Bool.not_eq_true, hsel]
    exact Iff.rfl
  · rw [hempty hq]
    refine ⟨?_, rfl⟩
    show (stopActs sel m h).starts = _
    rw [hstarts, hq]
    exact congrArg (fun q => { s.starts with queue := q }) hq.symm
  · rw [hvoice]
    refine ⟨fun hhit => ?_, fun hmiss => ?_⟩
    · have hact {st : VState} (h : (s.voice v).state = st) (hst : st ≠ .idle) :
          ((s.voice v).active && selects sel (s.voice v).cue (s.voice v).cls) = true := by
        rw [(hsel _ _).2 hhit, active_of_state h hst]
        rfl
      refine ⟨fun hb hx => ?_, fun hb hx => ?_, fun hb hx => ?_, fun hb hx => ?_, fun hb hx => ?_⟩
      · obtain rfl : StopMode.tail = m := Option.some.inj ((congrArg stopMode hb).symm.trans hmode)
        rw [if_pos (hact rfl hx), stopOf_tail hx]
      · rw [if_pos (hact hx (by decide)), stopOf_of_playing (mode_ne_tail hb hmode) hx, stopLength_eq hmode hb]
        rfl
      · rw [if_pos (hact hx (by decide))]
        exact stopOf_of_priming (mode_ne_tail hb hmode) hx
      · obtain rfl : StopMode.cut = m := Option.some.inj ((congrArg stopMode hb).symm.trans hmode)
        rw [if_pos (hact hx (by decide)), stopOf_cut_of_fading hx, hb]
        rfl
      · obtain rfl : StopMode.fade = m := Option.some.inj ((congrArg stopMode hb).symm.trans hmode)
        rw [if_pos (hact hx (by decide)), stopOf_fade_of_fading hx]
    · rcases hmiss with h | h
      · rw [if_neg]
        rw [Bool.and_eq_true, hsel]
        exact fun k => h k.2
      · rw [stopOf_of_idle h, ite_self]

/-! ### SEGMENT (R58, R59, R139) -/

/-- The state a SEGMENT's number and mask are taken in (R58). -/
def segmented (b0 b1 : Byte) (s : State) : State := { s with starts := { s.starts with segment := b0, mask := b1 } }

theorem segmentStop_voice (s : State) (v : VoiceId) : (segmentStop s).voice v =
    if ((s.voice v).live && !s.starts.mask.getLsbD (s.voice v).cls.val) = true then
      fadeOf (s.mix v).fade (fadeLengthOf s.tables (s.voice v).cue) (s.voice v)
    else s.voice v :=
  foldl_fadeVoice_voice _ (s.setQueue (s.starts.queue.filter fun e => s.starts.mask.getLsbD (s.classOf e.cue).val)) v

theorem segmentStop_starts (s : State) : (segmentStop s).starts =
    { s.starts with queue := s.starts.queue.filter fun e => s.starts.mask.getLsbD (s.classOf e.cue).val } :=
  (SparesAll.foldl fadeVoice_spares _ _).starts

theorem Moves.segment {V : State → State → Prop} {s t : State} (m : Moves V s t) :
    t.starts.segment = s.starts.segment ∧ t.starts.mask = s.starts.mask := by
  refine m.keep (P := fun s t => t.starts.segment = s.starts.segment ∧ t.starts.mask = s.starts.mask) (fun _ => ⟨rfl, rfl⟩)
    (fun _ _ _ h k => ⟨k.1.trans h.1, k.2.trans h.2⟩) (fun s t e _ => ?_) (fun _ _ _ => ⟨rfl, rfl⟩) fun s => ?_
  · rw [e]
    exact ⟨rfl, rfl⟩
  · rw [offerPresence_starts]
    exact ⟨rfl, rfl⟩

/-- Settles O42. -/
theorem segmentReplacesTheMask : Obligations.SegmentReplacesTheMask := by
  intro src b0 b1 b2 s hs hset
  have hexec : exec (.segmentReceived src b0 b1 b2) s = .next (takeSegment b0 b1 b2 (heard src s)) :=
    event_receive_of_handsOn hs _
  dsimp only
  rw [hexec]
  have hset := hset.heard src
  have hvoice (v : VoiceId) := heard_voice src s v
  have hmix (v : VoiceId) := heard_mix src s v
  have htables := heard_tables src s
  have hclass (c : LocalCue) := heard_classOf src s c
  have hstarts := heard_starts src s
  generalize heard src s = h at *
  rw [← hstarts]
  have htake : takeSegment b0 b1 b2 h =
      finish (if b2.getLsbD 0 then segmentStop (segmented b0 b1 h) else segmented b0 b1 h) := rfl
  refine ⟨fun hb => ⟨?_, fun hq => ?_⟩, fun hb => ?_⟩
  · rw [htake, if_neg (by rw [hb]; decide)]
    rfl
  · exact finish_of_settled (s := segmented b0 b1 h) hset (.inl hq)
  · rw [htake, if_pos hb]
    have hm := segmentStop_starts (segmented b0 b1 h)
    have hn : NoFollow (segmentStop (segmented b0 b1 h)) :=
      (Serves.of_moves (.segmentStop _)).noFollow (Settled.noFollow (s := segmented b0 b1 h) hset)
    obtain ⟨hsegment, hmask⟩ := (Moves.finish hn).segment
    have hcues := finish_cues hn
    have hempty (hq : h.starts.queue = []) := finish_of_empty hn (by
      rw [hm]
      simp [segmented, hq])
    have hout (v : VoiceId) := segmentStop_voice (segmented b0 b1 h) v
    refine ⟨segmentStop (segmented b0 b1 h), _, rfl, rfl, fun e => ?_, by rw [hm]; rfl, by rw [hm]; rfl, ?_, ?_, hcues,
      fun hq => ?_, fun v => ?_⟩
    · rw [hm]
      simp only [List.mem_filter]
      rw [← hclass]
      exact Iff.rfl
    · rw [hsegment, hm]; rfl
    · rw [hmask, hm]; rfl
    · rw [hempty hq]
      exact ⟨rfl, rfl⟩
    · have hout : (segmentStop (segmented b0 b1 h)).voice v =
          if ((s.voice v).live && !b1.getLsbD (s.voice v).cls.val) = true then
            fadeOf (s.mix v).fade (fadeLengthOf s.tables (s.voice v).cue) (s.voice v) else s.voice v := by
        rw [hout, ← hvoice, ← hmix, ← htables]
        rfl
      rw [hout]
      refine ⟨fun hb => ⟨fun hx q hq => ?_, fun hx => ?_⟩, fun hkeep => ?_⟩
      · have hlen : fadeLengthOf s.tables (s.voice v).cue = if q.fadeOut = 0 then 2 else q.fadeOut := by
          have hq : s.tables.cues.get (s.voice v).cue = some q := hq
          simp only [fadeLengthOf, hq, Option.map_some, Option.getD_some]
        rw [if_pos (by simp only [Voice.live, hx, hb]; rfl), hlen]
        simp only [fadeOf, hx]
        rfl
      · rw [if_pos (by simp only [Voice.live, hx, hb]; rfl)]
        simp only [fadeOf, hx]
        rfl
      · rcases hkeep with hb | hx | hx
        · rw [if_neg (by simp [hb])]
        · rw [if_neg (by simp [Voice.live, hx])]
        · rw [if_neg (by simp [Voice.live, hx])]

end Sys2Proof.Machine
end

