-- ==== Sys2Proof/Proofs/Holds.lean ====
section
/-! PROOFS. A HOLD as the view's state takes it, with the own holding that yields (R149, R152, R156, R157). -/

namespace Sys2Proof.Machine

/-! ### The stop of a won cue (R157, R74) -/

/-- What the stop of a won cue, mode CUT, leaves of the voices: each one of the cue is cut, and the others are as they were. -/
def WonCueCut (c : LocalCue) (s t : State) : Prop :=
  ∀ v : VoiceId,
    ((s.voice v).cue = c → (s.voice v).state = .playing ∨ (s.voice v).state = .fading →
      t.voice v = { s.voice v with state := .fading, fade := some ⟨.fadeOut, (s.mix v).fade, 2, none⟩ })
    ∧ ((s.voice v).cue = c → (s.voice v).state = .priming → (t.voice v).state = .idle)
    ∧ ((s.voice v).cue ≠ c ∨ (s.voice v).state = .idle → t.voice v = s.voice v)

theorem cutOf_of_sounding {F : Nat} {x : Voice} (h : x.state = .playing ∨ x.state = .fading) : cutOf F x = fadedFrom F 2 x := by
  rcases h with h | h <;> simp [cutOf, h]

theorem cutOf_of_priming {F : Nat} {x : Voice} (h : x.state = .priming) : (cutOf F x).state = .idle := by
  simp [cutOf, h, idleVoice]

theorem cutOf_of_idle {F : Nat} {x : Voice} (h : x.state = .idle) : cutOf F x = x := by simp [cutOf, h]

theorem stopCue_of_empty {s : State} (h : Settled s) (hq : s.starts.queue = []) (c : LocalCue) :
    (stop (.cue c) .cut s).starts = s.starts ∧ WonCueCut c s (stop (.cue c) .cut s) := by
  rw [stop_of_empty h hq]
  have hvoice (v : VoiceId) := stopActs_voice (.cue c) .cut s v
  refine ⟨?_, fun v => ?_⟩
  · show (stopActs _ _ s).starts = _
    rw [stopActs_starts, hq]
    exact congrArg (fun q => { s.starts with queue := q }) hq.symm
  · have hvoice : ({ stopActs (.cue c) .cut s with returns := [] } : State).voice v =
        if ((s.voice v).active && c == (s.voice v).cue) = true then cutOf (s.mix v).fade (s.voice v) else s.voice v := hvoice v
    rw [hvoice]
    refine ⟨fun hc hx => ?_, fun hc hx => ?_, fun hkeep => ?_⟩
    · rw [if_pos, cutOf_of_sounding hx]
      · rfl
      · rcases hx with hx | hx <;> simp [Voice.active, hx, hc]
    · rw [if_pos (by simp [Voice.active, hx, hc]), cutOf_of_priming hx]
    · rcases hkeep with hc | hx
      · rw [if_neg (by simp [Ne.symm hc])]
      · rw [cutOf_of_idle hx, ite_self]

theorem cutWonCue_of_none {g : GroupId} {s : State} (h : (s.groupCfg g).wonCue = none) : cutWonCue g s = s := by
  simp only [cutWonCue, h]

theorem cutWonCue_of_some {g : GroupId} {s : State} {c : LocalCue} (h : (s.groupCfg g).wonCue = some c) :
    cutWonCue g s = stop (.cue c) .cut s := by
  simp only [cutWonCue, h]

/-! ### A report of another station's holding (R156, R157) -/

section
variable {x : Station} {age : Nat} {g : GroupId} {s : State}

theorem holdRule_of_excluded (h : inSet x (s.view g).excl = true) : holdRule x age g s = s := by simp [holdRule, h]

variable (hx : inSet x (s.view g).excl = false)
include hx

theorem holdRule_of_free_or_claiming (h : (s.view g).state = .free ∨ (s.view g).state = .claiming) :
    holdRule x age g s = changeView g (heldBy x (claimTimeOf s.now age) (s.view g)) s := by
  rcases h with h | h <;> simp [holdRule, hx, h]

theorem holdRule_of_heldMe (h : (s.view g).state = .heldMe) : holdRule x age g s =
    if olderHolding age x (holdingAge s.now (s.view g)) s.number then yieldTo x age g s else offerHold g s := by
  simp [holdRule, hx, h]

theorem holdRule_of_heldOther {y : Station} (h : (s.view g).state = .heldOther) (hy : (s.view g).holder = some y) :
    holdRule x age g s =
      if y = x then s
      else if olderHolding age x (holdingAge s.now (s.view g)) y then
        (changeView g (heldBy x (claimTimeOf s.now age) (s.view g)) s).bump .conflict
      else s := by
  simp [holdRule, hx, h, hy]

end

theorem changeView_heldBy_of_heldOther {s : State} {g : GroupId} (hidle : s.line.activity = .none)
    (h : (s.view g).state = .heldOther) (x : Station) (t : Time) :
    changeView g (heldBy x t (s.view g)) s = s.setView g (heldBy x t (s.view g)) := by
  have hclaim : ((s.view g).state == .claiming) = false := by rw [h]; rfl
  rw [changeView_heldBy (by simp [h]), hclaim, removeTx_of_activity_none (s := s.setView g _) hidle]
  simp only [Bool.false_and, Bool.not_false, List.filter_true]
  rfl

theorem olderHolding_iff {a b : Nat} {x y : Station} : olderHolding a x b y = true ↔ b < a ∨ b = a ∧ x < y := by
  rw [olderHolding, decide_eq_true_iff, eq_comm (a := a)]

/-! ### The own holding yields (R157, R152) -/

/-- What the own holding of a group leaves when it yields to station x. -/
structure Yielded (x : Station) (age : Nat) (g : GroupId) (s t : State) : Prop where
  view : t.view g =
    { heldBy x (claimTimeOf s.now age) (s.view g) with state := .heldOther, timer := .stopped, timeoutQueued := false }
  others : ∀ k, k ≠ g → t.view k = s.view k
  conflict : t.counter .conflict = min 65535 (s.counter .conflict + 1)
  lost : t.counter .claimLost = s.counter .claimLost
  queue : ∀ e ∈ t.line.queue, e.body.holds g = false
    ∧ ((s.view g).timeoutQueued = true → e.body.releases g = false)
  sounds : let p := cutWonCue g (s.setView g (heldBy x (claimTimeOf s.now age) (s.view g)))
    t.voices = p.voices ∧ t.starts = p.starts ∧ t.mixer = p.mixer ∧ t.fetch = p.fetch ∧ t.beatRef = p.beatRef
  showNo : t.groups.showNo = s.groups.showNo

theorem yieldTo_yields {x : Station} {age : Nat} {g : GroupId} {s : State} (hidle : s.line.activity = .none)
    (hme : (s.view g).state = .heldMe) : Yielded x age g s (yieldTo x age g s) := by
  have m := Moves.cutWonCue g (s.setView g (heldBy x (claimTimeOf s.now age) (s.view g)))
  have hview := State.view_eq _ _ m.groups
  have heq : yieldTo x age g s = tidy g (s.view g) false
      ((cutWonCue g (s.setView g (heldBy x (claimTimeOf s.now age) (s.view g)))).bump .conflict) := rfl
  have hconf := m.counter (c := .conflict) rfl (by decide)
  have hlost := m.counter (c := .claimLost) rfl (by decide)
  have hshow := m.groups
  have hidle' := m.idle hidle
  generalize hp : cutWonCue g (s.setView g (heldBy x (claimTimeOf s.now age) (s.view g))) = p at *
  have hown : (p.bump .conflict).view g = heldBy x (claimTimeOf s.now age) (s.view g) :=
    (hview g).trans (State.view_setView ..)
  have hidle' : (p.bump .conflict).line.activity = .none := hidle'
  obtain ⟨hself, hothers⟩ := tidy_view g (s.view g) false (p.bump .conflict)
  obtain ⟨voices, starts, mixer, fetch, beat, showNo⟩ := tidy_frame (g := g) (old := s.view g) (own := false) hidle'
  rw [hown] at hself
  rw [heq]
  have hcount : ∀ c, c ≠ .txDropped → (tidy g (s.view g) false (p.bump .conflict)).counter c = (p.bump .conflict).counter c := by
    intro c hc
    rw [tidy_counter hidle' hc, tidied_counter]
    simp [hme]
  refine ⟨?_, fun k hk => ?_, ?_, ?_, fun e he => ?_, ?_, ?_⟩
  · rw [hself]
    simp [tidyView, heldBy, hme]
  · rw [hothers k hk]
    exact (hview k).trans (State.view_setView_ne _ _ hk)
  · rw [hcount _ (by decide), State.counter_bump, hconf]
    rfl
  · rw [hcount _ (by decide), State.counter_bump_ne _ (by decide), hlost]
    rfl
  · rcases tidy_queue hidle' he with h | ⟨h, -⟩
    · rw [h]
      exact ⟨rfl, fun _ => rfl⟩
    · rw [hown, staleFrame, if_neg (by simp [heldBy])] at h
      simp [hme, heldBy] at h
      exact h
  · rw [hp]
    exact ⟨voices, starts, mixer, fetch, beat⟩
  · rw [showNo]
    exact congrArg (·.showNo) hshow

/-- Settles O44. -/
theorem holdKeepsTheOlderHolding : Obligations.HoldKeepsTheOlderHolding := by
  intro src age g s hs
  have hidle : (heard src s).line.activity = .none := by
    obtain ⟨-, -, hdrive, -⟩ := hs
    exact heard_activity hdrive
  have hexec : exec (.holdReceived src s.groups.showNo (BitVec.ofNat 8 g.val) ((heard src s).view g).epoch age) s
      = .next (holdRule src age.toNat g (heard src s)) := by
    show event s (canReceive s src) (receive src 0 _) = _
    rw [event_receive_of_handsOn hs, ← heard_showNo src s, groupFrame_of_equal]
  dsimp only
  rw [hexec, ← heard_showNo src s, ← heard_now src s, ← heard_number src s]
  have hcfg : (heard src s).groupCfg g = s.groupCfg g := by rw [State.groupCfg, heard_tables]; rfl
  have hvoice (v : VoiceId) := heard_voice src s v
  have hmix (v : VoiceId) := heard_mix src s v
  have hstarts := heard_starts src s
  have hquiet : NoStartWaits s → NoStartWaits (heard src s) := fun h =>
    ⟨h.1.heard src, by rw [hstarts]; exact h.2⟩
  generalize heard src s = h at *
  refine ⟨fun hx => by rw [holdRule_of_excluded hx], fun hx => ⟨fun hw => ?_, fun hw => ?_, fun y hw hy => ?_, fun hw => ?_⟩⟩
  · rw [holdRule_of_free_or_claiming hx (.inl hw), changeView_heldBy_of_free hidle hw]
    rfl
  · rw [holdRule_of_free_or_claiming hx (.inr hw), changeView_heldBy_of_claiming hidle hw]
    exact ⟨_, rfl, rfl, rfl, rfl, rfl, rfl⟩
  · rw [holdRule_of_heldOther hx hw hy]
    refine ⟨fun hkeep => ?_, fun hne holder => ?_⟩
    · rcases hkeep with rfl | hkeep
      · rw [if_pos rfl]
      · have hyoung : olderHolding age.toNat src (holdingAge h.now (h.view g)) y = false :=
          Bool.eq_false_iff.2 (mt olderHolding_iff.1 hkeep)
        rw [hyoung, if_neg Bool.false_ne_true, ite_self]
    · have hold : olderHolding age.toNat src (holdingAge h.now (h.view g)) y = true := olderHolding_iff.2 holder
      rw [if_neg hne, if_pos hold, changeView_heldBy_of_heldOther hidle hw]
      rfl
  · rw [holdRule_of_heldMe hx hw]
    refine ⟨fun hkeep => ?_, fun holder => ?_⟩
    · have hyoung : olderHolding age.toNat src (holdingAge h.now (h.view g)) h.number = false :=
        Bool.eq_false_iff.2 (mt olderHolding_iff.1 hkeep)
      rw [hyoung]
      rfl
    have hold : olderHolding age.toNat src (holdingAge h.now (h.view g)) h.number = true := olderHolding_iff.2 holder
    rw [if_pos hold]
    obtain ⟨view, others, conflict, lost, queue, ⟨voices, starts, mixer, fetch, beat⟩, -⟩ :=
      yieldTo_yields (x := src) (age := age.toNat) hidle hw
    refine ⟨_, rfl, view, others, fun hc => ?_, fun c hc => ?_, conflict, lost, queue⟩
    · rw [voices, starts, cutWonCue_of_none (g := g) (s := h.setView g _) (hcfg ▸ hc)]
      exact ⟨rfl, rfl⟩
    · rw [voices, starts, mixer, fetch, beat, cutWonCue_of_some (g := g) (s := h.setView g _) (hcfg ▸ hc)]
      refine ⟨rfl, rfl, rfl, rfl, rfl, fun hq => ?_⟩
      obtain ⟨hset, hq⟩ := hquiet hq
      obtain ⟨hst, hcut⟩ := stopCue_of_empty
        (s := h.setView g (heldBy src (claimTimeOf h.now age.toNat) (h.view g))) hset hq c
      refine ⟨hst.trans hstarts, fun v => ?_⟩
      rw [← hvoice, ← hmix, State.voice_eq _ _ voices,
        cutWonCue_of_some (g := g) (s := h.setView g (heldBy src (claimTimeOf h.now age.toNat) (h.view g))) (hcfg ▸ hc)]
      exact hcut v

end Sys2Proof.Machine
end

