-- ==== Sys2Proof/Proofs/Restarts.lean ====
section
/-! PROOFS. The show restart, and RESTART as received (R150, R187, R188). -/

namespace Sys2Proof.Machine

/-! ### Offers of a PRESENCE where the queue has room for one (R122, R177) -/

/-- From s to t the queue may come to hold a PRESENCE, and no counter and no owner hears of it. -/
structure Hushed (s t : State) : Prop where
  announces : Announces t
  counters : t.counters = s.counters
  answers : t.answers = s.answers
  queue : (t.line.queue.filter fun e => e.body != .presence) = s.line.queue.filter fun e => e.body != .presence

theorem Hushed.refl {s : State} (h : Announces s) : Hushed s s := ⟨h, rfl, rfl, rfl⟩

theorem Hushed.trans {s t u : State} (h : Hushed s t) (k : Hushed t u) : Hushed s u :=
  ⟨k.announces, k.counters.trans h.counters, k.answers.trans h.answers, k.queue.trans h.queue⟩

theorem filter_insertTx {e : TxEntry} {p : TxEntry → Bool} (hp : p e = false) (l : List TxEntry) :
    (insertTx e l).filter p = l.filter p := by
  induction l with
  | nil => exact List.filter_cons_of_neg (by simp [hp])
  | cons b l ih =>
    simp only [insertTx]
    split
    · rw [List.filter_cons, List.filter_cons, ih]
    · exact List.filter_cons_of_neg (by simp [hp])

theorem Hushed.recheckHoldoff {s : State} (h : Announces s) : Hushed s (recheckHoldoff s) := by
  rcases recheckHoldoff_shape s with e | ⟨-, e⟩ <;> rw [e]
  · exact .refl h
  · exact ⟨h, rfl, rfl, rfl⟩

theorem Hushed.offerPresence {s : State} (h : Announces s) : Hushed s (offerPresence s) := by
  rcases offerPresence_cases s with e | e <;> rw [e]
  · exact .refl h
  · by_cases hup : s.station = .loading
    · rw [offer_of_loading hup]
      exact .refl h
    · by_cases hn : s.number = 0
      · rw [offer_of_silent (by simp [State.silent, hn])]
        exact .refl h
      · cases hl : offerLimit s.line.queue .presence with
        | some r =>
          rw [offer_of_limit hup hn hl]
          exact .refl h
        | none =>
          have hroom : s.line.queue.length < 8 := h.resolve_right ((offerLimit_eq_none_iff _ _).1 hl)
          rw [offer_of_room hup hn hl hroom]
          have hjoined : Hushed s (joinTx .presence s) := by
            refine ⟨.inr ⟨_, (insertTx_perm _ _).mem_iff.2 (List.mem_cons_self ..), rfl⟩, rfl, rfl, ?_⟩
            exact filter_insertTx rfl _
          exact hjoined.trans (.recheckHoldoff hjoined.announces)

/-- A change of nothing that the relation speaks of. -/
theorem Hushed.of_eq {s t : State} (h : Announces s) (line : t.line = s.line := by rfl)
    (counters : t.counters = s.counters := by rfl) (answers : t.answers = s.answers := by rfl) : Hushed s t :=
  ⟨by unfold Announces; rw [line]; exact h, counters, answers, by rw [line]⟩

theorem Hushed.handLocalKeys {s : State} (h : Announces s) : Hushed s (handLocalKeys s) := by
  unfold Machine.handLocalKeys
  dsimp only
  split
  · exact .refl h
  · exact .trans (.of_eq (t := { s with mixer := { s.mixer with localKeys := s.assertedKeys } }) h) (.offerPresence h)

theorem Hushed.returnIdle {s : State} (h : Announces s) (v : VoiceId) (natural : Bool) :
    Hushed s (returnIdle v natural s) := by
  have hsilenced : Hushed s (silenced v s) := by
    obtain ⟨r, hr⟩ := silenced_eq v s
    rw [hr]
    exact .of_eq h
  have hkeys := hsilenced.trans (.handLocalKeys hsilenced.announces)
  rw [returnIdle_eq]
  exact ⟨hkeys.announces, hkeys.counters, hkeys.answers, hkeys.queue⟩

theorem Hushed.cutVoice {s : State} (h : Announces s) (v : VoiceId) : Hushed s (cutVoice s v) := by
  unfold Machine.cutVoice
  cases (s.voice v).state
  · exact .refl h
  · exact .returnIdle h v false
  · exact .of_eq h
  · exact .of_eq h

theorem Hushed.foldl_cutVoice {s : State} (h : Announces s) (l : List VoiceId) : Hushed s (l.foldl Machine.cutVoice s) := by
  induction l generalizing s with
  | nil => exact .refl h
  | cons v l ih =>
    have hv := Hushed.cutVoice h v
    exact hv.trans (ih hv.announces)

/-! ### The show restart (R188) -/

/-- The state of a show restart before the voices are cut: the groups as after hard reset, no frame of a group queued, and the starts
at the show's beginning. -/
def restarted (n : Byte) (s : State) : State :=
  { State.withTx { s with groups := ⟨n, Vector.replicate 16 .reset⟩ } (s.line.queue.filter fun e => !e.body.ofGroups) with
    starts := { s.starts with queue := [], segment := 0, mask := 0xFF } }

/-- On an idle line a show restart is the restarted state with every voice cut and the returns taken, and a PRESENCE may be offered. -/
theorem showRestart_of_idle {n : Byte} {s : State} (hidle : s.line.activity = .none) (hset : Settled s) :
    showRestart n s = { voiceIds.foldl cutVoice (restarted n s) with returns := [] }
      ∨ showRestart n s = offerPresence { voiceIds.foldl cutVoice (restarted n s) with returns := [] } := by
  have hn : NoFollow (restarted n s) := Settled.noFollow (s := restarted n s) hset
  have hfinish : finish (voiceIds.foldl cutVoice (restarted n s)) =
      { voiceIds.foldl cutVoice (restarted n s) with returns := [] } := by
    refine finish_of_empty ((Plays.of_moves (.foldl Moves.cutVoice voiceIds _)).noFollow hn) ?_
    exact congrArg (·.queue) (SparesAll.foldl cutVoice_spares voiceIds (restarted n s)).starts
  have hremove := removeTx_of_activity_none (s := { s with groups := ⟨n, Vector.replicate 16 .reset⟩ }) hidle TxBody.ofGroups
  unfold showRestart
  dsimp only
  rw [hremove, ← hfinish]
  split
  · exact .inr rfl
  · exact .inl rfl

theorem restarted_announces {n : Byte} {s : State} (h : s.line.queue.length < 8) : Announces (restarted n s) :=
  .inl ((List.length_filter_le _ _).trans_lt h)

/-- What a show restart leaves, for a station between two handlings whose queue has room. -/
structure RestartedTo (n : Byte) (s t : State) : Prop where
  groups : t.groups = ⟨n, Vector.replicate 16 .reset⟩
  starts : t.starts = { s.starts with queue := [], segment := 0, mask := 0xFF }
  queue : t.line.queue.filter (fun e => e.body != .presence)
    = s.line.queue.filter (fun e => !e.body.ofGroups && e.body != .presence)
  voices : ∀ v : VoiceId, t.voice v = cutOf (s.mix v).fade (s.voice v)
  counters : t.counters = s.counters
  clock : t.clock = s.clock
  tables : t.tables = s.tables
  preload : t.preload = s.preload
  triggers : t.triggers = s.triggers
  answers : t.answers = s.answers
  duck : t.mixer.duck = s.mixer.duck

theorem showRestart_restarts {n : Byte} {s : State} (hidle : s.line.activity = .none) (hset : Settled s)
    (hlen : s.line.queue.length < 8) : RestartedTo n s (showRestart n s) := by
  have hspare := SparesAll.foldl cutVoice_spares voiceIds (restarted n s)
  have hhush := Hushed.foldl_cutVoice (restarted_announces (n := n) hlen) voiceIds
  have hvoice (v : VoiceId) : (voiceIds.foldl cutVoice (restarted n s)).voice v = cutOf (s.mix v).fade (s.voice v) :=
    (foldl_cutVoice_voice (List.nodup_finRange 8) (restarted n s) v).trans (if_pos (List.mem_finRange v))
  have hgroups := showRestart_groups n s
  have hcases := showRestart_of_idle (n := n) hidle hset
  generalize voiceIds.foldl cutVoice (restarted n s) = m at *
  have hpresence := Hushed.offerPresence (s := { m with returns := [] }) hhush.announces
  have htriggers := offerPresence_triggers { m with returns := [] }
  have hqueue : (m.line.queue.filter fun e => e.body != .presence)
      = s.line.queue.filter fun e => !e.body.ofGroups && e.body != .presence := by
    rw [hhush.queue]
    show (s.line.queue.filter _).filter _ = _
    rw [List.filter_filter]
    congr 1
    funext e
    exact Bool.and_comm _ _
  rcases hcases with h | h <;> rw [h] at hgroups ⊢
  · exact ⟨hgroups, hspare.starts, hqueue, hvoice, hhush.counters, hspare.clock, hspare.tables, hspare.preload, hspare.triggers,
      hhush.answers, hspare.duck⟩
  · refine ⟨hgroups, ?_, hpresence.queue.trans hqueue, fun v => ?_, hpresence.counters.trans hhush.counters, ?_, ?_, ?_,
      htriggers.trans hspare.triggers, hpresence.answers.trans hhush.answers, ?_⟩
    · rw [offerPresence_starts]; exact hspare.starts
    · rw [State.voice_eq _ _ (offerPresence_voices _)]; exact hvoice v
    · rw [offerPresence_clock]; exact hspare.clock
    · rw [offerPresence_tables]; exact hspare.tables
    · rw [offerPresence_preload]; exact hspare.preload
    · rw [offerPresence_mixer]; exact hspare.duck

theorem heard_queue (src : Station) (s : State) : (heard src s).line.queue = s.line.queue := by
  obtain ⟨views, h⟩ := signOfLife_frame src (endReception .frameEnded s)
  rw [heard, h]
  rfl

/-- Settles O49. -/
theorem restartReturnsTheShowToItsStart : Obligations.RestartReturnsTheShowToItsStart := by
  intro src dst n s hs hset
  have hidle : (heard src s).line.activity = .none := by
    obtain ⟨-, -, hdrive, -⟩ := hs
    exact heard_activity hdrive
  have hexec : exec (.restartReceived src dst n) s = .next (takeRestart n (heard src s)) := event_receive_of_handsOn hs _
  dsimp only
  rw [hexec, ← heard_showNo src s, ← heard_queue src s, ← heard_answers src s, ← heard_clock src s, ← heard_tables src s,
    ← heard_preload src s, ← heard_triggers src s, ← heard_duck src s, ← heard_starts src s]
  have hvoice (v : VoiceId) := heard_voice src s v
  have hmix (v : VoiceId) := heard_mix src s v
  have hset := hset.heard src
  generalize heard src s = h at *
  refine ⟨fun h0 => ?_, fun h1 => ?_, fun h1 h2 hlen => ?_⟩
  · have hb : ¬ behind n h.groups.showNo = true := by rw [behind_iff]; omega
    have ha : ¬ ahead n h.groups.showNo = true := by rw [ahead_iff]; omega
    simp only [takeRestart, if_neg hb, if_neg ha]
  · simp only [takeRestart, if_pos ((behind_iff ..).2 h1)]
  · have ha := (ahead_iff n h.groups.showNo).2 ⟨h1, h2⟩
    simp only [takeRestart, if_neg (not_behind_of_ahead ha), if_pos ha]
    obtain ⟨groups, starts, queue, voices, counters, clock, tables, preload, triggers, answers, duck⟩ :=
      showRestart_restarts (n := n) hidle hset hlen
    refine ⟨_, rfl, groups, starts, queue, fun v => ?_, counters, clock, tables, preload, triggers, answers, duck⟩
    rw [voices, ← hvoice, ← hmix]
    exact ⟨fun hx => cutOf_of_idle hx, fun hx => cutOf_of_priming hx, fun hx => cutOf_of_sounding hx⟩

end Sys2Proof.Machine
end

