-- ==== Sys2Proof/Proofs/PeerFields.lean ====
section
/-! PROOFS. The group fields of a PRESENCE: what each group's view becomes, and what the rest of the station hears of it (R156, R157,
R164, R165, R175). -/

namespace Sys2Proof.Machine

/-! ### What the handling of one group leaves elsewhere -/

/-- A view but for the mark of its timeout release, which only a view in HELD_ME has (R163). -/
def SameBut (v w : View) : Prop := v = { w with timeoutQueued := v.timeoutQueued } ∧ (w.state ≠ .heldMe → v = w)

theorem SameBut.refl (v : View) : SameBut v v := ⟨rfl, fun _ => rfl⟩

theorem SameBut.of_eq {v w : View} (h : v = w) : SameBut v w := h ▸ .refl v

theorem SameBut.state {v w : View} (h : SameBut v w) : v.state = w.state := by rw [h.1]

theorem SameBut.trans {u v w : View} (h : SameBut u v) (k : SameBut v w) : SameBut u w := by
  refine ⟨?_, fun hw => ?_⟩
  · rw [h.1, k.1]
  · rw [h.2 (by rw [k.state]; exact hw), k.2 hw]

/-- The voices, the starts, the mixer and the list of returns are as they were. -/
def Mute (s t : State) : Prop := t.voices = s.voices ∧ t.starts = s.starts ∧ t.mixer = s.mixer ∧ t.returns = s.returns

theorem Mute.refl (s : State) : Mute s s := ⟨rfl, rfl, rfl, rfl⟩

theorem Mute.trans {s t u : State} (h : Mute s t) (k : Mute t u) : Mute s u :=
  ⟨k.1.trans h.1, k.2.1.trans h.2.1, k.2.2.1.trans h.2.2.1, k.2.2.2.trans h.2.2.2⟩

/-- What the handling of group g leaves of the other groups, the peers and the station. -/
structure Field (g : GroupId) (s t : State) : Prop where
  idle : s.line.activity = .none → t.line.activity = .none
  others : ∀ k, k ≠ g → SameBut (t.view k) (s.view k)
  peers : t.peers.table = s.peers.table
  peerKeys : t.mixer.peerKeys = s.mixer.peerKeys
  stale : t.counter .staleFrame = s.counter .staleFrame
  showNo : t.groups.showNo = s.groups.showNo
  number : t.number = s.number
  tables : t.tables = s.tables
  clock : t.clock = s.clock

theorem Field.refl (g : GroupId) (s : State) : Field g s s :=
  ⟨id, fun _ _ => .refl _, rfl, rfl, rfl, rfl, rfl, rfl, rfl⟩

theorem Field.trans {g : GroupId} {s t u : State} (h : Field g s t) (k : Field g t u) : Field g s u :=
  ⟨k.idle ∘ h.idle, fun i hi => (k.others i hi).trans (h.others i hi), k.peers.trans h.peers, k.peerKeys.trans h.peerKeys,
    k.stale.trans h.stale, k.showNo.trans h.showNo, k.number.trans h.number, k.tables.trans h.tables, k.clock.trans h.clock⟩

theorem Field.setView (g : GroupId) (w : View) (s : State) : Field g s (s.setView g w) :=
  ⟨id, fun _ hk => .of_eq (State.view_setView_ne s w hk), rfl, rfl, rfl, rfl, rfl, rfl, rfl⟩

theorem Mute.setView (g : GroupId) (w : View) (s : State) : Mute s (s.setView g w) := ⟨rfl, rfl, rfl, rfl⟩

theorem Field.conflict (g : GroupId) (s : State) : Field g s (s.bump .conflict) :=
  ⟨id, fun _ _ => .refl _, rfl, rfl, State.counter_bump_ne s (by decide), rfl, rfl, rfl, rfl⟩

theorem offer_peers (b : TxBody) (s : State) : (offer b s).peers.table = s.peers.table := by rw [offer_shape]

theorem offerPresence_peers (s : State) : (offerPresence s).peers.table = s.peers.table := by
  rcases offerPresence_cases s with h | h <;> rw [h]
  exact offer_peers _ s

theorem Moves.field {V : State → State → Prop} {s t : State} (m : Moves V s t) (g : GroupId) : Field g s t := by
  have hrest : t.peers.table = s.peers.table ∧ t.mixer.peerKeys = s.mixer.peerKeys ∧ t.tables = s.tables ∧ t.clock = s.clock := by
    refine m.keep (P := fun s t => t.peers.table = s.peers.table ∧ t.mixer.peerKeys = s.mixer.peerKeys ∧ t.tables = s.tables
      ∧ t.clock = s.clock) (fun _ => ⟨rfl, rfl, rfl, rfl⟩)
      (fun _ _ _ ⟨a, b, c, d⟩ ⟨a', b', c', d'⟩ => ⟨a'.trans a, b'.trans b, c'.trans c, d'.trans d⟩) (fun s t e _ => ?_)
      (fun _ _ _ => ⟨rfl, rfl, rfl, rfl⟩) fun s => ?_
    · rw [e]
      exact ⟨rfl, rfl, rfl, rfl⟩
    · rw [offerPresence_mixer]
      exact ⟨offerPresence_peers s, rfl, offerPresence_tables s, offerPresence_clock s⟩
  obtain ⟨peers, peerKeys, tables, clock⟩ := hrest
  exact ⟨m.idle, fun k _ => .of_eq (State.view_eq _ _ m.groups k), peers, peerKeys, m.counter rfl (by decide),
    congrArg (·.showNo) m.groups, m.number, tables, clock⟩

theorem tidy_field {g : GroupId} {old : View} {own : Bool} {s : State} (hidle : s.line.activity = .none) :
    Field g s (tidy g old own s) ∧ Mute s (tidy g old own s) := by
  have hcount := tidy_counter (g := g) (old := old) (own := own) hidle (c := .staleFrame) (by decide)
  obtain ⟨voices, starts, mixer, -, -, showNo⟩ := tidy_frame (g := g) (old := old) (own := own) hidle
  have handled := Handled.tidy g old own s
  rw [tidied_counter, if_neg (by simp)] at hcount
  have htidied : (tidied g old own s).line.activity = .none ∧ (tidied g old own s).peers = s.peers
      ∧ (tidied g old own s).returns = s.returns := by
    unfold tidied
    rcases State.bumpIf_cases s (old.state == .claiming && (s.view g).state != .claiming && !own) .claimLost with h | h <;> rw [h]
    · exact ⟨hidle, rfl, rfl⟩
    · exact ⟨hidle, rfl, rfl⟩
  obtain ⟨quiet, peers, returns⟩ := htidied
  have hrest : (tidy g old own s).line.activity = .none ∧ (tidy g old own s).peers.table = s.peers.table
      ∧ (tidy g old own s).returns = s.returns := by
    rw [tidy_of_idle hidle]
    split
    · exact ⟨(Moves.offerPresence (V := Admits) _).idle quiet, (offerPresence_peers _).trans (congrArg (·.table) peers),
        (offerPresence_returns _).trans returns⟩
    · exact ⟨quiet, congrArg (·.table) peers, returns⟩
  obtain ⟨quiet, table, returns⟩ := hrest
  exact ⟨⟨fun _ => quiet, fun k hk => .of_eq ((tidy_view g old own s).2 k hk), table, congrArg (·.peerKeys) mixer, hcount, showNo,
    handled.number, handled.tables, handled.clock⟩, voices, starts, mixer, returns⟩

theorem changeView_field {g : GroupId} {w : View} {s : State} (hidle : s.line.activity = .none) :
    Field g s (changeView g w s) ∧ Mute s (changeView g w s) := by
  obtain ⟨field, mute⟩ := tidy_field (g := g) (old := s.view g) (own := false) (s := s.setView g w) hidle
  exact ⟨(Field.setView g w s).trans field, (Mute.setView g w s).trans mute⟩

/-- An offer of a HOLD may cost a timeout release its place in the queue, and no more of any view (R123, R163). -/
theorem offerHold_view (k g : GroupId) (s : State) : SameBut ((offerHold g s).view k) (s.view k) := by
  have dropped (b : TxBody) (hb : 0 < b.rank) (t : State) : SameBut ((frameDropped b t).view k) (t.view k) := by
    cases b with
    | claim => cases hb
    | release i n e v =>
      show SameBut (State.view (if (t.view i).state = .heldMe ∧ (t.view i).timer = .expired then _ else t) k) (t.view k)
      split
      · rename_i h
        by_cases hk : k = i
        · subst hk
          rw [State.view_setView]
          exact ⟨rfl, fun hne => absurd h.1 hne⟩
        · exact .of_eq (State.view_setView_ne _ _ hk)
      · exact .refl _
    | presence | status | hold | fire | stop | segment => exact .refl _
  have recheck (t : State) : (recheckHoldoff t).view k = t.view k := by
    rcases recheckHoldoff_shape t with h | ⟨-, h⟩ <;> rw [h]
    rfl
  unfold offerHold offer
  rcases offerWith_cases (.hold g s.groups.showNo (s.view g).epoch) s with e | ⟨e, -⟩ | ⟨e, -⟩ | ⟨w, -, hw, -, -, e, -⟩ <;> rw [e]
  · exact .refl _
  · exact .of_eq (recheck _)
  · exact .refl _
  · exact (SameBut.of_eq (recheck _)).trans (dropped w.body hw _)

theorem offerHold_field (g : GroupId) (s : State) : Field g s (offerHold g s) ∧ Mute s (offerHold g s) := by
  have handled := Handled.offerHold g s
  have hcount : (offerHold g s).counter .staleFrame = s.counter .staleFrame := by
    have recheck (t : State) : (recheckHoldoff t).counter .staleFrame = t.counter .staleFrame := by
      rcases recheckHoldoff_shape t with h | ⟨-, h⟩ <;> rw [h]
      rfl
    have dropped (b : TxBody) (t : State) : (frameDropped b t).counter .staleFrame = t.counter .staleFrame := by
      rcases frameDropped_counter b t with h | h
      · exact congrArg (fun v : Vector Nat 16 => v.get Counter.staleFrame.idx) h
      · exact (congrArg (fun v : Vector Nat 16 => v.get Counter.staleFrame.idx) h).trans
          (State.counter_bump_ne t (c := .claimLost) (d := .staleFrame) (by decide))
    have bumped (t : State) : (t.bump .txDropped).counter .staleFrame = t.counter .staleFrame :=
      State.counter_bump_ne t (by decide)
    unfold offerHold offer
    rcases offerWith_cases (.hold g s.groups.showNo (s.view g).epoch) s with e | ⟨e, -⟩ | ⟨e, -⟩ | ⟨w, -, -, -, -, e, -⟩ <;> rw [e]
    · exact recheck _
    · exact (dropped _ _).trans (bumped s)
    · exact (recheck _).trans ((dropped _ _).trans (bumped (leaveTx w.ident s)))
  have hshow : (offerHold g s).groups.showNo = s.groups.showNo := by rw [offerHold, offer_shape]
  refine ⟨⟨(Regular.offerHold g s).idle, fun k _ => offerHold_view k g s, offer_peers _ s, ?_, hcount, hshow, handled.number,
    handled.tables, handled.clock⟩, offer_voices _ s, offer_starts _ s, offer_mixer _ s, offer_returns _ s⟩
  exact congrArg (·.peerKeys) (offer_mixer _ s)

/-! ### The won cue (R157, R165) -/

/-- The station has lost a holding of g, and the group's won cue, where there is one, has been cut. -/
def WonCueEnds (g : GroupId) (s t : State) : Prop :=
  ((s.groupCfg g).wonCue = none → Mute s t)
    ∧ ∀ c, (s.groupCfg g).wonCue = some c → NoStartWaits s → t.starts = s.starts ∧ WonCueCut c s t

theorem cutWonCue_ends (g : GroupId) (s : State) : WonCueEnds g s (cutWonCue g s) := by
  refine ⟨fun h => ?_, fun c h hq => ?_⟩
  · rw [cutWonCue_of_none h]
    exact .refl s
  · rw [cutWonCue_of_some h]
    exact stopCue_of_empty hq.1 hq.2 c

theorem WonCueCut.of_mute {c : LocalCue} {s t u v : State} (h : WonCueCut c t u) (hs : Mute s t) (hu : Mute u v) :
    WonCueCut c s v := by
  intro i
  have hvoice : t.voice i = s.voice i := State.voice_eq _ _ hs.1 i
  have hout : v.voice i = u.voice i := State.voice_eq _ _ hu.1 i
  have hmix : t.mix i = s.mix i := congrArg (fun m : Mixer => m.mix.get i) hs.2.2.1
  rw [hout, ← hvoice, ← hmix]
  exact h i

/-- Only the sounds of the states between which the won cue ends matter. -/
theorem WonCueEnds.of_mute {g : GroupId} {s t u v : State} (h : WonCueEnds g t u) (hs : Mute s t) (hu : Mute u v)
    (tables : t.tables = s.tables) : WonCueEnds g s v := by
  have hcfg : t.groupCfg g = s.groupCfg g := by rw [State.groupCfg, tables]; rfl
  refine ⟨fun hc => (hs.trans (h.1 (hcfg ▸ hc))).trans hu, fun c hc hq => ?_⟩
  obtain ⟨starts, cut⟩ := h.2 c (hcfg ▸ hc) ⟨hs.2.2.2.trans hq.1, by rw [hs.2.1]; exact hq.2⟩
  exact ⟨hu.2.1.trans (starts.trans hs.2.1), cut.of_mute hs hu⟩

/-! ### What a grown exclusion set forbids (R165) -/

/-- A view as the end of what its exclusion set forbids leaves it, at station n. -/
def enforcedView (n : Station) (w : View) : View :=
  match w.state with
  | .heldOther | .heldMe => if w.holder.any (inSet · w.excl) then tidyView w (releasedView w) else w
  | .claiming => if inSet n w.excl then tidyView w (freeView w) else w
  | .free => w

theorem enforce_field {g : GroupId} {s : State} (hidle : s.line.activity = .none) :
    Field g s (enforce g s) ∧ (enforce g s).view g = enforcedView s.number (s.view g)
      ∧ ((s.view g).state = .heldMe → (s.view g).holder.any (inSet · (s.view g).excl) = true → WonCueEnds g s (enforce g s))
      ∧ (¬ ((s.view g).state = .heldMe ∧ (s.view g).holder.any (inSet · (s.view g).excl) = true) → Mute s (enforce g s)) := by
  unfold enforce enforcedView
  dsimp only
  cases hw : (s.view g).state with
  | free => exact ⟨.refl g s, rfl, fun h => (by cases h), fun _ => .refl s⟩
  | claiming =>
    dsimp only
    split
    · obtain ⟨field, mute⟩ := changeView_field (g := g) (w := freeView (s.view g)) hidle
      exact ⟨field, (changeView_view g _ s).1, fun h => (by cases h), fun _ => mute⟩
    · exact ⟨.refl g s, rfl, fun h => (by cases h), fun _ => .refl s⟩
  | heldOther =>
    dsimp only
    split
    · obtain ⟨field, mute⟩ := changeView_field (g := g) (w := releasedView (s.view g)) hidle
      exact ⟨field, (changeView_view g _ s).1, fun h => (by cases h), fun _ => mute⟩
    · exact ⟨.refl g s, rfl, fun h => (by cases h), fun _ => .refl s⟩
  | heldMe =>
    dsimp only
    split
    · rename_i hany
      have m := Moves.cutWonCue g (s.setView g (releasedView (s.view g)))
      have ends := cutWonCue_ends g (s.setView g (releasedView (s.view g)))
      obtain ⟨field, mute⟩ := tidy_field (g := g) (old := s.view g) (own := false) (m.idle hidle)
      refine ⟨((Field.setView g _ s).trans (m.field g)).trans field, ?_, fun _ _ => ?_, fun h => absurd ⟨rfl, hany⟩ h⟩
      · rw [(tidy_view ..).1, State.view_eq _ _ m.groups, State.view_setView]
      · exact ends.of_mute (.setView g _ s) mute rfl
    · rename_i hany
      exact ⟨.refl g s, rfl, fun _ h => absurd h hany, fun _ => .refl s⟩

/-! ### A listed holding, and one that is not (R156, R157, R164) -/

/-- A view as a report that x holds the group with an age leaves it, at station n. -/
def reportedView (n x : Station) (now : Time) (age : Nat) (w : View) : View :=
  if inSet x w.excl then w
  else
    match w.state with
    | .free | .claiming => tidyView w (heldBy x (claimTimeOf now age) w)
    | .heldOther =>
      match w.holder with
      | some y =>
        if y = x then w
        else if olderHolding age x (holdingAge now w) y then tidyView w (heldBy x (claimTimeOf now age) w)
        else w
      | none => w
    | .heldMe => if olderHolding age x (holdingAge now w) n then tidyView w (heldBy x (claimTimeOf now age) w) else w

/-- The report takes the group from the station itself. -/
def Yields (n x : Station) (now : Time) (age : Nat) (w : View) : Prop :=
  w.state = .heldMe ∧ inSet x w.excl = false ∧ olderHolding age x (holdingAge now w) n = true

theorem holdRule_field {x : Station} {age : Nat} {g : GroupId} {s : State} (hidle : s.line.activity = .none) :
    Field g s (holdRule x age g s) ∧ SameBut ((holdRule x age g s).view g) (reportedView s.number x s.now age (s.view g))
      ∧ (Yields s.number x s.now age (s.view g) → WonCueEnds g s (holdRule x age g s))
      ∧ (¬ Yields s.number x s.now age (s.view g) → Mute s (holdRule x age g s)) := by
  obtain ⟨field, mute⟩ := changeView_field (g := g) (w := heldBy x (claimTimeOf s.now age) (s.view g)) hidle
  have hview := (changeView_view g (heldBy x (claimTimeOf s.now age) (s.view g)) s).1
  have keeps {P : Prop} {v : View} (hv : s.view g = v) (hn : ¬ P) :
      Field g s s ∧ SameBut (s.view g) v ∧ (P → WonCueEnds g s s) ∧ (¬ P → Mute s s) :=
    ⟨.refl g s, .of_eq hv, fun h => absurd h hn, fun _ => .refl s⟩
  unfold reportedView
  cases hx : inSet x (s.view g).excl with
  | true =>
    rw [holdRule_of_excluded hx, if_pos rfl]
    exact keeps rfl fun h => by rw [h.2.1] at hx; cases hx
  | false =>
    rw [if_neg Bool.false_ne_true]
    cases hw : (s.view g).state with
    | free =>
      rw [holdRule_of_free_or_claiming hx (.inl hw)]
      exact ⟨field, .of_eq hview, fun h => (by rw [h.1] at hw; cases hw), fun _ => mute⟩
    | claiming =>
      rw [holdRule_of_free_or_claiming hx (.inr hw)]
      exact ⟨field, .of_eq hview, fun h => (by rw [h.1] at hw; cases hw), fun _ => mute⟩
    | heldOther =>
      have hn : ¬ Yields s.number x s.now age (s.view g) := fun h => by rw [h.1] at hw; cases hw
      cases hy : (s.view g).holder with
      | none =>
        have hrule : holdRule x age g s = s := by simp [holdRule, hx, hw, hy]
        rw [hrule]
        exact keeps rfl hn
      | some y =>
        rw [holdRule_of_heldOther hx hw hy]
        dsimp only
        split
        · exact keeps rfl hn
        · split
          · exact ⟨field.trans (.conflict g _), .of_eq hview, fun h => absurd h hn, fun _ => mute⟩
          · exact keeps rfl hn
    | heldMe =>
      rw [holdRule_of_heldMe hx hw]
      dsimp only
      split
      · rename_i hold
        have m := Moves.cutWonCue g (s.setView g (heldBy x (claimTimeOf s.now age) (s.view g)))
        have ends := cutWonCue_ends g (s.setView g (heldBy x (claimTimeOf s.now age) (s.view g)))
        obtain ⟨field, mute⟩ := tidy_field (g := g) (old := s.view g) (own := false)
          (s := (cutWonCue g (s.setView g (heldBy x (claimTimeOf s.now age) (s.view g)))).bump .conflict) (m.idle hidle)
        refine ⟨(((Field.setView g _ s).trans (m.field g)).trans (.conflict g _)).trans field, .of_eq ?_, fun _ => ?_,
          fun h => absurd ⟨hw, hx, hold⟩ h⟩
        · refine ((tidy_view ..).1).trans ?_
          have hv : ((cutWonCue g (s.setView g (heldBy x (claimTimeOf s.now age) (s.view g)))).bump .conflict).view g = _ :=
            State.view_eq _ _ m.groups g
          rw [hv, State.view_setView]
        · exact ends.of_mute (.setView g _ s) mute rfl
      · rename_i hyoung
        obtain ⟨field, mute⟩ := offerHold_field g s
        exact ⟨field, offerHold_view g g s, fun h => absurd h.2.2 hyoung, fun _ => mute⟩

/-- A view as the frame's list of holdings leaves it, the entry of its group as given. -/
def listedView (n x : Station) (now : Time) (entry : Option Nat) (w : View) : View :=
  match entry with
  | some age => reportedView n x now age w
  | none => if w.state = .heldOther ∧ w.holder = some x then tidyView w (releasedView w) else w

theorem heldFields_field {x : Station} {g : GroupId} {entry : Option Nat} {s : State} (hidle : s.line.activity = .none) :
    Field g s (heldFields x g entry s)
      ∧ SameBut ((heldFields x g entry s).view g) (listedView s.number x s.now entry (s.view g))
      ∧ ((∃ age, entry = some age ∧ Yields s.number x s.now age (s.view g)) → WonCueEnds g s (heldFields x g entry s))
      ∧ ((¬ ∃ age, entry = some age ∧ Yields s.number x s.now age (s.view g)) → Mute s (heldFields x g entry s)) := by
  cases entry with
  | some age =>
    obtain ⟨field, view, ends, mute⟩ := holdRule_field (x := x) (age := age) (g := g) hidle
    exact ⟨field, view, fun ⟨_, rfl, h⟩ => ends h, fun h => mute fun hy => h ⟨age, rfl, hy⟩⟩
  | none =>
    unfold heldFields listedView
    dsimp only
    split
    · obtain ⟨field, mute⟩ := changeView_field (g := g) (w := releasedView (s.view g)) hidle
      exact ⟨field, .of_eq (changeView_view g _ s).1, (fun ⟨_, h, _⟩ => by cases h), fun _ => mute⟩
    · exact ⟨.refl g s, .refl _, (fun ⟨_, h, _⟩ => by cases h), fun _ => .refl s⟩

/-! ### One group (R164) -/

/-- A view with the frame's set united to its own. -/
def unitedView (sent : StationSet) (w : View) : View := { w with excl := w.excl ||| sent }

/-- A view as the group field of a PRESENCE from x leaves it, at station n. -/
def fieldView (n x : Station) (now : Time) (epoch : Byte) (sent : StationSet) (entry : Option Nat) (w : View) : View :=
  if behind epoch w.epoch then w
  else
    let v := enforcedView n (if ahead epoch w.epoch then impliedView epoch { w with excl := sent } else unitedView sent w)
    if v.epoch = epoch then listedView n x now entry v else v

/-- The group field takes the group from the station itself. -/
def Loses (n x : Station) (now : Time) (epoch : Byte) (sent : StationSet) (entry : Option Nat) (w : View) : Prop :=
  w.state = .heldMe ∧ epoch = w.epoch
    ∧ (w.holder.any (inSet · (w.excl ||| sent)) = true
      ∨ inSet x (w.excl ||| sent) = false ∧ ∃ age, entry = some age ∧ olderHolding age x (holdingAge now w) n = true)

theorem epoch_eq_of_not_ahead {a b : Byte} (h1 : ¬ behind a b = true) (h2 : ¬ ahead a b = true) : a = b := by
  rw [behind_iff] at h1
  rw [ahead_iff] at h2
  bv_omega

theorem implicitRelease_field {g : GroupId} {epoch : Byte} {sent : StationSet} {s : State} (hidle : s.line.activity = .none) :
    Field g s (implicitRelease g epoch (some sent) s) ∧ Mute s (implicitRelease g epoch (some sent) s)
      ∧ (implicitRelease g epoch (some sent) s).view g = impliedView epoch { s.view g with excl := sent } := by
  obtain ⟨field, mute⟩ := changeView_field (g := g) (w := impliedView epoch { s.view g with excl := sent }) hidle
  have hview := (changeView_view g (impliedView epoch { s.view g with excl := sent }) s).1
  refine ⟨field, mute, hview.trans ?_⟩
  unfold tidyView impliedView
  simp

/-- What the exclusion set ends is not in HELD_ME. -/
theorem enforcedView_of_heldMe {n : Station} {w : View} (h : (enforcedView n w).state = .heldMe) :
    w.state = .heldMe ∧ enforcedView n w = w ∧ w.holder.any (inSet · w.excl) = false := by
  unfold enforcedView at h ⊢
  cases hw : w.state with
  | free => simp only [hw] at h; cases h
  | claiming =>
    simp only [hw] at h
    split at h
    · rw [tidyView_state] at h; cases h
    · rw [hw] at h; cases h
  | heldOther =>
    simp only [hw] at h
    split at h
    · rw [tidyView_state] at h; cases h
    · rw [hw] at h; cases h
  | heldMe =>
    simp only [hw] at h ⊢
    split at h
    · rw [tidyView_state] at h; cases h
    · rename_i hany
      rw [if_neg hany]
      exact ⟨trivial, rfl, Bool.eq_false_iff.2 hany⟩

theorem tidyView_epoch (old new : View) : (tidyView old new).epoch = new.epoch := by
  unfold tidyView
  dsimp only
  split <;> split <;> rfl

theorem groupField_field {x : Station} {p : Presence} {g : GroupId} {s : State} (hidle : s.line.activity = .none) :
    Field g s (groupField x p s g)
      ∧ SameBut ((groupField x p s g).view g)
        (fieldView s.number x s.now (p.epochs.get g) (readSet (p.excl.get g)) (heldEntry p.held g) (s.view g))
      ∧ (Loses s.number x s.now (p.epochs.get g) (readSet (p.excl.get g)) (heldEntry p.held g) (s.view g) →
        WonCueEnds g s (groupField x p s g))
      ∧ (¬ Loses s.number x s.now (p.epochs.get g) (readSet (p.excl.get g)) (heldEntry p.held g) (s.view g) →
        Mute s (groupField x p s g)) := by
  unfold groupField fieldView
  dsimp only
  generalize heldEntry p.held g = entry, readSet (p.excl.get g) = sent
  -- The list of holdings is read where the epochs agree after the set has been taken.
  have hlist {t : State} {v : View} (field : Field g s t) (hv : t.view g = v) :
      let u := if (t.view g).epoch = p.epochs.get g then heldFields x g entry t else t
      Field g s u ∧ SameBut (u.view g) (if v.epoch = p.epochs.get g then listedView s.number x s.now entry v else v)
        ∧ (v.epoch = p.epochs.get g → (∃ age, entry = some age ∧ Yields s.number x s.now age v) → WonCueEnds g t u)
        ∧ (¬ (v.epoch = p.epochs.get g ∧ ∃ age, entry = some age ∧ Yields s.number x s.now age v) → Mute t u) := by
    subst hv
    obtain ⟨field', view, ends, mute⟩ := heldFields_field (x := x) (g := g) (entry := entry) (field.idle hidle)
    have hnow : t.now = s.now := congrArg (·.time) field.clock
    rw [field.number, hnow] at view ends mute
    dsimp only
    split
    · rename_i he
      exact ⟨field.trans field', view, fun _ => ends, fun h => mute fun hy => h ⟨he, hy⟩⟩
    · rename_i he
      exact ⟨field, .refl _, fun h => absurd h he, fun _ => .refl t⟩
  split
  · rename_i hb
    refine ⟨.refl g s, .refl _, fun h => ?_, fun _ => .refl s⟩
    obtain ⟨-, h, -⟩ := h
    rw [h, behind_self] at hb
    cases hb
  · rename_i hb
    split
    · rename_i ha
      obtain ⟨field, mute, view⟩ := implicitRelease_field (g := g) (epoch := p.epochs.get g) (sent := sent) hidle
      obtain ⟨field', view', -, mute'⟩ := hlist field view
      rw [enforce_of_free (implicitRelease_view ..)]
      refine ⟨field', view', fun h => ?_, fun _ => mute.trans (mute' fun h => ?_)⟩
      · obtain ⟨-, h, -⟩ := h
        rw [h, ahead_self] at ha
        cases ha
      · obtain ⟨-, _, -, h, -⟩ := h
        cases h
    · rename_i ha
      have hepoch := epoch_eq_of_not_ahead hb ha
      obtain ⟨field, view, ends, mute⟩ := enforce_field (g := g) (s := s.setView g (unitedView sent (s.view g))) hidle
      rw [State.view_setView] at view ends mute
      obtain ⟨field', view', ends', mute'⟩ := hlist ((Field.setView g _ s).trans field) view
      have hunited := Mute.setView g (unitedView sent (s.view g)) s
      by_cases hme : (s.view g).state = .heldMe
      · by_cases hany : (s.view g).holder.any (inSet · ((s.view g).excl ||| sent)) = true
        · -- The set forbids the own holding: its won cue ends, and the epoch has gone on.
          have hforced : enforcedView s.number (unitedView sent (s.view g)) =
              tidyView (unitedView sent (s.view g)) (releasedView (unitedView sent (s.view g))) := by
            have hme' : (unitedView sent (s.view g)).state = .heldMe := hme
            simp only [enforcedView, hme']
            exact if_pos hany
          have hne : (enforcedView s.number (unitedView sent (s.view g))).epoch ≠ p.epochs.get g := by
            rw [hforced, tidyView_epoch, hepoch]
            exact (epoch_ne_succ _).symm
          exact ⟨field', view', fun _ => (ends hme hany).of_mute hunited (mute' fun h => hne h.1) rfl,
            fun h => absurd ⟨hme, hepoch, .inl hany⟩ h⟩
        · have hmute := hunited.trans (mute fun h => hany h.2)
          have hforced : enforcedView s.number (unitedView sent (s.view g)) = unitedView sent (s.view g) := by
            have hme' : (unitedView sent (s.view g)).state = .heldMe := hme
            simp only [enforcedView, hme']
            exact if_neg hany
          change Field g s _ ∧ SameBut _ _ ∧ _
          have hnum : (s.setView g (unitedView sent (s.view g))).number = s.number := rfl
          rw [hnum, hforced] at ends' mute'
          refine ⟨field', view', fun h => ?_, fun h => hmute.trans (mute' fun hy => h ?_)⟩
          · obtain ⟨-, -, h | ⟨hx, age, he, hold⟩⟩ := h
            · exact absurd h hany
            · exact (ends' hepoch.symm ⟨age, he, hme, hx, hold⟩).of_mute hmute (.refl _)
                (field.tables.trans rfl)
          · obtain ⟨-, age, he, -, hx, hold⟩ := hy
            exact ⟨hme, hepoch, .inr ⟨hx, age, he, hold⟩⟩
      · refine ⟨field', view', fun h => absurd h.1 hme, fun _ => ?_⟩
        refine (hunited.trans (mute fun h => hme h.1)).trans (mute' fun hy => ?_)
        obtain ⟨-, _, -, hstate, -⟩ := hy
        exact hme (enforcedView_of_heldMe hstate).1

/-! ### Group after group (R164) -/

/-- What the group fields leave of the station but for its views. -/
structure Around (s t : State) : Prop where
  idle : s.line.activity = .none → t.line.activity = .none
  peers : t.peers.table = s.peers.table
  peerKeys : t.mixer.peerKeys = s.mixer.peerKeys
  stale : t.counter .staleFrame = s.counter .staleFrame
  showNo : t.groups.showNo = s.groups.showNo
  number : t.number = s.number
  tables : t.tables = s.tables
  clock : t.clock = s.clock

theorem Around.refl (s : State) : Around s s := ⟨id, rfl, rfl, rfl, rfl, rfl, rfl, rfl⟩

theorem Around.trans {s t u : State} (h : Around s t) (k : Around t u) : Around s u :=
  ⟨k.idle ∘ h.idle, k.peers.trans h.peers, k.peerKeys.trans h.peerKeys, k.stale.trans h.stale, k.showNo.trans h.showNo,
    k.number.trans h.number, k.tables.trans h.tables, k.clock.trans h.clock⟩

theorem Field.around {g : GroupId} {s t : State} (h : Field g s t) : Around s t :=
  ⟨h.idle, h.peers, h.peerKeys, h.stale, h.showNo, h.number, h.tables, h.clock⟩

theorem tidyView_of_heldMe {v w : View} (hv : v.state = .heldMe) (hw : w.state ≠ .heldMe) :
    tidyView v w = { w with stale := if w.state = .heldOther then w.stale else false, timer := .stopped, timeoutQueued := false } := by
  unfold tidyView
  cases hs : w.state <;> simp_all

/-- The mark of the timeout release does not decide what a PRESENCE makes of a view. -/
theorem fieldView_sameBut {v w : View} (h : SameBut v w) (n x : Station) (now : Time) (epoch : Byte) (sent : StationSet)
    (entry : Option Nat) : SameBut (fieldView n x now epoch sent entry v) (fieldView n x now epoch sent entry w) := by
  by_cases hw : w.state = .heldMe
  swap
  · exact .of_eq (by rw [h.2 hw])
  obtain ⟨h, -⟩ := h
  generalize v.timeoutQueued = q at h
  subst h
  have hkept : SameBut (unitedView sent { w with timeoutQueued := q }) (unitedView sent w) := ⟨rfl, fun hn => absurd hw hn⟩
  have hgone (u : View) (hu : u.state ≠ .heldMe) :
      tidyView (unitedView sent { w with timeoutQueued := q }) { u with timeoutQueued := q } = tidyView (unitedView sent w) u := by
    rw [tidyView_of_heldMe (v := unitedView sent w) hw hu,
      tidyView_of_heldMe (v := unitedView sent { w with timeoutQueued := q }) (w := { u with timeoutQueued := q }) hw hu]
  unfold fieldView
  dsimp only
  split
  · exact ⟨rfl, fun hn => absurd hw hn⟩
  · split
    · exact .refl _
    · have hstate : (unitedView sent w).state = .heldMe := hw
      have hstate' : (unitedView sent { w with timeoutQueued := q }).state = .heldMe := hw
      simp only [enforcedView, hstate, hstate']
      by_cases hany : (unitedView sent w).holder.any (inSet · (unitedView sent w).excl) = true
      · have hany' : (unitedView sent { w with timeoutQueued := q }).holder.any
            (inSet · (unitedView sent { w with timeoutQueued := q }).excl) = true := hany
        rw [if_pos hany, if_pos hany']
        exact .of_eq (by
          rw [show tidyView (unitedView sent { w with timeoutQueued := q })
            (releasedView (unitedView sent { w with timeoutQueued := q })) = _ from
            hgone (releasedView (unitedView sent w)) nofun])
      · have hany' : ¬ (unitedView sent { w with timeoutQueued := q }).holder.any
            (inSet · (unitedView sent { w with timeoutQueued := q }).excl) = true := hany
        rw [if_neg hany, if_neg hany']
        show SameBut (if w.epoch = epoch then _ else _) (if w.epoch = epoch then _ else _)
        split
        swap
        · exact hkept
        cases entry with
        | none =>
          simp only [listedView, hstate, hstate']
          exact hkept
        | some age =>
          simp only [listedView, reportedView, hstate, hstate']
          show SameBut (if inSet x (w.excl ||| sent) then _ else if olderHolding age x (holdingAge now w) n then _ else _)
            (if inSet x (w.excl ||| sent) then _ else if olderHolding age x (holdingAge now w) n then _ else _)
          split
          · exact hkept
          · split
            · exact .of_eq (hgone (heldBy x (claimTimeOf now age) (unitedView sent w)) nofun)
            · exact hkept

theorem Loses.of_sameBut {v w : View} (h : SameBut v w) {n x : Station} {now : Time} {epoch : Byte} {sent : StationSet}
    {entry : Option Nat} : Loses n x now epoch sent entry v ↔ Loses n x now epoch sent entry w := by
  rw [h.1]
  exact Iff.rfl

section
variable (x : Station) (p : Presence)

/-- The view that the PRESENCE makes of a group's. -/
def fieldOf (s : State) (g : GroupId) : View :=
  fieldView s.number x s.now (p.epochs.get g) (readSet (p.excl.get g)) (heldEntry p.held g) (s.view g)

/-- The PRESENCE takes a group from the station. -/
def LosesGroup (s : State) (g : GroupId) : Prop :=
  Loses s.number x s.now (p.epochs.get g) (readSet (p.excl.get g)) (heldEntry p.held g) (s.view g)

variable {x p}

/-- The handling of one group leaves the decision about another as it was. -/
theorem losesGroup_after {s : State} {g k : GroupId} (hidle : s.line.activity = .none) (hk : k ≠ g) :
    LosesGroup x p (groupField x p s g) k ↔ LosesGroup x p s k := by
  obtain ⟨field, -⟩ := groupField_field (x := x) (p := p) (g := g) hidle
  have hnow : (groupField x p s g).now = s.now := congrArg (·.time) field.clock
  unfold LosesGroup
  rw [field.number, hnow]
  exact Loses.of_sameBut (field.others k hk)

theorem foldl_groupField_views {l : List GroupId} (hl : l.Nodup) {s : State} (hidle : s.line.activity = .none) :
    Around s (l.foldl (groupField x p) s)
      ∧ ∀ g, SameBut ((l.foldl (groupField x p) s).view g) (if g ∈ l then fieldOf x p s g else s.view g) := by
  induction l generalizing s with
  | nil => exact ⟨.refl s, fun g => .refl _⟩
  | cons k l ih =>
    obtain ⟨hk, hl⟩ := List.nodup_cons.1 hl
    obtain ⟨field, view, -⟩ := groupField_field (x := x) (p := p) (g := k) hidle
    obtain ⟨around, views⟩ := ih hl (field.idle hidle)
    have hnow : (groupField x p s k).now = s.now := congrArg (·.time) field.clock
    refine ⟨field.around.trans around, fun g => (views g).trans ?_⟩
    by_cases hg : g = k
    · subst hg
      rw [if_neg hk, if_pos (List.mem_cons_self ..)]
      exact view
    · by_cases hmem : g ∈ l
      · rw [if_pos hmem, if_pos (List.mem_cons_of_mem k hmem), fieldOf, field.number, hnow]
        exact fieldView_sameBut (field.others g hg) ..
      · rw [if_neg hmem, if_neg (by simp [hg, hmem])]
        exact field.others g hg

/-- Where the station loses no group of a won cue, the group fields touch no voice and no start. -/
theorem foldl_groupField_mute {l : List GroupId} (hl : l.Nodup) {s : State} (hidle : s.line.activity = .none)
    (h : ∀ k ∈ l, LosesGroup x p s k → (s.groupCfg k).wonCue = none) : Mute s (l.foldl (groupField x p) s) := by
  induction l generalizing s with
  | nil => exact .refl s
  | cons k l ih =>
    obtain ⟨hk, hl⟩ := List.nodup_cons.1 hl
    obtain ⟨field, -, ends, mute⟩ := groupField_field (x := x) (p := p) (g := k) hidle
    have hfirst : Mute s (groupField x p s k) := by
      by_cases hloses : LosesGroup x p s k
      · exact (ends hloses).1 (h k (List.mem_cons_self ..) hloses)
      · exact mute hloses
    refine hfirst.trans (ih hl (field.idle hidle) fun i hi hloses => ?_)
    have hne : i ≠ k := fun e => hk (e ▸ hi)
    rw [State.groupCfg, field.tables]
    exact h i (List.mem_cons_of_mem k hi) ((losesGroup_after hidle hne).1 hloses)

/-- Where the station loses one group alone, its won cue ends. -/
theorem foldl_groupField_ends {l : List GroupId} (hl : l.Nodup) {g : GroupId} (hg : g ∈ l) {s : State}
    (hidle : s.line.activity = .none) (hloses : LosesGroup x p s g)
    (h : ∀ k ∈ l, k ≠ g → LosesGroup x p s k → (s.groupCfg k).wonCue = none) : WonCueEnds g s (l.foldl (groupField x p) s) := by
  induction l generalizing s with
  | nil => cases hg
  | cons k l ih =>
    obtain ⟨hk, hl'⟩ := List.nodup_cons.1 hl
    obtain ⟨field, -, ends, mute⟩ := groupField_field (x := x) (p := p) (g := k) hidle
    have hcfg (i : GroupId) : (groupField x p s k).groupCfg i = s.groupCfg i := by rw [State.groupCfg, field.tables]; rfl
    by_cases hkg : g = k
    · subst hkg
      have hrest : Mute (groupField x p s g) (l.foldl (groupField x p) (groupField x p s g)) :=
        foldl_groupField_mute hl' (field.idle hidle) fun i hi hlose => by
          have hne : i ≠ g := fun e => hk (e ▸ hi)
          rw [hcfg]
          exact h i (List.mem_cons_of_mem g hi) hne ((losesGroup_after hidle hne).1 hlose)
      exact (ends hloses).of_mute (.refl s) hrest rfl
    · have hfirst : Mute s (groupField x p s k) := by
        by_cases hlose : LosesGroup x p s k
        · exact (ends hlose).1 (h k (List.mem_cons_self ..) (Ne.symm hkg) hlose)
        · exact mute hlose
      have hrest := ih hl' ((List.mem_cons.1 hg).resolve_left hkg) (field.idle hidle) ((losesGroup_after hidle hkg).2 hloses)
        fun i hi hne hlose => by
          have hik : i ≠ k := fun e => hk (e ▸ hi)
          rw [hcfg]
          exact h i (List.mem_cons_of_mem k hi) hne ((losesGroup_after hidle hik).1 hlose)
      exact hrest.of_mute hfirst (.refl _) field.tables

end

end Sys2Proof.Machine
end

