-- ==== Sys2Proof/Proofs/PresenceHeard.lean ====
section
/-! PROOFS. PRESENCE as received: the peer's entry, the show test and every case of a group's view (R150, R156, R157, R164, R165,
R175). -/

namespace Sys2Proof.Machine

/-! ### The cases of a group's view (R164, R165) -/

section
variable {n x : Station} {now : Time} {epoch : Byte} {sent : StationSet} {entry : Option Nat} {w : View}

theorem fieldView_of_behind (h : 128 ≤ (epoch - w.epoch).toNat) : fieldView n x now epoch sent entry w = w :=
  if_pos ((behind_iff ..).2 h)

/-- At an epoch ahead the view is released to it, and the list is read (R151, R164). -/
theorem fieldView_of_ahead (h1 : 1 ≤ (epoch - w.epoch).toNat) (h2 : (epoch - w.epoch).toNat < 128) :
    fieldView n x now epoch sent entry w = listedView n x now entry (impliedView epoch { w with excl := sent }) := by
  have ha := (ahead_iff epoch w.epoch).2 ⟨h1, h2⟩
  rw [fieldView, if_neg (not_behind_of_ahead ha), if_pos ha]
  exact if_pos rfl

/-- At an equal epoch the sets are united, what they forbid ends, and the list is read where the view keeps its epoch (R165). -/
theorem fieldView_of_equal (h : (epoch - w.epoch).toNat = 0) : fieldView n x now epoch sent entry w =
    if (enforcedView n (unitedView sent w)).epoch = w.epoch then listedView n x now entry (enforcedView n (unitedView sent w))
    else enforcedView n (unitedView sent w) := by
  have he : epoch = w.epoch := epoch_eq_of_not_ahead (by rw [behind_iff]; omega) (by rw [ahead_iff]; omega)
  subst he
  simp [fieldView]

variable (h : (epoch - w.epoch).toNat = 0)
include h

/-- What a set that forbids the holder leaves. -/
theorem fieldView_of_forbidden {y : Station} (hw : w.state = .heldOther ∨ w.state = .heldMe) (hy : w.holder = some y)
    (hset : inSet y (w.excl ||| sent) = true) :
    fieldView n x now epoch sent entry w = tidyView (unitedView sent w) (releasedView (unitedView sent w)) := by
  have hforced : enforcedView n (unitedView sent w) = tidyView (unitedView sent w) (releasedView (unitedView sent w)) := by
    rcases hw with hw | hw <;> simp [enforcedView, unitedView, hw, hy, hset]
  rw [fieldView_of_equal h, hforced, if_neg]
  rw [tidyView_epoch]
  exact (epoch_ne_succ _).symm

/-- Where the set forbids nothing, the list is read on the view with the sets united. -/
theorem fieldView_of_allowed (hforced : enforcedView n (unitedView sent w) = unitedView sent w) :
    fieldView n x now epoch sent entry w = listedView n x now entry (unitedView sent w) := by
  rw [fieldView_of_equal h, hforced]
  exact if_pos rfl

end

theorem enforcedView_of_holder {n y : Station} {w : View} (hw : w.state = .heldOther ∨ w.state = .heldMe) (hy : w.holder = some y)
    (hset : inSet y w.excl = false) : enforcedView n w = w := by
  rcases hw with hw | hw <;> simp [enforcedView, hw, hy, hset]

theorem enforcedView_of_free {n : Station} {w : View} (hw : w.state = .free) : enforcedView n w = w := by
  simp [enforcedView, hw]

theorem enforcedView_of_claiming {n : Station} {w : View} (hw : w.state = .claiming) (hset : inSet n w.excl = false) :
    enforcedView n w = w := by
  simp [enforcedView, hw, hset]

section
variable {n x y : Station} {now : Time} {age : Nat} {w : View} (hx : inSet x w.excl = false)
include hx

theorem reportedView_of_heldOther (hw : w.state = .heldOther) (hy : w.holder = some y) : reportedView n x now age w =
    if y = x then w
    else if olderHolding age x (holdingAge now w) y then tidyView w (heldBy x (claimTimeOf now age) w) else w := by
  simp [reportedView, hx, hw, hy]

theorem reportedView_of_heldMe (hw : w.state = .heldMe) : reportedView n x now age w =
    if olderHolding age x (holdingAge now w) n then tidyView w (heldBy x (claimTimeOf now age) w) else w := by
  simp [reportedView, hx, hw]

end

theorem reportedView_of_excluded {n x : Station} {now : Time} {age : Nat} {w : View} (hx : inSet x w.excl = true) :
    reportedView n x now age w = w := by simp [reportedView, hx]

theorem tidyView_passed {w : View} (hw : w.state = .heldMe) (x : Station) (t : Time) :
    tidyView w (heldBy x t w) = { heldBy x t w with timer := .stopped, timeoutQueued := false } := by
  simp [tidyView, heldBy, hw]

/-- A view as the group of a PRESENCE leaves it, at each epoch and in each state: the last clause of O47, on one view. -/
def FieldCases (n x : Station) (now : Time) (epoch : Byte) (sent : StationSet) (entry : Option Nat) (w v : View) : Prop :=
  let d := (epoch - w.epoch).toNat
  let set := w.excl ||| sent
  let own := min 65535 (since now w.claimTime / 48)
  let older (age : Nat) (y : Station) : Prop := own < age ∨ own = age ∧ x < y
  let adopted (age : Nat) (w : View) : View := { w with
    state := .heldOther, holder := some x, claimTime := now - BitVec.ofNat 32 (48 * age), stale := false }
  let stopped (w : View) : View := { w with timer := .stopped, timeoutQueued := false }
  let is (w : View) : Prop := v = { w with timeoutQueued := v.timeoutQueued }
  (128 ≤ d → is w ∧ (w.state ≠ .heldMe → v = w))
  ∧ (d = 0 → w.state = .heldOther → ∀ y : Station, w.holder = some y →
    (inSet y set = true → v = { w with excl := set, state := .free, holder := none, epoch := w.epoch + 1, stale := false })
    ∧ (inSet y set = false → y = x → entry = none →
      v = { w with excl := set, state := .free, holder := none, epoch := w.epoch + 1, stale := false })
    ∧ (inSet y set = false → y ≠ x → entry = none → v = { w with excl := set })
    ∧ ∀ age : Nat, inSet y set = false → entry = some age →
      (y = x ∨ inSet x set = true ∨ ¬ older age y → v = { w with excl := set })
      ∧ (y ≠ x → inSet x set = false → older age y → v = adopted age { w with excl := set }))
  ∧ (d = 0 → w.state = .heldMe → w.holder = some n →
    (inSet n set = true → v = stopped
      { w with excl := set, state := .free, holder := none, epoch := w.epoch + 1, stale := false })
    ∧ (inSet n set = false → entry = none → is { w with excl := set })
    ∧ ∀ age : Nat, inSet n set = false → entry = some age →
      (inSet x set = true ∨ ¬ older age n → is { w with excl := set })
      ∧ (inSet x set = false → older age n → v = stopped (adopted age { w with excl := set })))
  ∧ (d = 0 → w.state = .free ∨ w.state = .claiming ∧ inSet n set = false →
    (entry = none → v = { w with excl := set })
    ∧ ∀ age : Nat, entry = some age →
      (inSet x set = true → v = { w with excl := set })
      ∧ (inSet x set = false → v = adopted age { w with excl := set }))
  ∧ (d = 0 → w.state = .claiming → inSet n set = true → entry = none →
    v = { w with excl := set, state := .free, holder := none, stale := false })
  ∧ (1 ≤ d → d < 128 →
    let freed : View := stopped { w with excl := sent, state := .free, holder := none, epoch := epoch, stale := false }
    (entry = none → v = freed)
    ∧ ∀ age : Nat, entry = some age → (inSet x sent = true → v = freed) ∧ (inSet x sent = false → v = adopted age freed))

theorem fieldCases_of_sameBut {n x : Station} {now : Time} {epoch : Byte} {sent : StationSet} {entry : Option Nat} {w v : View}
    (hv : SameBut v (fieldView n x now epoch sent entry w)) : FieldCases n x now epoch sent entry w v := by
  have hexact {z : View} (hz : fieldView n x now epoch sent entry w = z) (hs : z.state ≠ .heldMe) : v = z :=
    hz ▸ hv.2 (by rw [hz]; exact hs)
  have his {z : View} (hz : fieldView n x now epoch sent entry w = z) : v = { z with timeoutQueued := v.timeoutQueued } :=
    hz ▸ hv.1
  have hold (age : Nat) (y : Station) : olderHolding age x (holdingAge now (unitedView sent w)) y = true ↔
      min 65535 (since now w.claimTime / 48) < age ∨ min 65535 (since now w.claimTime / 48) = age ∧ x < y := olderHolding_iff
  unfold FieldCases
  refine ⟨fun hd => ⟨?_, fun hw => ?_⟩, fun hd hw y hy => ?_, fun hd hw hy => ?_, fun hd hw => ?_, fun hd hw hn he => ?_,
    fun h1 h2 => ?_⟩
  · exact his (fieldView_of_behind hd)
  · exact hexact (fieldView_of_behind hd) hw
  · have hforced (hset : inSet y (w.excl ||| sent) = false) : enforcedView n (unitedView sent w) = unitedView sent w :=
      enforcedView_of_holder (w := unitedView sent w) (.inl hw) hy hset
    refine ⟨fun hset => ?_, fun hset hyx he => ?_, fun hset hyx he => ?_, fun age hset he => ⟨fun hk => ?_, fun hyx hx ho => ?_⟩⟩
    · refine hexact ((fieldView_of_forbidden hd (.inl hw) hy hset).trans ?_) nofun
      simp [tidyView, releasedView, unitedView, hw]
    · refine hexact ((fieldView_of_allowed hd (hforced hset)).trans ?_) nofun
      simp [listedView, he, unitedView, hw, hy, hyx, tidyView, releasedView]
    · refine hexact ((fieldView_of_allowed hd (hforced hset)).trans ?_) (by simp [hw])
      simp [listedView, he, unitedView, hw, hy, hyx]
    · refine hexact ((fieldView_of_allowed hd (hforced hset)).trans ?_) (by simp [hw])
      rw [he]
      show reportedView n x now age (unitedView sent w) = unitedView sent w
      cases hx : inSet x (unitedView sent w).excl with
      | true => exact reportedView_of_excluded hx
      | false =>
        rw [reportedView_of_heldOther (w := unitedView sent w) hx hw hy]
        rcases hk with hk | hk | hk
        · exact if_pos hk
        · exact absurd (hk.symm.trans hx) nofun
        · rw [if_neg (mt (hold age y).1 hk), ite_self]
    · refine hexact ((fieldView_of_allowed hd (hforced hset)).trans ?_) nofun
      rw [he]
      show reportedView n x now age (unitedView sent w) = _
      rw [reportedView_of_heldOther (w := unitedView sent w) hx hw hy, if_neg hyx, if_pos ((hold age y).2 ho),
        tidyView_heldBy (w := unitedView sent w) (by rw [show (unitedView sent w).state = _ from hw]; decide)]
      rfl
  · have hforced (hset : inSet n (w.excl ||| sent) = false) : enforcedView n (unitedView sent w) = unitedView sent w :=
      enforcedView_of_holder (w := unitedView sent w) (.inr hw) hy hset
    refine ⟨fun hset => ?_, fun hset he => ?_, fun age hset he => ⟨fun hk => ?_, fun hx ho => ?_⟩⟩
    · refine hexact ((fieldView_of_forbidden hd (.inr hw) hy hset).trans ?_) nofun
      simp [tidyView, releasedView, unitedView, hw]
    · refine his ((fieldView_of_allowed hd (hforced hset)).trans ?_)
      simp [listedView, he, unitedView, hw]
    · refine his ((fieldView_of_allowed hd (hforced hset)).trans ?_)
      rw [he]
      show reportedView n x now age (unitedView sent w) = unitedView sent w
      cases hx : inSet x (unitedView sent w).excl with
      | true => exact reportedView_of_excluded hx
      | false =>
        rw [reportedView_of_heldMe (w := unitedView sent w) hx hw]
        rcases hk with hk | hk
        · exact absurd (hk.symm.trans hx) nofun
        · exact if_neg (mt (hold age n).1 hk)
    · refine hexact ((fieldView_of_allowed hd (hforced hset)).trans ?_) nofun
      rw [he]
      show reportedView n x now age (unitedView sent w) = _
      rw [reportedView_of_heldMe (w := unitedView sent w) hx hw, if_pos ((hold age n).2 ho),
        tidyView_passed (w := unitedView sent w) hw]
      rfl
  · have hforced : enforcedView n (unitedView sent w) = unitedView sent w := by
      rcases hw with hw | ⟨hw, hset⟩
      · exact enforcedView_of_free (w := unitedView sent w) hw
      · exact enforcedView_of_claiming (w := unitedView sent w) hw hset
    have hstate : w.state = .free ∨ w.state = .claiming := hw.imp_right (·.1)
    refine ⟨fun he => ?_, fun age he => ⟨fun hx => ?_, fun hx => ?_⟩⟩
    · refine hexact ((fieldView_of_allowed hd hforced).trans ?_) (by rcases hstate with h | h <;> simp [h])
      rcases hstate with h | h <;> simp [listedView, he, unitedView, h]
    · refine hexact ((fieldView_of_allowed hd hforced).trans ?_) (by rcases hstate with h | h <;> simp [h])
      simp [listedView, reportedView, he, unitedView, hx]
    · refine hexact ((fieldView_of_allowed hd hforced).trans ?_) nofun
      rcases hstate with h | h <;>
        simp [listedView, reportedView, he, unitedView, hx, h, tidyView, heldBy, claimTimeOf, Config.framesPerMs]
  · refine hexact ((fieldView_of_equal hd).trans ?_) nofun
    simp [enforcedView, listedView, he, unitedView, hw, hn, tidyView, freeView]
  · refine ⟨fun he => ?_, fun age he => ⟨fun hx => ?_, fun hx => ?_⟩⟩
    · refine hexact ((fieldView_of_ahead h1 h2).trans ?_) nofun
      simp [listedView, he, impliedView]
    · refine hexact ((fieldView_of_ahead h1 h2).trans ?_) nofun
      simp [listedView, reportedView, he, impliedView, hx]
    · refine hexact ((fieldView_of_ahead h1 h2).trans ?_) nofun
      simp [listedView, reportedView, he, impliedView, hx, tidyView, heldBy, claimTimeOf, Config.framesPerMs]

/-! ### The frame (R150, R175) -/

/-- The peer's entry as a PRESENCE writes it (R175). -/
def presencePeer (p : Presence) (s : State) : Peer where
  state := .present
  lastHeard := s.now
  configured := p.flags.getLsbD 0
  listening := p.flags.getLsbD 1
  duplicate := p.flags.getLsbD 2
  keys := p.keys

/-- The station with the sender's entry written and the peers' keys handed over, before the group fields are read. -/
def entered (x : Station) (p : Presence) (s : State) : State := handPeerKeys (s.setPeer x (presencePeer p s))

theorem heard_peer (src : Station) (s : State) :
    (heard src s).peer src = { s.peer src with state := .present, lastHeard := s.now } := by
  obtain ⟨views, h⟩ := signOfLife_frame src (endReception .frameEnded s)
  rw [heard, h]
  exact upd_get_self ..

theorem heard_peer_ne {src y : Station} (hy : y ≠ src) (s : State) : (heard src s).peer y = s.peer y := by
  obtain ⟨views, h⟩ := signOfLife_frame src (endReception .frameEnded s)
  rw [heard, h]
  exact upd_get_ne _ _ hy

theorem takePresence_eq {src : Station} (p : Presence) (s : State) : takePresence src p (heard src s) =
    if gated p then groupFields src p (entered src p (heard src s)) else entered src p (heard src s) := by
  have hpeer : ({ (heard src s).peer src with
      configured := p.flags.getLsbD 0, listening := p.flags.getLsbD 1, duplicate := p.flags.getLsbD 2, keys := p.keys } : Peer)
        = presencePeer p (heard src s) := by
    rw [heard_peer, presencePeer, heard_now]
  unfold takePresence entered
  rw [hpeer]

theorem entered_eq (x : Station) (p : Presence) (s : State) : entered x p s = { s with
    peers := { s.peers with table := upd s.peers.table x (presencePeer p s) }
    mixer := { s.mixer with peerKeys := (entered x p s).peerUnion } } := by
  have h := handPeerKeys_eq (s.setPeer x (presencePeer p s))
  have hk : (entered x p s).peerUnion = (s.setPeer x (presencePeer p s)).peerUnion := by
    rw [entered, h]
    exact peerUnion_congr rfl rfl
  rw [hk]
  exact h

theorem gated_iff (p : Presence) : gated p = true ↔
    p.flags.getLsbD 0 = true ∧ p.flags.getLsbD 1 = false ∧ p.flags.getLsbD 2 = false ∧ p.held.length ≤ 16 := by
  simp [gated, and_assoc]

theorem groupFields_of_behind {x : Station} {p : Presence} {s : State} (h : behind p.showNo s.groups.showNo = true) :
    groupFields x p s = s.bump .staleFrame := by
  have hnone : showTest p.showNo s = none := if_pos h
  simp only [groupFields, hnone]

theorem groupFields_of_shown {x : Station} {p : Presence} {s b : State} (h : showTest p.showNo s = some b) :
    groupFields x p s = (groupIds.foldl (groupField x p) b).bumpIf (anyBehind p b) .staleFrame := by
  simp only [groupFields, h]

/-- A good frame's reception and sign of life change a view in its mark alone (R166). -/
theorem heard_view_shape (src : Station) (s : State) (g : GroupId) :
    ∃ m, (heard src s).view g = { s.view g with stale := m } := by
  have h := signOfLife_view src (endReception .frameEnded s) g
  change (heard src s).view g = if _ then { s.view g with stale := false } else s.view g at h
  rw [h]
  split
  · exact ⟨false, rfl⟩
  · exact ⟨_, rfl⟩

/-- What the group fields applied to a state leave: each view by its case, one count of a frame behind, and the won cue of a lost
holding. -/
theorem groupFields_applied {x : Station} {p : Presence} {b : State} (hidle : b.line.activity = .none) :
    let t := (groupIds.foldl (groupField x p) b).bumpIf (anyBehind p b) .staleFrame
    Around b (groupIds.foldl (groupField x p) b)
      ∧ (∀ g, FieldCases b.number x b.now (p.epochs.get g) (readSet (p.excl.get g)) (heldEntry p.held g) (b.view g) (t.view g))
      ∧ t.peers.table = b.peers.table ∧ t.mixer.peerKeys = b.mixer.peerKeys ∧ t.groups.showNo = b.groups.showNo
      ∧ (∀ g, 128 ≤ (p.epochs.get g - (b.view g).epoch).toNat →
        t.counter .staleFrame = min 65535 (b.counter .staleFrame + 1)) := by
  obtain ⟨around, views⟩ := foldl_groupField_views (x := x) (p := p) (List.nodup_finRange 16 : groupIds.Nodup) hidle
  dsimp only
  have hpeers : ∀ (u : State) c, (u.bumpIf c .staleFrame).peers = u.peers := fun u c => by cases c <;> rfl
  have hmixer : ∀ (u : State) c, (u.bumpIf c .staleFrame).mixer = u.mixer := fun u c => by cases c <;> rfl
  have hgroups : ∀ (u : State) c, (u.bumpIf c .staleFrame).groups = u.groups := fun u c => by cases c <;> rfl
  refine ⟨around, fun g => ?_, ?_, ?_, ?_, fun g hd => ?_⟩
  · rw [State.view_bumpIf]
    refine fieldCases_of_sameBut ((views g).trans (.of_eq ?_))
    exact if_pos (List.mem_finRange g)
  · rw [hpeers]; exact around.peers
  · rw [hmixer]; exact around.peerKeys
  · rw [hgroups]; exact around.showNo
  · have hany : anyBehind p b = true := List.any_eq_true.2 ⟨g, List.mem_finRange g, (behind_iff ..).2 hd⟩
    rw [hany]
    exact (State.counter_bump _ _).trans (congrArg (fun n => min 65535 (n + 1)) around.stale)

/-- A show restart leaves the peers and their keys. -/
theorem showRestart_peers (n : Byte) (s : State) :
    (showRestart n s).peers.table = s.peers.table ∧ (showRestart n s).mixer.peerKeys = s.mixer.peerKeys := by
  unfold showRestart
  dsimp only
  obtain ⟨views, queue, activity, hremoved⟩ := Frees.removeTx TxBody.ofGroups { s with groups := ⟨n, Vector.replicate 16 .reset⟩ }
  rw [hremoved]
  have hm (u : State) := ((Moves.foldl Moves.cutVoice voiceIds u).plays_admits.trans (.finishAny _)).field 0
  split
  · rw [offerPresence_peers, offerPresence_mixer, (hm _).peers, (hm _).peerKeys]
    exact ⟨rfl, rfl⟩
  · rw [(hm _).peers, (hm _).peerKeys]
    exact ⟨rfl, rfl⟩

/-- The state that the show test applies a PRESENCE to, with what it keeps (R150). -/
theorem showTest_of_not_behind {n : Byte} {s : State} (hidle : s.line.activity = .none)
    (h : (n - s.groups.showNo).toNat < 128) :
    let b := if (n - s.groups.showNo).toNat = 0 then s else showRestart n s
    showTest n s = some b ∧ b.line.activity = .none ∧ b.groups.showNo = n ∧ b.number = s.number ∧ b.now = s.now
      ∧ b.peers.table = s.peers.table ∧ b.mixer.peerKeys = s.mixer.peerKeys := by
  have hb : ¬ behind n s.groups.showNo = true := by rw [behind_iff]; omega
  dsimp only
  split
  · rename_i h0
    have ha : ¬ ahead n s.groups.showNo = true := by rw [ahead_iff]; omega
    exact ⟨(if_neg hb).trans (if_neg ha), hidle, (epoch_eq_of_not_ahead hb ha).symm, rfl, rfl, rfl, rfl⟩
  · have ha : ahead n s.groups.showNo = true := (ahead_iff ..).2 (by omega)
    obtain ⟨peers, peerKeys⟩ := showRestart_peers n s
    have handled := Handled.showRestart n s
    exact ⟨showTest_of_ahead ha, (Regular.showRestart hidle n).idle hidle, by rw [showRestart_groups], handled.number,
      congrArg (·.time) handled.clock, peers, peerKeys⟩

/-- Settles O47. -/
theorem presenceUpdatesPeerAndViews : Obligations.PresenceUpdatesPeerAndViews := by
  intro src p s hs _
  have hidle : (heard src s).line.activity = .none := by
    obtain ⟨-, -, hdrive, -⟩ := hs
    exact heard_activity hdrive
  have hexec : exec (.presenceReceived src p) s = .next (takePresence src p (heard src s)) := event_receive_of_handsOn hs _
  rw [takePresence_eq] at hexec
  have hentered := entered_eq src p (heard src s)
  have hpeer {y : Station} (hy : y ≠ src) := heard_peer_ne hy s
  have hshow := heard_showNo src s
  have hnow := heard_now src s
  have hnumber := heard_number src s
  have htables := heard_tables src s
  have hvoices := heard_voices src s
  have hstarts := heard_starts src s
  have hreturns := heard_returns src s
  have hmix (v : VoiceId) := heard_mix src s v
  have hview (g : GroupId) := heard_view_shape src s g
  dsimp only
  rw [← hshow]
  generalize heard src s = h at *
  have hpp : presencePeer p h = ⟨.present, s.now, p.flags.getLsbD 0, p.flags.getLsbD 1, p.flags.getLsbD 2, p.keys⟩ := by
    rw [presencePeer, hnow]
  rw [hpp] at hentered
  generalize entered src p h = u at *
  have hidle : u.line.activity = .none := by rw [hentered]; exact hidle
  have ugroups : u.groups = h.groups := by rw [hentered]
  have unumber : u.number = s.number := by rw [hentered]; exact hnumber
  have unow : u.now = s.now := by rw [hentered]; exact hnow
  have utables : u.tables = s.tables := by rw [hentered]; exact htables
  have uvoices : u.voices = s.voices := by rw [hentered]; exact hvoices
  have ustarts : u.starts = s.starts := by rw [hentered]; exact hstarts
  have ureturns : u.returns = s.returns := by rw [hentered]; exact hreturns
  have umix (v : VoiceId) : u.mix v = s.mix v := by rw [hentered]; exact hmix v
  have ukeys : u.mixer.peerKeys = u.peerUnion := congrArg (fun z : State => z.mixer.peerKeys) hentered
  have uothers : ∀ y, y ≠ src → u.peer y = s.peer y := fun y hy => by
    rw [← hpeer hy, hentered]
    exact upd_get_ne _ _ hy
  have uview (g : GroupId) : ∃ m, u.view g = { s.view g with stale := m } := by
    rw [State.view_eq _ _ ugroups]
    exact hview g
  have ucfg (g : GroupId) : u.groupCfg g = s.groupCfg g := by rw [State.groupCfg, utables]; rfl
  have hothers {t : State} (ht : t.peers.table = u.peers.table) (y : Station) (hy : y ≠ src) : t.peer y = s.peer y := by
    rw [← uothers y hy, State.peer, ht]
    rfl
  by_cases hg : gated p = true
  swap
  · rw [if_neg hg] at hexec
    exact ⟨u, u, hexec, hentered, rfl, ukeys, uothers, fun _ => rfl, fun h => absurd ((gated_iff p).2 h) hg,
      fun h => absurd ((gated_iff p).2 h) hg⟩
  rw [if_pos hg] at hexec
  have hgated := (gated_iff p).1 hg
  by_cases hd : 128 ≤ (p.showNo - h.groups.showNo).toNat
  · rw [groupFields_of_behind (by rw [behind_iff, ugroups]; exact hd)] at hexec
    exact ⟨u, _, hexec, hentered, rfl, ukeys, hothers rfl, fun h => absurd hgated h, fun _ _ => rfl, fun _ h => by omega⟩
  -- The fields are applied, to the state itself or after a show restart.
  have hlt : (p.showNo - u.groups.showNo).toNat < 128 := by rw [ugroups]; omega
  obtain ⟨htest, bidle, bshow, bnumber, bnow, bpeers, bkeys⟩ := showTest_of_not_behind hidle hlt
  rw [groupFields_of_shown htest] at hexec
  obtain ⟨around, cases, tpeers, tkeys, tshow, tstale⟩ := groupFields_applied (x := src) (p := p) bidle
  rw [bnumber, bnow, unumber, unow] at cases
  have hvoicesOf : ∀ (z : State) c, (z.bumpIf c .staleFrame).voices = z.voices ∧ (z.bumpIf c .staleFrame).starts = z.starts :=
    fun z c => by cases c <;> exact ⟨rfl, rfl⟩
  -- The station loses a group only where it holds it at the frame's epoch.
  have hquiet {k : GroupId} (hk : (s.view k).state ≠ .heldMe ∨ (s.groupCfg k).wonCue = none ∨ p.epochs.get k ≠ (s.view k).epoch)
      (hlose : LosesGroup src p u k) : (u.groupCfg k).wonCue = none := by
    obtain ⟨m, hv⟩ := uview k
    obtain ⟨hme, he, -⟩ := hlose
    rw [hv] at hme he
    rw [ucfg]
    rcases hk with hk | hk | hk
    · exact absurd hme hk
    · exact hk
    · exact absurd he hk
  rw [ugroups] at htest bidle bshow bnumber bnow bpeers bkeys tpeers tkeys tshow tstale cases hexec
  refine ⟨u, _, hexec, hentered, tpeers.trans bpeers, (tkeys.trans bkeys).trans ukeys, hothers (tpeers.trans bpeers),
    fun h => absurd hgated h, fun _ h => absurd h hd, fun _ _ => ⟨tshow.trans bshow, fun h0 hall => ?_,
      fun g c h0 hall hwaits hme hholder hc hepoch => ?_, fun g => ?_⟩⟩
  · rw [if_pos h0, (hvoicesOf _ _).1, (hvoicesOf _ _).2]
    obtain ⟨voices, starts, -⟩ := foldl_groupField_mute (x := src) (p := p) (List.nodup_finRange 16 : groupIds.Nodup) hidle
      fun k _ => hquiet (hall k)
    exact ⟨voices.trans uvoices, starts.trans ustarts⟩
  · rw [if_pos h0, (hvoicesOf _ _).1, (hvoicesOf _ _).2]
    obtain ⟨m, hv⟩ := uview g
    have hlost : LosesGroup src p u g ↔ inSet s.number ((s.view g).excl ||| readSet (p.excl.get g)) = true
        ∨ inSet src ((s.view g).excl ||| readSet (p.excl.get g)) = false ∧ ∃ age, heldEntry p.held g = some age
          ∧ (min 65535 (since s.now (s.view g).claimTime / 48) < age
            ∨ min 65535 (since s.now (s.view g).claimTime / 48) = age ∧ src < s.number) := by
      rw [LosesGroup, Loses, unumber, unow, hv]
      simp only [hme, hepoch, hholder, true_and, Option.any_some, olderHolding_iff]
      exact Iff.rfl
    have hnodup : groupIds.Nodup := List.nodup_finRange 16
    have uwaits : NoStartWaits u := ⟨ureturns.trans hwaits.1, by rw [ustarts]; exact hwaits.2⟩
    by_cases hl : LosesGroup src p u g
    · have ends := foldl_groupField_ends (x := src) (p := p) hnodup (List.mem_finRange g) hidle hl fun k _ hk => hquiet (hall k hk)
      obtain ⟨starts, cut⟩ := ends.2 c (by rw [ucfg]; exact hc) uwaits
      refine ⟨starts.trans ustarts, fun h => absurd (hlost.1 hl) h, fun _ v => ?_⟩
      have hcut := cut v
      rw [State.voice_eq s u uvoices, umix] at hcut
      rw [State.voice_eq _ _ (hvoicesOf _ _).1]
      exact hcut
    · obtain ⟨voices, starts, -⟩ := foldl_groupField_mute (x := src) (p := p) hnodup hidle fun k _ hlose => by
        by_cases hk : k = g
        · exact absurd (hk ▸ hlose) hl
        · exact hquiet (hall k hk) hlose
      exact ⟨starts.trans ustarts, fun _ => voices.trans uvoices, fun h => absurd (hlost.2 h) hl⟩
  · obtain ⟨behindCase, other, own, free, claiming, ahead⟩ := cases g
    exact ⟨fun hb => ⟨(behindCase hb).1, (behindCase hb).2, tstale g hb⟩, other, own, free, claiming, ahead⟩

end Sys2Proof.Machine
end

