-- ==== Sys2Proof/Proofs/Reports.lean ====
section
/-! PROOFS. What PRESENCE and STATUS carry, what each lamp shows, and the frame of an attempt with the levels it drives (R108 to R111, R114,
R118, R121, R130 to R133, R142, R149, R167, R178). -/

namespace Sys2Proof.Machine

/-! ### Bytes at their places -/

/-- In a run of blocks of one length, the place of an element of a block. -/
theorem getElem?_flatMap_of_length {α β : Type} {f : α → List β} {k : Nat} (hf : ∀ a, (f a).length = k) {l : List α} {i j : Nat}
    (hj : j < k) {a : α} (ha : l[i]? = some a) : (l.flatMap f)[k * i + j]? = (f a)[j]? := by
  induction l generalizing i with
  | nil => cases ha
  | cons b l ih =>
    rw [List.flatMap_cons]
    cases i with
    | zero =>
      obtain rfl : b = a := by simpa using ha
      rw [Nat.mul_zero, Nat.zero_add, List.getElem?_append_left (by rw [hf]; exact hj)]
    | succ i =>
      have hplace : k * (i + 1) + j = (f b).length + (k * i + j) := by rw [hf]; ring
      rw [hplace, List.getElem?_append_right (Nat.le_add_right ..), Nat.add_sub_cancel_left]
      exact ih (by simpa using ha)

theorem byteAt_eq (l : List Byte) (i : Nat) : byteAt l i = (l[i]?).getD 0 := List.getD_eq_getElem?_getD ..

theorem byteAt_append_right {l m : List Byte} {n : Nat} (h : l.length = n) (i : Nat) : byteAt (l ++ m) (n + i) = byteAt m i := by
  rw [byteAt_eq, byteAt_eq, List.getElem?_append_right (by omega)]
  congr 2
  omega

theorem byteAt_append_left {l m : List Byte} {i : Nat} (h : i < l.length) : byteAt (l ++ m) i = byteAt l i := by
  rw [byteAt_eq, byteAt_eq, List.getElem?_append_left h]

theorem byteAt_flatMap {α : Type} {f : α → List Byte} {k : Nat} (hf : ∀ a, (f a).length = k) {l : List α} {m : List Byte} {i j : Nat}
    (hj : j < k) {a : α} (ha : l[i]? = some a) : byteAt (l.flatMap f ++ m) (k * i + j) = byteAt (f a) j := by
  have hi : i < l.length := (List.getElem?_eq_some_iff.1 ha).1
  have hlen : (l.flatMap f).length = k * l.length := by
    rw [List.length_flatMap, List.map_congr_left (g := fun _ => k) fun a _ => hf a]
    simp [Nat.mul_comm]
  have hin : k * i + j < (l.flatMap f).length := by
    rw [hlen]
    calc k * i + j < k * i + k := Nat.add_lt_add_left hj _
      _ = k * (i + 1) := by ring
      _ ≤ k * l.length := Nat.mul_le_mul_left k hi
  rw [byteAt_append_left hin, byteAt_eq, byteAt_eq, getElem?_flatMap_of_length hf hj ha]

theorem getElem?_finRange {n : Nat} (i : Fin n) : (List.finRange n)[i.val]? = some i := by simp

/-! ### PRESENCE (R132, R167, R178) -/

theorem clockCode_toNat (c : ClockState) : (clockCode c).toNat =
    match c with
    | .free => 0 | .acquiring => 1 | .locked => 2 | .holdover => 3 := by cases c <;> rfl

/-- The flags byte holds three bits and the clock code (R132). -/
theorem flagsByte (a b c : Bool) (k : ClockState) :
    let f := bitByte 0 a ||| bitByte 1 b ||| bitByte 2 c ||| (clockCode k <<< 3)
    f.getLsbD 0 = a ∧ f.getLsbD 1 = b ∧ f.getLsbD 2 = c ∧ f.toNat / 8 = (clockCode k).toNat := by
  cases k <;> revert a b c <;> decide

/-- Bit 0 of an exclusion set is not sent (R132). -/
theorem inSet_readSet (x : Station) (e : StationSet) : inSet x (readSet e) = (x != 0 && inSet x e) := by
  unfold inSet readSet
  have hone : BitVec.getLsbD (1 : StationSet) x.val = (x == 0) := by
    revert x
    decide
  have hlt : decide (x.val < 32) = true := decide_eq_true x.isLt
  rw [BitVec.getLsbD_and, BitVec.getLsbD_not, hone, hlt, Bool.true_and, Bool.and_comm]
  rfl

/-- The own holdings list a group exactly when the station holds it, with its age (R167, R149). -/
theorem heldEntry_ownHoldings (s : State) (g : GroupId) : heldEntry (ownHoldings s) g =
    if (s.view g).state = .heldMe then some (min 65535 (since s.now (s.view g).claimTime / 48)) else none := by
  have hage (k : GroupId) : (BitVec.ofNat 16 (holdingAge s.now (s.view k))).toNat = holdingAge s.now (s.view k) := by
    rw [BitVec.toNat_ofNat]
    exact Nat.mod_eq_of_lt (Nat.lt_of_le_of_lt (Nat.min_le_left _ _) (by decide))
  have hnum (k : GroupId) : (BitVec.ofNat 8 k.val).toNat = k.val := by
    rw [BitVec.toNat_ofNat]
    exact Nat.mod_eq_of_lt (by omega)
  have hall (l : List GroupId) (hl : l.Nodup) : heldEntry (l.filterMap fun k =>
      if (s.view k).state = .heldMe then some (BitVec.ofNat 8 k.val, BitVec.ofNat 16 (holdingAge s.now (s.view k))) else none) g =
      if g ∈ l ∧ (s.view g).state = .heldMe then some (holdingAge s.now (s.view g)) else none := by
    induction l with
    | nil => simp [heldEntry]
    | cons k l ih =>
      obtain ⟨hk, hl⟩ := List.nodup_cons.1 hl
      rw [List.filterMap_cons]
      by_cases hme : (s.view k).state = .heldMe
      · rw [if_pos hme]
        by_cases hkg : k = g
        · subst hkg
          simp [heldEntry, hnum, hage, hme]
        · have hne : (k.val == g.val) = false := by simpa [Fin.ext_iff] using hkg
          rw [heldEntry, List.find?_cons_of_neg (by rw [hnum, hne]; exact Bool.false_ne_true)]
          refine (ih hl).trans ?_
          simp [Ne.symm hkg]
      · rw [if_neg hme]
        refine (ih hl).trans ?_
        by_cases hkg : g = k
        · subst hkg
          simp [hme, hk]
        · simp [hkg]
  refine (hall groupIds (List.nodup_finRange 16)).trans ?_
  simp only [show g ∈ groupIds from List.mem_finRange g, true_and]
  rfl

/-! ### STATUS (R133, R142, R145) -/

theorem mem_stationIds : ∀ x : Station, x ∈ stationIds ↔ x ≠ 0 := by decide

/-- A set built by adding the stations of a list that satisfy a condition. -/
theorem inSet_foldl_addTo (P : Station → Prop) [DecidablePred P] (l : List Station) (e : StationSet) (y : Station) :
    inSet y (l.foldl (fun e x => if P x then addTo x e else e) e) = true ↔ inSet y e = true ∨ y ∈ l ∧ P y := by
  induction l generalizing e with
  | nil => simp
  | cons x l ih =>
    rw [List.foldl_cons, ih]
    by_cases hx : P x
    · rw [if_pos hx, inSet_addTo]
      by_cases hy : y = x
      · subst hy
        simp [hx]
      · simp [hy]
    · rw [if_neg hx]
      by_cases hy : y = x
      · subst hy
        simp [hx]
      · simp [hy]

theorem inSet_presentSet (s : State) (x : Station) :
    inSet x (presentSet s) = (x != 0 && x != s.number && (s.peer x).state == .present) := by
  rw [Bool.eq_iff_iff, presentSet, inSet_foldl_addTo (fun x => x ≠ s.number ∧ (s.peer x).state = .present), mem_stationIds]
  simp [inSet, and_assoc]

theorem word32_bytes32 (w : BitVec 32) : word32 (byteAt (bytes32 w) 0) (byteAt (bytes32 w) 1) (byteAt (bytes32 w) 2)
    (byteAt (bytes32 w) 3) = w := by
  show (w.extractLsb' 24 8 ++ w.extractLsb' 16 8 ++ w.extractLsb' 8 8 ++ w.extractLsb' 0 8 : BitVec 32) = w
  rw [BitVec.extractLsb'_append_extractLsb'_eq_extractLsb' (show 24 = 16 + 8 from rfl),
    BitVec.extractLsb'_append_extractLsb'_eq_extractLsb' (show 16 = 8 + 8 from rfl),
    BitVec.extractLsb'_append_extractLsb'_eq_extractLsb' (show 8 = 0 + 8 from rfl)]
  exact BitVec.extractLsb'_eq_self

theorem word16_bytes16 (w : BitVec 16) : word16 (byteAt (bytes16 w) 0) (byteAt (bytes16 w) 1) = w := by
  show (w.extractLsb' 8 8 ++ w.extractLsb' 0 8 : BitVec 16) = w
  rw [BitVec.extractLsb'_append_extractLsb'_eq_extractLsb' (show 8 = 0 + 8 from rfl)]
  exact BitVec.extractLsb'_eq_self

/-- The head of a STATUS payload (R133). -/
def statusHead (s : State) : List Byte :=
  [stationCode s.station, clockCode s.clock.clock, bitByte 0 s.peers.duplicate, s.groups.showNo, s.starts.segment, s.starts.mask]

/-- The two bytes of a voice in a STATUS payload. -/
def voiceBytes (s : State) (v : VoiceId) : List Byte := [voiceCode (s.voice v).state, BitVec.ofNat 8 (s.voice v).cue.val]

/-- The bytes of a counter in a STATUS payload. -/
def counterBytes (n : Nat) : List Byte := bytes16 (BitVec.ofNat 16 n)

/-- The blocks of a STATUS payload in their order (R133). -/
theorem buildStatus_eq (s : State) : buildStatus s =
    statusHead s ++ (bytes32 (presentSet s) ++ (voiceIds.flatMap (voiceBytes s) ++ (groupIds.flatMap (fun g => [groupCode s g])
      ++ ([BitVec.ofNat 8 s.starts.queue.length] ++ (s.counters.toList.flatMap counterBytes ++ [0]))))) := by
  have hgroups : groupIds.flatMap (fun g => [groupCode s g]) = groupIds.map (groupCode s) := List.flatMap_pure_eq_map ..
  rw [hgroups]
  simp only [buildStatus, List.append_assoc]
  rfl

section
variable (s : State)

theorem voiceBlock_length : (voiceIds.flatMap (voiceBytes s)).length = 16 := rfl
theorem groupBlock_length : (groupIds.flatMap fun g => [groupCode s g]).length = 16 := rfl

theorem counterBlock_length : (s.counters.toList.flatMap counterBytes).length = 32 := by
  rw [List.length_flatMap]
  show (s.counters.toList.map fun _ => 2).sum = 32
  simp

/-- The places of a STATUS payload's blocks: the present peers at 6, the voices at 10, the groups at 26, the entries at 42, the counters
at 43 (R133). -/
theorem byteAt_status_present (i : Nat) (hi : i < 4) : byteAt (buildStatus s) (6 + i) = byteAt (bytes32 (presentSet s)) i := by
  rw [buildStatus_eq, byteAt_append_right (show (statusHead s).length = 6 from rfl)]
  exact byteAt_append_left hi

theorem byteAt_status_voice (v : VoiceId) {j : Nat} (hj : j < 2) :
    byteAt (buildStatus s) (10 + 2 * v.val + j) = byteAt (voiceBytes s v) j := by
  rw [buildStatus_eq, show 10 + 2 * v.val + j = 6 + (4 + (2 * v.val + j)) by omega,
    byteAt_append_right (show (statusHead s).length = 6 from rfl), byteAt_append_right (show (bytes32 _).length = 4 from rfl)]
  exact byteAt_flatMap (f := voiceBytes s) (k := 2) (fun _ => rfl) hj (getElem?_finRange v)

theorem byteAt_status_group (g : GroupId) : byteAt (buildStatus s) (26 + g.val) = groupCode s g := by
  rw [buildStatus_eq, show 26 + g.val = 6 + (4 + (16 + (1 * g.val + 0))) by omega,
    byteAt_append_right (show (statusHead s).length = 6 from rfl), byteAt_append_right (show (bytes32 _).length = 4 from rfl),
    byteAt_append_right (voiceBlock_length s)]
  exact byteAt_flatMap (f := fun g => [groupCode s g]) (k := 1) (fun _ => rfl) (by decide) (getElem?_finRange g)

theorem byteAt_status_tail (i : Nat) : byteAt (buildStatus s) (42 + i) =
    byteAt ([BitVec.ofNat 8 s.starts.queue.length] ++ (s.counters.toList.flatMap counterBytes ++ [0])) i := by
  rw [buildStatus_eq, show 42 + i = 6 + (4 + (16 + (16 + i))) by omega,
    byteAt_append_right (show (statusHead s).length = 6 from rfl), byteAt_append_right (show (bytes32 _).length = 4 from rfl),
    byteAt_append_right (voiceBlock_length s), byteAt_append_right (groupBlock_length s)]

theorem byteAt_status_counter (c : Fin 16) {j : Nat} (hj : j < 2) :
    byteAt (buildStatus s) (43 + 2 * c.val + j) = byteAt (counterBytes (s.counters.get c)) j := by
  rw [show 43 + 2 * c.val + j = 42 + (1 + (2 * c.val + j)) by omega, byteAt_status_tail,
    byteAt_append_right (show [BitVec.ofNat 8 s.starts.queue.length].length = 1 from rfl)]
  refine byteAt_flatMap (f := counterBytes) (k := 2) (fun _ => rfl) hj ?_
  rw [List.getElem?_eq_getElem (by simp)]
  simp [Vector.get]

theorem buildStatus_length : (buildStatus s).length = 76 := by
  rw [buildStatus_eq]
  simp only [List.length_append, voiceBlock_length, groupBlock_length, counterBlock_length]
  rfl

end

/-- A STATUS payload reports each counter at its place (R145). -/
theorem reportedCounter_buildStatus {s : State} (h : CountersOk s) (c : Counter) :
    reportedCounter (buildStatus s) c = s.counter c := by
  have hword : word16 (byteAt (buildStatus s) (43 + 2 * c.idx.val)) (byteAt (buildStatus s) (44 + 2 * c.idx.val)) =
      BitVec.ofNat 16 (s.counters.get c.idx) := by
    have h0 := byteAt_status_counter s c.idx (j := 0) (by decide)
    have h1 := byteAt_status_counter s c.idx (j := 1) (by decide)
    rw [show 44 + 2 * c.idx.val = 43 + 2 * c.idx.val + 1 by omega, h1]
    rw [Nat.add_zero] at h0
    rw [h0]
    exact word16_bytes16 _
  rw [reportedCounter, hword, BitVec.toNat_ofNat]
  refine Nat.mod_eq_of_lt (Nat.lt_of_le_of_lt (h c.idx) (by decide))

theorem groupByte (k : ViewState) (a b : Bool) : (viewCode k ||| bitByte 2 a ||| bitByte 3 b).toNat =
    (viewCode k).toNat + (if a then 4 else 0) + (if b then 8 else 0) := by
  cases k <;> revert a b <;> decide

/-! ### Lamps (R108 to R111) -/

theorem lampOn_iff {s : State} {l : LampId} {src : LampSource} (h : s.tables.lamps.get l = src) :
    lampOn s l = true ↔ s.inReset = false ∧ patternOn (sourcePattern s src) s.now = true := by
  simp [lampOn, lampPattern, h]

theorem patternOn_steadyIf (b : Bool) (t : Time) : patternOn (steadyIf b) t = b := by cases b <;> rfl

theorem patternOn_slow (t : Time) : patternOn .slow t = true ↔ t.toNat % 48000 < 24000 := decide_eq_true_iff

theorem patternOn_fast (t : Time) : patternOn .fast t = true ↔ t.toNat % 6000 < 3000 := decide_eq_true_iff

theorem any_active {s : State} {p : VoiceId → Bool} : (voiceIds.any fun v => (s.voice v).active && p v) = true ↔
    ∃ v, (s.voice v).state ≠ .idle ∧ p v = true := by
  simp [List.any_eq_true, Voice.active, voiceIds]

section
variable {s : State} {l : LampId} {g : GroupId} {onFree : Bool}

theorem groupPattern_of_heldMe (h : (s.view g).state = .heldMe) : groupPattern s g onFree =
    if timerUrgent s.now (s.view g).timer then .fast else .steady := by simp only [groupPattern, h]

theorem groupPattern_of_claiming (h : (s.view g).state = .claiming) : groupPattern s g onFree = .fast := by
  simp only [groupPattern, h]

theorem groupPattern_of_heldOther (h : (s.view g).state = .heldOther) : groupPattern s g onFree =
    if inSet s.number (s.view g).excl then .slow else .off := by simp only [groupPattern, h]

theorem groupPattern_of_free (h : (s.view g).state = .free) : groupPattern s g onFree =
    if inSet s.number (s.view g).excl then .slow else steadyIf onFree := by simp only [groupPattern, h]; rfl

end

/-- Settles O31. -/
theorem presenceAndStatusCarryTheOwnersState : Obligations.PresenceAndStatusCarryTheOwnersState := by
  intro s
  obtain ⟨f0, f1, f2, f3⟩ := flagsByte (s.station == .listening || s.station == .running) (s.station == .listening)
    s.peers.duplicate s.clock.clock
  have hclock := clockCode_toNat s.clock.clock
  intro p b clock off steady slow fast shows
  refine ⟨f0, f1, f2, f3.trans hclock, rfl, rfl, rfl, rfl, fun g => tabulate_get _ g, fun g x => ?_, heldEntry_ownHoldings s,
    buildStatus_length s, ?_, hclock, rfl, rfl, rfl, rfl, fun hq => ?_, ?_, fun h c => reportedCounter_buildStatus h c,
    fun v => ⟨?_, ?_⟩, fun g => ?_, fun x => ?_, fun l => ?_⟩
  · rw [show p.excl.get g = readSet (s.view g).excl from tabulate_get _ g, inSet_readSet]
  · show stationCode s.station = _
    cases s.station <;> rfl
  · rw [byteAt_status_tail s 0]
    show (BitVec.ofNat 8 s.starts.queue.length).toNat = _
    rw [BitVec.toNat_ofNat]
    exact Nat.mod_eq_of_lt (by omega)
  · rw [byteAt_status_tail s 33, byteAt_append_right (n := 1) rfl 32, byteAt_append_right (counterBlock_length s) 0]
    rfl
  · refine (byteAt_status_voice s v (j := 0) (by decide)).trans ?_
    show voiceCode (s.voice v).state = _
    cases (s.voice v).state <;> rfl
  · rw [show 11 + 2 * v.val = 10 + 2 * v.val + 1 by omega, byteAt_status_voice s v (j := 1) (by decide)]
    show (BitVec.ofNat 8 (s.voice v).cue.val).toNat = _
    rw [BitVec.toNat_ofNat]
    exact Nat.mod_eq_of_lt (s.voice v).cue.isLt
  · rw [byteAt_status_group, groupCode, groupByte]
    cases (s.view g).state <;> rfl
  · rw [byteAt_status_present s 0 (by decide), byteAt_status_present s 1 (by decide), byteAt_status_present s 2 (by decide),
      byteAt_status_present s 3 (by decide), word32_bytes32, inSet_presentSet]
  · have hshows {src : LampSource} (h : s.tables.lamps.get l = src) {on : Prop}
        (hon : patternOn (sourcePattern s src) s.now = true ↔ on) : shows l on :=
      (lampOn_iff h).trans (and_congr_right fun _ => hon)
    have hslow : patternOn .slow s.now = true ↔ slow := patternOn_slow s.now
    have hfast : patternOn .fast s.now = true ↔ fast := patternOn_fast s.now
    have hsteady : patternOn .steady s.now = true ↔ steady := iff_of_true rfl trivial
    have hoff : patternOn .off s.now = true ↔ off := iff_of_false nofun id
    have hif (c : Bool) (P : Prop) (h : c = true ↔ P) : patternOn (steadyIf c) s.now = true ↔ P := by
      rw [patternOn_steadyIf]
      exact h
    cases hl : s.tables.lamps.get l with
    | none => exact hshows hl hoff
    | cue c => exact hshows hl (hif _ _ (any_active.trans (by simp only [beq_iff_eq])))
    | cls c => exact hshows hl (hif _ _ (any_active.trans (by simp only [beq_iff_eq])))
    | trigger i => exact hshows hl (hif _ _ Iff.rfl)
    | clock =>
      cases hc : s.clock.clock with
      | free => exact hshows hl (by simpa only [sourcePattern, hc] using hoff)
      | acquiring | holdover => exact hshows hl (by simpa only [sourcePattern, hc] using hslow)
      | locked => exact hshows hl (by simpa only [sourcePattern, hc] using hsteady)
    | station =>
      cases hst : s.station with
      | loading => exact hshows hl (by simpa only [sourcePattern, hst] using hoff)
      | unconfigured => exact hshows hl (by simpa only [sourcePattern, hst] using hfast)
      | listening =>
        cases hd : s.peers.duplicate with
        | true => exact hshows hl (by simpa only [sourcePattern, hst, hd, if_true, Bool.false_eq_true, if_false] using hfast)
        | false => exact hshows hl (by simpa only [sourcePattern, hst, hd, if_true, Bool.false_eq_true, if_false] using hslow)
      | running =>
        cases hd : s.peers.duplicate with
        | true => exact hshows hl (by simpa only [sourcePattern, hst, hd, if_true, Bool.false_eq_true, if_false] using hfast)
        | false => exact hshows hl (by simpa only [sourcePattern, hst, hd, if_true, Bool.false_eq_true, if_false] using hsteady)
    | group g onFree =>
      have hgroup {q : Pattern} {on : Prop} (hp : groupPattern s g onFree = q) (hon : patternOn q s.now = true ↔ on) :
          shows l on := hshows hl (by rw [sourcePattern, hp]; exact hon)
      dsimp only
      cases hw : (s.view g).state with
      | claiming => exact hgroup (groupPattern_of_claiming hw) hfast
      | heldMe =>
        have hp := groupPattern_of_heldMe (onFree := onFree) hw
        refine ⟨fun ht => hgroup (hp.trans (by rw [ht]; rfl)) hsteady, fun ht => hgroup (hp.trans (by rw [ht]; rfl)) hfast,
          fun t ht hr => ?_⟩
        rw [ht, timerUrgent, hr, Bool.false_or] at hp
        by_cases hsoon : (t - s.now).toNat ≤ 240000
        · rw [if_pos hsoon]
          exact hgroup (hp.trans (if_pos (decide_eq_true hsoon))) hfast
        · rw [if_neg hsoon]
          exact hgroup (hp.trans (if_neg (by rw [decide_eq_true_iff]; exact hsoon))) hsteady
      | heldOther =>
        have hp := groupPattern_of_heldOther (onFree := onFree) hw
        cases hx : inSet s.number (s.view g).excl with
        | true => exact hgroup (hp.trans (if_pos hx)) hslow
        | false => exact hgroup (hp.trans (if_neg (by rw [hx]; exact Bool.false_ne_true))) hoff
      | free =>
        have hp := groupPattern_of_free (onFree := onFree) hw
        cases hx : inSet s.number (s.view g).excl with
        | true => exact hgroup (hp.trans (if_pos hx)) hslow
        | false =>
          refine hgroup (hp.trans (if_neg (by rw [hx]; exact Bool.false_ne_true))) ((hif onFree _ Iff.rfl).trans ?_)
          cases onFree
          · exact iff_of_false Bool.false_ne_true id
          · exact iff_of_true rfl trivial

end Sys2Proof.Machine
end

