-- ==== Sys2Proof/Proofs/Attempts.lean ====
section
/-! PROOFS. The frame of an attempt and the levels it drives (R114, R118, R121, R130, R131, R142, R149). -/

namespace Sys2Proof.Machine

/-! ### Levels (R114) -/

theorem byteLevels_length (b : Byte) : (byteLevels b).length = 10 := rfl

theorem frameBytes_length (f : Frame) : (frameBytes f).length = f.payload.length + 7 := by
  simp [frameBytes, frameBody, bytes16]

/-- The level of a bit time of a frame's byte, the byte's ten levels counted from its start bit. -/
theorem drivenLevel_of_byte {s : State} {n : Nat} {f : Frame} (h : s.line.activity = .sending n f) {j k : Nat} {b : Byte}
    (hb : (frameBytes f)[j]? = some b) (hk : k < 10) (hleft : s.line.driveLeft = frameBits f - (10 * j + k)) :
    drivenLevel s = (byteLevels b)[k]? := by
  have hj : j < f.payload.length + 7 := frameBytes_length f ▸ (List.getElem?_eq_some_iff.1 hb).1
  have hbits : frameBits f = (f.payload.length + 7) * 10 := rfl
  simp only [drivenLevel, h, hleft, frameLevels]
  rw [show frameBits f - (frameBits f - (10 * j + k)) = 10 * j + k by omega]
  exact getElem?_flatMap_of_length byteLevels_length hk hb

theorem byteLevels_data (b : Byte) : ∀ i : Fin 8, (byteLevels b)[1 + i.val]? = some (bitLevel (b.getLsbD (7 - i.val)))
  | 0 | 1 | 2 | 3 | 4 | 5 | 6 | 7 => rfl

/-! ### The frame of an attempt (R118, R131, R142) -/

theorem fireLineCue_bytes (c : LineCue) : fireLineCue (hiByte (c.zeroExtend 16)) (loByte (c.zeroExtend 16)) = c := by
  have h : word16 (hiByte (c.zeroExtend 16)) (loByte (c.zeroExtend 16)) = c.zeroExtend 16 := word16_bytes16 _
  rw [fireLineCue, h]
  exact BitVec.eq_of_toNat_eq (by simpa using c.isLt)

/-- A STATUS goes to the one querier. -/
theorem statusDest_of_one {s : State} {a : Answers} (h : s.answers = some a) {x : Station} (hx : x ≠ 0)
    (hin : inSet x a.queriers = true) (honly : ∀ y : Station, y ≠ 0 → y ≠ x → inSet y a.queriers = false) :
    statusDest s = BitVec.ofNat 8 x.val := by
  have hmem : x ∈ stationIds := (mem_stationIds x).2 hx
  have hfilter : stationIds.filter (inSet · a.queriers) = stationIds.filter (· == x) :=
    List.filter_congr fun y hy => by
      by_cases hyx : y = x
      · rw [hyx, hin, beq_self_eq_true]
      · rw [honly y ((mem_stationIds y).1 hy) hyx, beq_false_of_ne hyx]
  have hone : stationIds.filter (· == x) = [x] := by
    rw [List.filter_beq, List.count_eq_one_of_mem (by decide) hmem]
    rfl
  simp only [statusDest, h, hfilter, hone]

/-- A STATUS for two and more queriers goes to all. -/
theorem statusDest_of_two {s : State} {a : Answers} (h : s.answers = some a) {x y : Station} (hx : x ≠ 0) (hy : y ≠ 0) (hyx : y ≠ x)
    (hinx : inSet x a.queriers = true) (hiny : inSet y a.queriers = true) : statusDest s = 0 := by
  have hmx : x ∈ stationIds.filter (inSet · a.queriers) := List.mem_filter.2 ⟨(mem_stationIds x).2 hx, hinx⟩
  have hmy : y ∈ stationIds.filter (inSet · a.queriers) := List.mem_filter.2 ⟨(mem_stationIds y).2 hy, hiny⟩
  simp only [statusDest, h]
  split
  next z hz =>
    rw [hz, List.mem_singleton] at hmx hmy
    exact absurd (hmy.trans hmx.symm) hyx
  next => rfl

/-- Settles O30. -/
theorem sendSlotFixesTheFrame : Obligations.SendSlotFixesTheFrame := by
  unfold Obligations.SendSlotFixesTheFrame
  intro n e s hr hphase hage hact hfind
  have hident : e.ident = n := by simpa using List.find?_some hfind
  have hslot : slotFrame s = some e := by
    simp only [slotFrame, hact]
    rw [if_pos ⟨hphase, trivial⟩]
    exact hfind
  have hdue : sendDue s = true := by simp [sendDue, hage, hslot]
  have hbegin : takeSendSlot s = beginAttempt e s := by simp only [takeSendSlot, hslot]
  refine ⟨buildFrame s e.body, ?_, fun j b hb => ?_, frameBytes_length _, rfl, ?_⟩
  · rw [exec_of_happens (c := .sendSlot) hr hdue id]
    exact congrArg _ (hbegin.trans (by rw [beginAttempt, hident, frameBits, Config.byteBits]))
  · refine ⟨drivenLevel_of_byte (k := 0) rfl hb (by decide) rfl, drivenLevel_of_byte (k := 9) rfl hb (by decide) rfl, fun i => ?_⟩
    exact (drivenLevel_of_byte (k := 1 + i.val) rfl hb (by omega) rfl).trans (byteLevels_data b i)
  · cases hb : e.body with
    | fire c o => exact ⟨rfl, rfl, fireLineCue_bytes c, rfl, rfl, rfl⟩
    | stop sel m => exact ⟨rfl, rfl, rfl⟩
    | claim g k x => exact ⟨rfl, rfl, rfl⟩
    | hold g k x => exact ⟨rfl, rfl, rfl⟩
    | release g k x v => exact ⟨rfl, rfl, rfl⟩
    | segment k m x => cases x <;> exact ⟨rfl, rfl, rfl⟩
    | presence => exact ⟨rfl, rfl, rfl⟩
    | status =>
      refine ⟨rfl, rfl, fun a ha x hx hin => ⟨fun honly => statusDest_of_one ha hx hin honly, fun y hy hyx hiny => ?_⟩⟩
      exact statusDest_of_two ha hx hy hyx hin hiny

end Sys2Proof.Machine
end

