-- ==== Sys2Proof/Proofs/Port.lean ====
section
/-! PROOFS. The store port and the walk of a fetch pointer: what a grant gives, what a completed burst of a voice leaves, and the debt walk
(R18 to R29, R64 to R66). -/

namespace Sys2Proof.Machine

/-! ### Choosing -/

/-- An element that is better than every other of the list, and none of them better than it, is picked. -/
theorem pick_of_best {α : Type} {better : α → α → Bool} {l : List α} {a : α} (ha : a ∈ l)
    (hbest : ∀ b ∈ l, b ≠ a → better a b = true ∧ better b a = false) : pick better l = some a := by
  induction l with
  | nil => cases ha
  | cons b l ih =>
    have hrest := fun c (hc : c ∈ l) => hbest c (List.mem_cons_of_mem b hc)
    by_cases hmem : a ∈ l
    · simp only [pick, ih hmem hrest]
      by_cases hb : b = a
      · rw [hb, ite_self]
      · rw [if_pos (hbest b List.mem_cons_self hb).1]
    · obtain rfl : a = b := (List.mem_cons.1 ha).resolve_right hmem
      cases hp : pick better l with
      | none => simp only [pick, hp]
      | some c =>
        have hc := pick_mem hp
        have hworse := (hrest c hc fun e => hmem (e ▸ hc)).2
        simp [pick, hp, hworse]

/-! ### Tables written twice at one place -/

theorem upd_upd {α : Type} {n : Nat} (t : Vector α n) (i : Fin n) (a b : α) : upd (upd t i a) i b = upd t i b := by
  simp [upd]

theorem State.setVoice_setVoice (s : State) (v : VoiceId) (x y : Voice) : (s.setVoice v x).setVoice v y = s.setVoice v y := by
  simp [State.setVoice, upd_upd]

theorem State.setRequest_setRequest (s : State) (v : VoiceId) (a b : Option Micros) :
    (s.setRequest v a).setRequest v b = s.setRequest v b := by
  simp [State.setRequest, upd_upd]

/-! ### The chain walk (R21, R22, R66) -/

section
variable {v : VoiceId} {g : Segment} {s : State}

theorem walkOn_repeats (h : g.repeats ≠ 255) (hp : (s.voice v).fetchPtr.pass < g.repeats) : walkOn v g s
    = s.setVoice v { s.voice v with fetchPtr := ⟨(s.voice v).fetchPtr.desc, 0, (s.voice v).fetchPtr.pass + 1⟩ } := by
  simp only [walkOn, if_neg h, if_pos hp]

theorem walkOn_endless (h : g.repeats = 255) (ht : (s.voice v).tail = false) : walkOn v g s
    = s.setVoice v { s.voice v with fetchPtr := ⟨(s.voice v).fetchPtr.desc, 0, min 255 ((s.voice v).fetchPtr.pass + 1)⟩ } := by
  simp [walkOn, h, ht]

/-- At the end of the last pass the pointer leaves the descriptor, and the tail-exit flag is cleared where it was read. -/
theorem walkOn_leaves (h : g.repeats ≠ 255 ∧ g.repeats ≤ (s.voice v).fetchPtr.pass ∨ g.repeats = 255 ∧ (s.voice v).tail = true) :
    walkOn v g s
      = nextDescriptor v g (s.setVoice v { s.voice v with tail := if g.repeats = 255 then false else (s.voice v).tail }) := by
  rcases h with ⟨h, hp⟩ | ⟨h, ht⟩
  · simp only [walkOn, if_neg h, if_neg (Nat.not_lt.2 hp)]
    rw [State.setVoice_of_voice rfl]
  · simp only [walkOn, if_pos h, if_pos ht]

theorem enterDescriptor_of_resolved {k : Segment} {u : WindowId} (hk : s.segment (s.voice v).fetchPtr.desc = some k)
    (hu : resolve s.tables k = some u) : enterDescriptor v s = s.setVoice v { s.voice v with window := some u } := by
  simp only [enterDescriptor, hk, Option.bind_some, hu]

theorem enterDescriptor_of_fault (h : (s.segment (s.voice v).fetchPtr.desc).bind (resolve s.tables) = none) :
    enterDescriptor v s = storeFault v s := by
  simp only [enterDescriptor, h]

theorem nextDescriptor_of_resolved {d : SegIdx} {k : Segment} {u : WindowId} (hd : g.next = some d) (hk : s.segment d = some k)
    (hu : resolve s.tables k = some u) :
    nextDescriptor v g s = s.setVoice v { s.voice v with fetchPtr := ⟨d, 0, 0⟩, window := some u } := by
  simp only [nextDescriptor, hd]
  have hptr : (s.setVoice v { s.voice v with fetchPtr := ⟨d, 0, 0⟩ }).voice v = { s.voice v with fetchPtr := ⟨d, 0, 0⟩ } :=
    State.voice_setVoice ..
  refine (enterDescriptor_of_resolved (s := s.setVoice v _) (by rw [hptr]; exact hk) hu).trans ?_
  rw [State.setVoice_setVoice, State.voice_setVoice]

theorem nextDescriptor_of_fault {d : SegIdx} (hd : g.next = some d) (h : (s.segment d).bind (resolve s.tables) = none) :
    nextDescriptor v g s = storeFault v (s.setVoice v { s.voice v with fetchPtr := ⟨d, 0, 0⟩ }) := by
  simp only [nextDescriptor, hd]
  exact enterDescriptor_of_fault (by rw [State.voice_setVoice]; exact h)

theorem nextDescriptor_of_end (hd : g.next = none) : nextDescriptor v g s = endFetch v s := by
  simp only [nextDescriptor, hd]

/-- A store fault on a sounding voice ends its fetch and cuts it. -/
theorem storeFault_of_audible (h : (s.voice v).audible = true) : storeFault v s = ((s.setVoice v
    { s.voice v with fetchDone := true, state := .fading, fade := some ⟨.fadeOut, (s.mix v).fade, 2, none⟩ }).setRequest v none).bump
      .storeFault := by
  have hvoice : (endFetch v (s.bump .storeFault)).voice v = { s.voice v with fetchDone := true } := State.voice_setVoice ..
  have hcut : cutVoice (endFetch v (s.bump .storeFault)) v = beginFadeOut v 2 (endFetch v (s.bump .storeFault)) := by
    unfold cutVoice
    rw [hvoice]
    rcases audible_iff.1 h with hs | hs <;> simp only [hs, Config.cutLength]
  rw [storeFault, hcut, beginFadeOut, hvoice]
  simp only [State.setVoice, State.setRequest, State.bump, endFetch, upd_upd]
  rfl

/-- The pointer within its pass. -/
theorem advancePtr_within (hg : s.segment (s.voice v).fetchPtr.desc = some g) {n : Nat} (h : (s.voice v).fetchPtr.off + n < g.length) :
    advancePtr v n s
      = s.setVoice v { s.voice v with fetchPtr := { (s.voice v).fetchPtr with off := (s.voice v).fetchPtr.off + n } } := by
  simp only [advancePtr, hg, if_neg (Nat.not_le.2 h)]

/-- The pointer at the end of its pass. -/
theorem advancePtr_walks (hg : s.segment (s.voice v).fetchPtr.desc = some g) {n : Nat} (h : g.length ≤ (s.voice v).fetchPtr.off + n) :
    advancePtr v n s = walkOn v g
      (s.setVoice v { s.voice v with fetchPtr := { (s.voice v).fetchPtr with off := (s.voice v).fetchPtr.off + n } }) := by
  simp only [advancePtr, hg, if_pos h]

end

/-! ### Grants (R24 to R27) -/

theorem mem_requesters_iff {s : State} {v : VoiceId} {t : Micros} : (v, t) ∈ s.requesters ↔ s.fetch.requests.get v = some t := by
  refine ⟨mem_requesters, fun h => List.mem_filterMap.2 ⟨v, List.mem_finRange v, ?_⟩⟩
  rw [h]
  rfl

theorem requesters_eq_nil {s : State} (h : ∀ u, s.fetch.requests.get u = none) : s.requesters = [] :=
  List.eq_nil_iff_forall_not_mem.2 fun (v, _) hm => by
    rw [mem_requesters_iff, h v] at hm
    cases hm

theorem settleDebt_of_no_debt {v : VoiceId} {s : State} (h : (s.voice v).debt = 0) : settleDebt v s = s := by
  simp only [settleDebt, h, debtWalk]
  exact State.setVoice_of_voice (by rw [← h])

theorem issueVoice_eq {v : VoiceId} {s : State} {g : Segment} {w : WindowId} (hg : s.segment (s.voice v).fetchPtr.desc = some g)
    (hw : (s.voice v).window = some w) : issueVoice v s = { s with
      voices := upd s.voices v { s.voice v with inFlight := min 64 (g.length - (s.voice v).fetchPtr.off) }
      fetch := { s.fetch with
        requests := upd s.fetch.requests v none
        burst := some ⟨.voice v (s.voice v).gen, w, g.start + (s.voice v).fetchPtr.off,
          min 64 (g.length - (s.voice v).fetchPtr.off), 40 * 2 ^ (s.tables.store.get w).access.val⟩ } } := by
  simp only [issueVoice, hg, hw]
  rfl

/-- The port goes to the requester of the best effective priority, once its debt is settled. -/
theorem grant_of_first {v : VoiceId} {t : Micros} {s : State} (h : pick s.portBefore s.requesters = some (v, t)) (rounds : Nat) :
    grant (rounds + 1) s = if ((settleDebt v s).voice v).fetchDone then grant rounds ((settleDebt v s).setRequest v none)
      else issueVoice v (settleDebt v s) := by
  simp only [grant, h]

/-- With no requester the port goes to the head that the preload pass is reading. -/
theorem grant_of_head {s : State} (h : ∀ u, s.fetch.requests.get u = none) (hp : s.fetch.pass = .running) {w : HeadWork}
    (hw : s.fetch.work = some w) (rounds : Nat) : grant (rounds + 1) s = issuePreload w s := by
  simp only [grant, requesters_eq_nil h, pick, hp, hw]

/-- With no requester and no head to read the port stays idle. -/
theorem grant_of_nothing {s : State} (h : ∀ u, s.fetch.requests.get u = none)
    (hp : s.fetch.pass ≠ .running ∨ s.fetch.work = none) (rounds : Nat) : grant (rounds + 1) s = s := by
  simp only [grant, requesters_eq_nil h, pick]
  split
  next hrun hw =>
    rcases hp with hp | hp
    · exact absurd hrun hp
    · rw [hw] at hp
      cases hp
  next => rfl

theorem grantIfIdle_of_idle {s : State} (h : s.fetch.burst = none) : grantIfIdle s = grant 9 s := by
  simp [grantIfIdle, h]

/-- The only requester, without debt, is granted. -/
theorem grant_of_sole {v : VoiceId} {t : Micros} {s : State} (hv : s.fetch.requests.get v = some t)
    (hothers : ∀ u, u ≠ v → s.fetch.requests.get u = none) (hdebt : (s.voice v).debt = 0) (hdone : (s.voice v).fetchDone = false)
    (rounds : Nat) : grant (rounds + 1) s = issueVoice v s := by
  have hpick : pick s.portBefore s.requesters = some (v, t) := pick_of_best (mem_requesters_iff.2 hv) fun (u, r) hu hne => by
    rw [mem_requesters_iff] at hu
    by_cases huv : u = v
    · subst huv
      rw [hv] at hu
      cases hu
      exact absurd rfl hne
    · rw [hothers u huv] at hu
      cases hu
  rw [grant_of_first hpick, settleDebt_of_no_debt hdebt, if_neg (by rw [hdone]; exact Bool.false_ne_true)]

/-! ### A voice joins the request set (R24, R25) -/

theorem refreshRequest_of_not_asking {v : VoiceId} {s : State} (hnone : s.fetch.requests.get v = none) (h : s.requests v = false) :
    refreshRequest v s = s := by
  simp only [refreshRequest, h]
  exact State.setRequest_of_get hnone

section
variable {v : VoiceId} {s : State} (hactive : (s.voice v).active = true) (hdone : (s.voice v).fetchDone = false)
  (hfill : (s.voice v).fifo.length + (s.voice v).inFlight ≤ 192)
include hactive hdone hfill

theorem requests_of_fill (hown : s.ownBurst v = false) : s.requests v = true := by
  simp [State.requests, hactive, hdone, hown, Config.fillLimit, hfill]

variable (hnone : s.fetch.requests.get v = none)
include hnone

/-- The voice waits for the port. -/
theorem refreshRequest_waits {b : Burst} (hb : s.fetch.burst = some b) (hreq : b.req ≠ .voice v (s.voice v).gen) :
    refreshRequest v s = s.setRequest v (some s.clock.micros) := by
  have hown : s.ownBurst v = false := by
    rw [Bool.eq_false_iff, ne_eq, ownBurst_iff]
    rintro ⟨b', tag, hb', hreq', -, htag⟩
    rw [hb] at hb'
    cases hb'
    exact hreq (by rw [hreq', htag])
  rw [refreshRequest_of_busy (by rw [hb]; rfl), if_pos (requests_of_fill hactive hdone hfill hown), hnone]
  rfl

/-- The voice is granted the idle port at once. -/
theorem refreshRequest_granted (hb : s.fetch.burst = none) (hothers : ∀ u, u ≠ v → s.fetch.requests.get u = none)
    (hdebt : (s.voice v).debt = 0) {g : Segment} {w : WindowId} (hg : s.segment (s.voice v).fetchPtr.desc = some g)
    (hw : (s.voice v).window = some w) : refreshRequest v s = { s with
      voices := upd s.voices v { s.voice v with inFlight := min 64 (g.length - (s.voice v).fetchPtr.off) }
      fetch := { s.fetch with
        burst := some ⟨.voice v (s.voice v).gen, w, g.start + (s.voice v).fetchPtr.off,
          min 64 (g.length - (s.voice v).fetchPtr.off), 40 * 2 ^ (s.tables.store.get w).access.val⟩ } } := by
  have hown : s.ownBurst v = false := by simp [State.ownBurst, hb]
  have hget : (s.setRequest v (some s.clock.micros)).fetch.requests.get v = some s.clock.micros := upd_get_self ..
  have hrest (u : VoiceId) (hu : u ≠ v) : (s.setRequest v (some s.clock.micros)).fetch.requests.get u = none :=
    (upd_get_ne _ _ hu).trans (hothers u hu)
  rw [refreshRequest, if_pos (requests_of_fill hactive hdone hfill hown), hnone, if_neg (by exact Bool.false_ne_true),
    grantIfIdle_of_idle (s := s.setRequest v _) hb, grant_of_sole hget hrest hdebt hdone]
  refine (issueVoice_eq (s := s.setRequest v _) hg hw).trans ?_
  simp only [State.setRequest, upd_upd, upd_get_eq hnone]
  rfl

end

/-! ### A voice's burst completes (R27, R28) -/

theorem exec_burstComplete {data : Vector Sample 64} {v : VoiceId} {tag : Byte} {b : WindowId} {first n : Nat} {s : State}
    (hr : s.inReset = false) (hburst : s.fetch.burst = some ⟨.voice v tag, b, first, n, 0⟩) :
    exec (.burstComplete data) s = .next (settleReturns (completeBurst v tag n data.toList s)) := by
  have hdue : voiceBurstDue s = some (v, tag, n) := by simp only [voiceBurstDue, hburst]
  have htake : takeVoiceBurst data.toList s = settleReturns (completeBurst v tag n data.toList s) := by simp only [takeVoiceBurst, hdue]
  rw [← htake]
  exact exec_of_happens (c := .burstComplete data) hr (by show (voiceBurstDue s).isSome = true; rw [hdue]; rfl) id

/-- A voice with the samples of its burst that its debt does not take, before its pointer moves. -/
def filledVoice (x : Voice) (n : Nat) (data : List Sample) : Voice :=
  { x with inFlight := 0, debt := 0, fifo := x.fifo ++ (burstSamples x.fetchPtr (data.take n)).drop x.debt }

/-- A burst at least as long as the debt settles it. -/
theorem applyBurst_of_debt {v : VoiceId} {n : Nat} {data : List Sample} {s : State} (h : (s.voice v).debt ≤ n) :
    applyBurst v n data s =
      let t := advancePtr v n (s.setVoice v (filledVoice (s.voice v) n data))
      if (t.voice v).state = .priming then enterPlaying v t else t := by
  simp only [applyBurst, Nat.min_eq_left h, Nat.sub_self]
  rfl

/-- A burst of the voice's present start fills it, and the port is granted anew. -/
theorem completeBurst_of_match {v : VoiceId} {n : Nat} {data : List Sample} {s : State} (h : (s.voice v).state ≠ .idle) :
    completeBurst v (s.voice v).gen n data s = grantIfIdle (refreshRequest v (freePort (applyBurst v n data s))) := by
  simp [completeBurst, tagMatches, Voice.active, h]

section
variable {v : VoiceId} {n : Nat} {data : List Sample} {s : State} (hset : Settled s) (hnone : ∀ u, s.fetch.requests.get u = none)
  (hpass : s.fetch.pass ≠ .running) (hsounds : (s.voice v).state = .playing ∨ (s.voice v).state = .fading)
  (hdebt : (s.voice v).debt ≤ n)
include hset hnone hpass hsounds hdebt

/-- The sounding voice whose pointer has moved requests the port again, or holds enough. -/
theorem completeBurst_goesOn {y : Voice} {k : Segment} {u : WindowId}
    (hwalk : advancePtr v n (s.setVoice v (filledVoice (s.voice v) n data)) = s.setVoice v y)
    (hstate : y.state = (s.voice v).state) (hgen : y.gen = (s.voice v).gen) (hdone : y.fetchDone = false) (hy : y.debt = 0)
    (hin : y.inFlight = 0) (hk : s.segment y.fetchPtr.desc = some k) (hu : y.window = some u) :
    (y.fifo.length ≤ 192 → settleReturns (completeBurst v (s.voice v).gen n data s) = { s with
      voices := upd s.voices v { y with inFlight := min 64 (k.length - y.fetchPtr.off) }
      fetch := { s.fetch with
        burst := some ⟨.voice v (s.voice v).gen, u, k.start + y.fetchPtr.off, min 64 (k.length - y.fetchPtr.off),
          40 * 2 ^ (s.tables.store.get u).access.val⟩ } })
    ∧ (192 < y.fifo.length → settleReturns (completeBurst v (s.voice v).gen n data s)
        = { s with voices := upd s.voices v y, fetch := { s.fetch with burst := none } }) := by
  have hvoice : (freePort (s.setVoice v y)).voice v = y := State.voice_setVoice s v y
  have hactive : y.active = true := by rcases hsounds with h | h <;> simp [Voice.active, hstate, h]
  have happly : applyBurst v n data s = s.setVoice v y := by
    rw [applyBurst_of_debt hdebt, hwalk]
    refine if_neg ?_
    rw [State.voice_setVoice, hstate]
    rcases hsounds with h | h <;> rw [h] <;> decide
  rw [completeBurst_of_match (by rcases hsounds with h | h <;> rw [h] <;> decide), happly]
  constructor
  · intro hfill
    rw [refreshRequest_granted (s := freePort (s.setVoice v y)) (by rwa [hvoice]) (by rwa [hvoice]) (by rwa [hvoice, hin])
      (hnone v) rfl (fun u _ => hnone u) (by rwa [hvoice]) (by rwa [hvoice]) (by rwa [hvoice]), hvoice,
      grantIfIdle_of_busy (by rfl), settleReturns_of_settled (by exact hset)]
    simp only [freePort, State.setVoice, upd_upd, hgen]
  · intro hfull
    have hquiet : (freePort (s.setVoice v y)).requests v = false := by
      simp only [State.requests, hvoice, hin, Config.fillLimit, Bool.and_eq_false_iff, decide_eq_false_iff_not]
      exact .inr (by omega)
    rw [refreshRequest_of_not_asking (s := freePort (s.setVoice v y)) (hnone v) hquiet, grantIfIdle_of_idle (by rfl),
      grant_of_nothing (s := freePort (s.setVoice v y)) hnone (.inl hpass), settleReturns_of_settled (by exact hset)]
    rfl

/-- The sounding voice whose fetch is over requests nothing. -/
theorem completeBurst_ends {t : State} (hwalk : advancePtr v n (s.setVoice v (filledVoice (s.voice v) n data)) = t)
    (hstate : (t.voice v).state ≠ .priming) (hdone : (t.voice v).fetchDone = true) (hfetch : t.fetch = s.fetch) (hreturns : t.returns = s.returns) :
    settleReturns (completeBurst v (s.voice v).gen n data s) = freePort t := by
  have happly : applyBurst v n data s = t := by
    rw [applyBurst_of_debt hdebt, hwalk]
    exact if_neg hstate
  have hquiet : (freePort t).requests v = false := by
    simp only [State.requests, show (freePort t).voice v = t.voice v from rfl, hdone, Bool.not_true, Bool.and_false, Bool.false_and]
  have hnone : ∀ u, (freePort t).fetch.requests.get u = none := fun u => by
    show t.fetch.requests.get u = none
    rw [hfetch, hnone u]
  have hpass : (freePort t).fetch.pass ≠ .running := by
    show t.fetch.pass ≠ .running
    rwa [hfetch]
  rw [completeBurst_of_match (by rcases hsounds with h | h <;> rw [h] <;> decide), happly,
    refreshRequest_of_not_asking (hnone v) hquiet, grantIfIdle_of_idle (by rfl), grant_of_nothing hnone (.inl hpass)]
  exact settleReturns_of_settled (hreturns.trans hset)

end

/-- Settles O17. -/
theorem burstCompletionFillsTheFifo : Obligations.BurstCompletionFillsTheFifo := by
  intro data v w b first n g s hr hset hnone hpass hburst hsounds hdone hw hg hdebt x p taken filled free goesOn
  have hexec := exec_burstComplete (data := data) hr hburst
  have hgoes (y : Voice) (k : Segment) (u : WindowId)
      (hwalk : advancePtr v n (s.setVoice v filled) = s.setVoice v y) (hy : y.state = x.state ∧ y.gen = x.gen ∧ y.fetchDone = false
        ∧ y.debt = 0 ∧ y.inFlight = 0) (hk : s.segment y.fetchPtr.desc = some k) (hu : y.window = some u) : goesOn y k u := by
    obtain ⟨hstate, hgen, hdone, hdebt0, hin⟩ := hy
    obtain ⟨hfew, hmany⟩ := completeBurst_goesOn (data := data.toList) hset hnone hpass hsounds hdebt hwalk hstate hgen hdone hdebt0 hin hk hu
    exact ⟨fun h => hexec.trans (congrArg _ (hfew h)), fun h => hexec.trans (congrArg _ (hmany h))⟩
  have hvoice : (s.setVoice v filled).voice v = filled := State.voice_setVoice ..
  have hseg : (s.setVoice v filled).segment ((s.setVoice v filled).voice v).fetchPtr.desc = some g := by rw [hvoice]; exact hg
  have hkept : filled.state = x.state ∧ filled.gen = x.gen ∧ filled.fetchDone = false ∧ filled.debt = 0 ∧ filled.inFlight = 0 :=
    ⟨rfl, rfl, hdone, rfl, rfl⟩
  refine ⟨fun hlt => ?_, fun hle => ⟨fun h255 hp => ?_, fun h255 ht => ?_, fun hout => ?_⟩⟩
  · refine hgoes _ _ _ ((advancePtr_within hseg (by rw [hvoice]; exact hlt)).trans ?_) hkept hg hw
    rw [State.setVoice_setVoice, hvoice]
  all_goals
    have hmoved := advancePtr_walks (n := n) hseg (by rw [hvoice]; exact hle)
    rw [State.setVoice_setVoice, hvoice] at hmoved
    generalize hz : ({ filled with fetchPtr := { filled.fetchPtr with off := filled.fetchPtr.off + n } } : Voice) = z at hmoved
    have hzv : (s.setVoice v z).voice v = z := State.voice_setVoice ..
  · refine hgoes _ _ _ (hmoved.trans ((walkOn_repeats h255 (by rw [hzv, ← hz]; exact hp)).trans ?_)) hkept hg hw
    rw [State.setVoice_setVoice, hzv, ← hz]
  · refine hgoes _ _ _ (hmoved.trans ((walkOn_endless h255 (by rw [hzv, ← hz]; exact ht)).trans ?_)) hkept hg hw
    rw [State.setVoice_setVoice, hzv, ← hz]
  · have hleft := hmoved.trans (walkOn_leaves (by
      rw [hzv, ← hz]
      exact hout))
    rw [State.setVoice_setVoice, hzv] at hleft
    generalize hz' : ({ z with tail := if g.repeats = 255 then false else z.tail } : Voice) = z' at hleft
    have hzv' : (s.setVoice v z').voice v = z' := State.voice_setVoice ..
    have hout' : z' = { filled with
        tail := if g.repeats = 255 then false else x.tail, fetchPtr := { p with off := p.off + n } } := by rw [← hz', ← hz]
    have hstate : z'.state = x.state := by rw [hout']
    have hstay (y : Voice) : (s.setVoice v y).setRequest v none = s.setVoice v y := State.setRequest_of_get (hnone v)
    intro out
    have hends {t : State} (y : Voice) (hwalk : nextDescriptor v g (s.setVoice v z') = t) (hv : t.voice v = y)
        (hy : y.state ≠ .priming) (hd : y.fetchDone = true) (hf : t.fetch = s.fetch) (hret : t.returns = s.returns) :
        exec (.burstComplete data) s = .next (freePort t) :=
      hexec.trans (congrArg _ (completeBurst_ends hset hnone hpass hsounds hdebt (hleft.trans hwalk) (by rwa [hv]) (by rwa [hv]) hf hret))
    refine ⟨fun d k u hd hk hu => ?_, fun d hd hfault => ?_, fun hd => ?_⟩
    · refine hgoes _ _ _ (hleft.trans ((nextDescriptor_of_resolved (s := s.setVoice v z') hd hk hu).trans ?_)) hkept hk rfl
      rw [State.setVoice_setVoice, hzv', hout']
    · have hfaulted := nextDescriptor_of_fault (v := v) (s := s.setVoice v z') hd hfault
      rw [State.setVoice_setVoice, hzv', storeFault_of_audible (by
        rw [State.voice_setVoice, audible_iff, hstate]
        exact hsounds), State.setVoice_setVoice, State.voice_setVoice, hstay] at hfaulted
      refine ⟨z'.window, (hends _ hfaulted (State.voice_setVoice ..) nofun rfl rfl rfl).trans ?_⟩
      rw [hout']
      rfl
    · have hended := nextDescriptor_of_end (v := v) (s := s.setVoice v z') hd
      rw [endFetch, State.setVoice_setVoice, hzv', hstay] at hended
      refine (hends _ hended (State.voice_setVoice ..) (fun h => ?_) rfl rfl rfl).trans ?_
      · rcases hsounds with hs | hs <;> cases hs.symm.trans (hstate.symm.trans h)
      · rw [hout']
        rfl

/-! ### Entry to PLAYING (R64) -/

/-- What entry to PLAYING leaves: the record of the voice, its levels, the beat reference, and all else but the keys handed over. -/
structure Begins (v : VoiceId) (q : Cue) (s t : State) : Prop where
  voices : t.voices = upd s.voices v { s.voice v with
    state := .playing, deadline := none, playTime := s.now, fade := some (entryFade q) }
  fade : (t.mix v).fade = if q.fadeIn = 0 then 0 else 127
  beatRef : t.beatRef = if q.beat.isSome then some v else s.beatRef
  fetch : t.fetch = s.fetch
  starts : t.starts = s.starts
  preload : t.preload = s.preload
  clock : t.clock = s.clock
  tables : t.tables = s.tables
  returns : t.returns = s.returns
  counters : ∀ c, c ≠ .txDropped → t.counter c = s.counter c

theorem enterPlaying_begins {v : VoiceId} {s : State} {q : Cue} (hq : s.cue (s.voice v).cue = some q) :
    Begins v q s (enterPlaying v s) := by
  have hreturns := enterPlaying_returns v s
  obtain ⟨m, hm, henter⟩ := enterPlaying_of_cue hq
  obtain ⟨voices, mixer, beatRef, fetch, starts, preload, -, clock, tables, counters⟩ := handLocalKeys_keeps
    { ((s.setVoice v { s.voice v with
          state := .playing, deadline := none, playTime := s.now, fade := some (entryFade q) }).setMix v m) with
            beatRef := if q.beat.isSome then some v else s.beatRef }
  rw [← henter] at voices mixer beatRef fetch starts preload clock tables counters
  refine ⟨voices, ?_, beatRef, fetch, starts, preload, clock, tables, hreturns, counters⟩
  rw [State.mix, mixer]
  exact (congrArg VoiceMix.fade (upd_get_self ..)).trans (hm.trans (fadeAtt_entry q))

theorem Begins.voice {v : VoiceId} {q : Cue} {s t : State} (h : Begins v q s t) : t.voice v = { s.voice v with
    state := .playing, deadline := none, playTime := s.now, fade := some (entryFade q) } := by
  rw [State.voice, h.voices]
  exact upd_get_self ..

theorem Begins.voice_ne {v u : VoiceId} {q : Cue} {s t : State} (h : Begins v q s t) (hu : u ≠ v) : t.voice u = s.voice u := by
  rw [State.voice, h.voices]
  exact upd_get_ne _ _ hu

theorem burstSamples_samples (p : Pos) (data : List Sample) : (burstSamples p data).map (·.sample) = data := by
  refine List.ext_getElem (by simp [burstSamples]) fun i _ _ => ?_
  simp [burstSamples]

/-- Settles O18. -/
theorem firstBurstEndsPriming : Obligations.FirstBurstEndsPriming := by
  intro data v b first n g q s hr hset hnone hburst hpriming hdone hwindow hfifo hdebt hq hg hlt hn
  obtain ⟨w, hw⟩ := Option.isSome_iff_exists.1 hwindow
  have hexec := exec_burstComplete (data := data) hr hburst
  let x := s.voice v
  let y : Voice := { filledVoice x n data.toList with fetchPtr := { x.fetchPtr with off := x.fetchPtr.off + n } }
  have hvoice (z : Voice) : (s.setVoice v z).voice v = z := State.voice_setVoice ..
  have hwalk : advancePtr v n (s.setVoice v (filledVoice x n data.toList)) = s.setVoice v y := by
    rw [advancePtr_within (g := g) (by rw [hvoice]; exact hg) (by rw [hvoice]; exact hlt), State.setVoice_setVoice, hvoice]
    rfl
  have hbegins : Begins v q (s.setVoice v y) (enterPlaying v (s.setVoice v y)) := enterPlaying_begins (by rw [hvoice]; exact hq)
  have happly : applyBurst v n data.toList s = enterPlaying v (s.setVoice v y) := by
    rw [applyBurst_of_debt (hdebt ▸ Nat.zero_le n), hwalk]
    exact if_pos (by rw [hvoice]; exact hpriming)
  rw [completeBurst_of_match (by rw [hpriming]; nofun), happly] at hexec
  have htv := hbegins.voice
  rw [hvoice] at htv
  have hfew : y.fifo = burstSamples x.fetchPtr (data.toList.take n) := by
    show x.fifo ++ (burstSamples x.fetchPtr (data.toList.take n)).drop x.debt = _
    rw [show x.fifo = [] from hfifo, show x.debt = 0 from hdebt]
    rfl
  have hlen : y.fifo.length ≤ 64 := by
    rw [hfew, ← List.length_map (f := (·.sample)), burstSamples_samples, List.length_take]
    omega
  have hothers (u : VoiceId) (hu : u ≠ v) : (enterPlaying v (s.setVoice v y)).voice u = s.voice u :=
    (hbegins.voice_ne hu).trans (State.voice_setVoice_ne s y hu)
  generalize enterPlaying v (s.setVoice v y) = t at *
  have hnone' (u : VoiceId) : t.fetch.requests.get u = none := by rw [hbegins.fetch]; exact hnone u
  have hfv : (freePort t).voice v = t.voice v := rfl
  have hseg : (freePort t).segment y.fetchPtr.desc = some g := by
    show t.tables.segments.get _ = _
    rw [hbegins.tables]
    exact hg
  rw [refreshRequest_granted (s := freePort t) (v := v) (g := g) (w := w) (by rw [hfv, htv]; rfl) (by rw [hfv, htv]; exact hdone)
    (by rw [hfv, htv]; exact Nat.le_trans hlen (by decide)) (hnone' v) rfl (fun u _ => hnone' u) (by rw [hfv, htv]; rfl)
    (by rw [hfv, htv]; exact hseg) (by rw [hfv, htv]; exact hw), grantIfIdle_of_busy (by rfl),
    settleReturns_of_settled (by exact hbegins.returns.trans hset)] at hexec
  refine ⟨_, 0, hexec, ?_⟩
  have hself (z : Voice) : (upd (freePort t).voices v z).get v = z := upd_get_self ..
  simp only [State.voice, hself]
  rw [show (freePort t).voices.get v = t.voice v from rfl, htv]
  refine ⟨rfl, rfl, rfl, rfl, ?_, rfl, fun u hu => (upd_get_ne _ _ hu).trans (hothers u hu), hbegins.starts, hbegins.preload,
    hbegins.beatRef⟩
  rw [hfew]
  exact burstSamples_samples ..

/-! ### The debt walk (R27) -/

/-- A walk of the fetch pointer of a sounding voice v: the tables stand, the voice sounds on, no return is caused, and of the Fetch Engine
only the request of v may be gone. -/
structure Walks (v : VoiceId) (s t : State) : Prop where
  tables : t.tables = s.tables
  fetch : (t.setRequest v none).fetch = (s.setRequest v none).fetch
  audible : (t.voice v).audible = true
  returns : t.returns = s.returns

section
variable {v : VoiceId} {s t u : State}

theorem Walks.trans (h : Walks v s t) (k : Walks v t u) : Walks v s u :=
  ⟨k.tables.trans h.tables, k.fetch.trans h.fetch, k.audible, k.returns.trans h.returns⟩

theorem Walks.setVoice {x : Voice} (h : x.audible = true) : Walks v s (s.setVoice v x) :=
  ⟨rfl, rfl, by rwa [State.voice_setVoice], rfl⟩

variable (h : (s.voice v).audible = true)
include h

theorem Walks.refl : Walks v s s := ⟨rfl, rfl, h, rfl⟩

theorem Walks.endFetch : Walks v s (Machine.endFetch v s) :=
  ⟨rfl, by rw [Machine.endFetch, State.setRequest_setRequest]; rfl, by
    show ((s.setVoice v { s.voice v with fetchDone := true }).voice v).audible = true
    rwa [State.voice_setVoice], rfl⟩

theorem Walks.storeFault : Walks v s (Machine.storeFault v s) := by
  rw [storeFault_of_audible h]
  refine ⟨rfl, (congrArg State.fetch (State.setRequest_setRequest s v none none) :), ?_, rfl⟩
  exact (congrArg Voice.audible (State.voice_setVoice s v _)).trans rfl

theorem Walks.nextDescriptor (g : Segment) : Walks v s (Machine.nextDescriptor v g s) := by
  unfold Machine.nextDescriptor
  split
  next d _ =>
    have hmoved : Walks v s (s.setVoice v { s.voice v with fetchPtr := ⟨d, 0, 0⟩ }) := .setVoice h
    refine hmoved.trans ?_
    unfold enterDescriptor
    dsimp only
    split
    · exact .setVoice hmoved.audible
    · exact .storeFault hmoved.audible
  next => exact .endFetch h

theorem Walks.walkOn (g : Segment) : Walks v s (Machine.walkOn v g s) := by
  unfold Machine.walkOn
  dsimp only
  split
  · split
    · have hcleared : Walks v s (s.setVoice v { s.voice v with tail := false }) := .setVoice h
      exact hcleared.trans (.nextDescriptor hcleared.audible g)
    · exact .setVoice h
  · split
    · exact .setVoice h
    · exact .nextDescriptor h g

theorem Walks.advancePtr (n : Nat) : Walks v s (Machine.advancePtr v n s) := by
  unfold Machine.advancePtr
  dsimp only
  split
  · exact .endFetch h
  · have hmoved : Walks v s (s.setVoice v
        { s.voice v with fetchPtr := { (s.voice v).fetchPtr with off := (s.voice v).fetchPtr.off + n } }) := .setVoice h
    split
    · exact hmoved.trans (.walkOn hmoved.audible _)
    · exact hmoved

end

/-- The fetch pointer on by one sample, until the fetch has ended. -/
def stepPtr (v : VoiceId) (s : State) : State := if (s.voice v).fetchDone then s else advancePtr v 1 s

theorem Walks.stepPtr_iterate {v : VoiceId} (n : Nat) {s : State} (h : (s.voice v).audible = true) : Walks v s ((stepPtr v)^[n] s) := by
  induction n generalizing s with
  | zero => exact .refl h
  | succ n ih =>
    have hone : Walks v s (stepPtr v s) := by
      unfold stepPtr
      split
      · exact .refl h
      · exact .advancePtr h 1
    exact hone.trans (ih hone.audible)

/-- The pointer of a voice that still fetches is short of its pass end. -/
def WithinPass (v : VoiceId) (s : State) : Prop := (s.voice v).fetchDone = false →
  ∀ k, s.segment (s.voice v).fetchPtr.desc = some k → (s.voice v).fetchPtr.off < k.length

section
variable {v : VoiceId} {s : State}

theorem stepPtr_iterate_of_done (h : (s.voice v).fetchDone = true) (n : Nat) : (stepPtr v)^[n] s = s :=
  Function.iterate_fixed (by rw [stepPtr, h]; rfl) n

theorem stepPtr_of_fetching (h : (s.voice v).fetchDone = false) : stepPtr v s = advancePtr v 1 s := by simp [stepPtr, h]

section
variable {g : Segment} (hdone : (s.voice v).fetchDone = false) (hg : s.segment (s.voice v).fetchPtr.desc = some g)
include hdone hg

/-- Sample by sample within the pass is all of them at once. -/
theorem stepPtr_iterate_within {n : Nat} (h : (s.voice v).fetchPtr.off + n < g.length) :
    (stepPtr v)^[n] s
      = s.setVoice v { s.voice v with fetchPtr := { (s.voice v).fetchPtr with off := (s.voice v).fetchPtr.off + n } } := by
  induction n with
  | zero => exact (State.setVoice_of_voice rfl).symm
  | succ n ih =>
    rw [Function.iterate_succ_apply', ih (by omega), stepPtr_of_fetching (by rw [State.voice_setVoice]; exact hdone),
      advancePtr_within (g := g) (by rw [State.voice_setVoice]; exact hg) (by rw [State.voice_setVoice]; dsimp only; omega),
      State.setVoice_setVoice, State.voice_setVoice]
    simp only [Nat.add_assoc]

/-- Sample by sample to the pass end walks the pointer on as all of them at once. -/
theorem stepPtr_iterate_walks {n : Nat} (h : (s.voice v).fetchPtr.off + (n + 1) = g.length) :
    (stepPtr v)^[n + 1] s = advancePtr v (n + 1) s := by
  rw [Function.iterate_succ_apply', stepPtr_iterate_within hdone hg (by omega),
    stepPtr_of_fetching (by rw [State.voice_setVoice]; exact hdone),
    advancePtr_walks (g := g) (by rw [State.voice_setVoice]; exact hg) (by rw [State.voice_setVoice]; dsimp only; omega),
    advancePtr_walks hg (Nat.le_of_eq h.symm), State.setVoice_setVoice, State.voice_setVoice]
  simp only [Nat.add_assoc]

end

theorem storeFault_done : ((storeFault v s).voice v).fetchDone = true := by
  have hended : ((endFetch v (s.bump .storeFault)).voice v).fetchDone = true := congrArg Voice.fetchDone (State.voice_setVoice ..)
  rw [storeFault, cutVoice_voice, cutOf]
  split
  · exact hended
  · rfl
  · exact hended
  · exact hended

/-- A walked pointer stands at the start of a pass, or the fetch has ended. -/
theorem walkOn_starts_pass (g : Segment) :
    ((walkOn v g s).voice v).fetchDone = true ∨ ((walkOn v g s).voice v).fetchPtr.off = 0 := by
  have hnext (t : State) : ((nextDescriptor v g t).voice v).fetchDone = true ∨ ((nextDescriptor v g t).voice v).fetchPtr.off = 0 := by
    unfold nextDescriptor enterDescriptor
    dsimp only
    split
    · split
      · exact .inr (by rw [State.voice_setVoice, State.voice_setVoice])
      · exact .inl storeFault_done
    · exact .inl (congrArg Voice.fetchDone (State.voice_setVoice ..))
  unfold walkOn
  dsimp only
  split
  · split
    · exact hnext _
    · exact .inr (by rw [State.voice_setVoice])
  · split
    · exact .inr (by rw [State.voice_setVoice])
    · exact hnext _

/-- The debt walk is the pointer's advance sample by sample. -/
theorem debtWalk_eq_iterate {rounds d : Nat} (hd : d ≤ rounds) (haudible : (s.voice v).audible = true)
    (hlen : ∀ e k, s.segment e = some k → 1 ≤ k.length) (hin : WithinPass v s) : debtWalk v rounds d s = (stepPtr v)^[d] s := by
  induction rounds generalizing d s with
  | zero => rw [Nat.le_zero.1 hd]; rfl
  | succ rounds ih =>
    unfold debtWalk
    dsimp only
    split
    next hstop =>
      rcases hstop with h | h
      · rw [h]; rfl
      · exact (stepPtr_iterate_of_done h d).symm
    next hgo =>
      obtain ⟨hd0, hdone⟩ := not_or.1 hgo
      rw [Bool.not_eq_true] at hdone
      cases hseg : s.segment (s.voice v).fetchPtr.desc with
      | none =>
        obtain ⟨n, rfl⟩ := Nat.exists_eq_succ_of_ne_zero hd0
        have hone : stepPtr v s = endFetch v s := by rw [stepPtr_of_fetching hdone, advancePtr, hseg]
        rw [Function.iterate_succ_apply, hone, stepPtr_iterate_of_done]
        exact congrArg Voice.fetchDone (State.voice_setVoice ..)
      | some g =>
        have hoff := hin hdone g hseg
        dsimp only
        split
        next hlt => rw [stepPtr_iterate_within hdone hseg (by omega), advancePtr_within hseg (by omega)]
        next hge =>
          obtain ⟨n, hn⟩ : ∃ n, g.length - (s.voice v).fetchPtr.off = n + 1 := ⟨_, (Nat.succ_pred_eq_of_pos (by omega)).symm⟩
          have hwalks := stepPtr_iterate_walks hdone hseg (n := n) (by omega)
          have hmoves : Walks v s (advancePtr v (n + 1) s) := .advancePtr haudible _
          have hsegment : (advancePtr v (n + 1) s).segment = s.segment := by funext e; rw [State.segment, hmoves.tables]; rfl
          have hpass : WithinPass v (advancePtr v (n + 1) s) := fun hnot k hk => by
            rw [advancePtr_walks hseg (by omega)] at hnot hk ⊢
            rcases walkOn_starts_pass (s := s.setVoice v _) g with h | h
            · exact absurd h (by rw [hnot]; exact Bool.false_ne_true)
            · rw [h]
              rw [← advancePtr_walks hseg (by omega), hsegment] at hk
              exact hlen _ k hk
          rw [hn, ih (by omega) hmoves.audible (by rw [hsegment]; exact hlen) hpass, ← hwalks, ← Function.iterate_add_apply]
          congr 1
          omega

end

/-- Settles O19. -/
theorem staleBurstIsDiscardedWhole : Obligations.StaleBurstIsDiscardedWhole := by
  intro data v tag b first n s hr hset hburst hstale free wait priority alone
  have hmatch : tagMatches s v tag = false := by
    rcases hstale with h | h
    · simp [tagMatches, Voice.active, h]
    · simp [tagMatches, h]
  have hexec : exec (.burstComplete data) s = .next (settleReturns (grant 9 free)) := by
    rw [exec_burstComplete hr hburst, completeBurst, hmatch]
    rfl
  refine ⟨fun hnone => ⟨fun hp => ?_, fun h hp hwork => ?_⟩, fun u t hu hbest hsounds hdone hlen hin => ?_⟩
  · rw [hexec, grant_of_nothing (s := free) hnone (.inl hp), settleReturns_of_settled (by exact hset)]
  · have hissue : grant 9 free = issuePreload h free := grant_of_head (s := free) hnone hp hwork 8
    rw [hexec, hissue, settleReturns_of_settled (by exact hset)]
    rfl
  · intro walked y
    have hpick : pick free.portBefore free.requesters = some (u, t) :=
      pick_of_best (mem_requesters_iff.2 hu) fun (x, r) hx hne => by
        have hx : s.fetch.requests.get x = some r := mem_requesters_iff.1 hx
        have hxu : x ≠ u := fun e => hne (by subst e; rw [hu] at hx; cases hx; rfl)
        have hfirst := hbest x r hxu hx
        have hbefore (a b : VoiceId × Micros) : free.portBefore a b = true ↔ (priority a.1 a.2 < priority b.1 b.2
          ∨ priority a.1 a.2 = priority b.1 b.2 ∧ (wait b.2 < wait a.2 ∨ wait a.2 = wait b.2 ∧ a.1 < b.1)) := decide_eq_true_iff
        rw [Bool.eq_false_iff, ne_eq, hbefore, hbefore]
        simp only [Fin.lt_def] at hfirst ⊢
        omega
    have haudible : (free.voice u).audible = true := audible_iff.2 hsounds
    have hwalks : Walks u free walked := .stepPtr_iterate _ haudible
    have hsettled : settleDebt u free = walked.setVoice u { y with debt := 0 } := by
      have := debtWalk_eq_iterate (Nat.le_refl (s.voice u).debt) haudible hlen (fun _ => hin)
      rw [settleDebt, show (free.voice u).debt = (s.voice u).debt from rfl, this]
      rfl
    have hvoice : (walked.setVoice u { y with debt := 0 }).voice u = { y with debt := 0 } := State.voice_setVoice ..
    have hgrant : grant 9 free = if y.fetchDone = true then grant 8 ((walked.setVoice u { y with debt := 0 }).setRequest u none)
        else issueVoice u (walked.setVoice u { y with debt := 0 }) := by
      rw [grant_of_first hpick 8, hsettled, hvoice]
    have hreturns : walked.returns = [] := hwalks.returns.trans hset
    have htables : walked.tables = s.tables := hwalks.tables
    have hrequests : upd walked.fetch.requests u none = upd s.fetch.requests u none := congrArg Fetch.requests hwalks.fetch
    have hnext : walked.fetch.nextCue = s.fetch.nextCue := congrArg (·.nextCue) hwalks.fetch
    have halloc : walked.fetch.alloc = s.fetch.alloc := congrArg (·.alloc) hwalks.fetch
    have hpass : walked.fetch.pass = s.fetch.pass := congrArg (·.pass) hwalks.fetch
    have hwork : walked.fetch.work = s.fetch.work := congrArg (·.work) hwalks.fetch
    refine ⟨fun k w hfetching hk hw => ⟨?_, by simp only [portReads, deviceOffset, htables]⟩, fun hover hfree => ?_⟩
    · rw [if_neg (by rw [hfetching]; exact Bool.false_ne_true), issueVoice_eq (g := k) (w := w) (by
        rw [hvoice, State.segment, State.setVoice_tables, htables]
        exact hk) (by rw [hvoice]; exact hw)] at hgrant
      rw [hexec, hgrant, settleReturns_of_settled (by exact hreturns)]
      simp only [State.voice, upd_get_self, State.setVoice, upd_upd, htables, hrequests, hnext, halloc, hpass, hwork]
    · obtain ⟨hothers, hidle⟩ := hfree
      have hquiet (x : VoiceId) : (upd walked.fetch.requests u none).get x = none := by
        by_cases hx : x = u
        · rw [hx, upd_get_self]
        · rw [hrequests, upd_get_ne _ _ hx, hothers x hx]
      have hburst : walked.fetch.burst = none := congrArg (·.burst) hwalks.fetch
      rw [if_pos hover, grant_of_nothing (s := (walked.setVoice u { y with debt := 0 }).setRequest u none) hquiet
        (.inl (by show walked.fetch.pass ≠ .running; rwa [hpass]))] at hgrant
      rw [hexec, hgrant, settleReturns_of_settled (by exact hreturns)]
      simp only [State.setVoice, State.setRequest, hrequests, hburst, hnext, halloc, hpass, hwork]

end Sys2Proof.Machine
end

