-- ==== Sys2Proof/Proofs/PreloadPass.lean ====
section
/-! PROOFS. The preload pass: what a burst of a head writes, and how the pass goes on (R30 to R33). -/

namespace Sys2Proof.Machine

/-! ### Taking up the next head (R31, R32) -/

/-- The head of a cue resolves through a window and fits behind the space allotted. -/
def Fits (s : State) (m : LocalCue) (q : Cue) (g : Segment) (w : WindowId) : Prop :=
  s.cue m = some q ∧ 0 < q.headLen ∧ s.segment q.first = some g ∧ resolve s.tables g = some w ∧ s.fetch.alloc + q.headLen ≤ 32768

/-- A cue with a head whose first segment does not resolve. -/
def headFaults (s : State) (m : LocalCue) : Bool :=
  (s.cue m).any fun q => decide (0 < q.headLen) && ((s.segment q.first).bind (resolve s.tables)).isNone

/-- The faults of the cues from c up to n. -/
def faultsFrom (s : State) (c n : Nat) : Nat :=
  (List.finRange 256).countP fun m => decide (c ≤ m.val ∧ m.val < n) && headFaults s m

theorem faultsFrom_of_le (s : State) {c n : Nat} (h : n ≤ c) : faultsFrom s c n = 0 :=
  List.countP_eq_zero.2 fun m _ => by simp; omega

/-- The first cue of a stretch adds its own fault. -/
theorem faultsFrom_step (s : State) {c n : Nat} (hc : c < 256) (hn : c < n) :
    faultsFrom s c n = (if headFaults s ⟨c, hc⟩ = true then 1 else 0) + faultsFrom s (c + 1) n := by
  have hsplit (l : List (Fin 256)) (hl : l.Nodup) :
      l.countP (fun m => decide (c ≤ m.val ∧ m.val < n) && headFaults s m)
        = (if headFaults s ⟨c, hc⟩ = true ∧ (⟨c, hc⟩ : Fin 256) ∈ l then 1 else 0)
          + l.countP (fun m => decide (c + 1 ≤ m.val ∧ m.val < n) && headFaults s m) := by
    induction l with
    | nil => simp
    | cons a l ih =>
      obtain ⟨ha, hl⟩ := List.nodup_cons.1 hl
      rw [List.countP_cons, List.countP_cons, ih hl]
      by_cases hac : a = ⟨c, hc⟩
      · subst hac
        simp [ha, hn]
        omega
      · have hne : a.val ≠ c := fun e => hac (Fin.ext e)
        have hiff : (c ≤ a.val ∧ a.val < n) ↔ (c + 1 ≤ a.val ∧ a.val < n) := by omega
        simp only [List.mem_cons, Ne.symm hac, false_or, hiff]
        omega
  have := hsplit (List.finRange 256) (List.nodup_finRange 256)
  simpa [faultsFrom, List.mem_finRange] using this

/-- What the pass leaves when it goes on from cue number c, in terms of the cues that fit. -/
structure GoesOn (s : State) (c : Nat) (t : State) : Prop where
  taken : ∀ m q g w, c ≤ m.val → Fits s m q g w → (∀ m' q' g' w', c ≤ m'.val → m'.val < m.val → ¬ Fits s m' q' g' w') →
    t.fetch.nextCue = m.val + 1 ∧ t.fetch.alloc = s.fetch.alloc + q.headLen ∧ t.fetch.pass = .running
      ∧ t.fetch.work = some ⟨m, s.fetch.alloc, q.headLen, 0, g.start, w⟩
      ∧ (CountersOk s → t.counter .storeFault = min 65535 (s.counter .storeFault + faultsFrom s c m.val))
  done : (∀ m q g w, c ≤ m.val → m.val < 256 → ¬ Fits s m q g w) →
    t.fetch.nextCue = 256 ∧ t.fetch.alloc = s.fetch.alloc ∧ t.fetch.pass = .done ∧ t.fetch.work = none
      ∧ (CountersOk s → t.counter .storeFault = min 65535 (s.counter .storeFault + faultsFrom s c 256))
  counters : ∀ k : Counter, k ≠ .storeFault → t.counter k = s.counter k

theorem GoesOn.passGoesOn {s t : State} {c : Nat} (h : GoesOn s c t) : PassGoesOn s c t := ⟨h.taken, h.done, h.counters⟩

theorem CountersOk.counter {s : State} (h : CountersOk s) (c : Counter) : s.counter c ≤ 65535 := h c.idx

section
variable {s t : State} {c : Nat}

/-- Past the last cue the pass is done. -/
theorem GoesOn.over (h : 256 ≤ c) :
    GoesOn s c { s with fetch := { s.fetch with nextCue := 256, pass := .done, work := none } } :=
  ⟨fun m _ _ _ hm => absurd m.isLt (by omega),
    fun _ => ⟨rfl, rfl, rfl, rfl, fun hok => by
      rw [faultsFrom_of_le s h]
      exact (Nat.min_eq_right (hok.counter .storeFault)).symm⟩,
    fun _ _ => rfl⟩

/-- The cue that fits is taken up. -/
theorem GoesOn.takes (hc : c < 256) {q : Cue} {g : Segment} {w : WindowId} (hfits : Fits s ⟨c, hc⟩ q g w) :
    GoesOn s c { s with fetch := { s.fetch with
      nextCue := c + 1, alloc := s.fetch.alloc + q.headLen, pass := .running
      work := some ⟨⟨c, hc⟩, s.fetch.alloc, q.headLen, 0, g.start, w⟩ } } := by
  refine ⟨fun m q' g' w' hm hfits' hbefore => ?_, fun hnone => absurd hfits (hnone _ _ _ _ (Nat.le_refl c) hc), fun _ _ => rfl⟩
  have hmc : m = ⟨c, hc⟩ := by
    refine Fin.ext (Nat.le_antisymm ?_ hm)
    by_contra hlt
    exact hbefore _ _ _ _ (Nat.le_refl c) (Nat.not_le.1 hlt) hfits
  subst hmc
  obtain ⟨hq, -, hg, hw, -⟩ := hfits
  obtain ⟨hq', -, hg', hw', -⟩ := hfits'
  cases hq.symm.trans hq'
  cases hg.symm.trans hg'
  cases hw.symm.trans hw'
  refine ⟨rfl, rfl, rfl, rfl, fun hok => ?_⟩
  rw [faultsFrom_of_le s (Nat.le_refl c)]
  exact (Nat.min_eq_right (hok.counter .storeFault)).symm

/-- A cue that does not fit is passed over, and counts when its first segment does not resolve. -/
theorem GoesOn.passes (hc : c < 256) (hnot : ∀ q g w, ¬ Fits s ⟨c, hc⟩ q g w)
    (h : GoesOn (s.bumpIf (headFaults s ⟨c, hc⟩) .storeFault) (c + 1) t) : GoesOn s c t := by
  generalize hz : s.bumpIf (headFaults s ⟨c, hc⟩) .storeFault = z at h
  have hsame : z.tables = s.tables ∧ z.fetch = s.fetch ∧ (CountersOk s → CountersOk z)
      ∧ (CountersOk s → z.counter .storeFault
          = min 65535 (s.counter .storeFault + if headFaults s ⟨c, hc⟩ = true then 1 else 0))
      ∧ ∀ k, k ≠ .storeFault → z.counter k = s.counter k := by
    rw [← hz]
    cases headFaults s ⟨c, hc⟩ with
    | true => exact ⟨rfl, rfl, fun hok => hok.bump _, fun _ => s.counter_bump _, fun k hk => s.counter_bump_ne hk⟩
    | false => exact ⟨rfl, rfl, id, fun hok => (Nat.min_eq_right (hok.counter .storeFault)).symm, fun _ _ => rfl⟩
  obtain ⟨htables, hfetch, hok, hcount, hothers⟩ := hsame
  have hfits (m q g w) : Fits z m q g w ↔ Fits s m q g w := by
    simp only [Fits, State.cue, State.segment, htables, hfetch]
  have hfaults (n : Nat) : faultsFrom z (c + 1) n = faultsFrom s (c + 1) n := by
    simp only [faultsFrom, headFaults, State.cue, State.segment, htables]
  obtain ⟨taken, done, counters⟩ := h
  simp only [hfits, hfaults, hfetch] at taken done
  have hnext {n : Nat} (hn : c < n)
      (h : CountersOk z → t.counter .storeFault = min 65535 (z.counter .storeFault + faultsFrom s (c + 1) n)) (hs : CountersOk s) :
      t.counter .storeFault = min 65535 (s.counter .storeFault + faultsFrom s c n) := by
    rw [h (hok hs), hcount hs, faultsFrom_step s hc hn]
    omega
  refine ⟨fun m q g w hm hf hbefore => ?_, fun hnone => ?_, fun k hk => (counters k hk).trans (hothers k hk)⟩
  · have hcm : c ≠ m.val := fun e => hnot q g w (by subst e; exact hf)
    obtain ⟨h1, h2, h3, h4, h5⟩ := taken m q g w (by omega) hf fun m' q' g' w' hm' => hbefore m' q' g' w' (by omega)
    exact ⟨h1, h2, h3, h4, hnext (by omega) h5⟩
  · obtain ⟨h1, h2, h3, h4, h5⟩ := done fun m q g w hm => hnone m q g w (by omega)
    exact ⟨h1, h2, h3, h4, hnext hc h5⟩

end

theorem takeUp_goesOn {rounds c : Nat} {s : State} (h : 257 ≤ rounds + c) : GoesOn s c (takeUp rounds c s) := by
  induction rounds generalizing c s with
  | zero => exact .over (by omega)
  | succ rounds ih =>
    unfold takeUp
    split
    next hc =>
      have passes (hfault : headFaults s ⟨c, hc⟩ = false) (hnot : ∀ q g w, ¬ Fits s ⟨c, hc⟩ q g w) :
          GoesOn s c (takeUp rounds (c + 1) s) := .passes hc hnot (by rw [hfault]; exact ih (by omega))
      have faults (hfault : headFaults s ⟨c, hc⟩ = true) (hnot : ∀ q g w, ¬ Fits s ⟨c, hc⟩ q g w) :
          GoesOn s c (takeUp rounds (c + 1) (s.bump .storeFault)) := .passes hc hnot (by rw [hfault]; exact ih (by omega))
      split
      next hq =>
        refine passes (by simp [headFaults, hq]) fun q g w ⟨hq', _⟩ => ?_
        rw [hq] at hq'
        cases hq'
      next q hq =>
        have hcue {q' : Cue} (h : s.cue ⟨c, hc⟩ = some q') : q' = q := Option.some.inj (h.symm.trans hq)
        split
        next hz =>
          refine passes (by simp [headFaults, hq, hz]) fun q' g w ⟨hq', hpos, _⟩ => ?_
          rw [hcue hq', hz] at hpos
          exact absurd hpos (by decide)
        next hz =>
          have hpos : 0 < q.headLen := Nat.pos_of_ne_zero hz
          split
          next hg =>
            refine faults (by simp [headFaults, hq, hpos, hg]) fun q' g w ⟨hq', _, hg', _⟩ => ?_
            rw [hcue hq', hg] at hg'
            cases hg'
          next g hg =>
            split
            next hw =>
              refine faults (by simp [headFaults, hq, hpos, hg, hw]) fun q' g' w ⟨hq', _, hg', hw', _⟩ => ?_
              rw [hcue hq', hg] at hg'
              cases hg'
              rw [hw] at hw'
              cases hw'
            next w hw =>
              split
              next hfit => exact .takes hc ⟨hq, hpos, hg, hw, hfit⟩
              next hfull =>
                refine passes (by simp [headFaults, hq, hpos, hg, hw]) fun q' g' w' ⟨hq', _, _, _, hfit⟩ => ?_
                rw [hcue hq'] at hfit
                exact hfull hfit
    next hc => exact .over (by omega)

/-- What the pass leaves as it was. -/
theorem takeUp_frame (rounds c : Nat) (s : State) : ∃ (f : Fetch) (k : Vector Nat 16), takeUp rounds c s = { s with fetch := f, counters := k }
    ∧ f.requests = s.fetch.requests ∧ f.burst = s.fetch.burst := by
  induction rounds generalizing c s with
  | zero => exact ⟨_, s.counters, rfl, rfl, rfl⟩
  | succ rounds ih =>
    have faulted (n : Nat) : ∃ (f : Fetch) (k : Vector Nat 16), takeUp rounds n (s.bump .storeFault) = { s with fetch := f, counters := k }
        ∧ f.requests = s.fetch.requests ∧ f.burst = s.fetch.burst := by
      obtain ⟨f, k, h, hf⟩ := ih n (s.bump .storeFault)
      exact ⟨f, k, h.trans rfl, hf⟩
    unfold takeUp
    split
    · split
      · exact ih ..
      · split
        · exact ih ..
        · split
          · exact faulted _
          · split
            · exact faulted _
            · split
              · exact ⟨_, s.counters, rfl, rfl, rfl⟩
              · exact ih ..
    · exact ⟨_, s.counters, rfl, rfl, rfl⟩

/-! ### A burst of a head completes (R30, R33) -/

/-- The idle port that no voice requests goes to the pass, or to none. -/
theorem grant_preload {s : State} (hnone : ∀ u, s.fetch.requests.get u = none) (hburst : s.fetch.burst = none) :
    grantIfIdle s = { s with fetch := { s.fetch with burst := preloadGrant s } } := by
  rw [grantIfIdle_of_idle hburst]
  unfold preloadGrant
  split
  next h hp hw => exact grant_of_head hnone hp hw 8
  next hnot =>
    have hnothing : s.fetch.pass ≠ .running ∨ s.fetch.work = none := by
      by_contra hboth
      obtain ⟨hp, hw⟩ := not_or.1 hboth
      obtain ⟨h, hw⟩ := Option.ne_none_iff_exists'.1 hw
      exact hnot h (not_not.1 hp) hw
    rw [grant_of_nothing hnone hnothing, ← hburst]

/-- Settles O20. -/
theorem preloadBurstWritesTheHead : Obligations.PreloadBurstWritesTheHead := by
  intro data b first n h s hr hset hnone hn hburst hwork hpass hmem
  have hdue : preloadBurstDue s = some n := by simp only [preloadBurstDue, hburst]
  have htake : takePreloadBurst data.toList s = settleReturns (grantIfIdle (freePort (applyPreload h n data.toList s))) := by
    simp only [takePreloadBurst, hdue, completePreload, hwork]
  have hexec : exec (.preloadBurstComplete data) s = .next (takePreloadBurst data.toList s) :=
    exec_of_happens (c := .preloadBurstComplete data) hr (by show (preloadBurstDue s).isSome = true; rw [hdue]; rfl) id
  have hlen : (data.toList.take n).length = n := by simp; omega
  have hwritten (a : Nat) := memRead_memWriteRun hmem (h.place + h.read) a (data.toList.take n)
  rw [hlen] at hwritten
  have hplaces (mem : List (Nat × Sample)) (ht : mem = memWriteRun s.preload.mem (h.place + h.read) (data.toList.take n)) :
      (∀ i : Fin 64, i.val < n → memRead mem (h.place + h.read + i.val) = data.get i)
      ∧ ∀ a : Nat, a < h.place + h.read ∨ h.place + h.read + n ≤ a → memRead mem a = memRead s.preload.mem a := by
    rw [ht]
    refine ⟨fun i hi => (hwritten _).trans ?_, fun a ha => (hwritten a).trans (if_neg (by omega))⟩
    rw [if_pos (by omega), Nat.add_sub_cancel_left]
    simp [List.getD_eq_getElem?_getD, hi, Vector.get]
  -- The state whose idle port is granted: all but the store and the counters is as it was.
  have hend (p : Preload) (f : Fetch) (k : Vector Nat 16) (happly : applyPreload h n data.toList s = { s with preload := p, fetch := f, counters := k })
      (hf : f.requests = s.fetch.requests) : exec (.preloadBurstComplete data) s = .next { s with
        preload := p, counters := k
        fetch := { f with burst := preloadGrant { s with preload := p, fetch := f, counters := k } } } := by
    rw [hexec, htake, happly, grant_preload (fun u => (congrArg (Vector.get · u) hf).trans (hnone u)) (by rfl)]
    exact congrArg _ (settleReturns_of_settled hset)
  by_cases hmore : h.read + n < h.length
  · have happly : applyPreload h n data.toList s = { s with
        preload := { s.preload with mem := memWriteRun s.preload.mem (h.place + h.read) (data.toList.take n) }
        fetch := { s.fetch with work := some { h with read := h.read + n } }, counters := s.counters } := by
      simp only [applyPreload, if_neg (Nat.not_le.2 hmore)]
    refine ⟨_, hend _ _ _ happly rfl, ?_⟩
    obtain ⟨hdata, hrest⟩ := hplaces _ rfl
    exact ⟨hdata, hrest, fun _ => ⟨rfl, rfl, rfl⟩, fun hle => absurd hmore (Nat.not_lt.2 hle), rfl, rfl, rfl, rfl, rfl, rfl, rfl⟩
  · have hle := Nat.not_lt.1 hmore
    let loaded : State := { s with preload := { s.preload with
      mem := memWriteRun s.preload.mem (h.place + h.read) (data.toList.take n)
      heads := upd s.preload.heads h.cue (some ⟨h.place, h.length⟩) } }
    have happly : applyPreload h n data.toList s = takeUp 257 s.fetch.nextCue loaded := by
      simp only [applyPreload, if_pos hle, loaded]
    have hgoes : GoesOn loaded s.fetch.nextCue (takeUp 257 s.fetch.nextCue loaded) := takeUp_goesOn (Nat.le_add_right ..)
    obtain ⟨f, k, htaken, hrequests, -⟩ := takeUp_frame 257 s.fetch.nextCue loaded
    rw [htaken] at happly hgoes
    obtain ⟨taken, done, counters⟩ := hgoes
    refine ⟨_, hend loaded.preload f k happly hrequests, ?_⟩
    obtain ⟨hdata, hrest⟩ := hplaces _ rfl
    exact ⟨hdata, hrest, fun hlt => absurd hlt hmore, fun _ => ⟨rfl, GoesOn.passGoesOn ⟨taken, done, counters⟩, rfl⟩, hrequests,
      rfl, rfl, rfl, rfl, rfl, rfl⟩

end Sys2Proof.Machine
end

