-- ==== Sys2Proof/Proofs/Starts.lean ====
section
/-! PROOFS. Voice allocation, the pending-start queue and the release of BEAT entries: where a start goes, waits or is lost (R42 to R55, R80). -/

namespace Sys2Proof.Machine

/-! ### The pick of a strict order -/

/-- Under a strict total order the element picked is better than every other. -/
theorem best_of_pick {α : Type} {better : α → α → Bool} (htotal : ∀ a b, a ≠ b → better a b = true ∨ better b a = true)
    (htrans : ∀ a b c, better a b = true → better b c = true → better a c = true) {l : List α} {a : α}
    (h : pick better l = some a) : ∀ b ∈ l, b ≠ a → better a b = true := by
  induction l generalizing a with
  | nil => cases h
  | cons x l ih =>
    simp only [pick] at h
    cases hp : pick better l with
    | none =>
      rw [hp, Option.some.injEq] at h
      rw [pick_eq_none.1 hp]
      intro b hb hne
      exact absurd ((List.mem_singleton.1 hb).trans h) hne
    | some c =>
      have hc := ih hp
      rw [hp] at h
      intro b hb hne
      by_cases hxc : better c x = true
      · obtain rfl : c = a := by simpa [hxc] using h
        rcases List.mem_cons.1 hb with rfl | hb
        · exact hxc
        · exact hc b hb hne
      · obtain rfl : x = a := by simpa [hxc] using h
        have hb := (List.mem_cons.1 hb).resolve_left hne
        by_cases hcx : c = x
        · exact hcx ▸ hc b hb (hcx ▸ hne)
        · have hxc' := (htotal c x hcx).resolve_left hxc
          by_cases hbc : b = c
          · exact hbc ▸ hxc'
          · exact htrans x c b hxc' (hc b hb hbc)

/-! ### Victims (R48, R49) -/

section
variable {s : State}

theorem older_iff {a b : VoiceId} : s.older a b = true ↔
    since s.now (s.starts.stamps.get b) < since s.now (s.starts.stamps.get a)
      ∨ since s.now (s.starts.stamps.get b) = since s.now (s.starts.stamps.get a) ∧ a.val < b.val := decide_eq_true_iff

theorem older_total (a b : VoiceId) (h : a ≠ b) : s.older a b = true ∨ s.older b a = true := by
  rw [older_iff, older_iff]
  have := Fin.val_ne_of_ne h
  omega

theorem older_trans (a b c : VoiceId) (h : s.older a b = true) (k : s.older b c = true) : s.older a c = true := by
  rw [older_iff] at *
  omega

theorem older_asymm {a b : VoiceId} (h : s.older a b = true) : s.older b a = false := by
  rw [Bool.eq_false_iff, ne_eq, older_iff]
  rw [older_iff] at h
  omega

theorem lower_iff {a b : VoiceId} : s.lower a b = true ↔
    (s.cls (s.voice b).cls).priority < (s.cls (s.voice a).cls).priority
      ∨ (s.cls (s.voice a).cls).priority = (s.cls (s.voice b).cls).priority ∧ s.older a b = true := by
  simp [State.lower]

theorem lower_total (a b : VoiceId) (h : a ≠ b) : s.lower a b = true ∨ s.lower b a = true := by
  rw [lower_iff, lower_iff]
  have := older_total (s := s) a b h
  rcases Nat.lt_trichotomy (s.cls (s.voice a).cls).priority (s.cls (s.voice b).cls).priority with h | h | h
  · exact .inr (.inl h)
  · exact this.imp (fun k => .inr ⟨h, k⟩) fun k => .inr ⟨h.symm, k⟩
  · exact .inl (.inl h)

theorem lower_trans (a b c : VoiceId) (h : s.lower a b = true) (k : s.lower b c = true) : s.lower a c = true := by
  rw [lower_iff] at *
  rcases h with h | ⟨h, ho⟩
  · exact .inl (by omega)
  · rcases k with k | ⟨k, ko⟩
    · exact .inl (by omega)
    · exact .inr ⟨h.trans k, older_trans a b c ho ko⟩

theorem lower_asymm {a b : VoiceId} (h : s.lower a b = true) : s.lower b a = false := by
  rw [Bool.eq_false_iff, ne_eq, lower_iff]
  rw [lower_iff] at h
  rintro (k | ⟨k, ko⟩)
  · omega
  · rcases h with h | ⟨-, ho⟩
    · omega
    · rw [older_asymm ho] at ko
      cases ko

theorem live_iff {x : Voice} : x.live = true ↔ x.state = .priming ∨ x.state = .playing := by simp [Voice.live]

variable {c : ClassId} {v : VoiceId}

/-- The voice that a request of a class would steal, of the pick's two kinds. -/
def stealPick (s : State) (c : ClassId) : Option VoiceId :=
  if s.room c then busyVictim s c
  else
    match (s.cls c).steal with
    | .none => none
    | .oldest | .lowest => limitVictim s c

theorem pick_iff_best {better : VoiceId → VoiceId → Bool} (htotal : ∀ a b, a ≠ b → better a b = true ∨ better b a = true)
    (htrans : ∀ a b c, better a b = true → better b c = true → better a c = true)
    (hasymm : ∀ a b, better a b = true → better b a = false) {p : VoiceId → Bool} :
    pick better (voiceIds.filter p) = some v ↔ p v = true ∧ ∀ x, x ≠ v → p x = true → better v x = true := by
  constructor
  · intro h
    exact ⟨mem_filter_voiceIds.1 (pick_mem h), fun x hx hp => best_of_pick htotal htrans h x (mem_filter_voiceIds.2 hp) hx⟩
  · rintro ⟨hv, hbest⟩
    refine pick_of_best (mem_filter_voiceIds.2 hv) fun x hx hne => ?_
    have h := hbest x hne (mem_filter_voiceIds.1 hx)
    exact ⟨h, hasymm _ _ h⟩

/-- A voice is the victim of a class exactly when the class would steal it, and below the limit no voice is free. -/
theorem victim_iff : Victim s c v ↔ stealPick s c = some v ∧ ((s.cls c).polyphony ≤ s.occupancy c ∨ s.lowestFree = none) := by
  have hroom : s.room c = true ↔ ¬ (s.cls c).polyphony ≤ s.occupancy c := by rw [State.room, decide_eq_true_iff, Nat.not_le]
  unfold Victim stealPick
  dsimp only
  by_cases hlimit : (s.cls c).polyphony ≤ s.occupancy c
  · rw [if_pos hlimit, if_neg (fun h => hroom.1 h hlimit)]
    have hpick : limitVictim s c = some v ↔ (((s.voice v).state = .priming ∨ (s.voice v).state = .playing) ∧ (s.voice v).cls = c)
        ∧ ∀ x, x ≠ v → ((s.voice x).state = .priming ∨ (s.voice x).state = .playing) ∧ (s.voice x).cls = c → s.older v x = true := by
      rw [limitVictim, pick_iff_best older_total older_trans fun _ _ => older_asymm]
      simp only [Bool.and_eq_true, live_iff, beq_iff_eq]
    cases hsteal : (s.cls c).steal with
    | none => simp
    | oldest | lowest => simp only [hpick, hlimit, true_or, and_true, ne_eq, reduceCtorEq, not_false_eq_true, true_and]
  · rw [if_neg hlimit, if_pos (hroom.2 hlimit)]
    have hcandidate (x : VoiceId) : ((s.voice x).live && decide ((s.cls c).priority < (s.cls (s.voice x).cls).priority)) = true
        ↔ ((s.voice x).state = .priming ∨ (s.voice x).state = .playing) ∧ (s.cls c).priority < (s.cls (s.voice x).cls).priority := by
      rw [Bool.and_eq_true, live_iff, decide_eq_true_iff]
    unfold busyVictim stealCandidates
    cases hsteal : (s.cls c).steal with
    | none => simp
    | oldest =>
      simp only [pick_iff_best older_total older_trans fun _ _ => older_asymm, hcandidate, hlimit, false_or]
      tauto
    | lowest =>
      simp only [pick_iff_best lower_total lower_trans fun _ _ => lower_asymm, hcandidate, hlimit, false_or, lower_iff]
      refine ⟨fun ⟨hfree, hv, hbest⟩ => ⟨⟨hv, fun x hx hp => ?_⟩, hfree⟩, fun ⟨⟨hv, hbest⟩, hfree⟩ => ⟨hfree, hv, fun x hx hp => ?_⟩⟩
      · exact (hbest x hx hp).imp id fun ⟨e, h⟩ => ⟨e.symm, h⟩
      · exact (hbest x hx hp).imp id fun ⟨e, h⟩ => ⟨e.symm, h⟩

theorem allocate_of_free (hroom : s.occupancy c < (s.cls c).polyphony) (hfree : s.lowestFree = some v) :
    allocate s c = .start v := by
  have hroom : s.room c = true := decide_eq_true hroom
  simp only [allocate, hroom, hfree, if_true]

/-- Without room or a free voice a request takes its victim, or waits, or is dropped. -/
theorem allocate_of_busy (h : (s.cls c).polyphony ≤ s.occupancy c ∨ s.lowestFree = none) :
    allocate s c = (stealPick s c).elim (waitOrDrop s c) .steal := by
  unfold allocate stealPick
  by_cases hroom : s.room c = true
  · have hfree : s.lowestFree = none := h.resolve_left (Nat.not_le.2 (of_decide_eq_true hroom))
    simp only [hroom, hfree, if_true]
    cases busyVictim s c <;> rfl
  · simp only [hroom, Bool.false_eq_true, if_false]
    cases (s.cls c).steal with
    | none => rfl
    | oldest | lowest => cases limitVictim s c <;> rfl

theorem allocate_of_victim (h : Victim s c v) : allocate s c = .steal v := by
  obtain ⟨hpick, hbusy⟩ := victim_iff.1 h
  rw [allocate_of_busy hbusy, hpick]
  rfl

theorem allocate_of_no_victim (hbusy : (s.cls c).polyphony ≤ s.occupancy c ∨ s.lowestFree = none) (h : ∀ v, ¬ Victim s c v) :
    allocate s c = if (s.cls c).maxWait = 0 then .drop else .wait := by
  have hpick : stealPick s c = none := Option.eq_none_iff_forall_ne_some.2 fun v hv => h v (victim_iff.2 ⟨hv, hbusy⟩)
  rw [allocate_of_busy hbusy, hpick]
  rfl

end

/-! ### Queue order (R51) -/

section
variable {s : State}

theorem entryBefore_iff {a b : Entry} : s.entryBefore a b = true ↔ s.entryPriority a < s.entryPriority b
    ∨ s.entryPriority a = s.entryPriority b
      ∧ (s.waited b < s.waited a ∨ s.waited a = s.waited b ∧ a.cue.val < b.cue.val) := decide_eq_true_iff

theorem entryBefore_asymm {a b : Entry} (h : s.entryBefore a b = true) : s.entryBefore b a = false := by
  rw [Bool.eq_false_iff, ne_eq, entryBefore_iff]
  rw [entryBefore_iff] at h
  omega

/-- What does not come before an entry does not come before what that one does not come after. -/
theorem entryBefore_of_not {a b c : Entry} (h : s.entryBefore c b = false) (k : s.entryBefore b a = false) :
    s.entryBefore c a = false := by
  rw [Bool.eq_false_iff, ne_eq, entryBefore_iff] at *
  omega

theorem insertBy_perm (before : Entry → Entry → Bool) (a : Entry) (l : List Entry) : (insertBy before a l).Perm (a :: l) := by
  induction l with
  | nil => exact .refl _
  | cons b l ih =>
    unfold insertBy
    split
    · exact (ih.cons b).trans (.swap a b l)
    · exact .refl _

theorem sortBy_perm (before : Entry → Entry → Bool) (l : List Entry) : (sortBy before l).Perm l := by
  induction l with
  | nil => exact .refl _
  | cons a l ih => exact (insertBy_perm before a _).trans (ih.cons a)

theorem insertBy_sorted (a : Entry) {l : List Entry} (h : l.Pairwise fun x y => s.entryBefore y x = false) :
    (insertBy s.entryBefore a l).Pairwise fun x y => s.entryBefore y x = false := by
  induction l with
  | nil => exact List.pairwise_singleton _ _
  | cons b l ih =>
    obtain ⟨hb, hl⟩ := List.pairwise_cons.1 h
    unfold insertBy
    split
    next hba =>
      refine List.pairwise_cons.2 ⟨fun x hx => ?_, ih hl⟩
      rcases List.mem_cons.1 ((insertBy_perm _ a l).subset hx) with rfl | hx
      · exact entryBefore_asymm hba
      · exact hb x hx
    next hba =>
      rw [Bool.not_eq_true] at hba
      refine List.pairwise_cons.2 ⟨fun x hx => ?_, h⟩
      rcases List.mem_cons.1 hx with rfl | hx
      · exact hba
      · exact entryBefore_of_not (hb x hx) hba

theorem sortBy_sorted (l : List Entry) : (sortBy s.entryBefore l).Pairwise fun x y => s.entryBefore y x = false := by
  induction l with
  | nil => exact .nil
  | cons a l ih => exact insertBy_sorted a ih

end

/-! ### One BEAT entry is released (R55) -/

section
variable {s : State} {e : Entry} (hsole : ∀ a ∈ s.starts.queue, a.cue = e.cue → a = e)
include hsole

theorem becomeVoice_of_sole (v : Option VoiceId) : becomeVoice e.cue v s = s.setQueue (s.starts.queue.map fun a =>
    if a.cue = e.cue then { e with reason := .voice, enq := s.now, reserved := v } else a) := by
  refine congrArg s.setQueue (List.map_congr_left fun a ha => ?_)
  split
  next hcue => rw [hsole a ha hcue]
  next => rfl

variable (he : e ∈ s.starts.queue) (hbeat : e.reason = .beat)
include he hbeat

theorem find_beat_of_sole : s.starts.queue.find? (fun a => a.cue == e.cue && a.reason == .beat) = some e := by
  cases hf : s.starts.queue.find? (fun a => a.cue == e.cue && a.reason == .beat) with
  | none =>
    rw [List.find?_eq_none] at hf
    exact absurd (by simp [hbeat]) (hf e he)
  | some a =>
    have ha := List.find?_some hf
    simp only [Bool.and_eq_true, beq_iff_eq] at ha
    obtain ⟨hcue, -⟩ := ha
    rw [hsole a (List.mem_of_find?_eq_some hf) hcue]

end

/-- A release leaves no BEAT entry of its cue. -/
theorem releaseEntry_voice (s : State) (c : LocalCue) : ∀ e ∈ (releaseEntry s c).starts.queue, e.cue = c → e.reason = .voice := by
  have gone {t : State} (h : t.starts.queue = s.starts.queue.filter fun a => a.cue != c) : ∀ e ∈ t.starts.queue, e.cue = c → e.reason = .voice :=
    fun e he hc => by
      rw [h, List.mem_filter, bne_iff_ne] at he
      exact absurd hc he.2
  have relabelled {t : State} (v : Option VoiceId) (h : t.starts.queue = (becomeVoice c v s).starts.queue) :
      ∀ e ∈ t.starts.queue, e.cue = c → e.reason = .voice := fun e he hc => by
    rw [h] at he
    obtain ⟨a, -, rfl⟩ := List.mem_map.1 he
    dsimp only at hc ⊢
    split at hc
    next h => rw [if_pos h]
    next h => exact absurd hc h
  unfold releaseEntry
  split
  next hnone =>
    intro e he hc
    have := List.find?_eq_none.1 hnone e he
    cases hr : e.reason with
    | voice => rfl
    | beat => simp [hc, hr] at this
  next e hsome =>
    obtain rfl : e.cue = c := by
      have := List.find?_some hsome
      simp only [Bool.and_eq_true, beq_iff_eq] at this
      exact this.1
    have hstart (v : VoiceId) : (startEntry e v s).starts.queue = s.starts.queue.filter fun a => a.cue != e.cue := startEntry_queue e v s
    split
    · split
      · exact gone (hstart _)
      · exact relabelled _ rfl
    · split
      · exact gone (hstart _)
      · exact relabelled _ (congrArg Starts.queue (cutVoice_spares _ _).starts)
      · exact relabelled _ rfl
      · exact gone rfl

theorem foldl_releaseEntry_voice (l : List LocalCue) (s : State) :
    ∀ e ∈ (l.foldl releaseEntry s).starts.queue, e.cue ∈ l → e.reason = .voice := by
  induction l generalizing s with
  | nil => nofun
  | cons c l ih =>
    intro e he hmem
    by_cases hl : e.cue ∈ l
    · exact ih _ e he hl
    · obtain hc : e.cue = c := (List.mem_cons.1 hmem).resolve_right hl
      obtain ⟨a, ha, hcue, -, hreason⟩ := (Serves.of_moves (.foldl Moves.releaseEntry l (releaseEntry s c))).queue.mem he
      cases hr : e.reason with
      | voice => rfl
      | beat =>
        have := releaseEntry_voice s c a ha (hcue.trans hc)
        rw [hreason hr] at this
        cases this

/-- The release leaves no BEAT entry. -/
theorem releaseBeats_voice (s : State) : ∀ e ∈ (releaseBeats s).starts.queue, e.reason = .voice := by
  intro e he
  cases hr : e.reason with
  | voice => rfl
  | beat =>
    obtain ⟨a, ha, hcue, -, hreason⟩ := (Serves.of_moves (Moves.releaseBeats s)).queue.mem he
    refine hr ▸ foldl_releaseEntry_voice _ s e he (List.mem_map.2 ⟨a, ?_, hcue⟩)
    exact (sortBy_perm s.entryBefore _).mem_iff.2 (List.mem_filter.2 ⟨ha, by rw [hreason hr]; rfl⟩)

/-- Where no BEAT entry waits, none does after an operation that serves the queue. -/
theorem voice_of_moves {s t : State} (m : Moves Serves s t) (h : ∀ e ∈ s.starts.queue, e.reason = .voice) :
    ∀ e ∈ t.starts.queue, e.reason = .voice := by
  intro e he
  obtain ⟨a, ha, -, -, hreason⟩ := (Serves.of_moves m).queue.mem he
  cases hr : e.reason with
  | voice => rfl
  | beat => rw [← hreason hr, h a ha]

/-! ### Admission brings no follow-on (R54, R78) -/

theorem NoFollow.plays {s t : State} (m : Moves Plays s t) (h : NoFollow s) : NoFollow t := (Plays.of_moves m).noFollow h

theorem NoFollow.serves {s t : State} (m : Moves Serves s t) (h : NoFollow s) : NoFollow t := (Serves.of_moves m).noFollow h

theorem joinQueue_returns {e : Entry} {s t : State} (h : joinQueue e s = some t) : t.returns = s.returns := by
  unfold joinQueue at h
  split at h
  · obtain rfl := Option.some.inj h
    rfl
  · split at h
    · cases h
    · dsimp only at h
      split at h
      · obtain rfl := Option.some.inj h
        rfl
      · cases h

theorem NoFollow.joinQueue {e : Entry} {s t : State} (h : joinQueue e s = some t) (hs : NoFollow s) : NoFollow t := by
  unfold NoFollow
  rw [joinQueue_returns h]
  exact hs

theorem NoFollow.allocateRequest {s : State} (h : NoFollow s) (r : Request) (q : Cue) : NoFollow (allocateRequest r q s) := by
  unfold Machine.allocateRequest
  dsimp only
  split
  · exact h.serves (.startVoice _ _ _ s)
  · unfold stealFor
    split
    next hj => exact (NoFollow.joinQueue hj h).plays (.cutVoice _ _)
    next => exact h
  · unfold joinOrLose
    split
    next hj => exact NoFollow.joinQueue hj h
    next => exact h
  · exact h

theorem NoFollow.chokeAndPlace {s : State} (h : NoFollow s) (r : Request) (q : Cue) : NoFollow (chokeAndPlace r q s) := by
  have hk : NoFollow (choke r.cue q s) := h.plays (.choke r.cue q s)
  unfold Machine.chokeAndPlace
  dsimp only
  split
  · unfold joinOrLose
    split
    next hj => exact NoFollow.joinQueue hj hk
    next => exact hk
  · exact hk.allocateRequest r q

theorem NoFollow.restartRequest {s : State} (h : NoFollow s) (r : Request) (q : Cue) : NoFollow (restartRequest r q s) := by
  unfold Machine.restartRequest
  split
  · exact h
  · split
    next => exact h
    next hj =>
      have hm := (NoFollow.joinQueue hj h).plays (.foldl Moves.cutVoice (liveVoices s r.cue) _)
      have hk := hm.plays (.choke r.cue q _)
      dsimp only
      split
      · exact hk
      · exact hk

theorem NoFollow.admitRequest {s : State} (h : NoFollow s) (r : Request) : NoFollow (admitRequest r s) := by
  unfold Machine.admitRequest
  split
  · exact h
  · split
    · exact h
    · split
      · exact h
      · split
        · exact h
        · split
          · split
            · exact h.chokeAndPlace r _
            · exact h
            · exact h.restartRequest r _
          · exact h.chokeAndPlace r _

/-- The state once the follow-on of a return is admitted. -/
def afterFollowOn (r : Return) (s : State) : State :=
  match r.followOn with
  | some c => admitRequest ⟨c, 0, false⟩ s
  | none => s

theorem takeReturn_eq (r : Return) (s : State) : takeReturn r s = serve 17 (if r.wasRef then
    releaseBeats (startReserved r.voice (afterFollowOn r s)) else startReserved r.voice (afterFollowOn r s)) := rfl

theorem NoFollow.afterFollowOn {s : State} (h : NoFollow s) (r : Return) : NoFollow (afterFollowOn r s) := by
  unfold Machine.afterFollowOn
  split
  · exact h.admitRequest _
  · exact h

/-- A return of the beat reference leaves no BEAT entry, and no follow-on to take. -/
theorem takeReturn_of_ref {s : State} {r : Return} (hr : r.wasRef = true) (h : NoFollow s) :
    (∀ e ∈ (takeReturn r s).starts.queue, e.reason = .voice) ∧ NoFollow (takeReturn r s) := by
  rw [takeReturn_eq, if_pos hr]
  have hplaced := ((h.afterFollowOn r).serves (.startReserved r.voice _)).serves (.releaseBeats _)
  exact ⟨voice_of_moves (.serve 17 _) (releaseBeats_voice _), hplaced.serves (.serve 17 _)⟩

/-- The natural end of the beat reference leaves no BEAT entry. -/
theorem finish_of_ref {s : State} {r : Return} (hs : s.returns = [r]) (hr : r.wasRef = true) :
    ∀ e ∈ (finish s).starts.queue, e.reason = .voice := by
  obtain ⟨n, hn⟩ : ∃ n, settleRounds s = n + 1 := ⟨_, rfl⟩
  have hstep : finish s = settle n (takeReturn r { s with returns := [] }) := by
    rw [finish, hn]
    simp only [settle, hs]
  obtain ⟨hvoice, hfollow⟩ := takeReturn_of_ref (s := { s with returns := [] }) hr nofun
  rw [hstep]
  exact voice_of_moves (.settle n hfollow) hvoice

/-! ### The beat boundary (R80) -/

/-- A boundary is reported but where the reference voice's need finds no sample. -/
theorem beatDue_of_boundary {s : State} {v : VoiceId} {n m : Nat} (href : s.beatRef = some v) (hbed : s.bedBeat v = some n)
    (hm : 0 < m) (hn : 0 < n) (hsince : since s.now (s.voice v).playTime = m * n) (hhad : s.clock.hadBeat.get v = false) :
    beatDue s = !endOpen s v := by
  have hpos : 0 < m * n := Nat.mul_pos hm hn
  simp [beatDue, href, hbed, hhad, hsince, hpos]

theorem endOpen_iff {s : State} {v : VoiceId} : endOpen s v = true ↔ (s.voice v).state = .playing ∧ s.mixer.given.get v = none
    ∧ (s.voice v).headLen ≤ (s.voice v).headPos ∧ (s.voice v).fifo = [] := by
  simp only [endOpen, needDue, Voice.audible, Voice.inHead, Bool.and_eq_true, beq_iff_eq, Bool.or_eq_true, Option.isNone_iff_eq_none,
    Bool.not_eq_true', decide_eq_false_iff_not, Nat.not_lt, List.isEmpty_iff]
  tauto

/-- Settles O21. -/
theorem beatBoundaryReleasesEveryBeatEntry : Obligations.BeatBoundaryReleasesEveryBeatEntry := by
  refine ⟨fun s v n m hr hset href hbed hm hn hsince hhad => ⟨fun hopen => ?_, fun hspent hdone => ?_⟩, fun s => ?_,
    fun s e he hbeat hsole => ?_⟩
  · have hdue : beatDue s = true := by
      rw [beatDue_of_boundary href hbed hm hn hsince hhad, Bool.not_eq_true', Bool.eq_false_iff, ne_eq, endOpen_iff]
      exact hopen
    have hexec : exec .beatBoundary s = .next (finish (releaseBeats (markBeat v s))) := by
      rw [exec_of_happens (c := .beatBoundary) hr hdue id]
      simp only [effect, takeBeat, href]
    have hfollow : NoFollow (releaseBeats (markBeat v s)) := NoFollow.serves (s := markBeat v s) (.releaseBeats _) (Settled.noFollow hset)
    have hserve : Moves Serves (releaseBeats (markBeat v s)) (finish (releaseBeats (markBeat v s))) := .finish hfollow
    have hsound : Sounds (markBeat v s) (finish (releaseBeats (markBeat v s))) := (Sounds.releaseBeats _).trans (.finish _)
    refine ⟨_, hexec, rfl, voice_of_moves hserve (releaseBeats_voice _), fun e he => ?_, hsound.segment, hsound.mask,
      congrArg Groups.showNo hsound.groups, hsound.clock, hsound.tables, hsound.preload, hsound.triggers⟩
    obtain ⟨a, ha, hcue, hoffset, -⟩ := (Serves.of_moves ((Moves.releaseBeats (markBeat v s)).trans hserve)).queue.mem he
    exact ⟨a, ha, hcue, hoffset⟩
  · have hspent' := hspent
    obtain ⟨hplaying, hgiven, hhead, hfifo⟩ := hspent'
    have hnot : beatDue s = false := by
      rw [beatDue_of_boundary href hbed hm hn hsince hhad, endOpen_iff.2 hspent]
      rfl
    refine ⟨exec_of_not (c := .beatBoundary) hnot, _, exec_voiceSampleNeed hr (.inl hplaying) hgiven, ?_⟩
    have hret : (returnIdle v true s).returns = [⟨v, true, (s.cue (s.voice v).cue).bind (·.followOn)⟩] := by
      rw [returnIdle_eq]
      simp only [show s.returns = [] from hset, href]
      simp
    have hend : takeSample v s = returnIdle v true s := by
      rw [takeSample_of_spent hhead hfifo hdone, if_pos hplaying]
    have hsettle : settleReturns (returnIdle v true s) = finish (returnIdle v true s) := by
      rw [settleReturns, hret]
      rfl
    rw [hend, hsettle]
    exact finish_of_ref hret rfl
  · exact ⟨_, sortBy_perm _ _, sortBy_sorted _, rfl⟩
  · intro c gone entered
    have hfind := find_beat_of_sole hsole he hbeat
    refine ⟨fun v hv => ?_, fun hv => ⟨fun v hroom hfree => ?_, fun v hvictim => ?_, fun hbusy hnone => ⟨fun hzero => ?_, fun hpos => ?_⟩⟩⟩
    · simp only [releaseEntry, hfind, hv]
      exact ⟨fun hidle => if_pos hidle, fun hactive => (if_neg hactive).trans (becomeVoice_of_sole hsole _)⟩
    · simp only [releaseEntry, hfind, hv, allocate_of_free (c := s.classOf e.cue) hroom hfree]
      rfl
    · simp only [releaseEntry, hfind, hv, allocate_of_victim (c := s.classOf e.cue) hvictim, becomeVoice_of_sole hsole]
      rfl
    · have hdrop : allocate s (s.classOf e.cue) = .drop := (allocate_of_no_victim hbusy hnone).trans (if_pos hzero)
      simp only [releaseEntry, hfind, hv, hdrop]
      rfl
    · have hwait : allocate s (s.classOf e.cue) = .wait :=
        (allocate_of_no_victim hbusy hnone).trans (if_neg (Nat.ne_of_gt hpos))
      simp only [releaseEntry, hfind, hv, hwait]
      exact becomeVoice_of_sole hsole none

end Sys2Proof.Machine
end

