-- ==== Sys2Proof/Proofs/Admission.lean ====
section
/-! PROOFS. Admission of a start request: retrigger, choke, beat wait, steal, wait and loss (R39 to R52). -/

namespace Sys2Proof.Machine

/-! ### The choke (R44) -/

/-- Voice u sounds another cue of the nonzero choke set of q. -/
def Choked (c : LocalCue) (q : Cue) (s : State) (u : VoiceId) : Prop :=
  ((s.voice u).state = .priming ∨ (s.voice u).state = .playing) ∧ q.choke ≠ 0 ∧ (s.voice u).cue ≠ c
    ∧ ∃ y : Cue, s.cue (s.voice u).cue = some y ∧ y.choke = q.choke

section
variable {c : LocalCue} {q : Cue} {s : State} {u : VoiceId}

theorem choke_voice_of_choked (h : Choked c q s u) :
    (choke c q s).voice u = fadeOf (s.mix u).fade (fadeLengthOf s.tables (s.voice u).cue) (s.voice u) := by
  obtain ⟨hlive, hset, hcue, y, hy, hchoke⟩ := h
  rw [choke, if_neg hset, foldl_fadeVoice_voice]
  exact if_pos (by simp [live_iff.2 hlive, hcue, hy, hchoke])

theorem choke_voice_of_not (h : ¬ Choked c q s u) : (choke c q s).voice u = s.voice u := by
  unfold choke
  split
  next => rfl
  next hset =>
    rw [foldl_fadeVoice_voice]
    refine if_neg fun hp => h ?_
    simp only [Bool.and_eq_true, live_iff, bne_iff_ne, Option.any_eq_true, beq_iff_eq] at hp
    obtain ⟨⟨hlive, hcue⟩, y, hy, hchoke⟩ := hp
    exact ⟨hlive, hset, hcue, y, hy, hchoke⟩

end

theorem fadeLengthOf_cue {t : Tables} {c : LocalCue} {y : Cue} (h : t.cues.get c = some y) :
    fadeLengthOf t c = if y.fadeOut = 0 then 2 else y.fadeOut := by
  simp [fadeLengthOf, h]

/-! ### A new entry joins (R52) -/

theorem joinQueue_of_room {e : Entry} {s : State} (h : s.starts.queue.length < 16) :
    joinQueue e s = some (s.setQueue (s.starts.queue ++ [e])) := if_pos h

theorem worstEntry_of_last {s : State} {w : Entry} (hw : w ∈ s.starts.queue)
    (h : ∀ a ∈ s.starts.queue, a = w ∨ s.entryBefore a w = true) : s.worstEntry = some w := by
  refine pick_of_best hw fun b hb hne => ?_
  have hbefore := (h b hb).resolve_left hne
  exact ⟨hbefore, entryBefore_asymm hbefore⟩

theorem joinQueue_of_full {e w : Entry} {s : State} (hfull : 16 ≤ s.starts.queue.length) (hw : s.worstEntry = some w) :
    joinQueue e s = if s.entryPriority e < s.entryPriority w then
        some ((s.setQueue (s.starts.queue.filter (fun a => a.cue != w.cue) ++ [e])).bump .startLost) else none := by
  have hlen : ¬ s.starts.queue.length < Config.startQueueMax := Nat.not_lt.2 hfull
  simp only [joinQueue, if_neg hlen, hw]
  rfl

/-- An entry that joins changes the queue and a counter alone. -/
theorem joinQueue_frame {e : Entry} {s t : State} (h : joinQueue e s = some t) :
    ∃ (l : List Entry) (k : Vector Nat 16), t = { s with starts := { s.starts with queue := l }, counters := k } := by
  unfold joinQueue at h
  split at h
  · exact ⟨_, s.counters, (Option.some.inj h).symm⟩
  · split at h
    · cases h
    · dsimp only at h
      split at h
      · exact ⟨_, _, (Option.some.inj h).symm⟩
      · cases h

/-! ### The steps of admission (R40 to R50) -/

section
variable {r : Request} {s : State} {q : Cue} (hup : s.station ≠ .loading) (hq : s.cue r.cue = some q)
  (hmask : s.starts.mask.getLsbD q.cls.val = true) (hnot : ∀ e ∈ s.starts.queue, e.cue ≠ r.cue)
include hup hq hmask hnot

theorem admitRequest_of_ignore (h : q.retrigger = .ignore) (hlive : s.cueLive r.cue = true) :
    admitRequest r s = s.bump .startLost := by
  simp [admitRequest, hup, hq, hmask, notPending_iff.2 hnot, hlive, h]

theorem admitRequest_of_restart (h : q.retrigger = .restart) (hlive : s.cueLive r.cue = true) :
    admitRequest r s = restartRequest r q s := by
  simp [admitRequest, hup, hq, hmask, notPending_iff.2 hnot, hlive, h]

theorem admitRequest_of_layer (h : q.retrigger = .layer ∨ s.cueLive r.cue = false) :
    admitRequest r s = chokeAndPlace r q s := by
  cases hlive : s.cueLive r.cue with
  | false => simp [admitRequest, hup, hq, hmask, notPending_iff.2 hnot, hlive]
  | true =>
    rw [hlive] at h
    simp [admitRequest, hup, hq, hmask, notPending_iff.2 hnot, hlive, h.resolve_right nofun]

end

theorem waitsForBeat_iff {s : State} {r : Request} {q : Cue} :
    waitsForBeat s r q = true ↔ q.mode = .nextBeat ∧ r.immediate = false ∧ s.beatRef ≠ none := by
  simp only [waitsForBeat, Bool.and_eq_true, beq_iff_eq, Bool.not_eq_true', Option.isSome_iff_ne_none, and_assoc]

theorem mem_liveVoices {s : State} {c : LocalCue} {v : VoiceId} :
    v ∈ liveVoices s c ↔ ((s.voice v).state = .priming ∨ (s.voice v).state = .playing) ∧ (s.voice v).cue = c := by
  rw [liveVoices, mem_filter_voiceIds, Bool.and_eq_true, live_iff, beq_iff_eq]

theorem cueLive_of_live {s : State} {c : LocalCue} {v : VoiceId}
    (h : (s.voice v).state = .priming ∨ (s.voice v).state = .playing) (hc : (s.voice v).cue = c) : s.cueLive c = true :=
  List.any_eq_true.2 ⟨v, List.mem_finRange v, by rw [live_iff.2 h, hc]; simp⟩

/-- The voice reserved for a restart is the oldest of the cue's. -/
theorem pick_liveVoices {s : State} {c : LocalCue} {v : VoiceId} (h : (s.voice v).state = .priming ∨ (s.voice v).state = .playing)
    (hc : (s.voice v).cue = c)
    (hold : ∀ u, u ≠ v → ((s.voice u).state = .priming ∨ (s.voice u).state = .playing) → (s.voice u).cue = c → s.older v u = true) :
    pick s.older (liveVoices s c) = some v := by
  refine (pick_iff_best older_total older_trans fun _ _ => older_asymm).2 ⟨?_, fun x hx hp => ?_⟩
  · rw [live_iff.2 h, hc]
    simp
  · rw [Bool.and_eq_true, live_iff, beq_iff_eq] at hp
    obtain ⟨hlive, hcue⟩ := hp
    exact hold x hx hlive hcue

section
variable {r : Request} {q : Cue} {s j : State} {v : VoiceId} (hpick : pick s.older (liveVoices s r.cue) = some v)
include hpick

theorem restartRequest_of_full (h : joinQueue ⟨r.cue, r.offset, s.now, .voice, some v⟩ s = none) :
    restartRequest r q s = s.bump .startLost := by
  simp only [restartRequest, hpick, h]

/-- With room for its entry a restart cuts the cue's voices, and the entry waits for its voice, or for a beat. -/
theorem restartRequest_of_joined (h : joinQueue ⟨r.cue, r.offset, s.now, .voice, some v⟩ s = some j) :
    let y := choke r.cue q ((liveVoices s r.cue).foldl cutVoice j)
    restartRequest r q s = if waitsForBeat y r q then changeEntry r.cue (fun e => { e with reason := .beat }) y else y := by
  simp only [restartRequest, hpick, h]

end

theorem joinOrLose_of_joined {e : Entry} {s j : State} (h : joinQueue e s = some j) : joinOrLose e s = j := by
  simp only [joinOrLose, h]

theorem joinOrLose_of_full {e : Entry} {s : State} (h : joinQueue e s = none) : joinOrLose e s = s.bump .startLost := by
  simp only [joinOrLose, h]

theorem stealFor_of_joined {e : Entry} {v : VoiceId} {s j : State} (h : joinQueue { e with reserved := some v } s = some j) :
    stealFor e v s = cutVoice j v := by
  simp only [stealFor, h]

theorem stealFor_of_full {e : Entry} {v : VoiceId} {s : State} (h : joinQueue { e with reserved := some v } s = none) :
    stealFor e v s = s.bump .startLost := by
  simp only [stealFor, h]

/-- Settles O40. -/
theorem fireRetriggersWaitsOrIsLost : Obligations.FireRetriggersWaitsOrIsLost := by
  refine ⟨fun src dst b0 b1 b2 b3 s c q hs hset hc hq hmask hnot => ?_, fun s e => ⟨joinQueue_of_room, fun w hw hfull hlast => ?_⟩,
    fun s hset hfree => finish_of_settled hset (.inr hfree)⟩
  · intro i h o entry live cut beat lost joins k
    have hexec : exec i s = .next (finish (admitRequest ⟨c, o, b3.getLsbD 0⟩ h)) := exec_fireReceived_of_mapped hs hc b2 b3
    have hup : h.station ≠ .loading := by
      obtain ⟨-, hup, -⟩ := hs
      rwa [show h.station = s.station from heard_station src s]
    have hclock : h.clock = s.clock := heard_clock src s
    have hstarts : h.starts = s.starts := heard_starts src s
    have htables : h.tables = s.tables := heard_tables src s
    have hvoices : h.voices = s.voices := heard_voices src s
    clear_value h
    have hcue : h.cue = s.cue := by funext x; rw [State.cue, htables]; rfl
    have hvoice : h.voice = s.voice := by funext u; rw [State.voice, hvoices]; rfl
    have hlive : h.cueLive c = s.cueLive c := by simp only [State.cueLive, hvoice]
    have hnow : h.now = s.now := by rw [State.now, hclock]; rfl
    have holder (a b : VoiceId) : h.older a b = s.older a b := by simp only [State.older, hnow, hstarts]
    rw [← hcue] at hq
    rw [← hstarts] at hmask hnot
    have hcut (z : State) (u : VoiceId) (T : Nat) : cut z u T = fadedFrom (z.mix u).fade T (z.voice u) := rfl
    have hlost {z : State} (hz : admitRequest ⟨c, o, b3.getLsbD 0⟩ h = z.bump .startLost) : lost z := hexec.trans (by rw [hz])
    have hbeat (z : State) : beat z ↔ waitsForBeat z ⟨c, o, b3.getLsbD 0⟩ q = true :=
      (waitsForBeat_iff (r := ⟨c, o, b3.getLsbD 0⟩)).symm
    refine ⟨fun u => ?_, fun hignore hsounds => ?_,
      fun v hrestart hv hvc hold => ⟨fun hfull => ?_, fun j hj => ?_⟩, fun hlayer => ?_⟩
    · intro hit
      have hchoked : Choked c q h u ↔ hit := by rw [Choked, hcue]
      refine ⟨fun hhit hplaying y hy => ?_, fun hhit hpriming => ?_, fun hhit => choke_voice_of_not fun hk => hhit (hchoked.1 hk)⟩
      all_goals rw [choke_voice_of_choked (hchoked.2 hhit)]
      · have hy : h.tables.cues.get (h.voice u).cue = some y := by rw [htables]; exact hy
        rw [fadeOf, hplaying, hcut, fadeLengthOf_cue hy]
      · rw [fadeOf, hpriming]
        rfl
    · exact hlost (admitRequest_of_ignore hup hq hmask hnot hignore (hlive.trans hsounds))
    · have hpick := pick_liveVoices (s := h) (c := c) (v := v) (by rw [hvoice]; exact hv) (by rw [hvoice]; exact hvc)
        (by rw [hvoice]; exact fun u hu hl he => (holder v u).trans (hold u hu hl he))
      have hlive' : h.cueLive c = true := hlive.trans (cueLive_of_live hv hvc)
      refine hlost ((admitRequest_of_restart hup hq hmask hnot hrestart hlive').trans ?_)
      exact restartRequest_of_full (r := ⟨c, o, b3.getLsbD 0⟩) hpick (by rw [hnow]; exact hfull)
    · have hpick := pick_liveVoices (s := h) (c := c) (v := v) (by rw [hvoice]; exact hv) (by rw [hvoice]; exact hvc)
        (by rw [hvoice]; exact fun u hu hl he => (holder v u).trans (hold u hu hl he))
      have hlive' : h.cueLive c = true := hlive.trans (cueLive_of_live hv hvc)
      intro m y
      have hadmit : admitRequest ⟨c, o, b3.getLsbD 0⟩ h = if waitsForBeat y ⟨c, o, b3.getLsbD 0⟩ q then
          changeEntry c (fun e => { e with reason := .beat }) y else y :=
        (admitRequest_of_restart hup hq hmask hnot hrestart hlive').trans
          (restartRequest_of_joined (r := ⟨c, o, b3.getLsbD 0⟩) hpick (by rw [hnow]; exact hj))
      refine ⟨fun u hu => ?_, fun hno => ?_, fun hyes => ?_⟩
      · have hm : m.voice u = if u ∈ liveVoices h c then cutOf (h.mix u).fade (h.voice u) else h.voice u := by
          obtain ⟨l, n, rfl⟩ := joinQueue_frame hj
          exact foldl_cutVoice_voice (nodup_filter_voiceIds _) _ u
        rw [← hvoice] at hu ⊢
        refine ⟨fun hplaying => ?_, fun hpriming => ?_⟩
        · rw [hm, if_pos (mem_liveVoices.2 ⟨.inr hplaying, hu⟩), hcut]
          exact cutOf_of_sounding (.inl hplaying)
        · rw [hm, if_pos (mem_liveVoices.2 ⟨.inl hpriming, hu⟩)]
          exact cutOf_of_priming hpriming
      · rw [hexec, hadmit, if_neg (fun hw => hno ((hbeat y).2 hw))]
      · rw [hexec, hadmit, if_pos ((hbeat y).1 hyes)]
        rfl
    · have hplace : admitRequest ⟨c, o, b3.getLsbD 0⟩ h = chokeAndPlace ⟨c, o, b3.getLsbD 0⟩ q h :=
        admitRequest_of_layer hup hq hmask hnot (hlayer.imp id fun e => hlive.trans e)
      have hknow : k.now = s.now := by rw [← hnow, State.now, (Sounds.choke c q h).clock]; rfl
      have joins_of {e : Entry} {p : State → State} (hjoined : ∀ j, joinQueue e k = some j → admitRequest ⟨c, o, b3.getLsbD 0⟩ h = p j)
          (hfull : joinQueue e k = none → admitRequest ⟨c, o, b3.getLsbD 0⟩ h = k.bump .startLost) : joins e k p :=
        ⟨fun j hj => by rw [hexec, hjoined j hj], fun hj => hlost (hfull hj)⟩
      refine ⟨fun hb => ?_, fun hb => ?_⟩
      · have hadmit : admitRequest ⟨c, o, b3.getLsbD 0⟩ h = joinOrLose (entry .beat none) k := by
          rw [hplace, chokeAndPlace, if_pos ((hbeat k).1 hb)]
          exact congrArg (fun t => joinOrLose ⟨c, o, t, .beat, none⟩ k) hknow
        exact joins_of (fun j hj => hadmit.trans (joinOrLose_of_joined hj)) fun hj => hadmit.trans (joinOrLose_of_full hj)
      · have hadmit : admitRequest ⟨c, o, b3.getLsbD 0⟩ h = allocateRequest ⟨c, o, b3.getLsbD 0⟩ q k := by
          rw [hplace, chokeAndPlace, if_neg fun hw => hb ((hbeat k).2 hw)]
        rw [allocateRequest, hknow] at hadmit
        refine ⟨fun v hroom hfree => ?_, fun v hvictim => ?_, fun hbusy hnone => ⟨fun hzero => ?_, fun hpos => ?_⟩⟩
        · rw [allocate_of_free hroom hfree] at hadmit
          rw [hexec, hadmit]
        · rw [allocate_of_victim hvictim] at hadmit
          exact joins_of (fun j hj => hadmit.trans (stealFor_of_joined hj)) fun hj => hadmit.trans (stealFor_of_full hj)
        · rw [allocate_of_no_victim hbusy hnone, if_pos hzero] at hadmit
          exact hlost hadmit
        · rw [allocate_of_no_victim hbusy hnone, if_neg (Nat.ne_of_gt hpos)] at hadmit
          exact joins_of (fun j hj => hadmit.trans (joinOrLose_of_joined hj)) fun hj => hadmit.trans (joinOrLose_of_full hj)
  · rw [joinQueue_of_full hfull (worstEntry_of_last hw hlast)]
    exact ⟨fun hlt => if_pos hlt, fun hle => if_neg (Nat.not_lt.2 hle)⟩

end Sys2Proof.Machine
end

