-- ==== Sys2Proof/Proofs/Voicing.lean ====
section
/-! PROOFS. A voice begins: streaming in PRIMING, or from its head in PLAYING (R34, R47, R62 to R66). -/

namespace Sys2Proof.Machine

/-! ### A request that starts at once (R47) -/

section
variable {r : Request} {s : State} {q : Cue} {v : VoiceId}

/-- A request that is not masked, not pending, not waiting for a beat and that chokes nothing starts on the lowest free voice. -/
theorem admitRequest_starts (hup : s.station ≠ .loading) (hq : s.cue r.cue = some q)
    (hmask : s.starts.mask.getLsbD q.cls.val = true) (hnot : ∀ e ∈ s.starts.queue, e.cue ≠ r.cue)
    (hlayer : q.retrigger = .layer ∨ s.cueLive r.cue = false) (hchoke : q.choke = 0)
    (hnow : q.mode = .immediate ∨ r.immediate = true ∨ s.beatRef = none)
    (hroom : s.occupancy q.cls < (s.cls q.cls).polyphony) (hfree : s.lowestFree = some v) :
    admitRequest r s = startVoice v r.cue r.offset s := by
  have hbeat : ¬ waitsForBeat s r q = true := by
    rw [waitsForBeat_iff]
    rintro ⟨hmode, himm, href⟩
    rcases hnow with h | h | h
    · rw [h] at hmode; cases hmode
    · rw [h] at himm; cases himm
    · exact href h
  rw [admitRequest_of_layer hup hq hmask hnot hlayer, chokeAndPlace, choke, if_pos hchoke]
  simp only [if_neg hbeat, allocateRequest, allocate_of_free hroom hfree]

end

/-- The state with the start stamp of a voice taken. -/
def stamped (v : VoiceId) (s : State) : State :=
  { s with starts := { s.starts with stamps := upd s.starts.stamps v s.now } }

/-- The record of a streaming start before its window is noted. -/
def primingVoice (x : Voice) (c : LocalCue) (q : Cue) (o : Int) (t : Time) : Voice :=
  { startedVoice x c q o with state := .priming, deadline := some (later t 480) }

section
variable {v : VoiceId} {c : LocalCue} {o : Int} {s : State} {q : Cue} (hq : s.cue c = some q)
include hq

theorem startVoice_of_no_head (hhead : s.preload.heads.get c = none) : startVoice v c o s = refreshRequest v
    (enterDescriptor v ((stamped v s).setVoice v (primingVoice (s.voice v) c q o s.now))) := by
  have hhead' : ((stamped v s).setVoice v (startedVoice (s.voice v) c q o)).preload.heads.get c = none := hhead
  have hstart : startVoice v c o s = refreshRequest v (startStreaming v ((stamped v s).setVoice v (startedVoice (s.voice v) c q o))) := by
    simp only [startVoice, hq]
    exact congrArg _ (by simp only [State.setVoice_preload, hhead]; rfl)
  rw [hstart, startStreaming, State.voice_setVoice, State.setVoice_setVoice]
  rfl

end

/-! ### A voice falls silent (R77) -/

/-- What a return to IDLE leaves beside the voice's record: its levels and sample, its request, the beat reference and the counters. -/
structure Falls (v : VoiceId) (s t : State) : Prop where
  mix : t.mix v = ⟨0, none, none⟩
  given : t.mixer.given.get v = none
  fetch : t.fetch = (s.setRequest v none).fetch
  counters : ∀ k : Counter, k ≠ .txDropped → t.counter k = s.counter k
  beatRef : s.beatRef ≠ some v → t.beatRef = s.beatRef

theorem returnIdle_falls (v : VoiceId) (natural : Bool) (s : State) : Falls v s (returnIdle v natural s) := by
  obtain ⟨-, mixer, beatRef, fetch, -, -, -, -, -, counters⟩ := handLocalKeys_keeps (silenced v s)
  obtain ⟨r, hr⟩ := silenced_eq v s
  have href : s.beatRef ≠ some v → (silenced v s).beatRef = s.beatRef := fun h => by
    unfold silenced
    dsimp only
    rw [if_neg (by simpa using h)]
    rfl
  rw [returnIdle_eq]
  generalize silenced v s = w at *
  generalize handLocalKeys w = t at *
  have hgiven : w.mixer.given.get v = none := by rw [hr]; exact upd_get_self ..
  have hmix : w.mix v = ⟨0, none, none⟩ := by rw [hr]; exact upd_get_self ..
  refine ⟨(congrArg (fun m : Mixer => m.mix.get v) mixer).trans hmix, (congrArg (fun m : Mixer => m.given.get v) mixer).trans hgiven,
    fetch.trans ?_, fun k hk => (counters k hk).trans ?_, fun h => beatRef.trans (href h)⟩
  · rw [hr]; rfl
  · rw [hr]; rfl

/-! ### A streaming start (R62, R63) -/

/-- The first segment of a streaming start that resolves to no window: the fetch ends, and the voice is IDLE again. -/
theorem storeFault_of_priming {v : VoiceId} {s : State} (h : (s.voice v).state = .priming) :
    storeFault v s = returnIdle v false (endFetch v (s.bump .storeFault)) := by
  have hvoice : (endFetch v (s.bump .storeFault)).voice v = { s.voice v with fetchDone := true } := State.voice_setVoice ..
  rw [storeFault, cutVoice, hvoice]
  simp only [h]

section
variable {v : VoiceId} {c : LocalCue} {o : Int} {s : State} {q : Cue} (hq : s.cue c = some q)
  (hhead : s.preload.heads.get c = none)

section
variable {g : Segment} {w : WindowId} (hg : s.segment q.first = some g) (hw : resolve s.tables g = some w)
include hq hhead hg hw

/-- The streaming start resolves its first segment. -/
theorem startVoice_of_resolved : startVoice v c o s
    = refreshRequest v ((stamped v s).setVoice v { primingVoice (s.voice v) c q o s.now with window := some w }) := by
  rw [startVoice_of_no_head hq hhead]
  have hvoice := State.voice_setVoice (stamped v s) v (primingVoice (s.voice v) c q o s.now)
  rw [enterDescriptor_of_resolved (s := (stamped v s).setVoice v _) (k := g) (u := w) (by rw [hvoice]; exact hg) hw, hvoice,
    State.setVoice_setVoice]

variable (hnone : s.fetch.requests.get v = none)
include hnone

/-- With the port busy the voice waits for it. -/
theorem startVoice_waits {b : Burst} (hb : s.fetch.burst = some b) (hreq : b.req ≠ .voice v ((s.voice v).gen + 1)) :
    startVoice v c o s
      = ((stamped v s).setVoice v { primingVoice (s.voice v) c q o s.now with window := some w }).setRequest v (some s.clock.micros) := by
  have hvoice := State.voice_setVoice (stamped v s) v { primingVoice (s.voice v) c q o s.now with window := some w }
  rw [startVoice_of_resolved hq hhead hg hw]
  exact refreshRequest_waits (by rw [hvoice]; rfl) (by rw [hvoice]; rfl) (by rw [hvoice]; exact Nat.zero_le _) hnone hb (by rw [hvoice]; exact hreq)

/-- The idle port is granted to the voice at once. -/
theorem startVoice_granted (hb : s.fetch.burst = none) (hothers : ∀ u, u ≠ v → s.fetch.requests.get u = none) :
    startVoice v c o s = { stamped v s with
      voices := upd s.voices v { primingVoice (s.voice v) c q o s.now with window := some w, inFlight := min 64 g.length }
      fetch := { s.fetch with
        burst := some ⟨.voice v ((s.voice v).gen + 1), w, g.start, min 64 g.length,
          40 * 2 ^ (s.tables.store.get w).access.val⟩ } } := by
  have hvoice := State.voice_setVoice (stamped v s) v { primingVoice (s.voice v) c q o s.now with window := some w }
  rw [startVoice_of_resolved hq hhead hg hw, refreshRequest_granted (s := (stamped v s).setVoice v _) (g := g) (w := w)
    (by rw [hvoice]; rfl) (by rw [hvoice]; rfl)
    (by rw [hvoice]; exact Nat.zero_le _) hnone hb hothers (by rw [hvoice]; rfl) (by rw [hvoice]; exact hg) (by rw [hvoice]), hvoice]
  simp only [State.setVoice, upd_upd]
  rfl

end

/-- The streaming start whose first segment resolves to no window: the voice is IDLE again. -/
theorem startVoice_faults (hq : s.cue c = some q) (hhead : s.preload.heads.get c = none)
    (h : (s.segment q.first).bind (resolve s.tables) = none) : startVoice v c o s
      = (returnIdle v false (endFetch v (((stamped v s).setVoice v (primingVoice (s.voice v) c q o s.now)).bump
          .storeFault))).setRequest v none := by
  have hvoice := State.voice_setVoice (stamped v s) v (primingVoice (s.voice v) c q o s.now)
  rw [startVoice_of_no_head hq hhead, enterDescriptor_of_fault (by rw [hvoice]; exact h), storeFault_of_priming (by rw [hvoice]; rfl)]
  refine if_neg ?_
  simp only [State.requests, returnIdle_voice]
  exact Bool.false_ne_true

end

/-- A FIRE that a window maps to a cue that may start at once starts it on the lowest free voice. -/
theorem exec_fireReceived_starts {src : Station} {dst b0 b1 b2 b3 : Byte} {s : State} {c : LocalCue} {q : Cue} {v : VoiceId}
    (hs : HandsOn s src dst) (hwaits : NoStartWaits s) (hc : mapLineCue s.tables (fireLineCue b0 b1) = some c) (hq : s.cue c = some q)
    (hmask : s.starts.mask.getLsbD q.cls.val = true) (hlayer : s.cueLive c = false ∨ q.retrigger = .layer) (hchoke : q.choke = 0)
    (hmode : q.mode = .immediate ∨ b3.getLsbD 0 = true ∨ s.beatRef = none) (hroom : s.occupancy q.cls < (s.cls q.cls).polyphony)
    (hfree : s.lowestFree = some v) : exec (.fireReceived src dst b0 b1 b2 b3) s
      = .next (finish (startVoice v c (max (-24) (min 24 b2.toInt)) (heard src s))) := by
  obtain ⟨hset, hqueue⟩ := hwaits
  have hup : (heard src s).station ≠ .loading := by
    obtain ⟨-, hup, -⟩ := hs
    rwa [heard_station src s]
  obtain ⟨line, peers, groups, keys, hframe⟩ := heard_frame src s
  rw [exec_fireReceived_of_mapped hs hc b2 b3]
  rw [hframe] at hup ⊢
  refine congrArg (fun z => Host.Outcome.next (finish z)) (admitRequest_starts hup hq hmask (fun e he => ?_) hlayer.symm hchoke hmode hroom hfree)
  have he : e ∈ s.starts.queue := he
  rw [hqueue] at he
  cases he

/-- Settles O37. -/
theorem fireStartsAStreamingVoice : Obligations.FireStartsAStreamingVoice := by
  intro src dst b0 b1 b2 b3 s c q v hs hwaits hc hq hmask hlayer hchoke hmode hroom hfree hhead i primed started
  have hexec := exec_fireReceived_starts (b2 := b2) hs hwaits hc hq hmask hlayer hchoke hmode hroom hfree
  obtain ⟨hset, hqueue⟩ := hwaits
  have hstarted (x : Voice) (f : Fetch) : started x f = { heard src s with
    starts := { s.starts with stamps := upd s.starts.stamps v s.now }, voices := upd s.voices v x, fetch := f } := rfl
  clear_value started
  obtain ⟨line, peers, groups, keys, hframe⟩ := heard_frame src s
  rw [hframe] at hexec hstarted
  refine ⟨fun g w hg hw hnone => ⟨fun b hb hreq => ?_, fun hb hothers => ?_⟩, fun hfault href => ?_⟩
  · rw [startVoice_waits (s := { s with line := line, peers := peers, groups := groups, mixer := { s.mixer with peerKeys := keys } })
      hq hhead hg hw hnone hb hreq] at hexec
    exact (hexec.trans (congrArg _ (finish_of_settled hset (.inl hqueue)))).trans (by rw [hstarted]; rfl)
  · rw [startVoice_granted (s := { s with line := line, peers := peers, groups := groups, mixer := { s.mixer with peerKeys := keys } })
      hq hhead hg hw (hothers v) hb (fun u _ => hothers u)] at hexec
    exact (hexec.trans (congrArg _ (finish_of_settled hset (.inl hqueue)))).trans (by rw [hstarted]; rfl)
  · rw [startVoice_faults (s := { s with line := line, peers := peers, groups := groups, mixer := { s.mixer with peerKeys := keys } })
      hq hhead hfault] at hexec
    generalize hm : endFetch v _ = m at hexec
    have hmv : m.voice v = { primingVoice (s.voice v) c q (max (-24) (min 24 b2.toInt)) s.now with fetchDone := true } := by
      rw [← hm]
      refine (State.voice_setVoice _ v _).trans ?_
      exact congrArg (fun x : Voice => { x with fetchDone := true }) (State.voice_setVoice (stamped v _) v _)
    have hmo (u : VoiceId) (hu : u ≠ v) : m.voice u = s.voice u := by
      rw [← hm]
      exact (State.voice_setVoice_ne _ _ hu).trans (State.voice_setVoice_ne (stamped v _) _ hu)
    have hmrest : m.starts = { s.starts with stamps := upd s.starts.stamps v s.now } ∧ m.fetch = (s.setRequest v none).fetch
        ∧ m.beatRef = s.beatRef ∧ m.returns = s.returns ∧ m.counters = (s.bump .storeFault).counters ∧ m.preload = s.preload
        ∧ m.tables = s.tables ∧ m.clock = s.clock ∧ m.mixer.mix = s.mixer.mix ∧ m.mixer.given = s.mixer.given := by
      rw [← hm]
      exact ⟨rfl, rfl, rfl, rfl, rfl, rfl, rfl, rfl, rfl, rfl⟩
    obtain ⟨hstarts, hfetch, hbeat, hreturns, hcounters, hpreload, htables, hclock, hmix, hgiven⟩ := hmrest
    have hspares := returnIdle_spares v false m
    have hfalls := returnIdle_falls v false m
    have hvoice := returnIdle_voice v false m
    have hfollow : NoFollow (returnIdle v false m) := by
      refine NoFollow.plays (.returnIdle v m) ?_
      unfold NoFollow
      rw [hreturns, show s.returns = [] from hset]
      nofun
    clear hm
    generalize returnIdle v false m = u at *
    have hempty : (u.setRequest v none).starts.queue = [] := by
      show u.starts.queue = []
      rw [hspares.starts, hstarts]
      exact hqueue
    rw [finish_of_empty (s := u.setRequest v none) hfollow hempty] at hexec
    refine ⟨_, hexec, hvoice.trans ?_, fun x hx => ?_, hfalls.mix, hfalls.given, fun k hk => ?_, hspares.starts.trans hstarts, ?_,
      (hfalls.beatRef (by rw [hbeat]; exact href)).trans hbeat, hspares.preload.trans hpreload, hspares.tables.trans htables,
      hspares.clock.trans hclock, rfl⟩
    · rw [hmv]
      rfl
    · obtain ⟨h1, h2, h3⟩ := hspares.others x hx
      exact ⟨h1.trans (hmo x hx), h2.trans (congrArg (Vector.get · x) hmix), h3.trans (congrArg (Vector.get · x) hgiven)⟩
    · exact (hfalls.counters k hk).trans (congrArg (Vector.get · k.idx) hcounters)
    · show ({ u.fetch with requests := upd u.fetch.requests v none } : Fetch) = _
      rw [hfalls.fetch]
      simp only [State.setRequest, hfetch, upd_upd]

/-! ### A start from the head (R34, R62, R64) -/

/-- The record of a head-loaded start before it enters PLAYING. -/
def headVoice (x : Voice) (c : LocalCue) (q : Cue) (o : Int) (h : HeadLoc) : Voice :=
  { startedVoice x c q o with headPlace := h.place, headLen := h.length, fetchPtr := ⟨q.first, h.length, 0⟩ }

/-- A start from the head has left voice v as y, the Fetch Engine as f and the counters as in z. -/
structure Began (v : VoiceId) (q : Cue) (s : State) (y : Voice) (f : Fetch) (z t : State) : Prop where
  voice : t.voice v = y
  others : ∀ u, u ≠ v → t.voice u = s.voice u
  fade : (t.mix v).fade = if q.fadeIn = 0 then 0 else 127
  starts : t.starts = { s.starts with stamps := upd s.starts.stamps v s.now }
  fetch : t.fetch = f
  beatRef : t.beatRef = if q.beat.isSome then some v else s.beatRef
  counters : ∀ k : Counter, k ≠ .txDropped → t.counter k = z.counter k
  preload : t.preload = s.preload
  tables : t.tables = s.tables
  clock : t.clock = s.clock
  returns : t.returns = s.returns

section
variable {v : VoiceId} {q : Cue} {s t z : State} {y : Voice} {f : Fetch}

theorem Began.setVoice (h : Began v q s y f z t) (x : Voice) : Began v q s x f z (t.setVoice v x) :=
  ⟨State.voice_setVoice .., fun u hu => (State.voice_setVoice_ne t x hu).trans (h.others u hu), h.fade, h.starts, h.fetch, h.beatRef,
    h.counters, h.preload, h.tables, h.clock, h.returns⟩

theorem Began.setRequest (h : Began v q s y f z t) (r : Option Micros) :
    Began v q s y { f with requests := upd f.requests v r } z (t.setRequest v r) :=
  ⟨h.voice, h.others, h.fade, h.starts, by rw [State.setRequest, h.fetch], h.beatRef, h.counters, h.preload, h.tables, h.clock, h.returns⟩

theorem Began.bump (h : Began v q s y f s t) (c : Counter) : Began v q s y f (s.bump c) (t.bump c) :=
  ⟨h.voice, h.others, h.fade, h.starts, h.fetch, h.beatRef, fun k hk => by
    by_cases hkc : k = c
    · subst hkc
      rw [State.counter_bump, State.counter_bump, h.counters k hk]
    · rw [State.counter_bump_ne t hkc, State.counter_bump_ne s hkc, h.counters k hk],
    h.preload, h.tables, h.clock, h.returns⟩

theorem Began.endFetch (h : Began v q s y f z t) :
    Began v q s { y with fetchDone := true } { f with requests := upd f.requests v none } z (Machine.endFetch v t) := by
  rw [Machine.endFetch, h.voice]
  exact (h.setVoice _).setRequest none

theorem Began.storeFault (h : Began v q s y f s t) (hy : y.audible = true) : Began v q s
    { y with fetchDone := true, state := .fading, fade := some ⟨.fadeOut, if q.fadeIn = 0 then 0 else 127, 2, none⟩ }
    { f with requests := upd f.requests v none } (s.bump .storeFault) (Machine.storeFault v t) := by
  rw [storeFault_of_audible (by rwa [h.voice]), h.voice, h.fade]
  exact ((h.setVoice _).setRequest none).bump _

/-- A voice whose fetch is over asks for nothing. -/
theorem Began.quiet (h : Began v q s y f z t) (hdone : y.fetchDone = true) :
    Began v q s y { f with requests := upd f.requests v none } z (refreshRequest v t) := by
  have hnot : ¬ t.requests v = true := by simp [State.requests, h.voice, hdone]
  rw [refreshRequest, if_neg hnot]
  exact h.setRequest none

section
variable (h : Began v q s y f z t) (hactive : y.active = true) (hdone : y.fetchDone = false) (hfill : y.fifo.length + y.inFlight ≤ 192)
  (hnone : f.requests.get v = none)
include h hactive hdone hfill hnone

/-- With the port busy the voice waits for it. -/
theorem Began.waits {b : Burst} (hb : f.burst = some b) (hreq : b.req ≠ .voice v y.gen) :
    Began v q s y { f with requests := upd f.requests v (some s.clock.micros) } z (refreshRequest v t) := by
  rw [refreshRequest_waits (by rwa [h.voice]) (by rwa [h.voice]) (by rwa [h.voice]) (by rwa [h.fetch]) (by rwa [h.fetch]) (by rwa [h.voice]),
    h.clock]
  exact h.setRequest _

/-- The idle port is granted to the voice at once. -/
theorem Began.granted (hb : f.burst = none) (hothers : ∀ u, u ≠ v → f.requests.get u = none) (hdebt : y.debt = 0) {k : Segment}
    {w : WindowId} (hk : s.segment y.fetchPtr.desc = some k) (hw : y.window = some w) :
    Began v q s { y with inFlight := min 64 (k.length - y.fetchPtr.off) }
      { f with burst := some ⟨.voice v y.gen, w, k.start + y.fetchPtr.off, min 64 (k.length - y.fetchPtr.off),
        40 * 2 ^ (s.tables.store.get w).access.val⟩ } z (refreshRequest v t) := by
  rw [refreshRequest_granted (g := k) (w := w) (by rwa [h.voice]) (by rwa [h.voice]) (by rwa [h.voice]) (by rwa [h.fetch]) (by rwa [h.fetch])
    (by rwa [h.fetch]) (by rwa [h.voice]) (by rw [h.voice, State.segment, h.tables]; exact hk) (by rwa [h.voice]), h.voice, h.tables, h.fetch]
  have hset := h.setVoice { y with inFlight := min 64 (k.length - y.fetchPtr.off) }
  exact ⟨hset.voice, hset.others, hset.fade, hset.starts, rfl, hset.beatRef, hset.counters, hset.preload, h.tables.symm ▸ rfl, hset.clock,
    hset.returns⟩

end

end

/-- The start from the head has begun: the voice plays, through the window of its first segment. -/
theorem startHeadLoaded_begins {v : VoiceId} {c : LocalCue} {o : Int} {s : State} {q : Cue} {h : HeadLoc} {g : Segment} {w : WindowId}
    (hq : s.cue c = some q) (hhead : s.preload.heads.get c = some h) (hg : s.segment q.first = some g) (hw : resolve s.tables g = some w) :
    ∃ t : State, Began v q s { headVoice (s.voice v) c q o h with
        state := .playing, playTime := s.now, fade := some (entryFade q), window := some w } s.fetch s t
      ∧ startVoice v c o s = refreshRequest v (if g.length ≤ h.length then walkOn v g t else t) := by
  have hvoice := State.voice_setVoice (stamped v s) v (headVoice (s.voice v) c q o h)
  have hbegins : Begins v q ((stamped v s).setVoice v (headVoice (s.voice v) c q o h))
      (enterPlaying v ((stamped v s).setVoice v (headVoice (s.voice v) c q o h))) := enterPlaying_begins (by rw [hvoice]; exact hq)
  have hstart : startVoice v c o s
      = refreshRequest v (startHeadLoaded v q h ((stamped v s).setVoice v (startedVoice (s.voice v) c q o))) := by
    simp only [startVoice, hq]
    exact congrArg _ (by simp only [State.setVoice_preload, hhead]; rfl)
  rw [hstart, startHeadLoaded, State.voice_setVoice, State.setVoice_setVoice]
  dsimp only
  rw [show ({ startedVoice (s.voice v) c q o with headPlace := h.place, headLen := h.length, fetchPtr := ⟨q.first, h.length, 0⟩ } : Voice)
    = headVoice (s.voice v) c q o h from rfl]
  have htv := hbegins.voice
  have hto (u : VoiceId) (hu : u ≠ v) := (hbegins.voice_ne hu).trans (State.voice_setVoice_ne (stamped v s) _ hu)
  rw [hvoice] at htv
  generalize enterPlaying v ((stamped v s).setVoice v (headVoice (s.voice v) c q o h)) = t at *
  have hseg : t.segment q.first = some g := by
    rw [State.segment, hbegins.tables]
    exact hg
  have henter : enterDescriptor v t = t.setVoice v { t.voice v with window := some w } :=
    enterDescriptor_of_resolved (k := g) (by rw [htv]; exact hseg) (by rw [hbegins.tables]; exact hw)
  have hbegan : Began v q s (t.voice v) s.fetch s t :=
    ⟨rfl, hto, hbegins.fade, hbegins.starts, hbegins.fetch, hbegins.beatRef, hbegins.counters, hbegins.preload, hbegins.tables,
      hbegins.clock, hbegins.returns⟩
  refine ⟨_, hbegan.setVoice _, ?_⟩
  rw [henter, htv]
  simp only [State.segment, State.setVoice_tables]
  rw [show t.tables.segments.get q.first = some g from hseg]
  rfl

/-- Settles O38. -/
theorem fireStartsAHeadLoadedVoice : Obligations.FireStartsAHeadLoadedVoice := by
  intro src dst b0 b1 b2 b3 s c q g w v h hs hwaits hc hq hmask hlayer hchoke hmode hroom hfree hhead hg hw hnone hown begun starts
    fadesIn unasked goesOn
  have hexec := exec_fireReceived_starts (b2 := b2) hs hwaits hc hq hmask hlayer hchoke hmode hroom hfree
  obtain ⟨hset, hqueue⟩ := hwaits
  obtain ⟨line, peers, groups, keys, hframe⟩ := heard_frame src s
  rw [hframe] at hexec
  obtain ⟨t, hbegan, hstart⟩ := startHeadLoaded_begins (v := v) (o := max (-24) (min 24 b2.toInt))
    (s := { s with line := line, peers := peers, groups := groups, mixer := { s.mixer with peerKeys := keys } }) hq hhead hg hw
  rw [hstart] at hexec
  generalize hr : ({ s with line := line, peers := peers, groups := groups, mixer := { s.mixer with peerKeys := keys } } : State) = r at *
  have hsame : r.voices = s.voices ∧ r.starts = s.starts ∧ r.clock = s.clock ∧ r.beatRef = s.beatRef ∧ r.preload = s.preload
      ∧ r.tables = s.tables ∧ r.returns = s.returns ∧ r.fetch = s.fetch ∧ r.counters = s.counters := by
    rw [← hr]
    exact ⟨rfl, rfl, rfl, rfl, rfl, rfl, rfl, rfl, rfl⟩
  obtain ⟨rvoices, rstarts, rclock, rbeat, rpreload, rtables, rreturns, rfetch, rcounters⟩ := hsame
  have rnow : r.now = s.now := by rw [State.now, rclock]; rfl
  rw [State.voice_eq s r rvoices, rnow, rfetch] at hbegan
  -- The fetch pointer as the start leaves it, and the state before the port is asked.
  generalize hu : (if g.length ≤ h.length then walkOn v g t else t) = u at hexec
  have hends {y : Voice} {f : Fetch} {z z' : State} (hb : Began v q r y f z (refreshRequest v u)) (hz : z.counters = z'.counters)
      {x : Voice → Prop} (hx : x y) : starts x f z' := by
    refine ⟨refreshRequest v u, hexec.trans (congrArg _ (finish_of_settled (hb.returns.trans (rreturns.trans hset)) (.inl ?_))), by rwa [hb.voice],
      fun a ha => (hb.others a ha).trans (State.voice_eq s r rvoices a), hb.starts.trans (by rw [rstarts, rnow]), hb.fetch,
      hb.beatRef.trans (by rw [rbeat]), fun k hk => (hb.counters k hk).trans (congrArg (Vector.get · k.idx) hz), hb.preload.trans rpreload,
      hb.tables.trans rtables, hb.clock.trans rclock⟩
    rw [hb.starts, rstarts]
    exact hqueue
  have hgoes {p : Pos} {k : Segment} {a : WindowId} (hb : Began v q r { begun with
      fetchPtr := p, window := some a, fade := some (entryFade q) } s.fetch r u) (hk : s.segment p.desc = some k) : goesOn p k a := by
    have hk' : r.segment p.desc = some k := by rw [State.segment, rtables]; exact hk
    refine ⟨fun hbusy => ?_, fun hidle hothers => ?_⟩
    · obtain ⟨b, hburst⟩ := Option.isSome_iff_exists.1 hbusy
      have hwaits := hb.waits rfl rfl (Nat.zero_le _) hnone hburst (hown b hburst)
      rw [rclock] at hwaits
      exact hends hwaits rcounters ⟨0, rfl⟩
    · have hgranted := hb.granted rfl rfl (Nat.zero_le _) hnone hidle (fun x _ => hothers x) rfl hk' rfl
      rw [rtables] at hgranted
      exact hends hgranted rcounters ⟨0, rfl⟩
  refine ⟨fun hlt => ?_, fun hle => ?_⟩
  · rw [if_neg (Nat.not_le.2 hlt)] at hu
    subst hu
    exact hgoes hbegan hg
  rw [if_pos hle] at hu
  refine ⟨fun hrepeats => ?_, fun hlast => ?_⟩
  · refine hgoes ?_ hg
    rw [← hu]
    by_cases h255 : g.repeats = 255
    · rw [walkOn_endless h255 (by rw [hbegan.voice]; rfl), hbegan.voice]
      exact hbegan.setVoice _
    · rw [walkOn_repeats h255 (by rw [hbegan.voice]; exact Nat.pos_of_ne_zero hrepeats), hbegan.voice]
      exact hbegan.setVoice _
  · have hleaves : u = nextDescriptor v g t := by
      rw [← hu, walkOn_leaves (.inl ⟨by rw [hlast]; decide, by rw [hlast]; exact Nat.zero_le _⟩), State.setVoice_of_voice]
      rw [hbegan.voice, hlast]
      rfl
    have hresolve (d : SegIdx) : (t.segment d).bind (resolve t.tables) = (s.segment d).bind (resolve s.tables) := by
      rw [State.segment, hbegan.tables, rtables]
      rfl
    refine ⟨fun d k a hd hk ha => hgoes ?_ hk, fun d hd hfault => ?_, fun hd => ?_⟩
    · rw [hleaves, nextDescriptor_of_resolved hd (by rw [State.segment, hbegan.tables, rtables]; exact hk)
        (by rw [hbegan.tables, rtables]; exact ha), hbegan.voice]
      exact hbegan.setVoice _
    · rw [nextDescriptor_of_fault hd (by rw [hresolve]; exact hfault), hbegan.voice] at hleaves
      have hfaulted : Began v q r { begun with
          state := .fading, fetchPtr := ⟨d, 0, 0⟩, fetchDone := true
          fade := some ⟨.fadeOut, if q.fadeIn = 0 then 0 else 127, 2, none⟩ }
          { s.fetch with requests := upd (upd s.fetch.requests v none) v none } (r.bump .storeFault) (refreshRequest v u) := by
        rw [hleaves]
        have hmoved := hbegan.setVoice ({ begun with fetchPtr := ⟨d, 0, 0⟩, fade := some (entryFade q) } : Voice)
        exact (hmoved.storeFault rfl).quiet rfl
      rw [upd_upd] at hfaulted
      have hcount : (r.bump .storeFault).counters = (s.bump .storeFault).counters := by simp only [State.bump, State.counter, rcounters]
      exact hends (x := fun y => ∃ a : Option WindowId, y = { begun with
        state := .fading, fetchPtr := ⟨d, 0, 0⟩, fetchDone := true, window := a
        fade := some ⟨.fadeOut, if q.fadeIn = 0 then 0 else 127, 2, none⟩ }) hfaulted hcount ⟨some w, rfl⟩
    · rw [nextDescriptor_of_end hd] at hleaves
      have hended : Began v q r { begun with fetchDone := true, fade := some (entryFade q) }
          { s.fetch with requests := upd (upd s.fetch.requests v none) v none } r (refreshRequest v u) := by
        rw [hleaves]
        exact hbegan.endFetch.quiet rfl
      rw [upd_upd] at hended
      exact hends hended rcounters ⟨0, rfl⟩

end Sys2Proof.Machine
end

