-- ==== Sys2Proof/Proofs/Returns.lean ====
section
/-! PROOFS. The return of a voice to IDLE at its natural end or at the end of its fade-out, and what the return causes (R54, R77 to R79). -/

namespace Sys2Proof.Machine

/-! ### The successor of the beat reference (R79) -/

/-- Of voices in ascending order the first of the least values is picked. -/
theorem pick_least {f : VoiceId → Nat} {l : List VoiceId} (hl : l.Pairwise (· < ·)) {r : VoiceId}
    (h : pick (fun a b => decide (f a < f b)) l = some r) : ∀ u ∈ l, f r < f u ∨ f r = f u ∧ r ≤ u := by
  induction l generalizing r with
  | nil => cases h
  | cons a l ih =>
    obtain ⟨ha, hl⟩ := List.pairwise_cons.1 hl
    simp only [pick] at h
    cases hp : pick (fun a b => decide (f a < f b)) l with
    | none =>
      rw [hp, Option.some.injEq] at h
      rw [pick_eq_none.1 hp, ← h]
      intro u hu
      rw [List.mem_singleton.1 hu]
      exact .inr ⟨rfl, le_refl a⟩
    | some b =>
      have hb := ih hl hp
      have hab := ha b (pick_mem hp)
      simp only [hp, decide_eq_true_eq] at h
      intro u hu
      by_cases hlt : f b < f a
      · obtain rfl : b = r := by simpa [hlt] using h
        rcases List.mem_cons.1 hu with rfl | hu
        · exact .inl hlt
        · exact hb u hu
      · obtain rfl : a = r := by simpa [hlt] using h
        rcases List.mem_cons.1 hu with rfl | hu
        · exact .inr ⟨rfl, le_refl u⟩
        · have hau := ha u hu
          rcases hb u hu with k | ⟨k, -⟩
          · exact (Nat.lt_or_ge (f a) (f u)).imp id fun _ => absurd k (by omega)
          · rcases Nat.lt_or_ge (f a) (f u) with k' | k'
            · exact .inl k'
            · exact .inr ⟨by omega, le_of_lt hau⟩

section
variable {s : State}

theorem mem_beds {u : VoiceId} : u ∈ voiceIds.filter (fun v => (s.bedBeat v).isSome) ↔ (s.bedBeat u).isSome = true := mem_filter_voiceIds

/-- Without a latest bed no voice is a bed. -/
theorem bedBeat_of_no_latest (h : s.latestBed = none) (u : VoiceId) : s.bedBeat u = none := by
  have hnil := pick_eq_none.1 h
  cases hu : s.bedBeat u with
  | none => rfl
  | some n =>
    have hmem : u ∈ voiceIds.filter (fun v => (s.bedBeat v).isSome) := mem_beds.2 (by rw [hu]; rfl)
    rw [hnil] at hmem
    cases hmem

/-- The latest bed has the latest play time, and the lowest number of those that have it. -/
theorem latestBed_latest {r : VoiceId} (h : s.latestBed = some r) : (s.bedBeat r).isSome = true
    ∧ ∀ u, (s.bedBeat u).isSome = true → since s.now (s.voice r).playTime < since s.now (s.voice u).playTime
      ∨ since s.now (s.voice r).playTime = since s.now (s.voice u).playTime ∧ r ≤ u := by
  have hsorted : (voiceIds.filter fun v => (s.bedBeat v).isSome).Pairwise (· < ·) := (List.pairwise_lt_finRange 8).filter _
  exact ⟨mem_beds.1 (pick_mem h), fun u hu => pick_least (f := fun v => since s.now (s.voice v).playTime) hsorted h u (mem_beds.2 hu)⟩

end

theorem latestBed_congr {s t : State} (voices : t.voices = s.voices) (tables : t.tables = s.tables) (clock : t.clock = s.clock) :
    t.latestBed = s.latestBed := by
  have hvoice : t.voice = s.voice := funext fun v => State.voice_eq s t voices v
  have hnow : t.now = s.now := by rw [State.now, clock]; rfl
  have hbed : t.bedBeat = s.bedBeat := by
    funext v
    simp only [State.bedBeat, hvoice, State.cue, tables]
  simp only [State.latestBed, hvoice, hnow, hbed]

/-- The beat reference passes from a returned voice to the latest bed. -/
theorem returnIdle_passes_ref {v : VoiceId} {natural : Bool} {s : State} (h : s.beatRef = some v) :
    (returnIdle v natural s).beatRef = (returnIdle v natural s).latestBed := by
  obtain ⟨voices, -, beatRef, -, -, -, -, clock, tables, -⟩ := handLocalKeys_keeps (silenced v s)
  have hw : (silenced v s).beatRef = (silenced v s).latestBed := by
    unfold silenced
    dsimp only
    rw [if_pos (by rw [h]; exact beq_self_eq_true _)]
    exact (latestBed_congr rfl rfl rfl).symm
  rw [returnIdle_eq]
  generalize silenced v s = w at *
  generalize handLocalKeys w = t at *
  exact beatRef.trans (hw.trans (latestBed_congr (t := t) voices tables clock).symm)

/-- The local keys handed over are those asserted. -/
theorem returnIdle_keys (v : VoiceId) (natural : Bool) (s : State) :
    (returnIdle v natural s).mixer.localKeys = (returnIdle v natural s).assertedKeys := by
  obtain ⟨voices, mixer, -, -, -, -, -, -, tables, -⟩ := handLocalKeys_keeps (silenced v s)
  rw [returnIdle_eq]
  generalize silenced v s = w at *
  generalize handLocalKeys w = t at *
  refine (congrArg Mixer.localKeys mixer).trans (assertedKeys_congr (s := w) (fun u => ?_) tables).symm
  rw [show State.voice _ u = w.voice u from State.voice_eq w t voices u]
  exact ⟨rfl, rfl⟩

/-! ### Taking a return (R54) -/

theorem settle_eq {s : State} {m n : Nat} (hm : pot s < m) (hn : pot s < n) : settle m s = settle n s := by
  rcases Nat.le_total m n with h | h
  · obtain ⟨k, rfl⟩ := Nat.exists_eq_add_of_le h
    exact ((settle_enough hm).2 k).symm
  · obtain ⟨k, rfl⟩ := Nat.exists_eq_add_of_le h
    exact (settle_enough hn).2 k

/-- The first return is taken whole, and then the rest. -/
theorem finish_of_return {s : State} {r : Return} (h : s.returns = [r]) :
    finish s = finish (takeReturn r { s with returns := [] }) := by
  obtain ⟨n, hn⟩ : ∃ n, settleRounds s = n + 1 := ⟨_, rfl⟩
  have hpot := pot_lt_settleRounds s
  have htaken := pot_takeReturn h
  have hstep : finish s = settle n (takeReturn r { s with returns := [] }) := by
    rw [finish, hn]
    simp only [settle, h]
  rw [hstep]
  exact settle_eq (by omega) (pot_lt_settleRounds _)

/-- Once its start is placed and nothing waits any more, a return does nothing else. -/
theorem takeReturn_of_placed {s p : State} {r : Return} (h : startReserved r.voice (afterFollowOn r s) = p)
    (hq : p.starts.queue = []) : takeReturn r s = p := by
  have hquiet : serve 17 (if r.wasRef then releaseBeats (startReserved r.voice p) else startReserved r.voice p) = p :=
    takeReturn_of_empty (r := { r with followOn := none }) rfl hq
  have hreserved : startReserved r.voice p = p := by simp [startReserved, State.reservedFor, hq]
  rw [hreserved] at hquiet
  rw [takeReturn_eq, h]
  exact hquiet

theorem lowestFree_of_sole {s : State} {v : VoiceId} (hq : s.starts.queue = []) (hv : (s.voice v).state = .idle)
    (hothers : ∀ u, u ≠ v → (s.voice u).state ≠ .idle) : s.lowestFree = some v := by
  have hfree (u : VoiceId) : s.freeVoice u = true ↔ (s.voice u).state = .idle := by simp [State.freeVoice, State.reservedFor, hq]
  cases hl : s.lowestFree with
  | none => exact absurd ((hfree v).2 hv) (by simpa using List.find?_eq_none.1 hl v (List.mem_finRange v))
  | some u =>
    by_cases huv : u = v
    · rw [huv]
    · exact absurd ((hfree u).1 (List.find?_some hl)) (hothers u huv)

/-- A streaming start with the port busy leaves the voice in PRIMING, and causes nothing else. -/
theorem startVoice_streams {v : VoiceId} {c : LocalCue} {o : Int} {s : State} {q : Cue} (hq : s.cue c = some q)
    (hhead : s.preload.heads.get c = none) (hresolves : (s.segment q.first).bind (resolve s.tables) ≠ none)
    (hb : s.fetch.burst.isSome = true) :
    (∃ w : WindowId, (startVoice v c o s).voice v = { primingVoice (s.voice v) c q o s.now with window := some w })
      ∧ (startVoice v c o s).returns = s.returns ∧ (startVoice v c o s).starts.queue = s.starts.queue := by
  obtain ⟨w, hw⟩ := Option.ne_none_iff_exists'.1 hresolves
  obtain ⟨g, hg, hw⟩ := Option.bind_eq_some_iff.1 hw
  rw [startVoice_of_resolved hq hhead hg hw, refreshRequest_of_busy (by exact hb)]
  exact ⟨⟨w, State.voice_setVoice (stamped v s) v _⟩, rfl, rfl⟩

/-- Settles O11. -/
theorem naturalEndAndFadeEndReturnTheVoice : Obligations.NaturalEndAndFadeEndReturnTheVoice := by
  intro v s hr hset x returned started streams taken
  have htaken {i : Instr} {natural : Bool} {follow : Option LocalCue} (hexec : exec i s = .next (finish (returnIdle v natural s)))
      (hfollow : (if natural = true then (s.cue (s.voice v).cue).bind (·.followOn) else none) = follow) : taken i follow := by
    have hret : (returnIdle v natural s).returns = [⟨v, s.beatRef == some v, follow⟩] := by
      rw [← hfollow, returnIdle_eq]
      simp only [show s.returns = [] from hset]
      rfl
    have hspares := returnIdle_spares v natural s
    have hfalls := returnIdle_falls v natural s
    have hvoice := returnIdle_voice v natural s
    have hkeys := returnIdle_keys v natural s
    have hpasses := returnIdle_passes_ref (v := v) (natural := natural) (s := s)
    have hstation := (Sounds.returnIdle v natural s).station
    generalize returnIdle v natural s = u at *
    let r : State := { u with returns := [] }
    have hreturned : returned r := by
      refine ⟨hvoice, hspares.others, hfalls.mix, hfalls.given, hfalls.fetch, hkeys, hspares.starts, hspares.groups, hspares.clock,
        hspares.preload, hspares.tables, rfl, hfalls.beatRef, fun href => ⟨fun hnone => ?_, fun a b ha hb => ?_⟩⟩
      · exact bedBeat_of_no_latest (s := r) ((hpasses href).symm.trans hnone)
      · obtain ⟨hbed, hlatest⟩ := latestBed_latest (s := r) ((hpasses href).symm.trans ha)
        exact ⟨hbed, hlatest b hb⟩
    have hqueue : r.starts.queue = s.starts.queue := congrArg Starts.queue hspares.starts
    have hcue (d : LocalCue) : r.cue d = s.cue d := by rw [State.cue, show r.tables = s.tables from hspares.tables]; rfl
    have hseg (d : SegIdx) : r.segment d = s.segment d := by rw [State.segment, show r.tables = s.tables from hspares.tables]; rfl
    have hnow : r.now = s.now := by rw [State.now, show r.clock = s.clock from hspares.clock]; rfl
    have hend : finish u = finish (takeReturn ⟨v, s.beatRef == some v, follow⟩ r) := finish_of_return hret
    have hburst : r.fetch.burst = s.fetch.burst := by
      show u.fetch.burst = s.fetch.burst
      rw [hfalls.fetch]
      rfl
    have hidle : r.voice v = idleVoice x := hvoice
    have hgen : (r.voice v).gen = x.gen := by rw [hidle]; rfl
    -- A start placed on the returned voice is all that the end of the event does.
    have hstarted {c : LocalCue} {k : Cue} {o : Int} {z : State} (hstreams : streams c k) (hz : z.voice v = r.voice v)
        (htables : z.tables = r.tables) (hpreload : z.preload = r.preload) (hfetch : z.fetch = r.fetch) (hclock : z.clock = r.clock)
        (hempty : z.starts.queue = []) (hreturns : z.returns = [])
        (hplaced : startReserved v (afterFollowOn ⟨v, s.beatRef == some v, follow⟩ r) = startVoice v c o z) :
        started (finish u) c k o := by
      obtain ⟨hk, hhead, hresolves, hbusy⟩ := hstreams
      have htables' : z.tables = s.tables := htables.trans hspares.tables
      have hpreload' : z.preload = s.preload := hpreload.trans hspares.preload
      obtain ⟨⟨w, hw⟩, hsettled, hqueue'⟩ := startVoice_streams (v := v) (o := o) (s := z) (c := c) (q := k)
        (by rw [State.cue, htables']; exact hk) (by rw [hpreload']; exact hhead)
        (by rw [State.segment, htables']; exact hresolves) (by rw [hfetch, hburst]; exact hbusy)
      have hfinish : finish u = startVoice v c o z := by
        rw [hend, takeReturn_of_placed (r := ⟨v, s.beatRef == some v, follow⟩) hplaced (hqueue'.trans hempty)]
        exact finish_of_settled (hsettled.trans hreturns) (.inl (hqueue'.trans hempty))
      have hznow : z.now = s.now := by rw [State.now, hclock]; exact hnow
      rw [hfinish]
      refine ⟨by rw [hw]; rfl, by rw [hw]; rfl, ?_, by rw [hw]; rfl, ?_, by rw [hw]; rfl, hqueue'.trans hempty⟩
      · rw [hw, hz]
        exact congrArg (· + 1) hgen
      · rw [hw, hznow]
        rfl
    refine ⟨r, finish u, hexec, hreturned, ?_, fun hnone hempty => ?_, fun c k hsome hstreams hempty hchoke hmask hmode hlayer hbusy hroom hup => ?_,
      fun e k hnone hstreams hone hreason hreserved => ?_⟩
    · intro admitted placed
      have hplaced : startReserved v (afterFollowOn ⟨v, s.beatRef == some v, follow⟩ r) = placed := rfl
      rw [hend, takeReturn_eq, hplaced]
      by_cases href : s.beatRef = some v
      · rw [if_pos (by rw [href]; exact beq_self_eq_true _), if_pos href]
      · rw [if_neg (by simpa using href), if_neg href]
    · subst hnone
      have hfollow : NoFollow u := by
        unfold NoFollow
        rw [hret]
        simp
      rw [finish_of_empty hfollow (hqueue.trans hempty)]
      exact hreturned
    · have hempty' : r.starts.queue = [] := hqueue.trans hempty
      have hadmits : afterFollowOn ⟨v, s.beatRef == some v, follow⟩ r = startVoice v c 0 r := by
        rw [hsome]
        obtain ⟨hk, -⟩ := hstreams
        have hothers (a : VoiceId) (ha : a ≠ v) : (r.voice a).state ≠ .idle := by
          obtain ⟨hva, -⟩ := hspares.others a ha
          rw [show r.voice a = s.voice a from hva]
          exact hbusy a ha
        have hmask' : r.starts.mask.getLsbD k.cls.val = true := by rw [show r.starts = s.starts from hspares.starts]; exact hmask
        have hroom' : r.occupancy k.cls < (r.cls k.cls).polyphony := by
          rw [State.cls, show r.tables = s.tables from hspares.tables]
          exact hroom
        exact admitRequest_starts (r := ⟨c, 0, false⟩) (by rw [show r.station = s.station from hstation]; exact hup)
          (by rw [hcue]; exact hk) hmask' (by rw [hempty']; nofun) hlayer hchoke (.inl hmode) hroom' (lowestFree_of_sole hempty' (by rw [hidle]; rfl) hothers)
      refine hstarted hstreams (z := r) rfl rfl rfl rfl rfl hempty' rfl ?_
      have hnothing : (startVoice v c 0 r).starts.queue = [] := (startVoice_queue v c 0 r).trans hempty'
      rw [hadmits]
      simp [startReserved, State.reservedFor, hnothing]
    · have hone' : r.starts.queue = [e] := hqueue.trans hone
      refine hstarted hstreams (z := withoutEntry e.cue r) rfl rfl rfl rfl rfl ?_ rfl ?_
      · show r.starts.queue.filter _ = []
        rw [hone']
        simp
      · rw [hnone]
        have hfound : r.reservedFor v = some e := by simp [State.reservedFor, hone', hreserved]
        show startReserved v r = _
        simp only [startReserved, hfound]
        exact if_pos ⟨hreason, by rw [hidle]; rfl⟩
  refine ⟨fun hplaying hgiven hhead hfifo hdone => ?_, fun a0 T k hfading hfade hover => ?_⟩
  · refine htaken (natural := true) ((exec_voiceSampleNeed hr (.inl hplaying) hgiven).trans ?_) rfl
    rw [takeSample_of_spent hhead hfifo hdone, if_pos hplaying, settleReturns, if_neg]
    rw [returnIdle_eq]
    simp
  · have hstate : (s.voice v).state = .fading := hfading
    have hfade : (s.voice v).fade = some ⟨.fadeOut, a0, T, some k⟩ := hfade
    have hdue : fadeDue s v = true := by simp [fadeDue, hstate, hfade, fadeOver, hover]
    have hexec : exec (.fadeEnd v) s = .next (finish (returnIdle v false s)) := exec_of_happens (c := .fadeEnd v) hr hdue id
    exact htaken (i := .fadeEnd v) (natural := false) (follow := none) hexec (if_neg Bool.false_ne_true)

end Sys2Proof.Machine
end

