-- ==== Sys2Proof/Proofs/Readings.lean ====
section
/-! PROOFS. The bytes and bits of a frame read back as the frame, and the frames of the station pass the checks (R114, R125, R126, R130 to
R133). -/

namespace Sys2Proof.Machine

/-! ### The bytes of a frame (R125, R130) -/

/-- The length stands in the first five bytes. -/
theorem frameExtent_append {l : List Byte} {n : Nat} (h : frameExtent l = some n) (m : List Byte) : frameExtent (l ++ m) = some n := by
  match l, h with
  | _ :: _ :: _ :: _ :: _ :: _, h => exact h

section
variable {f : Frame} (hlen : f.payload.length ≤ 255)
include hlen

theorem lengthByte_toNat : (BitVec.ofNat 8 f.payload.length).toNat = f.payload.length := by
  simp
  omega

theorem wholeOutcome_frameBytes : wholeOutcome (frameBytes f) = .good f := by
  have hn := lengthByte_toNat hlen
  have hrest : (f.payload ++ bytes16 (crc (frameBody f))).length = (BitVec.ofNat 8 f.payload.length).toNat + 2 := by
    rw [hn, List.length_append]
    rfl
  have htake : (f.payload ++ bytes16 (crc (frameBody f))).take (BitVec.ofNat 8 f.payload.length).toNat = f.payload := by
    rw [hn]
    exact List.take_left' rfl
  have hdrop : (f.payload ++ bytes16 (crc (frameBody f))).drop (BitVec.ofNat 8 f.payload.length).toNat = bytes16 (crc (frameBody f)) := by
    rw [hn]
    exact List.drop_left' rfl
  show wholeOutcome (0xD3 :: f.kind :: f.src :: f.dst :: BitVec.ofNat 8 f.payload.length
    :: (f.payload ++ bytes16 (crc (frameBody f)))) = .good f
  simp only [wholeOutcome, ne_eq, not_true_eq_false, if_false, hrest, htake, hdrop, if_true]

theorem frameExtent_frameBytes : frameExtent (frameBytes f) = some (f.payload.length + 7) :=
  congrArg (fun n => some (n + 7)) (lengthByte_toNat hlen)

theorem wholeExtent_frameBytes (l : List Byte) : wholeExtent (frameBytes f ++ l) = some (f.payload.length + 7) := by
  rw [wholeExtent, frameExtent_append (frameExtent_frameBytes hlen)]
  simp [frameBytes_length]

theorem rxOutcome_frameBytes (l : List Byte) : rxOutcome ⟨frameBytes f ++ l, .rest⟩ = .good f := by
  simp only [rxOutcome, wholeExtent_frameBytes hlen]
  rw [List.take_left' (frameBytes_length f)]
  exact wholeOutcome_frameBytes hlen

/-- A frame heard whole is read, and what follows it is a fragment. -/
theorem fragmentAfter_frameBytes (l : List Byte) :
    fragmentAfter ⟨frameBytes f ++ l, .rest⟩ = if l = [] then none else some ⟨l, .trailing⟩ := by
  simp only [fragmentAfter, rxOutcome_frameBytes hlen, wholeExtent_frameBytes hlen]
  rw [List.drop_left' (frameBytes_length f), List.length_append, frameBytes_length]
  cases l with
  | nil => simp
  | cons b l => simp

/-- Proper beginnings of a frame do not end its reception. -/
theorem endsReception_prefix {l m : List Byte} (hm : m ≠ []) (hl : l ≠ []) (h : l ++ m = frameBytes f) : endsReception l = false := by
  have hlength : l.length + m.length = f.payload.length + 7 := by rw [← List.length_append, h, frameBytes_length]
  have hmpos : 0 < m.length := List.length_pos_iff.2 hm
  have hhead : l.head? = some 0xD3 := by
    have := congrArg List.head? h
    rwa [List.head?_append_of_ne_nil _ hl] at this
  have hextent : wholeExtent l = none := by
    cases he : frameExtent l with
    | none => rw [wholeExtent, he]; rfl
    | some n =>
      have hn := frameExtent_append he m
      rw [h, frameExtent_frameBytes hlen, Option.some.injEq] at hn
      rw [wholeExtent, he, ← hn]
      simp
      omega
  rw [endsReception, hhead, hextent]
  rfl

theorem endsReception_frameBytes : endsReception (frameBytes f) = true := by
  have h := wholeExtent_frameBytes hlen []
  rw [List.append_nil] at h
  simp [endsReception, h]

end

/-! ### The bits of a byte (R114) -/

theorem byteOfLevels_byteLevels : ∀ b : Byte, byteOfLevels ((byteLevels b).take 9) = b := by decide

/-- A bit within a byte joins those heard. -/
theorem rxBit_within {bytes : List Byte} {b x : LineLevel} {bits : List LineLevel} (h : bits.length < 8) :
    rxBit (.receiving bytes (b :: bits)) x = (.receiving bytes (b :: bits ++ [x]), none) := by
  cases x <;> simp [rxBit, h]

/-- A reception and what has ended before it, a bit further. -/
def hearBit (a : RxState × List Reception) (x : LineLevel) : RxState × List Reception :=
  ((rxBit a.1 x).1, a.2 ++ (rxBit a.1 x).2.toList)

theorem foldl_hearBit_within {bytes : List Byte} {b : LineLevel} {r : List Reception} (m : List LineLevel) {bits : List LineLevel}
    (h : bits.length + m.length ≤ 8) :
    m.foldl hearBit (.receiving bytes (b :: bits), r) = (.receiving bytes (b :: (bits ++ m)), r) := by
  induction m generalizing bits with
  | nil => rw [List.append_nil]; rfl
  | cons x m ih =>
    have hlt : bits.length < 8 := by rw [List.length_cons] at h; omega
    have hone : hearBit (.receiving bytes (b :: bits), r) x = (.receiving bytes (b :: (bits ++ [x])), r) := by
      simp only [hearBit, rxBit_within hlt, Option.toList_none, List.append_nil]
      rfl
    rw [List.foldl_cons, hone, ih (by rw [List.length_append]; simp only [List.length_cons, List.length_nil] at h ⊢; omega), List.append_assoc]
    rfl

/-- The ten levels of a byte make the byte, which may end the reception. -/
theorem foldl_hearBit_byte (b : Byte) (bytes : List Byte) (r : List Reception) :
    (byteLevels b).foldl hearBit (.receiving bytes [], r) = (.receiving (bytes ++ [b]) [],
      r ++ if endsReception (bytes ++ [b]) then [⟨bytes ++ [b], .rest⟩] else []) := by
  let data := (List.finRange 8).map (fun i => bitLevel (b.getLsbD (7 - i.val)))
  have hsplit : byteLevels b = .active :: (data ++ [.rest]) := rfl
  have hlen : data.length = 8 := by simp [data]
  have hbyte : byteOfLevels (.active :: data) = b := byteOfLevels_byteLevels b
  have hstart : hearBit (.receiving bytes [], r) .active = (.receiving bytes [.active], r) := by
    simp [hearBit, rxBit]
  rw [hsplit, List.foldl_cons, hstart, List.foldl_append, foldl_hearBit_within data (bits := []) (by rw [hlen]; decide), List.nil_append]
  simp only [List.foldl_cons, List.foldl_nil, hearBit, rxBit, hlen, Nat.lt_irrefl, if_false, hbyte]
  cases endsReception (bytes ++ [b]) <;> rfl

/-- Heard bit by bit, a frame is one reception, which ends with its last byte. -/
theorem foldl_hearBit_frame {f : Frame} (hlen : f.payload.length ≤ 255) (m : List Byte) {l : List Byte} (hm : m ≠ [])
    (h : l ++ m = frameBytes f) :
    (m.flatMap byteLevels).foldl hearBit (.receiving l [], []) = (.receiving (frameBytes f) [], [⟨frameBytes f, .rest⟩]) := by
  induction m generalizing l with
  | nil => exact absurd rfl hm
  | cons b m ih =>
    rw [List.flatMap_cons, List.foldl_append, foldl_hearBit_byte]
    have hjoin : (l ++ [b]) ++ m = frameBytes f := by rw [← h, List.append_assoc]; rfl
    by_cases hmore : m = []
    · subst hmore
      rw [List.append_nil] at hjoin
      rw [hjoin, endsReception_frameBytes hlen]
      rfl
    · rw [endsReception_prefix hlen hmore (by simp) hjoin]
      exact ih hmore hjoin

/-! ### Commands and frames (R126, R127, R131 to R133) -/

/-- A frame read: as the command of its kind, or as the report of a check that fails. -/
def ReadAs (f : Frame) (i : Instr) : Prop :=
  (∃ k, kindOfCode f.kind = some k ∧ protocolFault f = none ∧ commandOfFrame k f = i)
    ∨ (protocolFault f).isSome = true ∧ i = .rxProtocol f

/-- A frame that passes the checks stands for its command, and one that fails a check for RX_PROTOCOL. -/
theorem commandOfReception_frameBytes {f : Frame} (hlen : f.payload.length ≤ 255) (l : List Byte) {i : Instr}
    (h : ReadAs f i) : commandOfReception ⟨frameBytes f ++ l, .rest⟩ = i := by
  simp only [commandOfReception, rxOutcome_frameBytes hlen]
  rcases h with ⟨k, hk, hp, hc⟩ | ⟨hp, rfl⟩
  · simp only [hk, hp, hc]
  · obtain ⟨n, hn⟩ := Option.isSome_iff_exists.1 hp
    rw [hn]
    cases kindOfCode f.kind <;> rfl

theorem kindOfCode_kindCode (k : FrameKind) : kindOfCode (kindCode k) = some k := by cases k <;> rfl

theorem station_of_byte (x : Station) : (Fin.ofNat 32 (BitVec.ofNat 8 x.val).toNat : Station) = x := by
  have hx : (BitVec.ofNat 8 x.val).toNat = x.val := by simp; omega
  rw [hx]
  exact Fin.ext (Nat.mod_eq_of_lt x.isLt)

/-- The five checks, for a frame of a station. -/
theorem protocolFault_eq_none {k : FrameKind} {x : Station} {dst : Byte} {p : List Byte} (hx : x ≠ 0) (hlen : p.length ≤ 144)
    (hl : lengthOk k p = true) (hd : destOk k dst = true) : protocolFault ⟨kindCode k, BitVec.ofNat 8 x.val, dst, p⟩ = none := by
  have hsrc : (BitVec.ofNat 8 x.val).toNat = x.val := by simp; omega
  have hpos : x.val ≠ 0 := fun e => hx (Fin.ext e)
  have hrange : ¬ (x.val = 0 ∨ x.val > 31) := by omega
  have hshort : ¬ p.length > Config.payloadMax := Nat.not_lt.2 hlen
  simp only [protocolFault, kindOfCode_kindCode, hsrc, hl, hd, if_neg hshort, if_neg hrange, Bool.not_true, Bool.false_eq_true, if_false]

/-! ### The PRESENCE payload (R132) -/

theorem getElem?_toList {α : Type} {n : Nat} (t : Vector α n) (i : Fin n) : t.toList[i.val]? = some (t.get i) := by
  simp [Vector.get]

theorem tabulate_of_get {α : Type} {n : Nat} {f : Fin n → α} {t : Vector α n} (h : ∀ i, f i = t.get i) : tabulate n f = t :=
  Vector.ext fun i hi => (tabulate_get f ⟨i, hi⟩).trans (h ⟨i, hi⟩)

section
variable (p : Presence)

theorem excl_length : (p.excl.toList.flatMap bytes32).length = 64 := by
  simp [List.length_flatMap, bytes32]

theorem presenceBytes_eq : presenceBytes p = [p.flags, p.showNo, p.segment, p.keys, p.spare] ++ (p.epochs.toList
    ++ (p.excl.toList.flatMap bytes32 ++ (BitVec.ofNat 8 p.held.length :: p.held.flatMap fun e => e.1 :: bytes16 e.2))) := by
  simp [presenceBytes]

theorem byteAt_presence_past (i : Nat) : byteAt (presenceBytes p) (5 + i) = byteAt (p.epochs.toList
    ++ (p.excl.toList.flatMap bytes32 ++ (BitVec.ofNat 8 p.held.length :: p.held.flatMap fun e => e.1 :: bytes16 e.2))) i := by
  rw [presenceBytes_eq]
  exact byteAt_append_right (n := 5) rfl i

theorem byteAt_presence_epoch (g : GroupId) : byteAt (presenceBytes p) (5 + g.val) = p.epochs.get g := by
  rw [byteAt_presence_past, byteAt_append_left (by simp), byteAt_eq, getElem?_toList]
  rfl

theorem byteAt_presence_excl (g : GroupId) {j : Nat} (hj : j < 4) :
    byteAt (presenceBytes p) (21 + 4 * g.val + j) = byteAt (bytes32 (p.excl.get g)) j := by
  rw [show 21 + 4 * g.val + j = 5 + (16 + (4 * g.val + j)) by omega, byteAt_presence_past, byteAt_append_right (by simp)]
  exact byteAt_flatMap (f := bytes32) (k := 4) (fun _ => rfl) hj (getElem?_toList p.excl g)

theorem byteAt_presence_tail (i : Nat) : byteAt (presenceBytes p) (85 + i)
    = byteAt (BitVec.ofNat 8 p.held.length :: p.held.flatMap fun e => e.1 :: bytes16 e.2) i := by
  rw [show 85 + i = 5 + (16 + (64 + i)) by omega, byteAt_presence_past, byteAt_append_right (by simp),
    byteAt_append_right (excl_length p)]

theorem byteAt_presence_count : byteAt (presenceBytes p) 85 = BitVec.ofNat 8 p.held.length := byteAt_presence_tail p 0

theorem byteAt_presence_held {i j : Nat} {e : Byte × BitVec 16} (he : p.held[i]? = some e) (hj : j < 3) :
    byteAt (presenceBytes p) (86 + 3 * i + j) = byteAt (e.1 :: bytes16 e.2) j := by
  have hbytes := byteAt_flatMap (f := fun e : Byte × BitVec 16 => e.1 :: bytes16 e.2) (m := []) (fun _ => rfl) hj he
  rw [List.append_nil] at hbytes
  rw [show 86 + 3 * i + j = 85 + (1 + (3 * i + j)) by omega, byteAt_presence_tail]
  exact (byteAt_append_right (l := [BitVec.ofNat 8 p.held.length]) (n := 1) rfl _).trans hbytes

theorem presenceBytes_length : (presenceBytes p).length = 86 + 3 * p.held.length := by
  rw [presenceBytes_eq]
  have hheld : (p.held.flatMap fun e => e.1 :: bytes16 e.2).length = 3 * p.held.length := by
    simp [List.length_flatMap, bytes16, Nat.mul_comm]
  simp only [List.length_append, List.length_cons, List.length_nil, excl_length, hheld, Vector.length_toList]
  omega

theorem parsePresence_presenceBytes (h : p.held.length ≤ 19) : parsePresence (presenceBytes p) = p := by
  have hcount : (byteAt (presenceBytes p) 85).toNat = p.held.length := by
    rw [byteAt_presence_count]
    simp
    omega
  have hepochs : (tabulate 16 fun i => byteAt (presenceBytes p) (5 + i.val)) = p.epochs := tabulate_of_get (byteAt_presence_epoch p)
  have hexcl : (tabulate 16 fun i => word32 (byteAt (presenceBytes p) (21 + 4 * i.val)) (byteAt (presenceBytes p) (22 + 4 * i.val))
      (byteAt (presenceBytes p) (23 + 4 * i.val)) (byteAt (presenceBytes p) (24 + 4 * i.val))) = p.excl :=
    tabulate_of_get fun g => by
      have hbyte {j : Nat} (hj : j < 4) (n : Nat) (hn : n = 21 + 4 * g.val + j) :
          byteAt (presenceBytes p) n = byteAt (bytes32 (p.excl.get g)) j := (congrArg (byteAt (presenceBytes p)) hn).trans
        (byteAt_presence_excl p g hj)
      rw [hbyte (j := 0) (by decide) (21 + 4 * g.val) rfl, hbyte (j := 1) (by decide) _ (by omega), hbyte (j := 2) (by decide) _ (by omega),
        hbyte (j := 3) (by decide) _ (by omega)]
      exact word32_bytes32 _
  have hheld : ((List.range p.held.length).map fun i => (byteAt (presenceBytes p) (86 + 3 * i),
      word16 (byteAt (presenceBytes p) (87 + 3 * i)) (byteAt (presenceBytes p) (88 + 3 * i)))) = p.held := by
    refine List.ext_getElem (by simp) fun i _ hi => ?_
    have hbyte {j : Nat} (hj : j < 3) (n : Nat) (hn : n = 86 + 3 * i + j) := (congrArg (byteAt (presenceBytes p)) hn).trans
      (byteAt_presence_held p (List.getElem?_eq_getElem hi) hj)
    rw [List.getElem_map, List.getElem_range, hbyte (j := 0) (by decide) (86 + 3 * i) rfl, hbyte (j := 1) (by decide) _ (by omega),
      hbyte (j := 2) (by decide) _ (by omega)]
    exact Prod.ext rfl (word16_bytes16 _)
  rw [parsePresence, hepochs, hexcl, hcount, hheld]
  rfl

end

/-! ### The settling theorem -/

/-- A station's command is read back from the frame that it stands for. -/
theorem readAs_of_station {k : FrameKind} {x : Station} {dst : Byte} {p : List Byte} {i : Instr} {f : Frame}
    (hf : some (⟨kindCode k, BitVec.ofNat 8 x.val, dst, p⟩ : Frame) = some f) (hx : (x != 0) = true)
    (hlen : p.length ≤ 144) (hl : lengthOk k p = true) (hd : destOk k dst = true)
    (hi : commandOfFrame k ⟨kindCode k, BitVec.ofNat 8 x.val, dst, p⟩ = i) : f.payload.length ≤ 255 ∧ ReadAs f i := by
  cases hf
  exact ⟨Nat.le_trans hlen (by decide), .inl ⟨k, kindOfCode_kindCode k, protocolFault_eq_none (bne_iff_ne.1 hx) hlen hl hd, hi⟩⟩

/-- A PRESENCE of at most 19 holdings has the length that its count gives. -/
theorem lengthOk_presenceBytes (p : Presence) (h : p.held.length ≤ 19) :
    (presenceBytes p).length ≤ 144 ∧ lengthOk .presence (presenceBytes p) = true := by
  have hcount : (byteAt (presenceBytes p) 85).toNat = p.held.length := by
    rw [byteAt_presence_count]
    simp
    omega
  refine ⟨by rw [presenceBytes_length]; omega, ?_⟩
  simp [lengthOk, presenceBytes_length, hcount]

/-- Every well-formed received command is read from its frame. -/
theorem readsBack {i : Instr} {f : Frame} (hwf : i.wf = true) (hf : frameOfCommand i = some f) :
    f.payload.length ≤ 255 ∧ ReadAs f i := by
  cases i with
  | fireReceived src dst b0 b1 b2 b3 =>
    refine readAs_of_station hf hwf (show 4 ≤ 144 by decide) rfl rfl ?_
    rw [commandOfFrame, station_of_byte]
    rfl
  | stopReceived src dst b0 b1 b2 b3 =>
    refine readAs_of_station hf hwf (show 4 ≤ 144 by decide) rfl rfl ?_
    rw [commandOfFrame, station_of_byte]
    rfl
  | segmentReceived src b0 b1 b2 =>
    refine readAs_of_station hf hwf (show 3 ≤ 144 by decide) rfl rfl ?_
    rw [commandOfFrame, station_of_byte]
    rfl
  | claimReceived src n g e =>
    refine readAs_of_station hf hwf (show 3 ≤ 144 by decide) rfl rfl ?_
    rw [commandOfFrame, station_of_byte]
    rfl
  | holdReceived src n g e a =>
    refine readAs_of_station hf hwf (show 5 ≤ 144 by decide) rfl rfl ?_
    rw [commandOfFrame, station_of_byte]
    exact congrArg (Instr.holdReceived src n g e) (word16_bytes16 a)
  | releaseReceived src n g e v =>
    refine readAs_of_station hf hwf (show 4 ≤ 144 by decide) rfl rfl ?_
    rw [commandOfFrame, station_of_byte]
    rfl
  | presenceReceived src p =>
    obtain ⟨hsrc, hheld⟩ := Bool.and_eq_true_iff.1 hwf
    have hheld := of_decide_eq_true hheld
    obtain ⟨hlen, hok⟩ := lengthOk_presenceBytes p hheld
    refine readAs_of_station hf hsrc hlen hok rfl ?_
    rw [commandOfFrame, station_of_byte]
    exact congrArg (Instr.presenceReceived src) (parsePresence_presenceBytes p hheld)
  | queryReceived src dst b0 =>
    obtain ⟨hsrc, hdst⟩ := Bool.and_eq_true_iff.1 hwf
    refine readAs_of_station hf hsrc (show 1 ≤ 144 by decide) rfl hdst ?_
    rw [commandOfFrame, station_of_byte]
    rfl
  | statusReceived src dst p =>
    have hlen : p.toList.length = 76 := p.length_toList
    have hread : (tabulate 76 fun i => byteAt p.toList i.val) = p := tabulate_of_get fun i => by
      rw [byteAt_eq, getElem?_toList]
      rfl
    refine readAs_of_station hf hwf (by rw [hlen]; decide) (beq_iff_eq.2 hlen) rfl ?_
    rw [commandOfFrame, station_of_byte]
    exact congrArg (Instr.statusReceived src dst) hread
  | restartReceived src dst n =>
    refine readAs_of_station hf hwf (show 1 ≤ 144 by decide) rfl rfl ?_
    rw [commandOfFrame, station_of_byte]
    rfl
  | rxProtocol g =>
    cases hf
    obtain ⟨hfault, hlen⟩ := Bool.and_eq_true_iff.1 hwf
    exact ⟨of_decide_eq_true hlen, .inr ⟨hfault, rfl⟩⟩
  | _ => cases hf

/-! ### The frames of the station (R126, R131) -/

theorem ownHoldings_length (s : State) : (ownHoldings s).length ≤ 16 :=
  Nat.le_trans (List.length_filterMap_le _ _) (by decide)

theorem selectorBytes_length (c : StopSel LineCue) : (selectorBytes c).length = 3 := by cases c <;> rfl

theorem bodyPayload_fits (s : State) (b : TxBody) :
    (bodyPayload s b).length ≤ 144 ∧ lengthOk b.kind (bodyPayload s b) = true := by
  cases b with
  | fire c o => exact ⟨show 4 ≤ 144 by decide, rfl⟩
  | stop sel m =>
    have hlen : (bodyPayload s (.stop sel m)).length = 4 := by
      rw [bodyPayload, List.length_append, selectorBytes_length]
      rfl
    exact ⟨by rw [hlen]; decide, beq_iff_eq.2 hlen⟩
  | segment n m stop => exact ⟨show 3 ≤ 144 by decide, rfl⟩
  | claim g n e => exact ⟨show 3 ≤ 144 by decide, rfl⟩
  | hold g n e => exact ⟨show 5 ≤ 144 by decide, rfl⟩
  | release g n e v => exact ⟨show 4 ≤ 144 by decide, rfl⟩
  | presence => exact lengthOk_presenceBytes (buildPresence s) (Nat.le_trans (ownHoldings_length s) (by decide))
  | status =>
    have hlen : (bodyPayload s .status).length = 76 := buildStatus_length s
    exact ⟨by rw [hlen]; decide, beq_iff_eq.2 hlen⟩

/-- An own frame is for all stations, but a STATUS, which may be for any. -/
theorem destOk_buildFrame (s : State) (b : TxBody) : destOk b.kind (buildFrame s b).dst = true := by
  cases b <;> rfl

theorem protocolFault_buildFrame {s : State} (h : s.number ≠ 0) (b : TxBody) : protocolFault (buildFrame s b) = none := by
  obtain ⟨hlen, hok⟩ := bodyPayload_fits s b
  exact protocolFault_eq_none h hlen hok (destOk_buildFrame s b)

/-! ### The settling theorem -/

theorem frameBytes_ne_nil (f : Frame) : frameBytes f ≠ [] :=
  List.ne_nil_of_length_pos (by rw [frameBytes_length]; omega)

/-- Settles O60: a frame heard is read as its command, by what its length says and the fields of each kind at their places. -/
theorem receptionReadsWhatTheLayoutWrites : Obligations.ReceptionReadsWhatTheLayoutWrites := by
  refine ⟨fun i f hwf hf => ?_, fun s b h => protocolFault_buildFrame h b, Tests.test_crc⟩
  obtain ⟨hlen, hread⟩ := readsBack hwf hf
  have hcommands (l : List Byte) : commandsOfReception ⟨frameBytes f ++ l, .rest⟩
      = i :: (if l = [] then none else some (⟨l, .trailing⟩ : Reception)).toList.map .rxBad := by
    rw [commandsOfReception, commandOfReception_frameBytes hlen l hread, fragmentAfter_frameBytes hlen]
  refine ⟨?_, fun b l => hcommands (b :: l), foldl_hearBit_frame hlen (frameBytes f) (frameBytes_ne_nil f) rfl⟩
  have hwhole := hcommands []
  rwa [List.append_nil] at hwhole

end Sys2Proof.Machine
end

