-- ==== Sys2Proof/Proofs/BitTimes.lean ====
section
/-! PROOFS. One bit time, and the stages of a sample frame (R86, R114 to R116, R125, R186). -/

namespace Sys2Proof.Machine

/-! ### The random slot source (R116) -/

theorem shiftStep_succ (w : BitVec 16) {i : Nat} (h : i < 15) : (shiftStep w).getLsbD (i + 1) = w.getLsbD i := by
  simp [shiftStep, show i + 1 < 16 by omega, show i < 16 by omega]

theorem shiftStep_zero (w : BitVec 16) :
    (shiftStep w).getLsbD 0 = (w.getLsbD 15 ^^ w.getLsbD 13 ^^ w.getLsbD 12 ^^ w.getLsbD 10) := by
  simp [shiftStep]

/-! ### The byte of the bits heard (R114) -/

/-- The byte after one bit more. -/
def pushLevel (b : Byte) (x : LineLevel) : Byte := (b <<< 1) ||| (if x = .rest then 1 else 0)

theorem pushLevel_getLsbD (b : Byte) (x : LineLevel) {j : Nat} (h : j < 8) :
    (pushLevel b x).getLsbD j = if j = 0 then x == .rest else b.getLsbD (j - 1) := by
  have hbit : (if x = .rest then 1 else 0 : Byte) = (BitVec.ofBool (x == .rest)).zeroExtend 8 := by cases x <;> rfl
  rw [pushLevel, hbit]
  cases j with
  | zero => simp
  | succ j => simp [h, show j < 8 by omega]

/-- The bits pushed stand with the last one lowest, above what was there before. -/
theorem foldl_pushLevel_getLsbD (l : List LineLevel) (b : Byte) {j : Nat} (h : j < 8) :
    (l.foldl pushLevel b).getLsbD j = if j < l.length then l[l.length - 1 - j]? == some .rest else b.getLsbD (j - l.length) := by
  induction l generalizing b with
  | nil => simp
  | cons x l ih =>
    rw [List.foldl_cons, ih]
    rcases Nat.lt_trichotomy j l.length with hlt | rfl | hgt
    · rw [if_pos hlt, if_pos (by rw [List.length_cons]; omega), List.length_cons, show l.length + 1 - 1 - j = (l.length - 1 - j) + 1 by omega]
      rfl
    · rw [if_neg (Nat.lt_irrefl _), if_pos (by simp), Nat.sub_self, pushLevel_getLsbD _ _ (by decide)]
      simp
    · rw [if_neg (by omega), if_neg (by rw [List.length_cons]; omega), pushLevel_getLsbD _ _ (by omega), if_neg (by omega), List.length_cons]
      exact congrArg b.getLsbD (by omega)

/-- The data bits are heard with the most significant first. -/
theorem byteOfLevels_getLsbD (b : LineLevel) {bits : List LineLevel} (h : bits.length = 8) (i : Fin 8) :
    (byteOfLevels (b :: bits)).getLsbD (7 - i.val) = (bits[i.val]? == some .rest) := by
  refine (foldl_pushLevel_getLsbD bits 0 (j := 7 - i.val) (by omega)).trans ?_
  rw [if_pos (by omega), h, show 8 - 1 - (7 - i.val) = i.val by omega]

/-! ### One bit time (R114, R186) -/

theorem tickBit_line (s : State) : (tickBit s).line = bitTimeLine s.driving s.line := by
  obtain ⟨l, x, -, h⟩ := tickBit_shape s
  rw [h]

theorem tickBit_mixer (s : State) : (tickBit s).mixer = s.mixer := by
  obtain ⟨l, x, -, h⟩ := tickBit_shape s
  rw [h]

theorem tickBit_clock (s : State) : (tickBit s).clock
    = if frameOver (bitTimeClock s.clock) then closeFrame (bitTimeClock s.clock) else bitTimeClock s.clock := by
  exact (apply_ite State.clock ..).trans rfl

/-- The reception that ends with a bit time is the first of its events. -/
theorem tickBit_pending_of_reception {s : State} (h : s.driving = false) {r : Reception}
    (hr : (rxBit s.line.rx (heardLevel s.line)).2 = some r) : ∃ l : List Instr, (tickBit s).pending = commandsOfReception r ++ l := by
  have hevents : receptionEvents s = commandsOfReception r := by simp [receptionEvents, h, hr]
  unfold tickBit
  dsimp only
  rw [hevents]
  split <;> exact ⟨_, List.append_assoc _ _ _⟩

theorem closeFrame_frame (t : Timebase) : (closeFrame t).half = t.half ∧ (closeFrame t).micros = t.micros ∧ (closeFrame t).time = t.time := by
  unfold closeFrame
  split <;> exact ⟨rfl, rfl, rfl⟩

theorem tickBit_clock_frame (s : State) : (tickBit s).clock.half = !s.clock.half
    ∧ (tickBit s).clock.micros = (if s.clock.half then s.clock.micros + 1 else s.clock.micros) ∧ (tickBit s).clock.time = s.clock.time := by
  rw [tickBit_clock]
  split
  · exact closeFrame_frame _
  · exact ⟨rfl, rfl, rfl⟩

/-- In LOCKED a sample frame ends at an edge. -/
theorem tickBit_locked {s : State} (hs : s.clock.stage = .running) (h : s.clock.clock = .locked) :
    (tickBit s).clock.stage = (if 0 < s.clock.edges then .closing else .running) ∧ (tickBit s).clock.edges = s.clock.edges - 1 := by
  have hclock : (bitTimeClock s.clock).clock = .locked := h
  have hover : frameOver (bitTimeClock s.clock) = decide (0 < s.clock.edges) := by simp only [frameOver, hclock]; rfl
  rw [tickBit_clock, hover]
  by_cases he : 0 < s.clock.edges
  · rw [decide_eq_true he, if_pos rfl, if_pos he, closeFrame, hclock]
    exact ⟨rfl, rfl⟩
  · rw [decide_eq_false he, if_neg (by decide), if_neg he]
    exact ⟨hs, show s.clock.edges = _ by omega⟩

/-- The length that the part paces itself: the held one while the clock is lost or found again from there, else the nominal one. -/
theorem frameLength_eq {t : Timebase} (h : t.clock ≠ .locked) : frameLength t
    = if t.clock = .holdover ∨ t.clock = .acquiring ∧ t.fromHoldover = true then 3 * t.heldNs else 62500 := by
  unfold frameLength
  cases hc : t.clock with
  | locked => exact absurd hc h
  | free => simp [Config.nominalFrame]
  | holdover => simp
  | acquiring => simp [Config.nominalFrame]

/-- Out of LOCKED a sample frame ends at its length, and its overrun is carried on. -/
theorem tickBit_paced {s : State} (hs : s.clock.stage = .running) (h : s.clock.clock ≠ .locked) :
    (tickBit s).clock.stage = (if frameLength s.clock ≤ s.clock.frameAge + 1500 then .closing else .running)
      ∧ (tickBit s).clock.frameAge = (if frameLength s.clock ≤ s.clock.frameAge + 1500 then s.clock.frameAge + 1500 - frameLength s.clock
        else s.clock.frameAge + 1500) := by
  have hlength : frameLength (bitTimeClock s.clock) = frameLength s.clock := rfl
  have hage : (bitTimeClock s.clock).frameAge = s.clock.frameAge + 1500 := rfl
  have hover : frameOver (bitTimeClock s.clock) = decide (frameLength s.clock ≤ s.clock.frameAge + 1500) := by
    unfold frameOver
    split
    next hl => exact absurd hl h
    all_goals rw [hlength, hage]
  have hclose : closeFrame (bitTimeClock s.clock) = { bitTimeClock s.clock with
      stage := .closing, frameAge := s.clock.frameAge + 1500 - frameLength s.clock } := by
    unfold closeFrame
    split
    next hl => exact absurd hl h
    all_goals rw [hlength, hage]
  rw [tickBit_clock, hover]
  by_cases he : frameLength s.clock ≤ s.clock.frameAge + 1500
  · rw [decide_eq_true he, if_pos rfl, if_pos he, if_pos he, hclose]
    exact ⟨rfl, rfl⟩
  · rw [decide_eq_false he, if_neg (by decide), if_neg he, if_neg he]
    exact ⟨hs, hage⟩

/-! ### What is heard in a bit time (R114, R115, R125) -/

section
variable (l : Line)

theorem bitTimeLine_driving : (bitTimeLine true l).rest = l.rest ∧ (bitTimeLine true l).rx = l.rx := ⟨rfl, rfl⟩

variable {l}

theorem restCount_of_active (h : l.rest = none) : restCount l = 0 := by rw [restCount, h]

theorem restCount_of_inByte (h : l.rx.inByte = true) : restCount l = 0 := by rw [restCount_eq, if_pos h]

theorem restCount_of_rest (h : l.rx.inByte = false) {n : Nat} (hn : l.rest = some n) : restCount l = min 16 (n + 1) := by
  rw [restCount_eq, h, hn]
  rfl

theorem heardLevel_eq : heardLevel l = if l.rest = none then .active else .rest := by
  rw [heardLevel]
  cases l.rest <;> rfl

theorem heardLevel_of_rest {n : Nat} (h : l.rest = some n) : heardLevel l = .rest := by rw [heardLevel, h]; rfl

/-- A byte ends at its stop bit at REST. -/
theorem rxBit_stop (bytes : List Byte) (b : LineLevel) {bits : List LineLevel} (h : bits.length = 8) :
    (rxBit (.receiving bytes (b :: bits)) .rest).1 = .receiving (bytes ++ [byteOfLevels (b :: bits)]) [] := by
  simp [rxBit, h]

end

/-! ### The stages of a sample frame (R86, R186) -/

section
variable {s : State} (hr : s.inReset = false) (hp : s.pending = [])
include hr hp

theorem step_opening (hs : s.clock.stage = .opening) :
    step s = .next { s with clock := { s.clock with stage := .running }, pending := openingEvents s } := by
  simp only [step, hp, tick, hr, hs, Bool.false_eq_true, if_false]

theorem step_running (hs : s.clock.stage = .running) : step s = .next (tickBit s) := by
  simp only [step, hp, tick, hr, hs, Bool.false_eq_true, if_false]

theorem step_closing (hs : s.clock.stage = .closing) :
    step s = .next { s with clock := { s.clock with stage := .over }, pending := closingEvents } := by
  simp only [step, hp, tick, hr, hs, Bool.false_eq_true, if_false]

/-- Every sample given, the sample frame turns. -/
theorem step_over (hs : s.clock.stage = .over)
    (hgiven : ∀ v : VoiceId, (s.voice v).state = .playing ∨ (s.voice v).state = .fading → s.mixer.given.get v ≠ none) :
    step s = .next (nextFrame s) := by
  have hneeds : voiceIds.filter (needDue s) = [] := List.filter_eq_nil_iff.2 fun v _ hdue => by
    simp only [needDue, Voice.audible, Bool.and_eq_true, Bool.or_eq_true, beq_iff_eq, Option.isNone_iff_eq_none] at hdue
    exact hgiven v hdue.1 hdue.2
  simp only [step, hp, tick, hr, hs, hneeds, Bool.false_eq_true, if_false]

end

/-! ### The settling theorem -/

/-- Settles O8: the bit time by `tickBit_line` and `tickBit_clock`, and the other stages by the definition of the step. -/
theorem bitTimeStepsTheClocks : Obligations.BitTimeStepsTheClocks := by
  refine ⟨fun s hr hp hs => ⟨tickBit s, step_running hr hp hs, ?_⟩, fun s hr hp => ⟨fun hs => ⟨_, step_opening hr hp hs⟩,
    fun hs => step_closing hr hp hs, fun hs hgiven => step_over hr hp hs hgiven⟩⟩
  obtain ⟨hhalf, hmicros, htime⟩ := tickBit_clock_frame s
  have hline := tickBit_line s
  refine ⟨fun i hi => ?_, ?_, hhalf, hmicros, htime, tickBit_mixer s, ⟨tickBit_locked hs, fun hl => ?_⟩, fun hd => ?_, fun hd => ?_⟩
  · rw [hline]
    exact shiftStep_succ _ hi
  · rw [hline]
    exact shiftStep_zero _
  · rw [← frameLength_eq hl]
    exact tickBit_paced hs hl
  · rw [hline, hd]
    exact bitTimeLine_driving _
  · have hrest : (tickBit s).line.rest = some (restCount s.line) := by rw [hline, hd]; rfl
    have hrx : (tickBit s).line.rx = (rxBit s.line.rx (heardLevel s.line)).1 := by rw [hline, hd]; rfl
    intro heard
    have hheard : heardLevel s.line = heard := heardLevel_eq
    rw [hheard] at hrx
    have hquiet {n : Nat} (hn : s.line.rest = some n) : heard = .rest := hheard.symm.trans (heardLevel_of_rest hn)
    refine ⟨fun hn => hrest.trans (congrArg some (restCount_of_active hn)),
      fun k hk => ⟨fun h0 ha => ?_, fun n h0 hn => ⟨?_, ?_⟩, fun h1 => ?_⟩, fun hx => ⟨fun ha => ?_, fun n hn => ⟨?_, ?_⟩⟩,
      fun bytes hx ha => ?_, fun bytes b bits hx => ⟨?_, fun hlt => ?_, fun h8 ha => ?_, fun r hr => ?_⟩⟩
    · rw [hrx, hk, ha, h0]
      rfl
    · rw [hrx, hk, hquiet hn, h0]
      rfl
    · rw [hrest, restCount_of_rest (by rw [hk, h0]; rfl) hn]
    · have hbyte : s.line.rx.inByte = true := by rw [hk, RxState.inByte_hunting]; exact decide_eq_true h1
      have hhunt : (tickBit s).line.rx = huntBit k heard := by rw [hrx, hk]; rfl
      rw [huntBit_eq, if_neg (Nat.ne_of_gt h1)] at hhunt
      exact ⟨by rw [hrest, restCount_of_inByte hbyte], fun h9 => by rw [hhunt, if_pos h9], fun h9 => by rw [hhunt, if_neg (Nat.not_lt.2 h9)]⟩
    · rw [hrx, hx, ha]
      rfl
    · rw [hrx, hx, hquiet hn]
      rfl
    · rw [hrest, restCount_of_rest (by rw [hx]; rfl) hn]
    · rw [hrx, hx, ha]
      rfl
    · rw [hrest, restCount_of_inByte (by rw [hx]; rfl)]
    · rw [hrx, hx, rxBit_within hlt]
    · rw [hrx, hx, ha, rxBit_stop bytes b h8]
      exact ⟨_, rfl, byteOfLevels_getLsbD b h8⟩
    · exact tickBit_pending_of_reception hd (by rw [hheard]; exact hr)

end Sys2Proof.Machine
end

