-- ==== Sys2Proof/Proofs/Tables.lean ====
section
/-! PROOFS. The tables built from an image give what its records hold (R3, R4, R7, R8, R11 to R14, R18, R96, R102, R108, R134, R135,
R147, R170). -/

namespace Sys2Proof.Machine

/-! ### Fields and sections (R134, R135) -/

section
variable (m : List Byte)

/-- The 16-bit field at i, as the high byte's multiple and the low byte. -/
def pair (i : Nat) : Nat := 256 * image8 m i + image8 m (i + 1)

/-- The 32-bit field at i, as two 16-bit ones. -/
def quad (i : Nat) : Nat := 65536 * pair m i + pair m (i + 2)

theorem image16_eq (i : Nat) : image16 m i = pair m i := congrArg (· + image8 m (i + 1)) (Nat.mul_comm ..)

theorem image24_eq (i : Nat) : image24 m i = 65536 * image8 m i + pair m (i + 1) := by
  simp only [image24, image16, pair, show i + 1 + 1 = i + 2 from rfl]
  omega

theorem image32_eq (i : Nat) : image32 m i = quad m i := by
  simp only [image32, image24, image16, quad, pair, show i + 2 + 1 = i + 3 from rfl]
  omega

/-- Each section begins where the one before it ends. -/
theorem sectionStarts : sectionStart m .cue = 18 ∧ sectionStart m .segment = 18 + 20 * pair m 8
    ∧ sectionStart m .cls = sectionStart m .segment + 14 * pair m 10 ∧ sectionStart m .listen = sectionStart m .cls + 18 * image8 m 12
    ∧ sectionStart m .store = sectionStart m .listen + 7 * image8 m 13 ∧ sectionStart m .group = sectionStart m .store + 8 * image8 m 14
    ∧ sectionStart m .trigger = sectionStart m .group + 7 * image8 m 15
    ∧ sectionStart m .lamp = sectionStart m .trigger + 15 * image8 m 16 := by
  refine ⟨?_, ?_, ?_, ?_, ?_, ?_, ?_, ?_⟩ <;>
    simp [sectionStart, sections, sectionBytes, recordCount, recordSize, ← image16_eq] <;> omega

theorem ofNat_val_of_lt {n : Nat} [NeZero n] {k : Nat} (h : k < n) : (Fin.ofNat n k).val = k := Nat.mod_eq_of_lt h

theorem ofNat_eq_of_val {n : Nat} [NeZero n] {k : Nat} {i : Fin n} (h : i.val = k) : Fin.ofNat n k = i :=
  Fin.ext (by rw [ofNat_val_of_lt (h ▸ i.isLt), h])

theorem ofNat8_eq_some_iff {n k : Nat} [NeZero n] (hk : k < n) {i : Fin n} : some (Fin.ofNat n k) = some i ↔ i.val = k := by
  rw [ofNat_eq_some_iff, Nat.mod_eq_of_lt hk]

theorem clampFin_eq_of_val {n : Nat} [NeZero n] {k : Nat} {i : Fin n} (h : i.val = min (n - 1) k) : clampFin n k = i :=
  Fin.ext ((clampFin_val k).trans h.symm)

/-- A 12-bit number is its lowest bits. -/
theorem ofNat12_eq_of_toNat {k : Nat} {l : LineCue} (h : l.toNat = k % 4096) : BitVec.ofNat 12 k = l :=
  BitVec.eq_of_toNat_eq (by rw [BitVec.toNat_ofNat, h])

/-! ### Records (R135) -/

variable (o : Nat)

theorem firstField_lt : image8 m (o + 2) % 2 * 256 + image8 m (o + 3) < 512 := by
  have := image8_lt m (o + 3)
  omega

theorem readCue_codes :
    (readCue m o).bus = (if image8 m (o + 5) = 1 then .fold else if image8 m (o + 5) = 2 then .both else .prog)
    ∧ (readCue m o).mode = (if image8 m (o + 10) = 1 then .nextBeat else .immediate)
    ∧ (readCue m o).retrigger = (if image8 m (o + 11) = 1 then .layer else if image8 m (o + 11) = 2 then .ignore else .restart) := by
  refine ⟨?_, ?_, ?_⟩ <;> simp only [readCue] <;> split <;> simp_all

theorem readCue_beat : (readCue m o).beat
    = if (image8 m (o + 15)).testBit 1 then some (max 480 (min 96000 (65536 * image8 m (o + 17) + pair m (o + 18)))) else none :=
  congrArg (fun n => if imageBit m (o + 15) 1 then some (clampBeat n) else none) (image24_eq m (o + 17))

theorem readClass_steal :
    (readClass m o).steal = (if image8 m (o + 3) = 1 then .oldest else if image8 m (o + 3) = 2 then .lowest else .none) := by
  simp only [readClass]
  split <;> simp_all

theorem readClass_key (k : KeyId) :
    (readClass m o).key = some k ↔ (image8 m (o + 6)).testBit 0 = true ∧ k.val = image8 m (o + 7) := by
  have hbit : imageBit m (o + 6) 0 = (image8 m (o + 6)).testBit 0 := rfl
  simp only [readClass, hbit]
  by_cases hb : (image8 m (o + 6)).testBit 0 = true
  · by_cases hk : image8 m (o + 7) < 8
    · rw [if_pos ⟨hb, hk⟩, ofNat8_eq_some_iff hk]
      exact (and_iff_right hb).symm
    · rw [if_neg fun h => hk h.2]
      exact iff_of_false nofun fun h => hk (h.2 ▸ k.isLt)
  · rw [if_neg fun h => hb h.1]
    exact iff_of_false nofun fun h => hb h.1

theorem readGroup_claimTrigger (cues : Vector (Option Cue) 256) (bound : Vector (Option Binding) 16) (i : InputId) :
    (readGroup m cues bound o).claimTrigger = some i
      ↔ (image8 m (o + 1)).testBit 2 = true ∧ i.val = image8 m (o + 2) ∧ (bound.get i).isSome = true := by
  have hbit : imageBit m (o + 1) 2 = (image8 m (o + 1)).testBit 2 := rfl
  simp only [readGroup, hbit]
  by_cases hb : (image8 m (o + 1)).testBit 2 = true
  · by_cases hk : image8 m (o + 2) < 16
    · rw [if_pos ⟨hb, hk⟩, Option.filter_eq_some_iff, ofNat8_eq_some_iff hk]
      exact (and_iff_right hb).symm
    · rw [if_neg fun h => hk h.2]
      exact iff_of_false nofun fun h => hk (h.2.1 ▸ i.isLt)
  · rw [if_neg fun h => hb h.1]
    exact iff_of_false nofun fun h => hb h.1

theorem presentCue_eq_some {b : Bool} {n : LocalCue} {i : Nat} :
    (if b then some (Fin.ofNat 256 (image8 m i)) else none) = some n ↔ b = true ∧ n.val = image8 m i := by
  cases b
  · simp
  · rw [if_pos rfl, ofNat8_eq_some_iff (image8_lt m i), and_iff_right rfl]

/-- A cue field with a presence bit names the cue where the bit is set and the cue valid. -/
theorem keepCue_field {cues : Vector (Option Cue) 256} {b : Bool} {n : LocalCue} {i : Nat} :
    keepCue cues (if b then some (Fin.ofNat 256 (image8 m i)) else none) = some n
      ↔ b = true ∧ n.val = image8 m i ∧ (cues.get n).isSome = true := by
  rw [keepCue, Option.filter_eq_some_iff, presentCue_eq_some, and_assoc]

theorem readBinding_polarity (cues : Vector (Option Cue) 256) :
    (readBinding m cues o).polarity = (if image8 m (o + 1) = 1 then .opened else .closed) := by
  simp only [readBinding]
  split <;> simp_all

theorem readMode_eq (n : Nat) : readMode n = if n = 1 then .fade else if n = 2 then .tail else .cut := by
  unfold readMode
  split <;> simp_all

theorem readSelector_eq {α : Type} (sel : Nat) (c : α) (k : Nat) :
    readSelector sel c k = if sel = 0 then some (.cue c) else if sel = 1 then some (.cls (clampFin 8 k)) else if sel = 2 then some .all
      else none := by
  unfold readSelector
  split <;> simp_all

theorem verdictOfCode_eq (b : Byte) : verdictOfCode b = if b.toNat = 1 then .correct else if b.toNat = 2 then .wrong
    else if b.toNat = 3 then .timeout else if b.toNat = 4 then .clear else .none := by
  unfold verdictOfCode
  split <;> simp_all

/-- The lamp of a record by its source code. -/
theorem readLamp_of (n : Nat) (hn : image8 m (o + 2) = n) :
    (∀ g : GroupId, image8 m (o + 1) = 1 → g.val = n → readLamp m o = .group g ((image8 m (o + 3)).testBit 0))
    ∧ (∀ c : LocalCue, image8 m (o + 1) = 2 → c.val = n → readLamp m o = .cue c)
    ∧ (∀ c : ClassId, image8 m (o + 1) = 3 → c.val = n → readLamp m o = .cls c)
    ∧ (image8 m (o + 1) = 4 → readLamp m o = .clock) ∧ (image8 m (o + 1) = 5 → readLamp m o = .station)
    ∧ (∀ i : InputId, image8 m (o + 1) = 6 → i.val = n → readLamp m o = .trigger i)
    ∧ (image8 m (o + 1) = 0 ∨ 7 ≤ image8 m (o + 1) ∨ image8 m (o + 1) = 1 ∧ 16 ≤ n ∨ image8 m (o + 1) = 3 ∧ 8 ≤ n
        ∨ image8 m (o + 1) = 6 ∧ 16 ≤ n → readLamp m o = .none) := by
  refine ⟨fun g hs hg => ?_, fun c hs hc => ?_, fun c hs hc => ?_, fun hs => ?_, fun hs => ?_, fun i hs hi => ?_, fun hs => ?_⟩
  · simp only [readLamp, hs, hn, ← hg, g.isLt, dif_pos]
    rfl
  · simp only [readLamp, hs, hn, ofNat_eq_of_val hc]
  · simp only [readLamp, hs, hn, ← hc, c.isLt, dif_pos]
  · simp only [readLamp, hs]
  · simp only [readLamp, hs]
  · simp only [readLamp, hs, hn, ← hi, i.isLt, dif_pos]
  · unfold readLamp
    split <;> simp_all

theorem readAction_play {a : Nat} (h : image8 m a = 1) : readAction m a = some (.play (Fin.ofNat 256 (image8 m (a + 1)))) := by
  simp only [readAction, h, Nat.add_zero]

/-- What PLAY checks changes no other action. -/
theorem keepAction_of_not_play (cues : Vector (Option Cue) 256) {x : Option Action} (h : ∀ c, x ≠ some (.play c)) :
    keepAction cues x = x := by
  unfold keepAction
  split
  · exact absurd rfl (h _)
  · rfl

variable (cues : Vector (Option Cue) 256)

/-- The action at a is x: by its code, with its parameters in the five bytes behind it (R102). -/
def ActionAt (a : Nat) (x : Option Action) : Prop :=
  let p (k : Nat) : Nat := image8 m (a + 1 + k)
  let mode (k : Nat) : StopMode := if p k = 1 then .fade else if p k = 2 then .tail else .cut
  (∀ c : LocalCue, image8 m a = 1 → c.val = p 0 → x = if (cues.get c).isSome then some (.play c) else none)
  ∧ (∀ l : LineCue, image8 m a = 2 → l.toNat = pair m (a + 1) % 4096 →
    x = some (.send l (max (-24) (min 24 (imageByte m (a + 3)).toInt))))
  ∧ (∀ (c : LocalCue) (k : ClassId), image8 m a = 3 → c.val = p 1 → k.val = min 7 (p 1) →
    x = if p 0 = 0 then some (.stopLocal (.cue c) (mode 2)) else if p 0 = 1 then some (.stopLocal (.cls k) (mode 2))
      else if p 0 = 2 then some (.stopLocal .all (mode 2)) else none)
  ∧ (∀ (l : LineCue) (k : ClassId), image8 m a = 4 → l.toNat = pair m (a + 2) % 4096 → k.val = min 7 (pair m (a + 2)) →
    x = if p 0 = 0 then some (.stopLine (.cue l) (mode 3)) else if p 0 = 1 then some (.stopLine (.cls k) (mode 3))
      else if p 0 = 2 then some (.stopLine .all (mode 3)) else none)
  ∧ (∀ g : GroupId, image8 m a = 5 → g.val = min 15 (p 0) → x = some (.claim g))
  ∧ (∀ g : GroupId, image8 m a = 6 → g.val = min 15 (p 0) →
    x = some (.release g (if p 1 = 1 then .correct else if p 1 = 2 then .wrong else if p 1 = 3 then .timeout
      else if p 1 = 4 then .clear else .none)))
  ∧ (image8 m a = 7 → x = some (.segment (imageByte m (a + 1)) (imageByte m (a + 2)) ((image8 m (a + 3)).testBit 0)))
  ∧ (image8 m a = 0 ∨ 8 ≤ image8 m a → x = none)

/-- A STOP action is the stop of its selector, where it names one. -/
theorem map_readSelector {α : Type} {f : StopSel α → Action} (hf : ∀ sel c, f sel ≠ .play c) (sel : Nat) (c : α) (k : Nat) :
    keepAction cues ((readSelector sel c k).map f) = if sel = 0 then some (f (.cue c)) else if sel = 1 then some (f (.cls (clampFin 8 k)))
      else if sel = 2 then some (f .all) else none := by
  rw [keepAction_of_not_play, readSelector_eq]
  · rw [apply_ite (Option.map f), apply_ite (Option.map f), apply_ite (Option.map f)]
    rfl
  · intro d h
    obtain ⟨sel, -, h⟩ := Option.map_eq_some_iff.1 h
    exact hf sel d h

theorem readAction_at (a : Nat) : ActionAt m cues a (keepAction cues (readAction m a)) := by
  refine ⟨fun c h hc => ?_, fun l h hl => ?_, fun c k h hc hk => ?_, fun l k h hl hk => ?_, fun g h hg => ?_, fun g h hg => ?_,
    fun h => ?_, fun h => ?_⟩
  · rw [readAction_play m h, ofNat_eq_of_val hc]
    rfl
  · simp only [readAction, h, image16_eq, Nat.add_zero, ofNat12_eq_of_toNat hl]
    rfl
  · simp only [readAction, h]
    rw [map_readSelector cues (fun _ _ h => by cases h), ofNat_eq_of_val hc, clampFin_eq_of_val hk, readMode_eq]
  · simp only [readAction, h, image16_eq]
    rw [map_readSelector cues (fun _ _ h => by cases h), ofNat12_eq_of_toNat hl, clampFin_eq_of_val hk, readMode_eq]
  · simp only [readAction, h, clampFin_eq_of_val hg]
    rfl
  · simp only [readAction, h, clampFin_eq_of_val hg, verdictOfCode_eq]
    rfl
  · simp only [readAction, h]
    rfl
  · have hnone : readAction m a = none := by
      unfold readAction
      split <;> simp_all
    rw [hnone]
    rfl

end

/-! ### The tables (R11 to R14, R134, R135, R183) -/

/-- A table read record by record gives its default where its section has no record, and else what the last one with the index gives. -/
theorem getD_of_section {α : Type} {m : List Byte} {k : Sect} {start size n : Nat} {index : Nat → Nat} {i : Nat} (x : Nat → α) (d : α)
    (hs : start = sectionStart m k) (hz : size = recordSize k) (hn : n = recordCount m k) (hi : ∀ o, index o = recordIndex m k o) :
    (Lacks start size n index i → ((findRecord m k i).map x).getD d = d)
      ∧ ∀ o, IsAt start size n index i o → ((findRecord m k i).map x).getD d = x o :=
  ⟨fun h => by rw [(findRecord_none_iff hs hz hn hi).1 h]; rfl, fun o h => by rw [findRecord_of_isAt hs hz hn hi h]; rfl⟩

section
variable (m : List Byte)

theorem buildTables_class (c : ClassId) :
    (buildTables m).classes.get c = ((findRecord m .cls c.val).map (readClass m)).getD defaultClass := tabulate_get ..

theorem buildTables_listen (w : WindowId) :
    (buildTables m).listen.get w = ((findRecord m .listen w.val).map (readListen m)).getD noListen := tabulate_get ..

theorem buildTables_store (w : WindowId) :
    (buildTables m).store.get w = ((findRecord m .store w.val).map (readStore m)).getD noStore := tabulate_get ..

theorem buildTables_group (g : GroupId) : (buildTables m).groups.get g
    = ((findRecord m .group g.val).map (readGroup m (buildTables m).cues (buildTables m).triggers)).getD noGroup := tabulate_get ..

theorem buildTables_trigger (i : InputId) :
    (buildTables m).triggers.get i = (findRecord m .trigger i.val).map (readBinding m (buildTables m).cues) := tabulate_get ..

theorem buildTables_lamp (l : LampId) :
    (buildTables m).lamps.get l = ((findRecord m .lamp l.val).map (readLamp m)).getD .none := tabulate_get ..

end

/-- The tables built give what the records hold: each section by its records, which `sectionStarts` places. -/
theorem tablesFollow_buildTables (m : List Byte) : TablesFollow m (buildTables m) := by
  obtain ⟨hcues, hsegments, hclasses, hlistens, hstores, hgroups, htriggers, hlamps⟩ := sectionStarts m
  unfold TablesFollow
  intro raw byte two four bit segments classes listens stores groups triggers lamps isAt lacks named chain
  rw [hsegments] at hclasses
  rw [hclasses] at hlistens
  rw [hlistens] at hstores
  rw [hstores] at hgroups
  rw [hgroups] at htriggers
  rw [htriggers] at hlamps
  have hnamed (o : Nat) : named o = recordIndex m .segment o := congrArg (· % 512) (image16_eq m o).symm
  have segmentAt {d o : Nat} (h : isAt segments 14 (two 10) named d o) : findRecord m .segment d = some o :=
    findRecord_of_isAt hsegments.symm rfl (image16_eq m 10).symm hnamed h
  have segmentLacks (d : Nat) : lacks segments 14 (two 10) named d ↔ findRecord m .segment d = none :=
    findRecord_none_iff hsegments.symm rfl (image16_eq m 10).symm hnamed
  have cueAt {c o : Nat} (h : isAt 18 20 (two 8) byte c o) : findRecord m .cue c = some o :=
    findRecord_of_isAt hcues.symm rfl (image16_eq m 8).symm (fun _ => rfl) h
  have cueLacks {c : Nat} (h : lacks 18 20 (two 8) byte c) : findRecord m .cue c = none :=
    (findRecord_none_iff hcues.symm rfl (image16_eq m 8).symm (fun _ => rfl)).1 h
  have triggerAt {i o : Nat} (h : isAt triggers 15 (byte 16) byte i o) : findRecord m .trigger i = some o :=
    findRecord_of_isAt htriggers.symm rfl rfl (fun _ => rfl) h
  have triggerLacks {i : Nat} (h : lacks triggers 15 (byte 16) byte i) : findRecord m .trigger i = none :=
    (findRecord_none_iff htriggers.symm rfl rfl (fun _ => rfl)).1 h
  have classOf (c : ClassId) := getD_of_section (index := byte) (i := c.val) (readClass m) defaultClass hclasses.symm rfl rfl fun _ => rfl
  have listenOf (w : WindowId) := getD_of_section (index := byte) (i := w.val) (readListen m) noListen hlistens.symm rfl rfl fun _ => rfl
  have storeOf (w : WindowId) := getD_of_section (index := byte) (i := w.val) (readStore m) noStore hstores.symm rfl rfl fun _ => rfl
  have groupOf (g : GroupId) := getD_of_section (index := byte) (i := g.val)
    (readGroup m (buildTables m).cues (buildTables m).triggers) noGroup hgroups.symm rfl rfl fun _ => rfl
  have lampOf (l : LampId) := getD_of_section (index := byte) (i := l.val) (readLamp m) .none hlamps.symm rfl rfl fun _ => rfl
  refine ⟨rfl, rfl, rfl, fun d => ⟨fun h => ?_, fun o h => ?_⟩, fun c => ⟨fun h => ?_, fun o h => ?_⟩, fun c => ⟨fun h => ?_, fun o h => ?_⟩,
    fun w => ⟨fun h => ?_, fun o h => ?_⟩, fun w => ⟨fun h => ?_, fun o h => ?_⟩, fun g => ⟨fun h => ?_, fun o h => ?_⟩,
    fun i => ⟨fun h => ?_, fun o h => ?_⟩, fun l => ⟨fun h => ?_, fun o h => ?_⟩⟩
  · show (buildSegments m).get d = none
    rw [buildSegments_get, (segmentLacks _).1 h]
    rfl
  · refine ⟨keepNext (rawSegments m) (readSegment m o), ?_, ?_, ?_, rfl, fun n => ?_⟩
    · show (buildSegments m).get d = _
      rw [buildSegments_get, segmentAt h]
      rfl
    · exact congrArg (· % 2 ^ 25) (image32_eq m _)
    · exact congrArg (fun n => max 1 (min (2 ^ 24) n)) (image32_eq m _)
    · rw [keepNext_next, segmentLacks, image16_eq, ← ne_eq, Option.ne_none_iff_isSome]
      rfl
  · show (buildCues m (buildSegments m)).get c = none
    rw [buildCues_get, buildCuesUnlinked_get, cueLacks h]
    rfl
  · have hfirst : (readCue m o).first.val = byte (o + 2) % 2 * 256 + byte (o + 3) := ofNat_val_of_lt (firstField_lt m o)
    refine ⟨fun d hd => ?_, fun q hq => ?_⟩
    · obtain rfl : (readCue m o).first = d := Fin.ext (hfirst.trans hd.symm)
      exact buildCues_isSome_iff (cueAt h)
    · obtain ⟨o', g, ho, hg, -, rfl⟩ := buildCues_eq_some hq
      obtain rfl : o' = o := Option.some.inj (ho.symm.trans (cueAt h))
      obtain ⟨hbus, hmode, hretrigger⟩ := readCue_codes m o'
      refine ⟨clampFin_val _, hfirst, rfl, hbus, congrArg (min 8191) (image16_eq m _), congrArg (min 8191) (image16_eq m _), hmode,
        hretrigger, rfl, fun g' hg' => ?_, fun n => ?_, readCue_beat m o'⟩
      · obtain rfl : g = g' := Option.some.inj (hg.symm.trans hg')
        exact (Nat.min_comm ..).trans (congrArg (fun n => min g.length (min 4096 n)) (image16_eq m _))
      · exact keepCue_eq_some.trans ((and_congr_left' (presentCue_eq_some m)).trans and_assoc)
  · rw [buildTables_class]
    exact (classOf c).1 h
  · rw [buildTables_class, (classOf c).2 o h]
    exact ⟨rfl, rfl, readClass_steal m o, congrArg (min 2000) (image16_eq m _), readClass_key m o, fun k => tabulate_get .., rfl, rfl⟩
  · rw [buildTables_listen, (listenOf w).1 h]
    rfl
  · rw [buildTables_listen, (listenOf w).2 o h]
    exact ⟨rfl, rfl, congrArg (· % 4096) (image16_eq m _), congrArg (· % 4096) (image16_eq m _), ofNat_val_of_lt (image8_lt m _)⟩
  · rw [buildTables_store, (storeOf w).1 h]
    rfl
  · rw [buildTables_store, (storeOf w).2 o h]
    exact ⟨rfl, rfl, congrArg (fun n => n % 2 ^ 25 - n % 2 ^ 25 % 2 ^ max 16 (min 24 (byte (o + 6)))) (image32_eq m _), rfl⟩
  · rw [buildTables_group]
    exact (groupOf g).1 h
  · rw [buildTables_group, (groupOf g).2 o h]
    exact ⟨rfl, rfl, readGroup_claimTrigger m o _ _, fun c => keepCue_field m, fun c => keepCue_field m,
      congrArg (min 600) (image16_eq m _)⟩
  · rw [buildTables_trigger, triggerLacks h]
    rfl
  · refine ⟨readBinding m (buildTables m).cues o, by rw [buildTables_trigger, triggerAt h]; rfl, readBinding_polarity m o _, rfl, ?_⟩
    rintro a x (⟨rfl, rfl⟩ | ⟨rfl, rfl⟩)
    · exact readAction_at m _ (o + 3)
    · exact readAction_at m _ (o + 9)
  · rw [buildTables_lamp]
    exact (lampOf l).1 h
  · rw [buildTables_lamp, (lampOf l).2 o h]
    exact readLamp_of m o _ rfl

end Sys2Proof.Machine
end

