-- ==== Sys2Proof/Proofs/Loads.lean ====
section
/-! PROOFS. The end of a load: UNCONFIGURED, or LISTENING with the tables of the image and the preload pass begun (R31, R32, R104, R179,
R182 to R184). -/

namespace Sys2Proof.Machine

/-- A PRESENCE is offered at the entry to UNCONFIGURED; a line-silent station discards every offer. -/
theorem enterUnconfigured_eq (s : State) : enterUnconfigured s = offer .presence { s with station := .unconfigured } := by
  unfold enterUnconfigured offerPresence
  split
  · rfl
  next h =>
    refine (offer_of_silent ?_ _).symm
    by_contra hsilent
    exact h ⟨.inr rfl, hsilent⟩

/-- Each bound input stands at its present raw level, with no timer running. -/
theorem adoptLevels_of_bound {s : State} {i : InputId} {b : Binding} (h : s.binding i = some b) :
    (adoptLevels s).triggers.raw.get i = rawLevel b.polarity (s.triggers.contacts.get i)
      ∧ (adoptLevels s).triggers.recognized.get i = rawLevel b.polarity (s.triggers.contacts.get i)
      ∧ (adoptLevels s).triggers.timers.get i = none := by
  simp only [adoptLevels, tabulate_get, replicate_get, h, and_self]

/-- A pass that has gone on has a head in progress or is done. -/
theorem GoesOn.done_or_running {s t : State} {c : Nat} (h : GoesOn s c t) :
    t.fetch.pass = .done ∨ t.fetch.pass = .running ∧ t.fetch.work.isSome = true := by
  by_cases hany : ∃ n m q g w, m.val = n ∧ c ≤ m.val ∧ Fits s m q g w
  · classical
    obtain ⟨m, q, g, w, hm, hle, hfits⟩ := Nat.find_spec hany
    obtain ⟨-, -, hpass, hwork, -⟩ := h.taken m q g w hle hfits fun m' q' g' w' hle' hlt hfits' =>
      Nat.find_min hany (hm ▸ hlt) ⟨m', q', g', w', rfl, hle', hfits'⟩
    exact .inr ⟨hpass, by rw [hwork]; rfl⟩
  · obtain ⟨-, -, hpass, -, -⟩ := h.done fun m q g w hle _ hfits => hany ⟨_, m, q, g, w, rfl, hle, hfits⟩
    exact .inl hpass

theorem preloadGrant_isSome {t : State} (hp : t.fetch.pass = .running) (hw : t.fetch.work.isSome = true) :
    (preloadGrant t).isSome = true := by
  obtain ⟨h, hw⟩ := Option.isSome_iff_exists.1 hw
  simp only [preloadGrant, hp, hw, Option.isSome_some]

/-- Settles O4: the tables by `tablesFollow_buildTables` and `buildTables_ok`, the pass by `takeUp_goesOn`. -/
theorem loadEndDecidesByTheImage : Obligations.LoadEndDecidesByTheImage := by
  refine ⟨fun image => ⟨buildTables_ok image, tablesFollow_buildTables image⟩, fun image s hr hload => ?_⟩
  have hexec : exec (.loadEnd image) s = .next (endLoad image s) :=
    exec_of_happens (c := .loadEnd image) hr (beq_iff_eq.2 hload) id
  rw [hexec]
  refine ⟨fun hbad => ?_, fun hgood hset hidle hnone => ?_⟩
  · rw [endLoad, hbad, if_neg (by decide), enterUnconfigured_eq]
  · let ready : State := adoptLevels (startListenTimer { s with tables := buildTables image, station := .listening })
    let begun : State := { ready with fetch := { ready.fetch with nextCue := 0, alloc := 0, pass := .running, work := none } }
    obtain ⟨f, k, htaken, hrequests, hburst⟩ := takeUp_frame 257 0 begun
    have hgoes : GoesOn begun 0 (takeUp 257 0 begun) := takeUp_goesOn (Nat.le_refl _)
    rw [htaken] at hgoes
    have hend : endLoad image s = { begun with
        fetch := { f with burst := preloadGrant { begun with fetch := f, counters := k } }, counters := k } := by
      have hstart : startPass ready = { begun with fetch := f, counters := k } := htaken
      rw [endLoad, hgood, if_pos rfl, enterListening]
      refine (congrArg (fun x => settleReturns (grantIfIdle x)) hstart).trans ?_
      rw [grant_preload (fun u => (congrArg (Vector.get · u) hrequests).trans (hnone u)) (hburst.trans hidle)]
      exact settleReturns_of_settled hset
    have htimer : later s.now (2 * (Config.framesPerMs * (buildTables image).periodMs)) = later s.now (96 * (buildTables image).periodMs) :=
      congrArg (later s.now) (by simp only [Config.framesPerMs]; omega)
    refine ⟨_, congrArg _ hend, ?_, fun i b hb => adoptLevels_of_bound hb, rfl, ?_, ?_, rfl, hrequests⟩
    · rw [← htimer]
      rfl
    · exact hgoes.done_or_running.imp_right fun ⟨hp, hw⟩ => ⟨hp, preloadGrant_isSome hp hw⟩
    · obtain ⟨taken, done, counters⟩ := hgoes
      exact GoesOn.passGoesOn ⟨taken, done, counters⟩

end Sys2Proof.Machine
end
